-- ==== Sys2Proof/Word.lean ====
section
/-! DEFINITION. Word and byte types of the STM32-HAL core block (00_scope.md R7, R8). -/

namespace Sys2Proof

/-- A 32-bit word: a command word, an operand word, a register image or a frequency in hertz
(00_scope.md R7, R8 `u32`). -/
abbrev Word := BitVec 32

/-- A data byte (00_scope.md R7, R8 `u8`). -/
abbrev Byte := BitVec 8

end Sys2Proof
end

