-- ==== Sys2Proof/Config.lean ====
section
/-! DEFINITION. Implementation parameters (00_scope.md R6) and the free value of the model: which agent has the
next turn and what a free agent does in it (10_state.md R21, 40_clocktree.md R108, R110, 43_bus_engine.md R171, R173).
Every parameter is a field of `Params`, which the state carries and nothing writes; `Params.default` has the values the
spec assigns or gives as defaults. -/

namespace Sys2Proof.Config

/-- How many values the 4-bit field `INST` has (30_encoding.md R77): the peripheral ids and the bus-controller instances
a command can name. Which of them exist, the parameters `PERIPH` and `NI2C` say. -/
abbrev ids : Nat := 16

/-- A row of `PERIPH` (00_scope.md R6, 10_state.md R33): the enable bit and the reset bit, each as (register offset from
RCC_BASE, bit), and the bus-controller instance the peripheral is, if it is one. A bit number of 32 or more is a bit of no
word (log 7, DESIGN CHOICE). -/
structure PeriphRow where
  enable : Nat × Nat
  reset : Nat × Nat
  inst : Option (Fin ids)
deriving DecidableEq, Repr

/-- The default `PERIPH` table: ids 0 to 2 are I2C1 to I2C3, the others are unassigned (10_state.md R33). -/
def defaultPeriph : Vector (Option PeriphRow) ids :=
  #v[some ⟨(0x40, 21), (0x20, 21), some 0⟩, some ⟨(0x40, 22), (0x20, 22), some 1⟩,
    some ⟨(0x40, 23), (0x20, 23), some 2⟩, none, none, none, none, none, none, none, none, none, none, none, none, none]

/-- Which derived clock feeds the bus controller, the parameter `PCLK_SRC` (43_bus_engine.md R149). -/
inductive PclkSrc where
  | apb1
  | apb2
deriving DecidableEq, Repr, Inhabited

/-- The order of the error check and the success flag in one poll iteration, the parameter `CHECK_ORDER`
(43_bus_engine.md R158, 60_exceptions.md R196). -/
inductive CheckOrder where
  | errorsFirst
  | successFirst
deriving DecidableEq, Repr, Inhabited

/-- The environment law, the parameter `ENV` (43_bus_engine.md R171, R173). -/
inductive Env where
  | free
  | lawful
deriving DecidableEq, Repr, Inhabited

/-- The parameters a model takes as arguments (00_scope.md R6). No step writes them (70_reset_and_hazards.md R211). -/
structure Params where
  hsiHz : Word
  hseHz : Word
  pclkSrc : PclkSrc
  checkOrder : CheckOrder
  env : Env
  /-- `NI2C`: instance k exists when k < NI2C -/
  ni2c : Nat
  /-- `PERIPH`: the row of each peripheral id, `none` where the id is unassigned -/
  periph : Vector (Option PeriphRow) ids
  /-- `RCC_BASE`, `I2C_BASE` and `I2C_STRIDE` are natural numbers (log 32) -/
  rccBase : Nat
  i2cBase : Nat
  i2cStride : Nat
  /-- `DIV_MAX`, at most the largest value of the 12-bit field CCR (10_state.md R41) -/
  divMax : BitVec 12
  /-- `RISE_MAX`, at most the largest value of the 6-bit register TRISE (10_state.md R42) -/
  riseMax : BitVec 6
  /-- `STD_MAX_HZ`, which 43_bus_engine.md R148 writes as its number 100_000 (log 6), a frequency, so of 32 bits
  (00_scope.md R7) -/
  stdMaxHz : Word
deriving DecidableEq, Repr

/-- The values 00_scope.md R6 gives as assigned or default (20_memory.md R65, 10_state.md R33). -/
def Params.default : Params :=
  { hsiHz := 16000000#32
    hseHz := 8000000#32
    pclkSrc := .apb1
    checkOrder := .errorsFirst
    env := .free
    ni2c := 3
    periph := defaultPeriph
    rccBase := 0x40023800
    i2cBase := 0x40005400
    i2cStride := 0x400
    divMax := 4095#12
    riseMax := 63#6
    stdMaxHz := 100000#32 }

/-- The row of peripheral id p in `PERIPH`. -/
def Params.row (par : Params) (p : Fin ids) : Option PeriphRow := par.periph[p.val]

/-- The rows of `PERIPH`, in the order of the ids. -/
def Params.rows (par : Params) : List PeriphRow := par.periph.toList.filterMap fun r => r

/-- The steps the oscillator agent may take. -/
inductive OscStep where
  /-- R108 (a) -/
  | hsiReady
  /-- R108 (b) -/
  | hseReady
  /-- R108 (c) -/
  | pllReady
  /-- R108 (d), the internal oscillator -/
  | hsiLost
  /-- R108 (d), the external oscillator -/
  | hseLost
  /-- R108 (d), the PLL -/
  | pllLost
  /-- R110 -/
  | confirmSwitch
deriving DecidableEq, Repr, Inhabited

/-- The steps a bus agent may take: `any` is the one step of `ENV = FREE` (43_bus_engine.md R171), the others are
those of `ENV = LAWFUL` (R173, and R141 for `drift`). -/
inductive BusStep where
  /-- R171: any value to SR1, SR2 and the received byte; START and STOP cleared where the last two flags say so -/
  | any (sr1 sr2 : Word) (dr : Byte) (clearStart clearStop : Bool)
  /-- L1, another master takes the bus -/
  | trafficBusy
  /-- L1, the bus falls idle -/
  | trafficIdle
  /-- L2 -/
  | startDone
  /-- L4 -/
  | addrAck
  /-- L5 -/
  | addrNack
  /-- L6, first form -/
  | shiftOut
  /-- L6, second form -/
  | byteDone
  /-- L7 -/
  | dataNack
  /-- L8 with the drawn byte -/
  | receive (b : Byte)
  /-- L9 -/
  | stopDone
  /-- L10 -/
  | busError
  /-- L11 -/
  | arbLost
  /-- R141: the hidden line state changes while the clock is gated -/
  | drift (busy : Bool)
deriving DecidableEq, Repr, Inhabited

/-- One turn of the interleaving: one micro-step of the sequencer or one step of another agent (20_memory.md R67). -/
inductive Turn where
  | seq
  | osc (a : OscStep)
  | bus (k : Fin ids) (a : BusStep)
deriving DecidableEq, Repr, Inhabited

/-- FREE VALUE: the turn the world takes at the n-th draw. Nothing constrains it (10_state.md R21, 40_clocktree.md
R108 "never obliged to take a step", 43_bus_engine.md R171; log 3). -/
opaque freeTurn : Nat → Turn

end Sys2Proof.Config
end

