-- ==== Sys2Proof/Syntax.lean ====
section
/-! DEFINITION. The commands of SHC-CMD v1: one constructor per row of opcode_table.json (30_encoding.md R86), with the
fields of its format (R76 to R83) and its operand words (R87). -/

namespace Sys2Proof

/-- A bus-controller instance k (00_scope.md R13), as `INST` names it; it exists when k < NI2C. -/
abbrev InstId := Fin Config.ids

/-- A peripheral id p, as `INST` names it; it exists when `PERIPH` has a row for it (10_state.md R33). -/
abbrev PeriphId := Fin Config.ids

/-- A command of the host's list: the command word and its operand words (30_encoding.md R75). -/
structure Command where
  cw : Word
  ops : List Word
deriving DecidableEq, Repr

/-- A system-clock source (00_scope.md R13; `SRC` of 30_encoding.md R78). -/
inductive Source where
  | hsi
  | hse
  | pll
deriving DecidableEq, Repr, Inhabited

/-- A PLL input (`PLLSRC` of 30_encoding.md R79). -/
inductive PllInput where
  | hsi
  | hse
deriving DecidableEq, Repr, Inhabited

/-- A speed mode (`SPEED` of 30_encoding.md R82; 43_bus_engine.md R147). -/
inductive Speed where
  | standard
  | fast2
  | fast169
deriving DecidableEq, Repr, Inhabited

/-- An operating mode (`MODE` of 30_encoding.md R82; 43_bus_engine.md R155). -/
inductive BusMode where
  | master
  | slave1
  | slave2
deriving DecidableEq, Repr, Inhabited

/-- The direction of a transfer (`RW` of 30_encoding.md R83; 43_bus_engine.md R161 (a)). -/
inductive Dir where
  | write
  | read
deriving DecidableEq, Repr, Inhabited

/-- The decoded commands (30_encoding.md R86). -/
inductive Instr where
  | clkSysfreq
  | clkAhbfreq
  | clkApb1freq
  | clkApb2freq
  | clkConfig (src : Source) (hpre : BitVec 4) (ppre1 ppre2 : BitVec 3)
  | clkPllconfig (src : PllInput) (m : BitVec 6) (n : BitVec 9) (pcode : BitVec 2)
  | pack (w : BitVec 6) (existing value laneMask : Word)
  | maskNew (a : Word)
  | maskUnion (a b : Word)
  | maskIntersect (a b : Word)
  | maskComplement (a : Word)
  | maskXor (a b : Word)
  | maskSet (lane : BitVec 4) (a : Word)
  | maskReset (lane : BitVec 4) (a : Word)
  | maskIsset (lane : BitVec 4) (a : Word)
  | perTake (p : PeriphId)
  | perEnclk (p : PeriphId)
  | perDisclk (p : PeriphId)
  | perReset (p : PeriphId)
  | i2cInit (k : InstId) (speed : Speed) (mode : BusMode) (own1 own2 : BitVec 7) (freq : Word)
  | i2cStart (k : InstId)
  | i2cAddr (k : InstId) (addr : BitVec 7) (rw : Dir)
  | i2cWrbyte (k : InstId) (data : Byte)
  | i2cRdbyte (k : InstId)
  | i2cStop (k : InstId)
  | i2cWrite (k : InstId) (addr : BitVec 7) (n : BitVec 12) (ops : List Word)
  | i2cRead (k : InstId) (addr : BitVec 7) (n : BitVec 12)
deriving DecidableEq, Repr

end Sys2Proof
end

