-- ==== Sys2Proof/WellFormed.lean ====
section
/-! DEFINITION. Which decoded commands the encoding admits (30_encoding.md R84 (d), (e), (f), R87, R93). Everything else R93
says of a field is in its type. -/

namespace Sys2Proof

/-- The operand-word count of an `I2C_WRITE` of n bytes, `ceil(N / 4)` (30_encoding.md R87). -/
def writeOperandCount (n : BitVec 12) : Nat := (n.toNat + 3) / 4

/-- Bus-controller instance k exists: `k < NI2C` (30_encoding.md R84 (e)). -/
def instExists (par : Config.Params) (k : InstId) : Bool := decide (k.val < par.ni2c)

/-- Peripheral id p is one of `PERIPH` (30_encoding.md R84 (e)). -/
def periphExists (par : Config.Params) (p : PeriphId) : Bool := (par.row p).isSome

/-- A command some command word and operand list stand for in a block with these parameters: `M ≥ 1` (30_encoding.md
R84 (d)), a peripheral or an instance that exists (R84 (e)) and, for `I2C_WRITE`, as many operand words as `N` asks for
(R84 (f), R87). -/
def Instr.wellFormed (par : Config.Params) (i : Instr) : Bool :=
  match i with
  | .clkSysfreq => true
  | .clkAhbfreq => true
  | .clkApb1freq => true
  | .clkApb2freq => true
  | .clkConfig _ _ _ _ => true
  | .clkPllconfig _ m _ _ => m != 0#6
  | .pack _ _ _ _ => true
  | .maskNew _ => true
  | .maskUnion _ _ => true
  | .maskIntersect _ _ => true
  | .maskComplement _ => true
  | .maskXor _ _ => true
  | .maskSet _ _ => true
  | .maskReset _ _ => true
  | .maskIsset _ _ => true
  | .perTake p => periphExists par p
  | .perEnclk p => periphExists par p
  | .perDisclk p => periphExists par p
  | .perReset p => periphExists par p
  | .i2cInit k _ _ _ _ _ => instExists par k
  | .i2cStart k => instExists par k
  | .i2cAddr k _ _ => instExists par k
  | .i2cWrbyte k _ => instExists par k
  | .i2cRdbyte k => instExists par k
  | .i2cStop k => instExists par k
  | .i2cWrite k _ n ops => instExists par k && ops.length == writeOperandCount n
  | .i2cRead k _ _ => instExists par k

end Sys2Proof
end

