-- ==== Sys2Proof/Decode.lean ====
section
/-! DEFINITION. The decoder and the encoder of SHC-CMD v1 (30_encoding.md). Decoding is total (R92): a command is one
of R86 with its fields, or a decode error named after the sub-check of R84 that found it. -/

namespace Sys2Proof

/-- Which sub-check of 30_encoding.md R84 refuses the command. All of them end in the status `DecodeError`. -/
inductive DecodeError where
  /-- R84 (a): OPC is no row of R86 -/
  | unknownOpcode
  /-- R84 (b): a reserved field is not 0 -/
  | reservedField
  /-- R84 (c): SRC, SPEED or MODE is 3 -/
  | reservedCode
  /-- R84 (d): M = 0 in `CLK_PLLCONFIG` -/
  | zeroPllM
  /-- R84 (e): INST names no peripheral or no instance -/
  | badInst
  /-- R84 (f): the operand list has the wrong length -/
  | operandCount
deriving DecidableEq, Repr

/-- The field of `len` bits from bit `lo` up (00_scope.md R8). -/
def field (w : Word) (lo len : Nat) : BitVec len := w.extractLsb' lo len

/-- `SRC` (30_encoding.md R78). -/
def Source.ofCode (c : BitVec 2) : Option Source :=
  match c.toNat with
  | 0 => some .hsi
  | 1 => some .hse
  | 2 => some .pll
  | _ => none

/-- The code of a source, also the value of `SW` and `SWS` (10_state.md R27, 30_encoding.md R78). -/
def Source.code (s : Source) : BitVec 2 :=
  match s with
  | .hsi => 0#2
  | .hse => 1#2
  | .pll => 2#2

/-- `PLLSRC` (30_encoding.md R79). -/
def PllInput.ofCode (c : BitVec 1) : PllInput := if c = 0#1 then .hsi else .hse

/-- The bit of a PLL input (10_state.md R26, 30_encoding.md R79). -/
def PllInput.code (s : PllInput) : BitVec 1 :=
  match s with
  | .hsi => 0#1
  | .hse => 1#1

/-- `SPEED` (30_encoding.md R82). -/
def Speed.ofCode (c : BitVec 2) : Option Speed :=
  match c.toNat with
  | 0 => some .standard
  | 1 => some .fast2
  | 2 => some .fast169
  | _ => none

/-- The code of a speed mode (30_encoding.md R82). -/
def Speed.code (s : Speed) : BitVec 2 :=
  match s with
  | .standard => 0#2
  | .fast2 => 1#2
  | .fast169 => 2#2

/-- `MODE` (30_encoding.md R82). -/
def BusMode.ofCode (c : BitVec 2) : Option BusMode :=
  match c.toNat with
  | 0 => some .master
  | 1 => some .slave1
  | 2 => some .slave2
  | _ => none

/-- The code of a mode (30_encoding.md R82). -/
def BusMode.code (m : BusMode) : BitVec 2 :=
  match m with
  | .master => 0#2
  | .slave1 => 1#2
  | .slave2 => 2#2

/-- `RW`: 0 write, 1 read (30_encoding.md R83). -/
def Dir.ofCode (c : BitVec 1) : Dir := if c = 0#1 then .write else .read

/-- The read/write bit (30_encoding.md R83, 43_bus_engine.md R161 (a)). -/
def Dir.code (d : Dir) : BitVec 1 :=
  match d with
  | .write => 0#1
  | .read => 1#1

/-- `INST` as a bus-controller instance, `k < NI2C` (30_encoding.md R77, R84 (e)). -/
def instOfCode (par : Config.Params) (c : BitVec 4) : Option InstId :=
  if instExists par c.toFin then some c.toFin else none

/-- `INST` as a peripheral id of `PERIPH` (30_encoding.md R77, R84 (e); 10_state.md R33). -/
def periphOfCode (par : Config.Params) (c : BitVec 4) : Option PeriphId :=
  if periphExists par c.toFin then some c.toFin else none

/-- The code of an instance in `INST`. -/
def instCode (k : InstId) : BitVec 4 := BitVec.ofNat 4 k.val

/-- The code of a peripheral id in `INST`. -/
def periphCode (p : PeriphId) : BitVec 4 := BitVec.ofNat 4 p.val

/-- Refuses a command whose reserved bits, given as a field, are not all 0 (30_encoding.md R84 (b)). -/
def reservedZero {n : Nat} (f : BitVec n) (rest : Except DecodeError Instr) : Except DecodeError Instr :=
  if f = 0#n then rest else .error .reservedField

/-- A command without operand words (30_encoding.md R87). -/
def operands0 (ops : List Word) (i : Instr) : Except DecodeError Instr :=
  match ops with
  | [] => .ok i
  | _ => .error .operandCount

/-- A command of one operand word (30_encoding.md R87). -/
def operands1 (ops : List Word) (f : Word → Instr) : Except DecodeError Instr :=
  match ops with
  | [a] => .ok (f a)
  | _ => .error .operandCount

/-- A command of two operand words (30_encoding.md R87). -/
def operands2 (ops : List Word) (f : Word → Word → Instr) : Except DecodeError Instr :=
  match ops with
  | [a, b] => .ok (f a b)
  | _ => .error .operandCount

/-- A command of three operand words (30_encoding.md R87). -/
def operands3 (ops : List Word) (f : Word → Word → Word → Instr) : Except DecodeError Instr :=
  match ops with
  | [a, b, c] => .ok (f a b c)
  | _ => .error .operandCount

/-- Refuses a reserved code (30_encoding.md R84 (c)). -/
def orReserved {α : Type} (x : Option α) (f : α → Except DecodeError Instr) : Except DecodeError Instr :=
  match x with
  | some a => f a
  | none => .error .reservedCode

/-- Refuses an `INST` without a peripheral or an instance (30_encoding.md R84 (e)). -/
def orBadInst {α : Type} (x : Option α) (f : α → Except DecodeError Instr) : Except DecodeError Instr :=
  match x with
  | some a => f a
  | none => .error .badInst

/-- Format Z (30_encoding.md R76): bits 31 to 8 are reserved. -/
def formatZ (cw : Word) (rest : Except DecodeError Instr) : Except DecodeError Instr :=
  reservedZero (field cw 8 24) rest

/-- Format I of a PER_ command (30_encoding.md R77). -/
def formatPer (par : Config.Params) (c : Command) (f : PeriphId → Instr) : Except DecodeError Instr :=
  reservedZero (field c.cw 12 20) (orBadInst (periphOfCode par (field c.cw 8 4)) fun p => operands0 c.ops (f p))

/-- Format I of an I2C_ command (30_encoding.md R77). -/
def formatBus (par : Config.Params) (c : Command) (f : InstId → Instr) : Except DecodeError Instr :=
  reservedZero (field c.cw 12 20) (orBadInst (instOfCode par (field c.cw 8 4)) fun k => operands0 c.ops (f k))

/-- Format L (30_encoding.md R81). -/
def formatL (c : Command) (f : BitVec 4 → Word → Instr) : Except DecodeError Instr :=
  reservedZero (field c.cw 12 20) (operands1 c.ops (f (field c.cw 8 4)))

/-- Format CC (30_encoding.md R78). -/
def decodeClkConfig (c : Command) : Except DecodeError Instr :=
  reservedZero (field c.cw 10 2) <| reservedZero (field c.cw 22 10) <|
    orReserved (Source.ofCode (field c.cw 8 2)) fun src =>
      operands0 c.ops (.clkConfig src (field c.cw 12 4) (field c.cw 16 3) (field c.cw 19 3))

/-- Format PL (30_encoding.md R79). -/
def decodePllConfig (c : Command) : Except DecodeError Instr :=
  reservedZero (field c.cw 9 3) <| reservedZero (field c.cw 29 3) <|
    if field c.cw 12 6 = 0#6 then .error .zeroPllM
    else operands0 c.ops (.clkPllconfig (PllInput.ofCode (field c.cw 8 1)) (field c.cw 12 6) (field c.cw 18 9)
      (field c.cw 27 2))

/-- Format IN (30_encoding.md R82). -/
def decodeInit (par : Config.Params) (c : Command) : Except DecodeError Instr :=
  reservedZero (field c.cw 30 2) <|
    orReserved (Speed.ofCode (field c.cw 12 2)) fun speed =>
      orReserved (BusMode.ofCode (field c.cw 14 2)) fun mode =>
        orBadInst (instOfCode par (field c.cw 8 4)) fun k =>
          operands1 c.ops fun freq => .i2cInit k speed mode (field c.cw 16 7) (field c.cw 23 7) freq

/-- Format T of `I2C_WRITE` (30_encoding.md R83, R87). -/
def decodeWrite (par : Config.Params) (c : Command) : Except DecodeError Instr :=
  reservedZero (field c.cw 19 1) <|
    orBadInst (instOfCode par (field c.cw 8 4)) fun k =>
      if c.ops.length = writeOperandCount (field c.cw 20 12) then
        .ok (.i2cWrite k (field c.cw 12 7) (field c.cw 20 12) c.ops)
      else .error .operandCount

/-- The decoder of a block with the parameters `par`: exactly one command of 30_encoding.md R86, or a decode error (R84,
R88, R92). The parameters `NI2C` and `PERIPH` say which instances and ids exist (R84 (e)). -/
def decode (par : Config.Params) (c : Command) : Except DecodeError Instr :=
  match (field c.cw 0 8).toNat with
  | 0x01 => formatZ c.cw (operands0 c.ops .clkSysfreq)
  | 0x02 => formatZ c.cw (operands0 c.ops .clkAhbfreq)
  | 0x03 => formatZ c.cw (operands0 c.ops .clkApb1freq)
  | 0x04 => formatZ c.cw (operands0 c.ops .clkApb2freq)
  | 0x05 => decodeClkConfig c
  | 0x06 => decodePllConfig c
  | 0x10 => reservedZero (field c.cw 14 18) (operands3 c.ops (.pack (field c.cw 8 6)))
  | 0x11 => formatZ c.cw (operands1 c.ops .maskNew)
  | 0x12 => formatZ c.cw (operands2 c.ops .maskUnion)
  | 0x13 => formatZ c.cw (operands2 c.ops .maskIntersect)
  | 0x14 => formatZ c.cw (operands1 c.ops .maskComplement)
  | 0x15 => formatZ c.cw (operands2 c.ops .maskXor)
  | 0x16 => formatL c .maskSet
  | 0x17 => formatL c .maskReset
  | 0x18 => formatL c .maskIsset
  | 0x20 => formatPer par c .perTake
  | 0x21 => formatPer par c .perEnclk
  | 0x22 => formatPer par c .perDisclk
  | 0x23 => formatPer par c .perReset
  | 0x30 => decodeInit par c
  | 0x31 => formatBus par c .i2cStart
  | 0x32 => reservedZero (field c.cw 20 12) (orBadInst (instOfCode par (field c.cw 8 4)) fun k =>
      operands0 c.ops (.i2cAddr k (field c.cw 12 7) (Dir.ofCode (field c.cw 19 1))))
  | 0x33 => reservedZero (field c.cw 20 12) (orBadInst (instOfCode par (field c.cw 8 4)) fun k =>
      operands0 c.ops (.i2cWrbyte k (field c.cw 12 8)))
  | 0x34 => formatBus par c .i2cRdbyte
  | 0x35 => formatBus par c .i2cStop
  | 0x36 => decodeWrite par c
  | 0x37 => reservedZero (field c.cw 19 1) (orBadInst (instOfCode par (field c.cw 8 4)) fun k =>
      operands0 c.ops (.i2cRead k (field c.cw 12 7) (field c.cw 20 12)))
  | _ => .error .unknownOpcode

/-- The command word of format Z: the opcode alone (30_encoding.md R76). -/
def wordZ (opc : Byte) : Word := (0#24 ++ opc)

/-- The command word of formats I and L: a 4-bit field above the opcode (30_encoding.md R77, R81). -/
def wordI (f : BitVec 4) (opc : Byte) : Word := (0#20 ++ f ++ opc)

/-- The command word of format T (30_encoding.md R83). -/
def wordT (k : InstId) (addr : BitVec 7) (n : BitVec 12) (opc : Byte) : Word :=
  (n ++ 0#1 ++ addr ++ instCode k ++ opc)

/-- The encoder: the command word and operand words of a well-formed command, from the formats R76 to R83. -/
def encode (i : Instr) : Command :=
  match i with
  | .clkSysfreq => ⟨wordZ 0x01#8, []⟩
  | .clkAhbfreq => ⟨wordZ 0x02#8, []⟩
  | .clkApb1freq => ⟨wordZ 0x03#8, []⟩
  | .clkApb2freq => ⟨wordZ 0x04#8, []⟩
  | .clkConfig src hpre ppre1 ppre2 => ⟨0#10 ++ ppre2 ++ ppre1 ++ hpre ++ 0#2 ++ src.code ++ 0x05#8, []⟩
  | .clkPllconfig src m n pcode => ⟨0#3 ++ pcode ++ n ++ m ++ 0#3 ++ src.code ++ 0x06#8, []⟩
  | .pack w existing value laneMask => ⟨0#18 ++ w ++ 0x10#8, [existing, value, laneMask]⟩
  | .maskNew a => ⟨wordZ 0x11#8, [a]⟩
  | .maskUnion a b => ⟨wordZ 0x12#8, [a, b]⟩
  | .maskIntersect a b => ⟨wordZ 0x13#8, [a, b]⟩
  | .maskComplement a => ⟨wordZ 0x14#8, [a]⟩
  | .maskXor a b => ⟨wordZ 0x15#8, [a, b]⟩
  | .maskSet lane a => ⟨wordI lane 0x16#8, [a]⟩
  | .maskReset lane a => ⟨wordI lane 0x17#8, [a]⟩
  | .maskIsset lane a => ⟨wordI lane 0x18#8, [a]⟩
  | .perTake p => ⟨wordI (periphCode p) 0x20#8, []⟩
  | .perEnclk p => ⟨wordI (periphCode p) 0x21#8, []⟩
  | .perDisclk p => ⟨wordI (periphCode p) 0x22#8, []⟩
  | .perReset p => ⟨wordI (periphCode p) 0x23#8, []⟩
  | .i2cInit k speed mode own1 own2 freq =>
    ⟨0#2 ++ own2 ++ own1 ++ mode.code ++ speed.code ++ instCode k ++ 0x30#8, [freq]⟩
  | .i2cStart k => ⟨wordI (instCode k) 0x31#8, []⟩
  | .i2cAddr k addr rw => ⟨0#12 ++ rw.code ++ addr ++ instCode k ++ 0x32#8, []⟩
  | .i2cWrbyte k data => ⟨0#12 ++ data ++ instCode k ++ 0x33#8, []⟩
  | .i2cRdbyte k => ⟨wordI (instCode k) 0x34#8, []⟩
  | .i2cStop k => ⟨wordI (instCode k) 0x35#8, []⟩
  | .i2cWrite k addr n ops => ⟨wordT k addr n 0x36#8, ops⟩
  | .i2cRead k addr n => ⟨wordT k addr n 0x37#8, []⟩

/-- How many operand words the command word asks for (30_encoding.md R87, R89). -/
def operandCount (cw : Word) : Nat :=
  match (field cw 0 8).toNat with
  | 0x10 => 3
  | 0x11 => 1
  | 0x12 => 2
  | 0x13 => 2
  | 0x14 => 1
  | 0x15 => 2
  | 0x16 => 1
  | 0x17 => 1
  | 0x18 => 1
  | 0x30 => 1
  | 0x36 => writeOperandCount (field cw 20 12)
  | _ => 0

/-- The `n` operand words that stand above the first 32 bits of `w`, the lowest first. -/
def operandWordsOf (n w : Nat) : List Word :=
  match n with
  | 0 => []
  | n + 1 => BitVec.ofNat 32 (w / 2 ^ 32) :: operandWordsOf n (w / 2 ^ 32)

/-- The command whose bits are the low `nbits` bits of `w`, bit 0 the least significant of the command word, every
higher bit 0: the command word and as many operand words as it asks for. -/
def commandOfBits (nbits w : Nat) : Command :=
  let v := w % 2 ^ nbits
  let cw : Word := BitVec.ofNat 32 v
  ⟨cw, operandWordsOf (operandCount cw) v⟩

/-- The instruction the decoder reads from an opcode-table word, with the default parameters (the host's question,
log 21). -/
def decodeTableWord (nbits w : Nat) : Option Instr :=
  match decode Config.Params.default (commandOfBits nbits w) with
  | .ok i => some i
  | .error _ => none

/-- A row of the opcode map: the bits `mask` selects equal `bits` (30_encoding.md R86, R92, opcode_table.json). -/
structure OpcodeRow where
  mnemonic : String
  mask : Word
  bits : Word
deriving DecidableEq, Repr

/-- The rows of opcode_table.json in its order (30_encoding.md R86). -/
def opcodeRows : List OpcodeRow :=
  [⟨"CLK_SYSFREQ", 0xFFFFFFFF#32, 0x01#32⟩, ⟨"CLK_AHBFREQ", 0xFFFFFFFF#32, 0x02#32⟩,
   ⟨"CLK_APB1FREQ", 0xFFFFFFFF#32, 0x03#32⟩, ⟨"CLK_APB2FREQ", 0xFFFFFFFF#32, 0x04#32⟩,
   ⟨"CLK_CONFIG", 0xFFC00CFF#32, 0x05#32⟩, ⟨"CLK_PLLCONFIG", 0xE0000EFF#32, 0x06#32⟩,
   ⟨"PACK", 0xFFFFC0FF#32, 0x10#32⟩, ⟨"MASK_NEW", 0xFFFFFFFF#32, 0x11#32⟩,
   ⟨"MASK_UNION", 0xFFFFFFFF#32, 0x12#32⟩, ⟨"MASK_INTERSECT", 0xFFFFFFFF#32, 0x13#32⟩,
   ⟨"MASK_COMPLEMENT", 0xFFFFFFFF#32, 0x14#32⟩, ⟨"MASK_XOR", 0xFFFFFFFF#32, 0x15#32⟩] ++
  [⟨"MASK_SET", 0xFFFFF0FF#32, 0x16#32⟩, ⟨"MASK_RESET", 0xFFFFF0FF#32, 0x17#32⟩,
   ⟨"MASK_ISSET", 0xFFFFF0FF#32, 0x18#32⟩, ⟨"PER_TAKE", 0xFFFFF0FF#32, 0x20#32⟩,
   ⟨"PER_ENCLK", 0xFFFFF0FF#32, 0x21#32⟩, ⟨"PER_DISCLK", 0xFFFFF0FF#32, 0x22#32⟩,
   ⟨"PER_RESET", 0xFFFFF0FF#32, 0x23#32⟩, ⟨"I2C_INIT", 0xC00000FF#32, 0x30#32⟩,
   ⟨"I2C_START", 0xFFFFF0FF#32, 0x31#32⟩, ⟨"I2C_ADDR", 0xFFF000FF#32, 0x32#32⟩,
   ⟨"I2C_WRBYTE", 0xFFF000FF#32, 0x33#32⟩, ⟨"I2C_RDBYTE", 0xFFFFF0FF#32, 0x34#32⟩,
   ⟨"I2C_STOP", 0xFFFFF0FF#32, 0x35#32⟩, ⟨"I2C_WRITE", 0x000800FF#32, 0x36#32⟩,
   ⟨"I2C_READ", 0x000800FF#32, 0x37#32⟩]

/-- The row a command word matches, if any (30_encoding.md R92). -/
def OpcodeRow.matches (r : OpcodeRow) (cw : Word) : Bool := cw &&& r.mask == r.bits

end Sys2Proof
end

