-- ==== Sys2Proof/Machine/State.lean ====
section
/-! DEFINITION. The architectural state of the STM32-HAL core block (10_state.md), its fault reasons (60_exceptions.md
R197), its statuses (R190) and its reset values (10_state.md R49). Registers are held as named fields, as 20_memory.md
R63 allows; Machine/RegSpace.lean gives their words. -/

namespace Sys2Proof.Machine

/-- The fault reasons of 60_exceptions.md R197. A command enters one by `raiseFault` (R198); every later step of the
machine answers it. The spec names each, so each is the spec's own stop (safe: nothing goes on where the block stops). -/
inductive Fault where
  /-- F_DIV_ZERO: `I2C_INIT` in standard mode with f = 0 (43_bus_engine.md R152); the frequency rules with PLLM = 0
  (40_clocktree.md R96). Safe. -/
  | divZero
  /-- F_TIMING_RANGE: `I2C_INIT` with a divider of 0 or above DIV_MAX or a rise time above RISE_MAX
  (43_bus_engine.md R152). Safe. -/
  | timingRange
  /-- F_REINIT: `I2C_INIT` on an instance with PE = 1 (43_bus_engine.md R157). Safe. -/
  | reinit
  /-- F_NOT_OWNED: PER_ENCLK, PER_DISCLK, PER_RESET or an I2C_ command without a take (42_peripheral_access.md R136).
  Safe. -/
  | notOwned
  /-- F_DOUBLE_TAKE: a second `PER_TAKE` of one peripheral (42_peripheral_access.md R135). Safe. -/
  | doubleTake
  /-- F_CLOCK_GATED: an I2C_ command on an instance whose clock is off (42_peripheral_access.md R140). Safe. -/
  | clockGated
  /-- F_PLL_BUSY: `CLK_PLLCONFIG` while PLLON = 1 (40_clocktree.md R104). Safe. -/
  | pllBusy
  /-- F_PACK_VALUE: `PACK` of a value wider than W bits (41_bitfield_packer.md R116). Safe. -/
  | packValue
  /-- F_PACK_RANGE: `PACK` with W = 0, W > 32 or a selected slot past bit 31 (41_bitfield_packer.md R116). Safe. -/
  | packRange
  /-- F_ZERO_LENGTH: `I2C_WRITE` or `I2C_READ` with N = 0 (44_bus_transactions.md R180, R183). Safe. -/
  | zeroLength
  /-- F_SWS_RESERVED: a frequency rule reads SWS = 3 (10_state.md R28). Safe. -/
  | swsReserved
deriving DecidableEq, Repr

/-- Why a step has no meaning. -/
inductive Refusal where
  /-- Raised by `exec` for an instruction whose meaning is not written. Safe. -/
  | notModelled (mnemonic : String)
  /-- Raised by a meaning when the sequencer stands at a line that the command's pseudocode does not have. No step
  leads there (log 9, the invariant `SeqCoherent`). Safe: nothing goes on. -/
  | strayPoint
  /-- Raised by `regRead` and `regWrite` for an address that is no aligned word of the register space: "A model that
  admits one refuses it" (20_memory.md R61). No command makes such an access. Safe. -/
  | unmodelledAddress
deriving DecidableEq, Repr

/-- The status codes of 60_exceptions.md R190. -/
inductive Status where
  | ok
  | busError
  | arbitrationLost
  | acknowledgeFailure
  | initError
  | busyError
  | decodeError
deriving DecidableEq, Repr

/-- What a command that ends appends to the result log (10_state.md R23). -/
structure Result where
  status : Status
  value : Word
  bytes : List Byte
deriving DecidableEq, Repr

/-- CC.CR (10_state.md R25). -/
structure Cr where
  hsion : Bool
  hsirdy : Bool
  hseon : Bool
  hserdy : Bool
  pllon : Bool
  pllrdy : Bool
deriving DecidableEq, Repr

/-- CC.PLLCFGR (10_state.md R26). -/
structure Pllcfgr where
  pllm : BitVec 6
  plln : BitVec 9
  pllp : BitVec 2
  pllsrc : PllInput
deriving DecidableEq, Repr

/-- CC.CFGR (10_state.md R27). -/
structure Cfgr where
  sw : BitVec 2
  sws : BitVec 2
  hpre : BitVec 4
  ppre1 : BitVec 3
  ppre2 : BitVec 3
deriving DecidableEq, Repr

/-- The clock-control state (10_state.md R24), with the enable and reset bit of each peripheral id (R32). -/
structure ClockControl where
  cr : Cr
  pllcfgr : Pllcfgr
  cfgr : Cfgr
  enr : Vector Bool Config.ids
  rstr : Vector Bool Config.ids
deriving DecidableEq, Repr

/-- I2C[k].CR1 (10_state.md R36). -/
structure Cr1 where
  pe : Bool
  start : Bool
  stop : Bool
  ack : Bool
deriving DecidableEq, Repr

/-- I2C[k].OAR2 (10_state.md R37). -/
structure Oar2 where
  endual : Bool
  add2 : BitVec 7
deriving DecidableEq, Repr

/-- I2C[k].SR1 (10_state.md R39). -/
structure Sr1 where
  sb : Bool
  addr : Bool
  btf : Bool
  rxne : Bool
  txe : Bool
  berr : Bool
  arlo : Bool
  af : Bool
deriving DecidableEq, Repr

/-- I2C[k].SR2 (10_state.md R40). -/
structure Sr2 where
  msl : Bool
  busy : Bool
  tra : Bool
deriving DecidableEq, Repr

/-- I2C[k].CCR (10_state.md R41). -/
structure Ccr where
  ccr : BitVec 12
  duty : Bool
  fs : Bool
deriving DecidableEq, Repr

/-- The register block of one bus-controller instance (10_state.md R35); `oar1` is the field ADD (R37), `drTx` and
`drRx` the two bytes of DR (R38): the byte SEQ last handed to the transmitter, and the byte BUS[k] last received, which a
read of DR takes (log 31), `trise` bits 5:0 of TRISE (R42). -/
structure BusRegs where
  cr1 : Cr1
  oar1 : BitVec 7
  oar2 : Oar2
  drTx : Byte
  drRx : Byte
  sr1 : Sr1
  sr2 : Sr2
  ccr : Ccr
  trise : BitVec 6
deriving DecidableEq, Repr

/-- Who holds the bus (43_bus_engine.md R173). -/
inductive Line where
  | idle
  | ours
  | other
deriving DecidableEq, Repr

/-- What the last SEQ action asked of the bus (43_bus_engine.md R173). -/
inductive Pending where
  | none
  | addr (rw : Bool)
  | tx
  | rx
deriving DecidableEq, Repr

/-- The hidden state of BUS[k] under `ENV = LAWFUL` (10_state.md R47 (c), 43_bus_engine.md R173). -/
structure BusLine where
  line : Line
  pending : Pending
  expectAddr : Bool
  dataWritten : Bool
  stopSeenRx : Bool
deriving DecidableEq, Repr

/-- `SEQ.phase` (10_state.md R45). -/
inductive Phase where
  | idle
  | started
  | addressPhase
  | dataPhase
  | stopped
deriving DecidableEq, Repr

/-- The two micro-steps of a CR1 field write: read the word, then write it back changed (20_memory.md R62). -/
inductive Rmw where
  | read
  | write (w : Cr1)
deriving DecidableEq, Repr

/-- The lines of `CLK_CONFIG` after its first micro-step (40_clocktree.md R102). -/
inductive ConfigPoint where
  | enable
  | ready
  | prescale
  | switch
  | confirm
deriving DecidableEq, Repr

/-- The lines of `I2C_INIT` after its first micro-step (43_bus_engine.md R156), with its locals `div` and `rise`. -/
inductive InitPoint where
  | clock
  | divider (div : BitVec 12) (rise : BitVec 6)
  | riseTime (rise : BitVec 6)
  | own1
  | own2
  | enable (r : Rmw)
  | ack (r : Rmw)
deriving DecidableEq, Repr

/-- The lines of `start_body` (43_bus_engine.md R160). -/
inductive StartPoint where
  | busFree
  | request (r : Rmw)
  | wait
deriving DecidableEq, Repr

/-- The lines of `address_body` and `write_byte_body` (43_bus_engine.md R161, R162). -/
inductive PutPoint where
  | put
  | wait
deriving DecidableEq, Repr

/-- The lines of `read_byte_body` (43_bus_engine.md R163). -/
inductive TakePoint where
  | wait
  | take
deriving DecidableEq, Repr

/-- Where in a command's pseudocode the sequencer stands: the line it performs next (00_scope.md R11). The model's own
field (log 10). -/
inductive Point where
  /-- before the command's first micro-step -/
  | start
  /-- the one write of `CLK_PLLCONFIG`, `PER_TAKE`, `PER_ENCLK`, `PER_DISCLK` -/
  | commit
  | config (p : ConfigPoint)
  /-- the two writes of `PER_RESET` (42_peripheral_access.md R139) -/
  | assertReset
  | deassertReset
  | init (p : InitPoint)
  /-- `SEQ.saved_ack <- CR1.ACK` of `I2C_READ` -/
  | saveAck
  | startBody (p : StartPoint)
  | addressBody (p : PutPoint)
  | writeBody (p : PutPoint)
  /-- `wait_btf` of `I2C_WRITE` (43_bus_engine.md R169) -/
  | btfWait
  /-- the read-byte body: the one of `I2C_RDBYTE`, or of a byte that is not `I2C_READ`'s last -/
  | readBody (p : TakePoint)
  /-- `CR1.ACK <- 1` of `I2C_READ` -/
  | ackOn (r : Rmw)
  /-- `CR1.ACK <- 0` of `I2C_READ` -/
  | ackOff (r : Rmw)
  /-- `CR1.STOP <- 1` -/
  | stopBody (r : Rmw)
  /-- the read-byte body of `I2C_READ`'s last byte -/
  | lastBody (p : TakePoint)
  /-- `CR1.ACK <- SEQ.saved_ack` of `I2C_READ` -/
  | restoreAck (r : Rmw)
deriving DecidableEq, Repr

/-- The sequencer (10_state.md R45). -/
structure Sequencer where
  phase : Phase
  cmd : Option Instr
  i : Nat
  savedAck : Bool
  buf : List Byte
  point : Point
deriving DecidableEq, Repr

/-- The whole state: parameters, clock control, ownership, bus controllers, the buses' hidden state, the sequencer, the
fault register, the command space with its pointer, the result log, and the model's record of turns. -/
structure State where
  par : Config.Params
  cc : ClockControl
  taken : Vector Bool Config.ids
  i2c : Vector BusRegs Config.ids
  bus : Vector BusLine Config.ids
  seq : Sequencer
  fault : Option Fault
  commands : List Command
  cptr : Nat
  results : List Result
  agenda : List Config.Turn
  draws : Nat
deriving DecidableEq, Repr

/-- The sequencer between commands (10_state.md R45, R49). -/
def Sequencer.idle : Sequencer := ⟨.idle, none, 0, false, [], .start⟩

/-- The reset values of one instance's registers (10_state.md R49). -/
def BusRegs.reset : BusRegs :=
  { cr1 := ⟨false, false, false, false⟩
    oar1 := 0#7
    oar2 := ⟨false, 0#7⟩
    drTx := 0#8
    drRx := 0#8
    sr1 := ⟨false, false, false, false, false, false, false, false⟩
    sr2 := ⟨false, false, false⟩
    ccr := ⟨0#12, false, false⟩
    trise := 2#6 }

/-- The reset value of a bus agent's hidden state (10_state.md R49). -/
def BusLine.reset : BusLine := ⟨.idle, .none, false, false, false⟩

/-- The reset value of the clock-control state (10_state.md R49). -/
def ClockControl.reset : ClockControl :=
  { cr := ⟨true, true, false, false, false, false⟩
    pllcfgr := ⟨16#6, 192#9, 0#2, .hsi⟩
    cfgr := ⟨0#2, 0#2, 0#4, 0#3, 0#3⟩
    enr := Vector.replicate Config.ids false
    rstr := Vector.replicate Config.ids false }

/-- The parameter `RESET_STATE`: the hardware rows of 10_state.md R49 (R50). -/
structure ResetState where
  cc : ClockControl
  i2c : Vector BusRegs Config.ids
deriving DecidableEq, Repr

/-- The default of `RESET_STATE`: the values of 10_state.md R49. -/
def ResetState.default : ResetState := ⟨ClockControl.reset, Vector.replicate Config.ids BusRegs.reset⟩

/-- The block right after its reset, with the parameters `par` and the reset values `rs` (10_state.md R49, R50;
70_reset_and_hazards.md R210, R211): no command is loaded (log 1), no turn is determined (log 3). -/
def State.afterBlockReset (par : Config.Params) (rs : ResetState) : State :=
  { par := par
    cc := rs.cc
    taken := Vector.replicate Config.ids false
    i2c := rs.i2c
    bus := Vector.replicate Config.ids BusLine.reset
    seq := Sequencer.idle
    fault := none
    commands := []
    cptr := 0
    results := []
    agenda := []
    draws := 0 }

/-- The block right after reset, every parameter and `RESET_STATE` at its default (10_state.md R49, log 24). -/
def State.reset : State := State.afterBlockReset Config.Params.default ResetState.default

end Sys2Proof.Machine
end

