-- ==== Sys2Proof/Machine/Flags.lean ====
section
/-! DEFINITION. The words of the clock-control registers (10_state.md R25 to R27). The status flags: the words of SR1 and
SR2 (10_state.md R39, R40), the error checks of the bus waits (43_bus_engine.md R158, R159) and the side effects of DR
accesses (10_state.md R38). -/

namespace Sys2Proof.Machine

/-- Bit `i` of a word (00_scope.md R8). -/
def bitOf (w : Word) (i : Nat) : Bool := w.getLsbD i

/-- The word with bit `i` equal to `b` and every other bit 0. -/
def bitAt (b : Bool) (i : Nat) : Word := if b then BitVec.ofNat 32 (2 ^ i) else 0#32

/-- The word with bit `i` replaced by `v`; a bit above 31 is none of it. -/
def withBit (w : Word) (i : Nat) (v : Bool) : Word := if v then w ||| bitAt true i else w &&& ~~~bitAt true i

/-- The word of CC.CR (10_state.md R25). -/
def Cr.toWord (r : Cr) : Word :=
  bitAt r.hsion 0 ||| bitAt r.hsirdy 1 ||| bitAt r.hseon 16 ||| bitAt r.hserdy 17 ||| bitAt r.pllon 24 |||
    bitAt r.pllrdy 25

/-- CC.CR after a SEQ write of its word: the ready flags are read-only (10_state.md R25, R52). -/
def Cr.put (r : Cr) (v : Word) : Cr := { r with hsion := bitOf v 0, hseon := bitOf v 16, pllon := bitOf v 24 }

/-- The word of CC.PLLCFGR (10_state.md R26). -/
def Pllcfgr.toWord (r : Pllcfgr) : Word := 0#9 ++ r.pllsrc.code ++ 0#4 ++ r.pllp ++ 0#1 ++ r.plln ++ r.pllm

/-- The fields a word of CC.PLLCFGR carries (10_state.md R26, R52). -/
def Pllcfgr.ofWord (v : Word) : Pllcfgr :=
  ⟨v.extractLsb' 0 6, v.extractLsb' 6 9, v.extractLsb' 16 2, PllInput.ofCode (v.extractLsb' 22 1)⟩

/-- The word of CC.CFGR (10_state.md R27). -/
def Cfgr.toWord (r : Cfgr) : Word := 0#16 ++ r.ppre2 ++ r.ppre1 ++ 0#2 ++ r.hpre ++ r.sws ++ r.sw

/-- CC.CFGR after a SEQ write of its word: SWS is read-only (10_state.md R27, R52). -/
def Cfgr.put (r : Cfgr) (v : Word) : Cfgr :=
  ⟨v.extractLsb' 0 2, r.sws, v.extractLsb' 4 4, v.extractLsb' 10 3, v.extractLsb' 13 3⟩

/-- The flags a word of SR1 carries; reserved bits are ignored (10_state.md R39, R52). -/
def Sr1.ofWord (w : Word) : Sr1 :=
  ⟨bitOf w 0, bitOf w 1, bitOf w 2, bitOf w 6, bitOf w 7, bitOf w 8, bitOf w 9, bitOf w 10⟩

/-- The word of SR1 (10_state.md R39). -/
def Sr1.toWord (s : Sr1) : Word :=
  bitAt s.sb 0 ||| bitAt s.addr 1 ||| bitAt s.btf 2 ||| bitAt s.rxne 6 ||| bitAt s.txe 7 ||| bitAt s.berr 8 |||
    bitAt s.arlo 9 ||| bitAt s.af 10

/-- The flags a word of SR2 carries (10_state.md R40, R52). -/
def Sr2.ofWord (w : Word) : Sr2 := ⟨bitOf w 0, bitOf w 1, bitOf w 2⟩

/-- The word of SR2 (10_state.md R40). -/
def Sr2.toWord (s : Sr2) : Word := bitAt s.msl 0 ||| bitAt s.busy 1 ||| bitAt s.tra 2

/-- `errs(s)`: acknowledge failure, then arbitration lost, then bus error (43_bus_engine.md R158). -/
def Sr1.errs (s : Sr1) : Option Status :=
  if s.af then some .acknowledgeFailure
  else if s.arlo then some .arbitrationLost
  else if s.berr then some .busError
  else none

/-- The error check of the start wait: BERR only (43_bus_engine.md R159, R160). -/
def Sr1.startErrs (s : Sr1) : Option Status := if s.berr then some .busError else none

/-- How one poll iteration that checks errors ends. -/
inductive Poll where
  | error (e : Status)
  | success
  | again
deriving DecidableEq, Repr

/-- One poll iteration on its snapshot: the error check and the success flag in the order of `CHECK_ORDER`
(43_bus_engine.md R158, 60_exceptions.md R196). -/
def pollWith (order : Config.CheckOrder) (err : Option Status) (flag : Bool) : Poll :=
  match order with
  | .errorsFirst =>
    match err with
    | some e => .error e
    | none => if flag then .success else .again
  | .successFirst =>
    if flag then .success
    else match err with
      | some e => .error e
      | none => .again

/-- A SEQ write of DR clears TXE and BTF (10_state.md R38). -/
def Sr1.afterDrWrite (s : Sr1) : Sr1 := { s with txe := false, btf := false }

/-- A SEQ read of DR clears RXNE and BTF (10_state.md R38). -/
def Sr1.afterDrRead (s : Sr1) : Sr1 := { s with rxne := false, btf := false }

/-- The successful poll that sees SB clears it (10_state.md R39, 43_bus_engine.md R160). -/
def Sr1.consumeSb (s : Sr1) : Sr1 := { s with sb := false }

/-- The successful poll that sees ADDR clears it (10_state.md R39, 43_bus_engine.md R161). -/
def Sr1.consumeAddr (s : Sr1) : Sr1 := { s with addr := false }

end Sys2Proof.Machine
end

