-- ==== Sys2Proof/Machine/Operands.lean ====
section
/-! DEFINITION. Operand forms: PinMask operands (41_bitfield_packer.md R117), the data bytes of `I2C_WRITE`
(20_memory.md R58) and the address byte (43_bus_engine.md R161). -/

namespace Sys2Proof.Machine

/-- A mask operand: bits 15 to 0 of its word (41_bitfield_packer.md R117). -/
def maskOf (w : Word) : BitVec 16 := w.setWidth 16

/-- A mask as a result value, bits 31 to 16 zero (41_bitfield_packer.md R117). -/
def ofMask (m : BitVec 16) : Word := m.setWidth 32

/-- The mask of one lane, `1 << LANE` (41_bitfield_packer.md R123). -/
def laneBit (lane : BitVec 4) : BitVec 16 := 1#16 <<< lane.toNat

/-- Data byte j of an operand list, `op[j / 4][8*(j mod 4)+7 : 8*(j mod 4)]` (20_memory.md R58, 44_bus_transactions.md
R180). A well-formed `I2C_WRITE` has the word (30_encoding.md R87). -/
def dataByte (ops : List Word) (j : Nat) : Byte := (ops.getD (j / 4) 0#32).extractLsb' (8 * (j % 4)) 8

/-- The read/write bit as a truth value, 1 = read (43_bus_engine.md R161 (a)). -/
def dirBit (d : Dir) : Bool :=
  match d with
  | .write => false
  | .read => true

/-- The address byte `(ADDR << 1) | RW` (43_bus_engine.md R161). -/
def addressByte (addr : BitVec 7) (d : Dir) : Byte := addr ++ BitVec.ofBool (dirBit d)

end Sys2Proof.Machine
end

