-- ==== Sys2Proof/Machine/Ops.lean ====
section
/-! DEFINITION. The named operations over the state that the commands are written with: register reads and writes of SEQ
(10_state.md R43, 20_memory.md R62, R64), how a command ends (R22, R23; 60_exceptions.md R192), fault entry
(60_exceptions.md R198, the block's only exception; R201: there is no return from one), the ownership and clock-gate
checks (42_peripheral_access.md R136, R140), and the shared bodies of the bus phases (43_bus_engine.md R160 to R164,
R169). -/

namespace Sys2Proof.Machine

/-- What one micro-step answers. -/
abbrev Res := Host.Outcome State Fault Refusal

/-! Registers and ownership -/

/-- The registers of instance k (10_state.md R35). -/
def State.regs (s : State) (k : InstId) : BusRegs := s.i2c[k.val]

/-- Replaces the registers of instance k. -/
def State.setRegs (s : State) (k : InstId) (r : BusRegs) : State := { s with i2c := s.i2c.set k.val r }

/-- The hidden state of BUS[k] (43_bus_engine.md R173). -/
def State.hidden (s : State) (k : InstId) : BusLine := s.bus[k.val]

/-- Replaces the hidden state of BUS[k]. -/
def State.setHidden (s : State) (k : InstId) (h : BusLine) : State := { s with bus := s.bus.set k.val h }

/-- `TAKEN[p]` (10_state.md R34). -/
def State.isTaken (s : State) (p : PeriphId) : Bool := s.taken[p.val]

/-- `TAKEN[p] <- 1` (42_peripheral_access.md R135). -/
def State.setTaken (s : State) (p : PeriphId) : State := { s with taken := s.taken.set p.val true }

/-- The word of CC.CR, CC.PLLCFGR or CC.CFGR, where `off` is the offset of one of them (10_state.md R25 to R27). -/
def ClockControl.wordAt (c : ClockControl) (off : Nat) : Option Word :=
  if off = 0x00 then some c.cr.toWord
  else if off = 0x04 then some c.pllcfgr.toWord
  else if off = 0x08 then some c.cfgr.toWord
  else none

/-- A SEQ write of the word at `off`, where it is CC.CR, CC.PLLCFGR or CC.CFGR. -/
def ClockControl.putWord (c : ClockControl) (off : Nat) (v : Word) : ClockControl :=
  if off = 0x00 then { c with cr := c.cr.put v }
  else if off = 0x04 then { c with pllcfgr := Pllcfgr.ofWord v }
  else if off = 0x08 then { c with cfgr := c.cfgr.put v }
  else c

/-- The bit at the place (register offset, bit): that of CC.CR, CC.PLLCFGR or CC.CFGR where the offset is theirs, as a
wrong row of `PERIPH` may have it (42_peripheral_access.md R142); else the bit held for the row. -/
def ClockControl.bitAtPlace (c : ClockControl) (b : Nat × Nat) (held : Bool) : Bool :=
  match c.wordAt b.1 with
  | some w => bitOf w b.2
  | none => held

/-- `CC.ENR[p]`, the bit at the place that `PERIPH` gives (10_state.md R32). -/
def State.enabled (s : State) (p : PeriphId) : Bool :=
  match s.par.row p with
  | some r => s.cc.bitAtPlace r.enable s.cc.enr[p.val]
  | none => s.cc.enr[p.val]

/-- `CC.RSTR[p]`, the bit at the place that `PERIPH` gives (10_state.md R32). -/
def State.inReset (s : State) (p : PeriphId) : Bool :=
  match s.par.row p with
  | some r => s.cc.bitAtPlace r.reset s.cc.rstr[p.val]
  | none => s.cc.rstr[p.val]

/-- The bus-controller instance that peripheral id p is, if it is one (10_state.md R33). -/
def instOf (par : Config.Params) (p : PeriphId) : Option InstId := (par.row p).bind fun r => r.inst

/-- `periph_of(k)`: the peripheral id whose row of `PERIPH` is instance k (10_state.md R33, 43_bus_engine.md R146); where
several rows name k, the lowest id (log 7, DESIGN CHOICE). -/
def periphOf (par : Config.Params) (k : InstId) : Option PeriphId :=
  (List.finRange Config.ids).find? fun p => instOf par p == some k

/-- `TAKEN` of instance k's peripheral id. Without an id the instance was never taken (log 7). -/
def State.instTaken (s : State) (k : InstId) : Bool := (periphOf s.par k).any s.isTaken

/-- `CC.ENR` of instance k's peripheral id. -/
def State.clocked (s : State) (k : InstId) : Bool := (periphOf s.par k).any s.enabled

/-- `CC.RSTR` of instance k's peripheral id, which stops `BUS[k]` (42_peripheral_access.md R139 (b)). Where several rows
name k with different reset bits, it is the bit of the lowest id alone (log 7, DESIGN CHOICE). -/
def State.heldInReset (s : State) (k : InstId) : Bool := (periphOf s.par k).any s.inReset

/-- What `PER_RESET` does to the hidden state: the line is freed if it was ours, nothing is pending, no address byte
is expected (43_bus_engine.md R173, last paragraph; log 20). -/
def BusLine.afterReset (h : BusLine) : BusLine :=
  { h with line := (match h.line with
      | .ours => .idle
      | .idle => .idle
      | .other => .other)
           pending := .none
           expectAddr := false }

/-- Whether bit `b` of the enable and reset words, (register offset, bit), is the reset bit of instance k. -/
def resetsInst (par : Config.Params) (b : Nat × Nat) (k : InstId) : Bool :=
  par.rows.any fun r => r.reset == b && r.inst == some k

/-- The clock-control state after a SEQ write of the bit at the place `b`, (register offset, bit). In CC.CR, CC.PLLCFGR or
CC.CFGR it is the write of their word with that bit replaced, so a read-only or reserved bit keeps its value
(10_state.md R52). In every other word it is the bit held for every row of `PERIPH` that names it. -/
def ClockControl.putBit (c : ClockControl) (par : Config.Params) (b : Nat × Nat) (v : Bool) : ClockControl :=
  match c.wordAt b.1 with
  | some w => c.putWord b.1 (withBit w b.2 v)
  | none => { c with
      enr := Vector.ofFn fun p => if (par.row p).any (fun r => r.enable == b) then v else c.enr[p.val]
      rstr := Vector.ofFn fun p => if (par.row p).any (fun r => r.reset == b) then v else c.rstr[p.val] }

/-- Whether a write of `v` at the place `b` asserts the resets of the rows that name it: the bit is written 1, and it
reads 1 then, which a bit that SEQ cannot write may not do (log 7, DESIGN CHOICE). -/
def ClockControl.asserts (c : ClockControl) (par : Config.Params) (b : Nat × Nat) (v : Bool) : Bool :=
  v && (c.putBit par b v).bitAtPlace b true

/-- A SEQ write of one bit of the clock-control words, named as (register offset, bit). The bit is the `CC.ENR[p]` or
`CC.RSTR[p]` of every row of `PERIPH` that names it (10_state.md R32): a wrong row touches the wrong bit, be it PLLON
(42_peripheral_access.md R142). A reset bit written 1 puts its instance at reset (R139). A bit number of 32 or more acts in
the same way in the enable and reset words, and no register word shows it (log 7, DESIGN CHOICE). -/
def State.putBit (s : State) (b : Nat × Nat) (v : Bool) : State :=
  { s with
    cc := s.cc.putBit s.par b v
    i2c := Vector.ofFn fun k => if s.cc.asserts s.par b v && resetsInst s.par b k then BusRegs.reset else s.regs k
    bus := Vector.ofFn fun k =>
      if s.cc.asserts s.par b v && resetsInst s.par b k then (s.hidden k).afterReset else s.hidden k }

/-- `CC.ENR[p] <- v`, at the bit that `PERIPH` gives (42_peripheral_access.md R137, R138, R142). -/
def State.setEnabled (s : State) (p : PeriphId) (v : Bool) : State :=
  match s.par.row p with
  | some r => s.putBit r.enable v
  | none => s

/-- `CC.RSTR[p] <- 1`, "assert": every register of the instance takes its reset value (42_peripheral_access.md R139). -/
def State.assertReset (s : State) (p : PeriphId) : State :=
  match s.par.row p with
  | some r => s.putBit r.reset true
  | none => s

/-- `CC.RSTR[p] <- 0`, "deassert" (42_peripheral_access.md R139). -/
def State.deassertReset (s : State) (p : PeriphId) : State :=
  match s.par.row p with
  | some r => s.putBit r.reset false
  | none => s

/-- The bus agent's part of a SEQ write of DR, step L3: while an address byte is expected, the byte's bit 0 is taken as
its direction (43_bus_engine.md R173). So a data byte right after a start is the address byte, and its phase may end, against
the letter of R168 (log 34). -/
def BusLine.afterDrWrite (h : BusLine) (b : Byte) : BusLine :=
  if h.expectAddr then { h with pending := .addr (b.getLsbD 0), expectAddr := false } else h

/-- A SEQ write of DR hands the byte to the transmitter; the byte last received stays (10_state.md R38, R43;
43_bus_engine.md R173 L3; log 31). -/
def State.writeDr (s : State) (k : InstId) (b : Byte) : State :=
  (s.setRegs k { s.regs k with drTx := b, sr1 := (s.regs k).sr1.afterDrWrite }).setHidden k ((s.hidden k).afterDrWrite b)

/-- The state after a SEQ read of DR, whose value is `(s.regs k).drRx` (10_state.md R38). -/
def State.afterDrRead (s : State) (k : InstId) : State :=
  s.setRegs k { s.regs k with sr1 := (s.regs k).sr1.afterDrRead }

/-- A whole-word SEQ write of CR1 (20_memory.md R62). -/
def State.writeCr1 (s : State) (k : InstId) (w : Cr1) : State := s.setRegs k { s.regs k with cr1 := w }

/-- A SEQ write of the CCR register (43_bus_engine.md R154). -/
def State.writeCcr (s : State) (k : InstId) (w : Ccr) : State := s.setRegs k { s.regs k with ccr := w }

/-- A SEQ write of TRISE (43_bus_engine.md R154). -/
def State.writeTrise (s : State) (k : InstId) (w : BitVec 6) : State := s.setRegs k { s.regs k with trise := w }

/-- A SEQ write of OAR1.ADD (43_bus_engine.md R155). -/
def State.writeOar1 (s : State) (k : InstId) (w : BitVec 7) : State := s.setRegs k { s.regs k with oar1 := w }

/-- A SEQ write of OAR2 (43_bus_engine.md R155). -/
def State.writeOar2 (s : State) (k : InstId) (w : Oar2) : State := s.setRegs k { s.regs k with oar2 := w }

/-- The successful poll of SB clears it (10_state.md R39). -/
def State.consumeSb (s : State) (k : InstId) : State := s.setRegs k { s.regs k with sr1 := (s.regs k).sr1.consumeSb }

/-- The successful poll of ADDR clears it (10_state.md R39). -/
def State.consumeAddr (s : State) (k : InstId) : State :=
  s.setRegs k { s.regs k with sr1 := (s.regs k).sr1.consumeAddr }

/-- A write of CC.CR (10_state.md R25). -/
def State.setCr (s : State) (r : Cr) : State := { s with cc := { s.cc with cr := r } }

/-- A write of CC.PLLCFGR (10_state.md R26). -/
def State.setPllcfgr (s : State) (r : Pllcfgr) : State := { s with cc := { s.cc with pllcfgr := r } }

/-- A write of CC.CFGR (10_state.md R27). -/
def State.setCfgr (s : State) (r : Cfgr) : State := { s with cc := { s.cc with cfgr := r } }

/-! The sequencer -/

/-- The numeric code of a status (60_exceptions.md R190). -/
def Status.code (e : Status) : Byte :=
  match e with
  | .ok => 0x00#8
  | .busError => 0x01#8
  | .arbitrationLost => 0x02#8
  | .acknowledgeFailure => 0x03#8
  | .initError => 0x04#8
  | .busyError => 0x05#8
  | .decodeError => 0x06#8

/-- The sequencer goes on to line `p` of the command it is in. -/
def State.goto (s : State) (p : Point) : State := { s with seq := { s.seq with point := p } }

/-- The first micro-step of a command that has more of them: the command is in progress (10_state.md R45). -/
def State.enter (s : State) (i : Instr) (p : Point) : State := { s with seq := { s.seq with cmd := some i, point := p } }

/-- `SEQ.phase <- p` (43_bus_engine.md R165). -/
def State.setPhase (s : State) (p : Phase) : State := { s with seq := { s.seq with phase := p } }

/-- `SEQ.i <- i` (44_bus_transactions.md R180, R183). -/
def State.setIndex (s : State) (i : Nat) : State := { s with seq := { s.seq with i := i } }

/-- `SEQ.saved_ack <- b; SEQ.buf <- []` (44_bus_transactions.md R183). -/
def State.saveAck (s : State) (b : Bool) : State := { s with seq := { s.seq with savedAck := b, buf := [] } }

/-- `SEQ.buf <- SEQ.buf ++ [b]` (44_bus_transactions.md R183). -/
def State.pushByte (s : State) (b : Byte) : State := { s with seq := { s.seq with buf := s.seq.buf ++ [b] } }

/-- A command ends: its result is appended, CPTR advances, the sequencer is between commands (10_state.md R22, R23,
R45; 60_exceptions.md R192). -/
def State.finish (s : State) (st : Status) (value : Word) (bytes : List Byte) : State :=
  { s with seq := Sequencer.idle, results := s.results ++ [⟨st, value, bytes⟩], cptr := s.cptr + 1 }

/-- `return v` (00_scope.md R10). -/
def returnValue (v : Word) (s : State) : Res := .next (s.finish .ok v [])

/-- `raise Status(e)` (00_scope.md R10, 60_exceptions.md R192). -/
def raiseStatus (e : Status) (s : State) : Res := .next (s.finish e 0#32 [])

/-- `fault F_x`: FAULT is set and nothing else is written (60_exceptions.md R198). The step function answers the fault
from then on, since no agent steps (10_state.md R46). -/
def raiseFault (f : Fault) (s : State) : Res := .next { s with fault := some f }

/-- The sequencer stands at a line the command does not have (log 9). -/
def strayPoint : Res := .refused .strayPoint

/-- The ownership check (42_peripheral_access.md R136). -/
def requireOwned (p : PeriphId) (s : State) (rest : Res) : Res :=
  if s.isTaken p then rest else raiseFault .notOwned s

/-- `prelude(k)`: ownership, then clock gate (43_bus_engine.md R146). -/
def prelude (k : InstId) (s : State) (rest : Res) : Res :=
  if s.instTaken k then
    if s.clocked k then rest else raiseFault .clockGated s
  else raiseFault .notOwned s

/-! Shared bodies. Each performs one micro-step of the body at the given line; `done` is what follows the body. -/

/-- A CR1 field write: one micro-step reads the word, the next writes it back with the field replaced (20_memory.md
R62). `at_` names the lines of the enclosing command. -/
def cr1Write (k : InstId) (f : Cr1 → Cr1) (at_ : Rmw → Point) (r : Rmw) (s : State) (done : State → Res) : Res :=
  match r with
  | .read => .next (s.goto (at_ (.write (s.regs k).cr1)))
  | .write w => done (s.writeCr1 k (f w))

/-- One iteration of a poll loop that checks errors on the snapshot of SR1 (43_bus_engine.md R158, R159). -/
def pollFlags (err : Option Status) (flag : Bool) (s : State) (done : State → Res) : Res :=
  match pollWith s.par.checkOrder err flag with
  | .error e => raiseStatus e s
  | .success => done s
  | .again => .next s

/-- `start_body` (43_bus_engine.md R160). -/
def startBody (k : InstId) (p : StartPoint) (s : State) (done : State → Res) : Res :=
  match p with
  | .busFree => .next (if (s.regs k).sr2.busy then s else s.goto (.startBody (.request .read)))
  | .request r => cr1Write k (fun w => { w with start := true }) (fun r => .startBody (.request r)) r s
      fun t => .next (t.goto (.startBody .wait))
  | .wait => pollFlags (s.regs k).sr1.startErrs (s.regs k).sr1.sb s fun t => done ((t.consumeSb k).setPhase .started)

/-- `address_body` (43_bus_engine.md R161). -/
def addressBody (k : InstId) (addr : BitVec 7) (d : Dir) (p : PutPoint) (s : State) (done : State → Res) : Res :=
  match p with
  | .put => .next ((s.writeDr k (addressByte addr d)).goto (.addressBody .wait))
  | .wait => pollFlags (s.regs k).sr1.errs (s.regs k).sr1.addr s fun t =>
      done ((t.consumeAddr k).setPhase .addressPhase)

/-- `write_byte_body` (43_bus_engine.md R162). -/
def writeByteBody (k : InstId) (b : Byte) (p : PutPoint) (s : State) (done : State → Res) : Res :=
  match p with
  | .put => .next ((s.writeDr k b).goto (.writeBody .wait))
  | .wait => pollFlags (s.regs k).sr1.errs (s.regs k).sr1.txe s fun t => done (t.setPhase .dataPhase)

/-- `wait_btf` (43_bus_engine.md R169). -/
def waitBtf (k : InstId) (s : State) (done : State → Res) : Res :=
  pollFlags (s.regs k).sr1.errs (s.regs k).sr1.btf s done

/-- `read_byte_body`: the wait checks no error (43_bus_engine.md R163, R166). `done` gets the byte read. -/
def readByteBody (k : InstId) (at_ : TakePoint → Point) (p : TakePoint) (s : State) (done : Byte → State → Res) : Res :=
  match p with
  | .wait => .next (if (s.regs k).sr1.rxne then s.goto (at_ .take) else s)
  | .take => done (s.regs k).drRx ((s.afterDrRead k).setPhase .dataPhase)

/-- `stop_body`: STOP is set and nothing is polled (43_bus_engine.md R164, R167). -/
def stopBody (k : InstId) (r : Rmw) (s : State) (done : State → Res) : Res :=
  cr1Write k (fun w => { w with stop := true }) .stopBody r s fun t => done (t.setPhase .stopped)

/-- `CR1.ACK <- b` (44_bus_transactions.md R183). -/
def ackWrite (k : InstId) (b : Bool) (at_ : Rmw → Point) (r : Rmw) (s : State) (done : State → Res) : Res :=
  cr1Write k (fun w => { w with ack := b }) at_ r s done

/-- The next command of the list (10_state.md R22, 20_memory.md R71). -/
def State.fetch (s : State) : Option Command := s.commands[s.cptr]?

/-- Sets the fault register and the sequencer aside and puts command `c` under CPTR with the next turn SEQ's, so that
the next step fetches and runs it (for the host's `withFetchWord`, log 22). -/
def State.placeCommand (s : State) (c : Command) : State :=
  { s with
    seq := Sequencer.idle
    fault := none
    agenda := .seq :: s.agenda
    commands := s.commands.take s.cptr ++ List.replicate (s.cptr - s.commands.length) c ++
      c :: s.commands.drop (s.cptr + 1) }

end Sys2Proof.Machine
end

