-- ==== Sys2Proof/Machine/Agents.lean ====
section
/-! DEFINITION. The agents other than the sequencer: the oscillator agent (40_clocktree.md R108 to R110) and the bus
agents under both environments (43_bus_engine.md R171 to R173, 42_peripheral_access.md R139 (b), R141). A step that its
rule does not allow in the state changes nothing: the agent was not obliged to step (log 17). -/

namespace Sys2Proof.Machine

/-- Whether the rule of an OSC step allows it (40_clocktree.md R108, R110). R108 is followed where R102 (c) and R112 (b) say
less: an input oscillator that is off and still ready, as a `RESET_STATE` may have it, lets PLLRDY rise (log 36). -/
def oscEnabled (a : Config.OscStep) (s : State) : Bool :=
  match a with
  | .hsiReady => s.cc.cr.hsion && !s.cc.cr.hsirdy
  | .hseReady => s.cc.cr.hseon && !s.cc.cr.hserdy
  | .pllReady => s.cc.cr.pllon && !s.cc.cr.pllrdy &&
      (match s.cc.pllcfgr.pllsrc with
       | .hsi => s.cc.cr.hsirdy
       | .hse => s.cc.cr.hserdy)
  | .hsiLost => !s.cc.cr.hsion && s.cc.cr.hsirdy
  | .hseLost => !s.cc.cr.hseon && s.cc.cr.hserdy
  | .pllLost => !s.cc.cr.pllon && s.cc.cr.pllrdy
  | .confirmSwitch => s.cc.cfgr.sws != s.cc.cfgr.sw &&
      (match s.cc.cfgr.sw.toNat with
       | 0 => s.cc.cr.hsirdy
       | 1 => s.cc.cr.hserdy
       | 2 => s.cc.cr.pllrdy
       | _ => false)

/-- What an allowed OSC step writes: one ready flag, or SWS (40_clocktree.md R108 to R110). -/
def oscEffect (a : Config.OscStep) (s : State) : State :=
  match a with
  | .hsiReady => s.setCr { s.cc.cr with hsirdy := true }
  | .hseReady => s.setCr { s.cc.cr with hserdy := true }
  | .pllReady => s.setCr { s.cc.cr with pllrdy := true }
  | .hsiLost => s.setCr { s.cc.cr with hsirdy := false }
  | .hseLost => s.setCr { s.cc.cr with hserdy := false }
  | .pllLost => s.setCr { s.cc.cr with pllrdy := false }
  | .confirmSwitch => s.setCfgr { s.cc.cfgr with sws := s.cc.cfgr.sw }

/-- A turn of the oscillator agent. -/
def oscStep (a : Config.OscStep) (s : State) : State := if oscEnabled a s then oscEffect a s else s

/-- A direction is waiting for its acknowledge (43_bus_engine.md R173). -/
def Pending.isAddr (p : Pending) : Bool :=
  match p with
  | .addr _ => true
  | .none => false
  | .tx => false
  | .rx => false

/-- Whether L9 may generate the stop (43_bus_engine.md R173 L9). -/
def stopAllowed (r : BusRegs) (h : BusLine) : Bool :=
  r.cr1.stop && (!r.sr2.msl ||
    (h.line == .ours && (h.pending != .rx || h.stopSeenRx || r.sr1.rxne)))

/-- Whether the rule of a bus step allows it on the registers and hidden state of its instance, given the environment
and whether the instance's clock is on (43_bus_engine.md R171, R173; R141 for `drift`, log 14). The steps of R173 are
followed where R174 says less: L7 leaves a transfer pending, so after it L11 and L1 may free the bus (R174 (b)), and L10
and L11 may end an address that nobody acknowledges (R174 (c); log 30). They are followed where R168 says that a phase out
of order hangs: L4, L5, L7, L10 and L11 may end it (log 34). -/
def busEnabled (env : Config.Env) (clocked : Bool) (a : Config.BusStep) (r : BusRegs) (h : BusLine) : Bool :=
  match a with
  | .any _ _ _ _ _ => env == .free && clocked
  | .trafficBusy => env == .lawful && clocked && h.line != .ours
  | .trafficIdle => env == .lawful && clocked && h.line != .ours
  | .startDone => env == .lawful && clocked && r.cr1.pe && r.cr1.start && h.line != .other
  | .addrAck => env == .lawful && clocked && r.cr1.pe && h.pending.isAddr
  | .addrNack => env == .lawful && clocked && r.cr1.pe && h.pending.isAddr
  | .shiftOut => env == .lawful && clocked && r.cr1.pe && h.pending == .tx && !r.sr1.addr && !r.sr1.txe
  | .byteDone => env == .lawful && clocked && r.cr1.pe && h.pending == .tx && r.sr1.txe && h.dataWritten
  | .dataNack => env == .lawful && clocked && r.cr1.pe && h.pending == .tx && h.dataWritten
  | .receive _ => env == .lawful && clocked && r.cr1.pe && h.pending == .rx && !r.sr1.addr && !r.sr1.rxne &&
      !h.stopSeenRx
  | .stopDone => env == .lawful && clocked && r.cr1.pe && stopAllowed r h
  | .busError => env == .lawful && clocked && r.cr1.pe && h.line != .idle
  | .arbLost => env == .lawful && clocked && r.cr1.pe && (h.pending.isAddr || h.pending == .tx)
  | .drift _ => env == .lawful && !clocked && h.line != .ours

/-- What an allowed bus step does to the registers of its instance (43_bus_engine.md R171 to R173). -/
def busRegsEffect (a : Config.BusStep) (r : BusRegs) (h : BusLine) : BusRegs :=
  match a with
  | .any sr1 sr2 dr clearStart clearStop =>
    { r with
      sr1 := { Sr1.ofWord sr1 with sb := (Sr1.ofWord sr1).sb || clearStart }
      sr2 := Sr2.ofWord sr2
      drRx := dr
      cr1 := { r.cr1 with start := r.cr1.start && !clearStart, stop := r.cr1.stop && !clearStop } }
  | .trafficBusy => { r with sr2 := { r.sr2 with busy := true } }
  | .trafficIdle => { r with sr2 := { r.sr2 with busy := false } }
  | .startDone =>
    { r with
      cr1 := { r.cr1 with start := false }
      sr1 := { r.sr1 with sb := true }
      sr2 := { r.sr2 with msl := true, busy := true } }
  | .addrAck =>
    match h.pending with
    | .addr rw =>
      { r with
        sr1 := { r.sr1 with addr := true, txe := r.sr1.txe || !rw }
        sr2 := { r.sr2 with tra := !rw } }
    | .none => r
    | .tx => r
    | .rx => r
  | .addrNack => { r with sr1 := { r.sr1 with af := true } }
  | .shiftOut => { r with sr1 := { r.sr1 with txe := true } }
  | .byteDone => { r with sr1 := { r.sr1 with btf := true } }
  | .dataNack => { r with sr1 := { r.sr1 with af := true } }
  | .receive b => { r with drRx := b, sr1 := { r.sr1 with rxne := true } }
  | .stopDone =>
    { r with
      cr1 := { r.cr1 with stop := false }
      sr1 := { r.sr1 with txe := false, btf := false }
      sr2 := { r.sr2 with msl := false, busy := false } }
  | .busError => { r with sr1 := { r.sr1 with berr := true } }
  | .arbLost => { r with sr1 := { r.sr1 with arlo := true }, sr2 := { r.sr2 with msl := false } }
  | .drift _ => r

/-- What an allowed bus step does to the hidden state of its instance (43_bus_engine.md R173; with MSL = 0 the
stop leaves `line` as it is, L9, log 13). -/
def busLineEffect (a : Config.BusStep) (r : BusRegs) (h : BusLine) : BusLine :=
  match a with
  | .any _ _ _ _ _ => h
  | .trafficBusy => { h with line := .other }
  | .trafficIdle => { h with line := .idle }
  | .startDone => { h with line := .ours, pending := .none, expectAddr := true }
  | .addrAck =>
    match h.pending with
    | .addr rw => { h with pending := if rw then .rx else .tx, dataWritten := false }
    | .none => h
    | .tx => h
    | .rx => h
  | .addrNack => { h with pending := .none }
  | .shiftOut => { h with dataWritten := true }
  | .byteDone => h
  | .dataNack => h
  | .receive _ => { h with stopSeenRx := h.stopSeenRx || r.cr1.stop }
  | .stopDone => { h with line := if r.sr2.msl then .idle else h.line, pending := .none, stopSeenRx := false }
  | .busError => h
  | .arbLost => { h with line := .other, pending := .none }
  | .drift busy => { h with line := if busy then .other else .idle }

/-- Whether BUS[k] may take a step of its environment at all: there is an instance k, and its reset bit is not set
(42_peripheral_access.md R139 (b), R141; 43_bus_engine.md R171, R173). -/
def busAllowed (k : InstId) (a : Config.BusStep) (s : State) : Bool :=
  decide (k.val < s.par.ni2c) && !s.heldInReset k && busEnabled s.par.env (s.clocked k) a (s.regs k) (s.hidden k)

/-- A turn of BUS[k]: one atomic change of its registers and hidden state. -/
def busStep (k : InstId) (a : Config.BusStep) (s : State) : State :=
  if busAllowed k a s then
    (s.setRegs k (busRegsEffect a (s.regs k) (s.hidden k))).setHidden k (busLineEffect a (s.regs k) (s.hidden k))
  else s

/-- Whose turn it is: the first of the agenda, or a turn the world draws (log 3). -/
def State.nextTurn (s : State) : Config.Turn :=
  match s.agenda with
  | t :: _ => t
  | [] => Config.freeTurn s.draws

/-- The state once its next turn is determined: the turn leaves the agenda, or one draw is used up (log 3). -/
def State.takeTurn (s : State) : State :=
  match s.agenda with
  | _ :: ts => { s with agenda := ts }
  | [] => { s with draws := s.draws + 1 }

end Sys2Proof.Machine
end

