-- ==== Sys2Proof/Machine/ClockTree.lean ====
section
/-! DEFINITION. The ClockTree commands and the frequency derivation (40_clocktree.md, 10_state.md R29 to R31).
Frequencies are computed exactly, over the naturals (00_scope.md R9), and are u32 values (R105 (d)). -/

namespace Sys2Proof.Machine

/-- `sat32(v)` (00_scope.md R9). -/
def sat32 (v : Nat) : Nat := min v (2 ^ 32 - 1)

/-- The AHB prescaler divisor (10_state.md R29). -/
def hpreDiv (c : BitVec 4) : Nat :=
  match c.toNat with
  | 8 => 2
  | 9 => 4
  | 10 => 8
  | 11 => 16
  | 12 => 64
  | 13 => 128
  | 14 => 256
  | 15 => 512
  | _ => 1

/-- The APB prescaler divisor (10_state.md R30). -/
def ppreDiv (c : BitVec 3) : Nat :=
  match c.toNat with
  | 4 => 2
  | 5 => 4
  | 6 => 8
  | 7 => 16
  | _ => 1

/-- The PLL post-divider divisor (10_state.md R31). -/
def pllpDiv (c : BitVec 2) : Nat := 2 * c.toNat + 2

/-- `pll_in()` (40_clocktree.md R96). -/
def pllIn (s : State) : Nat :=
  match s.cc.pllcfgr.pllsrc with
  | .hsi => s.par.hsiHz.toNat
  | .hse => s.par.hseHz.toNat

/-- `pll_out()`: pre-divide, multiply with saturation, post-divide (40_clocktree.md R96). -/
def pllOut (s : State) : Except Fault Nat :=
  if s.cc.pllcfgr.pllm = 0#6 then .error .divZero
  else .ok (sat32 (pllIn s / s.cc.pllcfgr.pllm.toNat * s.cc.pllcfgr.plln.toNat) / pllpDiv s.cc.pllcfgr.pllp)

/-- `src_freq(s)` on a code of SWS (40_clocktree.md R96; SWS = 3: 10_state.md R28). -/
def srcFreq (s : State) (code : BitVec 2) : Except Fault Nat :=
  match code.toNat with
  | 0 => .ok s.par.hsiHz.toNat
  | 1 => .ok s.par.hseHz.toNat
  | 2 => pllOut s
  | _ => .error .swsReserved

/-- Divides a frequency, if there is one. -/
def divFreq (f : Except Fault Nat) (d : Nat) : Except Fault Nat :=
  match f with
  | .ok v => .ok (v / d)
  | .error e => .error e

/-- `sysclk()`: the source in use is the one SWS names (40_clocktree.md R96). -/
def sysclk (s : State) : Except Fault Nat := srcFreq s s.cc.cfgr.sws

/-- `hclk()` (40_clocktree.md R96). -/
def hclk (s : State) : Except Fault Nat := divFreq (sysclk s) (hpreDiv s.cc.cfgr.hpre)

/-- `pclk1()` (40_clocktree.md R96). -/
def pclk1 (s : State) : Except Fault Nat := divFreq (hclk s) (ppreDiv s.cc.cfgr.ppre1)

/-- `pclk2()` (40_clocktree.md R96). -/
def pclk2 (s : State) : Except Fault Nat := divFreq (hclk s) (ppreDiv s.cc.cfgr.ppre2)

/-- `pclk_of(PCLK_SRC)` (43_bus_engine.md R149). -/
def pclkOf (s : State) : Except Fault Nat :=
  match s.par.pclkSrc with
  | .apb1 => pclk1 s
  | .apb2 => pclk2 s

/-- A frequency query: the whole derivation is one micro-step (40_clocktree.md R95). -/
def returnFreq (f : Except Fault Nat) (s : State) : Res :=
  match f with
  | .ok v => returnValue (BitVec.ofNat 32 v) s
  | .error e => raiseFault e s

/-- `CLK_SYSFREQ` (40_clocktree.md R97). -/
def execClkSysfreq (s : State) : Res :=
  match s.seq.point with
  | .start => returnFreq (sysclk s) s
  | _ => strayPoint

/-- `CLK_AHBFREQ` (40_clocktree.md R98). -/
def execClkAhbfreq (s : State) : Res :=
  match s.seq.point with
  | .start => returnFreq (hclk s) s
  | _ => strayPoint

/-- `CLK_APB1FREQ` (40_clocktree.md R99). -/
def execClkApb1freq (s : State) : Res :=
  match s.seq.point with
  | .start => returnFreq (pclk1 s) s
  | _ => strayPoint

/-- `CLK_APB2FREQ` (40_clocktree.md R100). -/
def execClkApb2freq (s : State) : Res :=
  match s.seq.point with
  | .start => returnFreq (pclk2 s) s
  | _ => strayPoint

/-- Sets the enable bit of a source, and no other bit (40_clocktree.md R102). -/
def Cr.enable (r : Cr) (src : Source) : Cr :=
  match src with
  | .hsi => { r with hsion := true }
  | .hse => { r with hseon := true }
  | .pll => { r with pllon := true }

/-- The ready flag of a source (10_state.md R25). -/
def Cr.ready (r : Cr) (src : Source) : Bool :=
  match src with
  | .hsi => r.hsirdy
  | .hse => r.hserdy
  | .pll => r.pllrdy

/-- `CLK_CONFIG` (40_clocktree.md R102): the no-op, or enable, await ready, write the prescalers, switch, await the
confirmation. -/
def execClkConfig (src : Source) (hpre : BitVec 4) (ppre1 ppre2 : BitVec 3) (s : State) : Res :=
  match s.seq.point with
  | .start =>
    if s.cc.cfgr.sws = src.code then returnValue 0#32 s
    else .next (s.enter (.clkConfig src hpre ppre1 ppre2) (.config .enable))
  | .config .enable => .next ((s.setCr (s.cc.cr.enable src)).goto (.config .ready))
  | .config .ready => .next (if s.cc.cr.ready src then s.goto (.config .prescale) else s)
  | .config .prescale =>
    .next ((s.setCfgr { s.cc.cfgr with hpre := hpre, ppre1 := ppre1, ppre2 := ppre2 }).goto (.config .switch))
  | .config .switch => .next ((s.setCfgr { s.cc.cfgr with sw := src.code }).goto (.config .confirm))
  | .config .confirm => if s.cc.cfgr.sws = src.code then returnValue 0#32 s else .next s
  | _ => strayPoint

/-- `CLK_PLLCONFIG` (40_clocktree.md R104). -/
def execClkPllconfig (src : PllInput) (m : BitVec 6) (n : BitVec 9) (pcode : BitVec 2) (s : State) : Res :=
  match s.seq.point with
  | .start =>
    if s.cc.cr.pllon then raiseFault .pllBusy s else .next (s.enter (.clkPllconfig src m n pcode) .commit)
  | .commit => returnValue 0#32 (s.setPllcfgr ⟨m, n, pcode, src⟩)
  | _ => strayPoint

end Sys2Proof.Machine
end

