-- ==== Sys2Proof/Machine/BusEngine.lean ====
section
/-! DEFINITION. `I2C_INIT` with its timing derivation, and the five protocol phases as commands (43_bus_engine.md). -/

namespace Sys2Proof.Machine

/-- The divider of a speed mode (43_bus_engine.md R150). -/
def dividerOf (speed : Speed) (pclk f : Nat) : Nat :=
  match speed with
  | .standard => pclk / f / 2
  | .fast2 => pclk / f / 3
  | .fast169 => pclk / f / 25

/-- The rise time of a speed mode (43_bus_engine.md R151). -/
def riseOf (speed : Speed) (pclk : Nat) : Nat :=
  match speed with
  | .standard => pclk / 1000000 + 1
  | .fast2 => pclk * 3 / 10000000 + 1
  | .fast169 => pclk * 3 / 10000000 + 1

/-- Whether the target frequency suits the speed mode, against `STD_MAX_HZ` (43_bus_engine.md R148, 00_scope.md R6). -/
def freqValid (par : Config.Params) (speed : Speed) (f : Nat) : Bool :=
  match speed with
  | .standard => f ≤ par.stdMaxHz.toNat
  | .fast2 => par.stdMaxHz.toNat < f
  | .fast169 => par.stdMaxHz.toNat < f

/-- `FS` of a speed mode (43_bus_engine.md R154). -/
def fsOf (speed : Speed) : Bool :=
  match speed with
  | .standard => false
  | .fast2 => true
  | .fast169 => true

/-- `DUTY` of a speed mode (43_bus_engine.md R154). -/
def dutyOf (speed : Speed) : Bool :=
  match speed with
  | .standard => false
  | .fast2 => false
  | .fast169 => true

/-- The range check of the derived timing (43_bus_engine.md R152). -/
def timingFits (par : Config.Params) (div rise : Nat) : Bool :=
  div != 0 && decide (div ≤ par.divMax.toNat) && decide (rise ≤ par.riseMax.toNat)

/-- The line after the rise time: the own addresses of the slave modes, or PE (43_bus_engine.md R155, R156). -/
def afterRise (mode : BusMode) : InitPoint :=
  match mode with
  | .master => .enable .read
  | .slave1 => .own1
  | .slave2 => .own1

/-- The line after OAR1 (43_bus_engine.md R155, R156). -/
def afterOwn1 (mode : BusMode) : InitPoint :=
  match mode with
  | .master => .enable .read
  | .slave1 => .enable .read
  | .slave2 => .own2

/-- The micro-steps of `I2C_INIT` after its first (43_bus_engine.md R156). -/
def initStep (k : InstId) (speed : Speed) (mode : BusMode) (own1 own2 : BitVec 7) (freq : Word) (p : InitPoint)
    (s : State) : Res :=
  match p with
  | .clock =>
    match pclkOf s with
    | .error e => raiseFault e s
    | .ok pclk =>
      if timingFits s.par (dividerOf speed pclk freq.toNat) (riseOf speed pclk) then
        .next (s.goto (.init (.divider (BitVec.ofNat 12 (dividerOf speed pclk freq.toNat))
          (BitVec.ofNat 6 (riseOf speed pclk)))))
      else raiseFault .timingRange s
  | .divider div rise => .next ((s.writeCcr k ⟨div, dutyOf speed, fsOf speed⟩).goto (.init (.riseTime rise)))
  | .riseTime rise => .next ((s.writeTrise k rise).goto (.init (afterRise mode)))
  | .own1 => .next ((s.writeOar1 k own1).goto (.init (afterOwn1 mode)))
  | .own2 => .next ((s.writeOar2 k ⟨true, own2⟩).goto (.init (.enable .read)))
  | .enable r => cr1Write k (fun w => { w with pe := true }) (fun r => .init (.enable r)) r s
      fun t => .next (t.goto (.init (.ack .read)))
  | .ack r => ackWrite k true (fun r => .init (.ack r)) r s (returnValue 0#32)

/-- `I2C_INIT` (43_bus_engine.md R156): its checks in the order of 60_exceptions.md R195, then its writes. -/
def execI2cInit (k : InstId) (speed : Speed) (mode : BusMode) (own1 own2 : BitVec 7) (freq : Word) (s : State) : Res :=
  match s.seq.point with
  | .start => prelude k s
      (if freqValid s.par speed freq.toNat then
        if freq = 0#32 then raiseFault .divZero s
        else if (s.regs k).cr1.pe then raiseFault .reinit s
        else .next (s.enter (.i2cInit k speed mode own1 own2 freq) (.init .clock))
      else raiseStatus .initError s)
  | .init p => initStep k speed mode own1 own2 freq p s
  | _ => strayPoint

/-- `I2C_START` (43_bus_engine.md R160). -/
def execI2cStart (k : InstId) (s : State) : Res :=
  match s.seq.point with
  | .start => prelude k s (.next (s.enter (.i2cStart k) (.startBody .busFree)))
  | .startBody p => startBody k p s (returnValue 0#32)
  | _ => strayPoint

/-- `I2C_ADDR` (43_bus_engine.md R161). -/
def execI2cAddr (k : InstId) (addr : BitVec 7) (rw : Dir) (s : State) : Res :=
  match s.seq.point with
  | .start => prelude k s (.next (s.enter (.i2cAddr k addr rw) (.addressBody .put)))
  | .addressBody p => addressBody k addr rw p s (returnValue 0#32)
  | _ => strayPoint

/-- `I2C_WRBYTE` (43_bus_engine.md R162). -/
def execI2cWrbyte (k : InstId) (data : Byte) (s : State) : Res :=
  match s.seq.point with
  | .start => prelude k s (.next (s.enter (.i2cWrbyte k data) (.writeBody .put)))
  | .writeBody p => writeByteBody k data p s (returnValue 0#32)
  | _ => strayPoint

/-- `I2C_RDBYTE` (43_bus_engine.md R163). -/
def execI2cRdbyte (k : InstId) (s : State) : Res :=
  match s.seq.point with
  | .start => prelude k s (.next (s.enter (.i2cRdbyte k) (.readBody .wait)))
  | .readBody p => readByteBody k .readBody p s fun b t => returnValue (b.setWidth 32) t
  | _ => strayPoint

/-- `I2C_STOP` (43_bus_engine.md R164). -/
def execI2cStop (k : InstId) (s : State) : Res :=
  match s.seq.point with
  | .start => prelude k s (.next (s.enter (.i2cStop k) (.stopBody .read)))
  | .stopBody r => stopBody k r s (returnValue 0#32)
  | _ => strayPoint

end Sys2Proof.Machine
end

