-- ==== Sys2Proof/Machine/Packer.lean ====
section
/-! DEFINITION. The BitfieldPacker and the PinMask commands (41_bitfield_packer.md). Each is one micro-step and reads
and writes no state but CPTR, RESULTS and, on a fault, FAULT (R115). -/

namespace Sys2Proof.Machine

/-- The 32-bit image with ones in bits `i*w + w - 1` to `i*w`: the slot of lane i (41_bitfield_packer.md R116). -/
def slotMask (w i : Nat) : Word := BitVec.ofNat 32 ((2 ^ w - 1) * 2 ^ (i * w))

/-- `r[i*w + w - 1 : i*w] <- v` (41_bitfield_packer.md R116). -/
def writeSlot (w : Nat) (v : Word) (i : Nat) (r : Word) : Word :=
  (r &&& ~~~(slotMask w i)) ||| ((v <<< (i * w)) &&& slotMask w i)

/-- The lane loop of `PACK`: the lanes `i`, `i+1`, … for `fuel` lanes (41_bitfield_packer.md R116). -/
def packLanes (w : Nat) (v : Word) (m : BitVec 16) (fuel i : Nat) (r : Word) : Except Fault Word :=
  match fuel with
  | 0 => .ok r
  | fuel + 1 =>
    if m.getLsbD i then
      if (i + 1) * w > 32 then .error .packRange
      else packLanes w v m fuel (i + 1) (writeSlot w v i r)
    else packLanes w v m fuel (i + 1) r

/-- `pack(existing_bits, value, lane_mask, field_width)` with its checks in the order of the pseudocode
(41_bitfield_packer.md R116, 60_exceptions.md R195). -/
def pack (w : Nat) (existing value : Word) (m : BitVec 16) : Except Fault Word :=
  if w = 0 ∨ w > 32 then .error .packRange
  else if value.toNat ≥ 2 ^ w then .error .packValue
  else packLanes w value m 16 0 existing

/-- A packer command ends in its value or its fault, in its only micro-step (41_bitfield_packer.md R115). -/
def returnPure (r : Except Fault Word) (s : State) : Res :=
  match s.seq.point with
  | .start =>
    match r with
    | .ok v => returnValue v s
    | .error f => raiseFault f s
  | _ => strayPoint

/-- `PACK` (41_bitfield_packer.md R116). -/
def execPack (w : BitVec 6) (existing value laneMask : Word) (s : State) : Res :=
  returnPure (pack w.toNat existing value (maskOf laneMask)) s

/-- `MASK_NEW` (41_bitfield_packer.md R118). -/
def execMaskNew (a : Word) (s : State) : Res := returnPure (.ok (ofMask (maskOf a))) s

/-- `MASK_UNION` (41_bitfield_packer.md R119). -/
def execMaskUnion (a b : Word) (s : State) : Res := returnPure (.ok (ofMask (maskOf a ||| maskOf b))) s

/-- `MASK_INTERSECT` (41_bitfield_packer.md R120). -/
def execMaskIntersect (a b : Word) (s : State) : Res := returnPure (.ok (ofMask (maskOf a &&& maskOf b))) s

/-- `MASK_COMPLEMENT`, within 16 bits (41_bitfield_packer.md R121). -/
def execMaskComplement (a : Word) (s : State) : Res := returnPure (.ok (ofMask (~~~(maskOf a)))) s

/-- `MASK_XOR` (41_bitfield_packer.md R122). -/
def execMaskXor (a b : Word) (s : State) : Res := returnPure (.ok (ofMask (maskOf a ^^^ maskOf b))) s

/-- `MASK_SET` (41_bitfield_packer.md R123). -/
def execMaskSet (lane : BitVec 4) (a : Word) (s : State) : Res :=
  returnPure (.ok (ofMask (maskOf a ||| laneBit lane))) s

/-- `MASK_RESET` (41_bitfield_packer.md R124). -/
def execMaskReset (lane : BitVec 4) (a : Word) (s : State) : Res :=
  returnPure (.ok (ofMask (maskOf a &&& ~~~(laneBit lane)))) s

/-- `MASK_ISSET` (41_bitfield_packer.md R125). -/
def execMaskIsset (lane : BitVec 4) (a : Word) (s : State) : Res :=
  returnPure (.ok (if (maskOf a).getLsbD lane.toNat then 1#32 else 0#32)) s

end Sys2Proof.Machine
end

