-- ==== Sys2Proof/Machine/Peripheral.lean ====
section
/-! DEFINITION. The PeripheralAccess commands (42_peripheral_access.md). -/

namespace Sys2Proof.Machine

/-- `PER_TAKE` (42_peripheral_access.md R135). -/
def execPerTake (p : PeriphId) (s : State) : Res :=
  match s.seq.point with
  | .start => if s.isTaken p then raiseFault .doubleTake s else .next (s.enter (.perTake p) .commit)
  | .commit => returnValue 0#32 (s.setTaken p)
  | _ => strayPoint

/-- `PER_ENCLK` (42_peripheral_access.md R137). -/
def execPerEnclk (p : PeriphId) (s : State) : Res :=
  match s.seq.point with
  | .start => requireOwned p s (.next (s.enter (.perEnclk p) .commit))
  | .commit => returnValue 0#32 (s.setEnabled p true)
  | _ => strayPoint

/-- `PER_DISCLK` (42_peripheral_access.md R138). -/
def execPerDisclk (p : PeriphId) (s : State) : Res :=
  match s.seq.point with
  | .start => requireOwned p s (.next (s.enter (.perDisclk p) .commit))
  | .commit => returnValue 0#32 (s.setEnabled p false)
  | _ => strayPoint

/-- `PER_RESET`: assert, then deassert (42_peripheral_access.md R139). -/
def execPerReset (p : PeriphId) (s : State) : Res :=
  match s.seq.point with
  | .start => requireOwned p s (.next (s.enter (.perReset p) .assertReset))
  | .assertReset => .next ((s.assertReset p).goto .deassertReset)
  | .deassertReset => returnValue 0#32 (s.deassertReset p)
  | _ => strayPoint

end Sys2Proof.Machine
end

