-- ==== Sys2Proof/Machine/Transactions.lean ====
section
/-! DEFINITION. The composite bus transactions (44_bus_transactions.md). A body that raises a status ends the whole
command with it (R187). -/

namespace Sys2Proof.Machine

/-- What follows the wait of byte `SEQ.i` of an `I2C_WRITE`: the next byte, or the BTF wait (44_bus_transactions.md
R180). -/
def afterByteWritten (n : Nat) (s : State) : Res :=
  if s.seq.i + 1 < n then .next ((s.setIndex (s.seq.i + 1)).goto (.writeBody .put)) else .next (s.goto .btfWait)

/-- `I2C_WRITE` (44_bus_transactions.md R180). -/
def execI2cWrite (k : InstId) (addr : BitVec 7) (n : BitVec 12) (ops : List Word) (s : State) : Res :=
  match s.seq.point with
  | .start => prelude k s
      (if n = 0#12 then raiseFault .zeroLength s
      else .next (s.enter (.i2cWrite k addr n ops) (.startBody .busFree)))
  | .startBody p => startBody k p s fun t => .next (t.goto (.addressBody .put))
  | .addressBody p => addressBody k addr .write p s fun t => .next ((t.setIndex 0).goto (.writeBody .put))
  | .writeBody p => writeByteBody k (dataByte ops s.seq.i) p s (afterByteWritten n.toNat)
  | .btfWait => waitBtf k s fun t => .next (t.goto (.stopBody .read))
  | .stopBody r => stopBody k r s (returnValue 0#32)
  | _ => strayPoint

/-- What follows the address phase of an `I2C_READ` (44_bus_transactions.md R183, R185). -/
def afterReadAddress (n : Nat) (s : State) : Res :=
  if 1 < n then .next ((s.setIndex 0).goto (.ackOn .read)) else .next ((s.setIndex (n - 1)).goto (.ackOff .read))

/-- What follows byte `SEQ.i` of the first N - 1 bytes of an `I2C_READ` (44_bus_transactions.md R183, R186). -/
def afterByteRead (n : Nat) (s : State) : Res :=
  if s.seq.i + 2 < n then .next ((s.setIndex (s.seq.i + 1)).goto (.readBody .wait))
  else .next ((s.setIndex (n - 1)).goto (.ackOff .read))

/-- `I2C_READ` (44_bus_transactions.md R183). -/
def execI2cRead (k : InstId) (addr : BitVec 7) (n : BitVec 12) (s : State) : Res :=
  match s.seq.point with
  | .start => prelude k s
      (if n = 0#12 then raiseFault .zeroLength s else .next (s.enter (.i2cRead k addr n) .saveAck))
  | .saveAck => .next ((s.saveAck (s.regs k).cr1.ack).goto (.startBody .busFree))
  | .startBody p => startBody k p s fun t => .next (t.goto (.addressBody .put))
  | .addressBody p => addressBody k addr .read p s (afterReadAddress n.toNat)
  | .ackOn r => ackWrite k true .ackOn r s fun t => .next (t.goto (.readBody .wait))
  | .readBody p => readByteBody k .readBody p s fun b t => afterByteRead n.toNat (t.pushByte b)
  | .ackOff r => ackWrite k false .ackOff r s fun t => .next (t.goto (.stopBody .read))
  | .stopBody r => stopBody k r s fun t => .next (t.goto (.lastBody .wait))
  | .lastBody p => readByteBody k .lastBody p s fun b t => .next ((t.pushByte b).goto (.restoreAck .read))
  | .restoreAck r => ackWrite k s.seq.savedAck .restoreAck r s fun t => .next (t.finish .ok 0#32 t.seq.buf)
  | _ => strayPoint

end Sys2Proof.Machine
end

