-- ==== Sys2Proof/Machine/Dispatch.lean ====
section
/-! DEFINITION. One micro-step of a command: `exec` calls the command's meaning, which performs the line of its
pseudocode that `SEQ` stands at (00_scope.md R11, 30_encoding.md R86). -/

namespace Sys2Proof.Machine

def exec (i : Instr) (s : State) : Host.Outcome State Fault Refusal :=
  match i with
  | .clkSysfreq => Sys2Proof.Machine.execClkSysfreq s
  | .clkAhbfreq => Sys2Proof.Machine.execClkAhbfreq s
  | .clkApb1freq => Sys2Proof.Machine.execClkApb1freq s
  | .clkApb2freq => Sys2Proof.Machine.execClkApb2freq s
  | .clkConfig src hpre ppre1 ppre2 => Sys2Proof.Machine.execClkConfig src hpre ppre1 ppre2 s
  | .clkPllconfig src m n pcode => Sys2Proof.Machine.execClkPllconfig src m n pcode s
  | .pack w existing value laneMask => Sys2Proof.Machine.execPack w existing value laneMask s
  | .maskNew a => Sys2Proof.Machine.execMaskNew a s
  | .maskUnion a b => Sys2Proof.Machine.execMaskUnion a b s
  | .maskIntersect a b => Sys2Proof.Machine.execMaskIntersect a b s
  | .maskComplement a => Sys2Proof.Machine.execMaskComplement a s
  | .maskXor a b => Sys2Proof.Machine.execMaskXor a b s
  | .maskSet lane a => Sys2Proof.Machine.execMaskSet lane a s
  | .maskReset lane a => Sys2Proof.Machine.execMaskReset lane a s
  | .maskIsset lane a => Sys2Proof.Machine.execMaskIsset lane a s
  | .perTake p => Sys2Proof.Machine.execPerTake p s
  | .perEnclk p => Sys2Proof.Machine.execPerEnclk p s
  | .perDisclk p => Sys2Proof.Machine.execPerDisclk p s
  | .perReset p => Sys2Proof.Machine.execPerReset p s
  | .i2cInit k speed mode own1 own2 freq => Sys2Proof.Machine.execI2cInit k speed mode own1 own2 freq s
  | .i2cStart k => Sys2Proof.Machine.execI2cStart k s
  | .i2cAddr k addr rw => Sys2Proof.Machine.execI2cAddr k addr rw s
  | .i2cWrbyte k data => Sys2Proof.Machine.execI2cWrbyte k data s
  | .i2cRdbyte k => Sys2Proof.Machine.execI2cRdbyte k s
  | .i2cStop k => Sys2Proof.Machine.execI2cStop k s
  | .i2cWrite k addr n ops => Sys2Proof.Machine.execI2cWrite k addr n ops s
  | .i2cRead k addr n => Sys2Proof.Machine.execI2cRead k addr n s

end Sys2Proof.Machine
end

