-- ==== Sys2Proof/Machine/Sequencer.lean ====
section
/-! DEFINITION. One micro-step of the sequencer (10_state.md R21, R22, R45) and one turn of the interleaving
(20_memory.md R67). -/

namespace Sys2Proof.Machine

/-- The first micro-step of the next command: fetch and decode; a decode error ends the command (30_encoding.md R84,
60_exceptions.md R193). Past the end of the list SEQ has nothing to do (10_state.md R46, log 5). -/
def startCommand (s : State) : Res :=
  match s.fetch with
  | none => .next s
  | some c =>
    match decode s.par c with
    | .ok i => exec i s
    | .error _ => raiseStatus .decodeError s

/-- One micro-step of SEQ: of the command in progress, or the first of the next one. -/
def seqTurn (s : State) : Res :=
  match s.seq.cmd with
  | some i => exec i s
  | none => startCommand s

/-- One turn of the agent `t` names. -/
def runTurn (t : Config.Turn) (s : State) : Res :=
  match t with
  | .seq => seqTurn s
  | .osc a => .next (oscStep a s)
  | .bus k a => .next (busStep k a s)

/-- One step of the machine: a faulted block answers its fault and no agent steps (10_state.md R46, 60_exceptions.md
R198); otherwise the next turn is taken. -/
def stepMachine (s : State) : Res :=
  match s.fault with
  | some f => .fault f
  | none => runTurn s.nextTurn s.takeTurn

end Sys2Proof.Machine
end

