-- ==== Sys2Proof/Machine/Step.lean ====
section
/-! DEFINITION. The step function and the placing of a command for the host. What a step does stands in
Machine/Sequencer.lean. -/

namespace Sys2Proof.Machine

/-- One step: one turn of one agent (20_memory.md R67). -/
def step (s : State) : Host.Outcome State Fault Refusal := stepMachine s

/-- The command of an opcode-table word under CPTR, the next turn SEQ's (log 22). -/
def State.withFetchWord (s : State) (nbits w : Nat) : State := s.placeCommand (commandOfBits nbits w)

end Sys2Proof.Machine
end

