-- ==== Sys2Proof/Machine/RegSpace.lean ====
section
/-! DEFINITION. The register space (20_memory.md R54 to R65): the word of each register composed of its named fields
(R63), word accesses by address with their side effects (R60 to R64), and the little-endian bytes (R57). -/

namespace Sys2Proof.Machine

/-- The registers of one bus-controller block (10_state.md R35). -/
inductive BusReg where
  | cr1
  | cr2
  | oar1
  | oar2
  | dr
  | sr1
  | sr2
  | ccr
  | trise
deriving DecidableEq, Repr

/-- The words of the register space (20_memory.md R55). `gate off` is an enable or reset word that `PERIPH` names. -/
inductive Reg where
  | cr
  | pllcfgr
  | cfgr
  | gate (off : Nat)
  | bus (k : InstId) (r : BusReg)
deriving DecidableEq, Repr

/-- The offset of a register in its block (10_state.md R35). -/
def BusReg.offset (r : BusReg) : Nat :=
  match r with
  | .cr1 => 0x00
  | .cr2 => 0x04
  | .oar1 => 0x08
  | .oar2 => 0x0C
  | .dr => 0x10
  | .sr1 => 0x14
  | .sr2 => 0x18
  | .ccr => 0x1C
  | .trise => 0x20

/-- The address of a register (20_memory.md R55, R63), a natural number: a sum that passes 2^32 does not wrap (log 32). -/
def Reg.addr (par : Config.Params) (r : Reg) : Nat :=
  match r with
  | .cr => par.rccBase
  | .pllcfgr => par.rccBase + 0x04
  | .cfgr => par.rccBase + 0x08
  | .gate off => par.rccBase + off
  | .bus k b => par.i2cBase + k.val * par.i2cStride + b.offset

/-- The registers of a block, in address order. -/
def busRegs : List BusReg := [.cr1, .cr2, .oar1, .oar2, .dr, .sr1, .sr2, .ccr, .trise]

/-- The enable and reset bits `PERIPH` names, as (register offset, bit). -/
def gateBits (par : Config.Params) : List (Nat × Nat) :=
  (par.rows.map fun r => r.reset) ++ par.rows.map fun r => r.enable

/-- The enable and reset words `PERIPH` names, each once; CR, PLLCFGR and CFGR, which a wrong row may name, are not among
them (42_peripheral_access.md R142). -/
def gateRegs (par : Config.Params) : List Reg :=
  (((gateBits par).map fun b => b.1).filter fun off => off != 0x00 && off != 0x04 && off != 0x08).eraseDups.map Reg.gate

/-- The instances that exist, in order (00_scope.md R13). -/
def instances (par : Config.Params) : List InstId := (List.finRange Config.ids).filter fun k => instExists par k

/-- Every register of the register space (20_memory.md R55). -/
def allRegs (par : Config.Params) : List Reg :=
  [.cr, .pllcfgr, .cfgr] ++ gateRegs par ++ (instances par).flatMap fun k => busRegs.map (Reg.bus k)

/-- The register whose word stands at address `a`, if there is one (20_memory.md R55). There is none at an address that is
no multiple of 4 (R60, R61), whatever the bases are, nor at one of more than 32 bits (R54). Where the parameters give
several registers one address, the first of `allRegs` has it (log 32, DESIGN CHOICE). -/
def regAt (par : Config.Params) (a : Nat) : Option Reg :=
  if a % 4 = 0 ∧ a < 2 ^ 32 then (allRegs par).find? fun r => r.addr par == a else none

/-- The word of CR1 (10_state.md R36). -/
def Cr1.toWord (r : Cr1) : Word := bitAt r.pe 0 ||| bitAt r.start 8 ||| bitAt r.stop 9 ||| bitAt r.ack 10

/-- The fields a word of CR1 carries (10_state.md R36, R52). -/
def Cr1.ofWord (w : Word) : Cr1 := ⟨bitOf w 0, bitOf w 8, bitOf w 9, bitOf w 10⟩

/-- The word of OAR1 (10_state.md R37). -/
def oar1Word (a : BitVec 7) : Word := 0#24 ++ a ++ 0#1

/-- The word of OAR2 (10_state.md R37). -/
def Oar2.toWord (r : Oar2) : Word := 0#24 ++ r.add2 ++ BitVec.ofBool r.endual

/-- The fields a word of OAR2 carries (10_state.md R37, R52). -/
def Oar2.ofWord (w : Word) : Oar2 := ⟨bitOf w 0, w.extractLsb' 1 7⟩

/-- The word of the CCR register (10_state.md R41). -/
def Ccr.toWord (r : Ccr) : Word := 0#16 ++ BitVec.ofBool r.fs ++ BitVec.ofBool r.duty ++ 0#2 ++ r.ccr

/-- The fields a word of the CCR register carries (10_state.md R41, R52). -/
def Ccr.ofWord (w : Word) : Ccr := ⟨w.extractLsb' 0 12, bitOf w 14, bitOf w 15⟩

/-- The word of a register of instance k: its fields, reserved bits 0 (20_memory.md R60, R63); a read of DR takes the
byte last received (10_state.md R38, log 31); CR2 reads 0 (10_state.md R51). -/
def busWord (b : BusRegs) (r : BusReg) : Word :=
  match r with
  | .cr1 => b.cr1.toWord
  | .cr2 => 0#32
  | .oar1 => oar1Word b.oar1
  | .oar2 => b.oar2.toWord
  | .dr => b.drRx.setWidth 32
  | .sr1 => b.sr1.toWord
  | .sr2 => b.sr2.toWord
  | .ccr => b.ccr.toWord
  | .trise => b.trise.setWidth 32

/-- The bits of peripheral id p in the word at offset `off` (10_state.md R32, R33). -/
def gateBitsOf (s : State) (off : Nat) (p : PeriphId) : Word :=
  match s.par.row p with
  | some r => bitAt (r.enable.1 == off && s.enabled p) r.enable.2 ||| bitAt (r.reset.1 == off && s.inReset p) r.reset.2
  | none => 0#32

/-- The word at offset `off` that `PERIPH` composes of the enable and reset bits (10_state.md R32, R33). -/
def gateWord (s : State) (off : Nat) : Word :=
  (List.finRange Config.ids).foldl (fun w p => w ||| gateBitsOf s off p) 0#32

/-- The word of a register (20_memory.md R63). -/
def regWord (s : State) (r : Reg) : Word :=
  match r with
  | .cr => s.cc.cr.toWord
  | .pllcfgr => s.cc.pllcfgr.toWord
  | .cfgr => s.cc.cfgr.toWord
  | .gate off => gateWord s off
  | .bus k b => busWord (s.regs k) b

/-- The state after a SEQ read of a register: only DR has a side effect (20_memory.md R64). -/
def afterRegRead (s : State) (r : Reg) : State :=
  match r with
  | .cr => s
  | .pllcfgr => s
  | .cfgr => s
  | .gate _ => s
  | .bus k .dr => s.afterDrRead k
  | .bus _ _ => s

/-- A SEQ write of an enable or reset word: each bit that `PERIPH` names takes its value; a reset bit written 1 puts
the instance at reset (10_state.md R32, 42_peripheral_access.md R139; log 18). -/
def writeGate (s : State) (off : Nat) (v : Word) : State :=
  (gateBits s.par).foldl (fun t b => if b.1 = off then t.putBit b (bitOf v b.2) else t) s

/-- A SEQ write of a word of instance k: CR1 takes every field of the word, a 0 at START or STOP too, since a write
replaces all 32 bits (20_memory.md R62), though SEQ's own writes only set these two (10_state.md R36, R43; log 35, DESIGN
CHOICE); SR1 keeps all but the flags SEQ may clear, SR2 and CR2 ignore writes (10_state.md R39, R40, R43, R51; log 18). -/
def writeBusReg (s : State) (k : InstId) (r : BusReg) (v : Word) : State :=
  match r with
  | .cr1 => s.writeCr1 k (Cr1.ofWord v)
  | .cr2 => s
  | .oar1 => s.writeOar1 k (v.extractLsb' 1 7)
  | .oar2 => s.writeOar2 k (Oar2.ofWord v)
  | .dr => s.writeDr k (v.setWidth 8)
  | .sr1 => s.setRegs k { s.regs k with sr1 := { (s.regs k).sr1 with
      sb := (s.regs k).sr1.sb && bitOf v 0, addr := (s.regs k).sr1.addr && bitOf v 1 } }
  | .sr2 => s
  | .ccr => s.writeCcr k (Ccr.ofWord v)
  | .trise => s.writeTrise k (v.setWidth 6)

/-- A SEQ write of a whole word: read-only and reserved bits are ignored (10_state.md R25 to R27, R52; 20_memory.md
R62). -/
def regPut (s : State) (r : Reg) (v : Word) : State :=
  match r with
  | .cr => s.setCr (s.cc.cr.put v)
  | .pllcfgr => s.setPllcfgr (Pllcfgr.ofWord v)
  | .cfgr => s.setCfgr (s.cc.cfgr.put v)
  | .gate off => writeGate s off v
  | .bus k b => writeBusReg s k b v

/-- `MemRead(addr, 4)`: the word and the state after the read; no other access exists (00_scope.md R10, 20_memory.md
R60, R61). An instance whose clock is off or whose reset bit is set is read like any other (log 33, DESIGN CHOICE). -/
def regRead (a : Nat) (s : State) : Except Refusal (Word × State) :=
  match regAt s.par a with
  | some r => .ok (regWord s r, afterRegRead s r)
  | none => .error .unmodelledAddress

/-- `MemWrite(addr, 4, v)` (00_scope.md R10, 20_memory.md R60, R61). An instance whose clock is off or whose reset bit is
set is written like any other (log 33, DESIGN CHOICE). -/
def regWrite (a : Nat) (v : Word) (s : State) : Except Refusal State :=
  match regAt s.par a with
  | some r => .ok (regPut s r v)
  | none => .error .unmodelledAddress

/-- The byte the register space holds at address `a`, if the block has one there: byte `a mod 4` of the aligned word,
little-endian (20_memory.md R57). It is an observation, not an access of the block (R60). -/
def State.readByte (s : State) (a : Nat) : Option Byte :=
  match regAt s.par (a / 4 * 4) with
  | some r => some ((regWord s r).extractLsb' (8 * (a % 4)) 8)
  | none => none

end Sys2Proof.Machine
end

