-- ==== Sys2Proof/Safety.lean ====
section
/-! DEFINITION. What counts as a safe run, in the terms the statements use: final and faulted states (10_state.md R46),
runs, hangs (70_reset_and_hazards.md R220), the fairness premises (40_clocktree.md R111, 43_bus_engine.md R175), and the
invariants every step keeps. -/

namespace Sys2Proof.Machine

/-- The sequencer is between commands (10_state.md R45). -/
abbrev State.between (s : State) : Prop := s.seq = Sequencer.idle

/-- The run is final (10_state.md R46). -/
abbrev State.final (s : State) : Prop := s.fault = none ∧ s.seq.cmd = none ∧ s.cptr = s.commands.length

/-- The run is faulted (10_state.md R46). -/
abbrev State.faulted (s : State) : Prop := s.fault ≠ none

/-- A state a host may start a run from: the block right after its reset, with the parameters and the `RESET_STATE` of
the platform, and a command list and an agenda (10_state.md R49, R50; log 1, log 3, log 6, log 24). -/
def State.loaded (par : Config.Params) (rs : ResetState) (commands : List Command) (agenda : List Config.Turn) : State :=
  { State.afterBlockReset par rs with commands := commands, agenda := agenda }

/-- The rows a platform's `PERIPH` should have (42_peripheral_access.md R142: "integrity depends on constructing handles
correctly"): every bit is a bit of a word of its own, beside the words of CR, PLLCFGR and CFGR; no two rows name one bit
or one instance; no enable bit is a reset bit; and every instance has a row. The model runs on every other table too. -/
def BoardOk (par : Config.Params) : Prop :=
  (∀ p r, par.row p = some r → r.enable.2 < 32 ∧ r.reset.2 < 32 ∧ 8 < r.enable.1 ∧ 8 < r.reset.1) ∧
  (∀ p q a b, par.row p = some a → par.row q = some b →
    a.enable ≠ b.reset ∧ (p ≠ q → a.enable ≠ b.enable ∧ a.reset ≠ b.reset ∧ ∀ k, a.inst = some k → b.inst ≠ some k)) ∧
  (∀ k, instExists par k = true → ∃ p, instOf par p = some k)

/-- The states a run from a loaded block reaches. -/
inductive Reachable : State → Prop where
  | start (par : Config.Params) (rs : ResetState) (commands : List Command) (agenda : List Config.Turn) :
      Reachable (State.loaded par rs commands agenda)
  | step {s t : State} : Reachable s → step s = .next t → Reachable t

/-- No run from `s` faults: the program never reaches a case the source leaves undefined (60_exceptions.md R198). -/
def SafeFrom (s : State) : Prop := ∀ n t, Host.Core.run ⟨State, Fault, Refusal, step, State.reset⟩ n s = .next t →
  ¬ t.faulted

/-- An unending run: every step answers a next state. -/
def IsRun (σ : Nat → State) : Prop := ∀ n, step (σ n) = .next (σ (n + 1))

/-- SEQ has infinitely many turns (the model's own premise: its turns are explicit, log 3). -/
def SeqFair (σ : Nat → State) : Prop := ∀ n, ∃ m, n ≤ m ∧ (σ m).nextTurn = .seq

/-- A step of OSC that stays allowed is eventually taken. -/
def OscEventually (a : Config.OscStep) (σ : Nat → State) : Prop :=
  ∀ n, (∀ m, n ≤ m → oscEnabled a (σ m) = true) → ∃ m, n ≤ m ∧ (σ m).nextTurn = .osc a

/-- The premise `OSC_FAIR` (40_clocktree.md R111). -/
def OscFair (σ : Nat → State) : Prop :=
  OscEventually .hsiReady σ ∧ OscEventually .hseReady σ ∧ OscEventually .pllReady σ ∧ OscEventually .confirmSwitch σ

/-- Where some step of `l` stays allowed for BUS[k], a step of `l` that is allowed is eventually taken. -/
def BusEventually (k : InstId) (l : List Config.BusStep) (σ : Nat → State) : Prop :=
  ∀ n, (∀ m, n ≤ m → ∃ a ∈ l, busAllowed k a (σ m) = true) →
    ∃ m, n ≤ m ∧ ∃ a ∈ l, busAllowed k a (σ m) = true ∧ (σ m).nextTurn = .bus k a

/-- The premise `BUS_FAIR` (43_bus_engine.md R175): L2, L4 or L5, L6 in its one form or the other, L8 (some byte) and L9
that stay allowed are eventually taken while they are allowed, and L1 eventually frees a line that another master holds,
where L1 stays allowed. -/
def BusFair (k : InstId) (σ : Nat → State) : Prop :=
  BusEventually k [.startDone] σ ∧ BusEventually k [.addrAck, .addrNack] σ ∧
  BusEventually k [.shiftOut, .byteDone] σ ∧ BusEventually k [.stopDone] σ ∧
  (∀ n, (∀ m, n ≤ m → busAllowed k (.receive 0#8) (σ m) = true) → ∃ m b, n ≤ m ∧ (σ m).nextTurn = .bus k (.receive b)) ∧
  (∀ n, (∀ m, n ≤ m → ((σ m).hidden k).line = .other ∧ busAllowed k .trafficIdle (σ m) = true) →
    ∃ m, n ≤ m ∧ (σ m).nextTurn = .bus k .trafficIdle)

/-- The command in progress in `s` never ends: however long the machine runs from `s`, it answers a next state, in
which the same command is in progress at the same CPTR (70_reset_and_hazards.md R220). -/
def Hangs (s : State) : Prop :=
  s.seq.cmd ≠ none ∧ ∀ n, ∃ t, Host.Core.run ⟨State, Fault, Refusal, step, State.reset⟩ n s = .next t ∧
    t.seq.cmd = s.seq.cmd ∧ t.cptr = s.cptr

/-- Whether the sequencer state `q` stands at a line that the command has (after its first micro-step), with the byte
index and the received bytes the pseudocode gives it there. -/
def hasLine (i : Instr) (q : Sequencer) : Bool :=
  match i, q.point with
  | .clkConfig _ _ _ _, .config _ => true
  | .clkPllconfig _ _ _ _, .commit => true
  | .perTake _, .commit => true
  | .perEnclk _, .commit => true
  | .perDisclk _, .commit => true
  | .perReset _, .assertReset => true
  | .perReset _, .deassertReset => true
  | .i2cInit _ _ mode _ _ _, .init p =>
    match p with
    | .own1 => mode != .master
    | .own2 => mode == .slave2
    | _ => true
  | .i2cStart _, .startBody _ => true
  | .i2cAddr _ _ _, .addressBody _ => true
  | .i2cWrbyte _ _, .writeBody _ => true
  | .i2cRdbyte _, .readBody _ => true
  | .i2cStop _, .stopBody _ => true
  | .i2cWrite _ _ n _, .startBody _ => n != 0#12
  | .i2cWrite _ _ n _, .addressBody _ => n != 0#12
  | .i2cWrite _ _ n _, .writeBody _ => decide (q.i < n.toNat)
  | .i2cWrite _ _ _ _, .btfWait => true
  | .i2cWrite _ _ _ _, .stopBody _ => true
  | .i2cRead _ _ n, p =>
    match p with
    | .saveAck => n != 0#12
    | .startBody _ => n != 0#12 && q.buf.isEmpty
    | .addressBody _ => n != 0#12 && q.buf.isEmpty
    | .ackOn _ => decide (1 < n.toNat) && q.i == 0 && q.buf.isEmpty
    | .readBody _ => decide (q.i + 1 < n.toNat) && q.buf.length == q.i
    | .ackOff _ => q.buf.length + 1 == n.toNat
    | .stopBody _ => q.buf.length + 1 == n.toNat
    | .lastBody _ => q.buf.length + 1 == n.toNat
    | .restoreAck _ => q.buf.length == n.toNat
    | _ => false
  | _, _ => false

/-- INVARIANT. Between commands the sequencer is idle; while a command executes, CPTR holds its index and SEQ stands at
one of its lines (10_state.md R22, R45). -/
def SeqCoherent (s : State) : Prop :=
  match s.seq.cmd with
  | none => s.seq = Sequencer.idle
  | some i => (∃ c, s.fetch = some c ∧ decode s.par c = .ok i) ∧ hasLine i s.seq = true

/-- INVARIANT. SW and SWS hold no reserved code (10_state.md R28) and the PLL pre-divider is not 0 (40_clocktree.md R96,
R104). -/
abbrev ClockLegal (s : State) : Prop :=
  s.cc.cfgr.sw ≠ 3#2 ∧ s.cc.cfgr.sws ≠ 3#2 ∧ s.cc.pllcfgr.pllm ≠ 0#6

/-- INVARIANT. SW = SWS, unless `CLK_CONFIG` awaits the confirmation of its own switch (40_clocktree.md R103). -/
def SwitchSettled (s : State) : Prop :=
  match s.seq.cmd, s.seq.point with
  | some (.clkConfig src _ _ _), .config .confirm => s.cc.cfgr.sw = src.code
  | _, _ => s.cc.cfgr.sw = s.cc.cfgr.sws

/-- The peripheral id that PER_ENCLK, PER_DISCLK or PER_RESET must own (42_peripheral_access.md R136). -/
def perIdOf (i : Instr) : Option PeriphId :=
  match i with
  | .perEnclk p => some p
  | .perDisclk p => some p
  | .perReset p => some p
  | .clkSysfreq => none
  | .clkAhbfreq => none
  | .clkApb1freq => none
  | .clkApb2freq => none
  | .clkConfig _ _ _ _ => none
  | .clkPllconfig _ _ _ _ => none
  | .pack _ _ _ _ => none
  | .maskNew _ => none
  | .maskUnion _ _ => none
  | .maskIntersect _ _ => none
  | .maskComplement _ => none
  | .maskXor _ _ => none
  | .maskSet _ _ => none
  | .maskReset _ _ => none
  | .maskIsset _ _ => none
  | .perTake _ => none
  | .i2cInit _ _ _ _ _ _ => none
  | .i2cStart _ => none
  | .i2cAddr _ _ _ => none
  | .i2cWrbyte _ _ => none
  | .i2cRdbyte _ => none
  | .i2cStop _ => none
  | .i2cWrite _ _ _ _ => none
  | .i2cRead _ _ _ => none

/-- The bus-controller instance of an I2C_ command (43_bus_engine.md R146). -/
def busInstOf (i : Instr) : Option InstId :=
  match i with
  | .i2cInit k _ _ _ _ _ => some k
  | .i2cStart k => some k
  | .i2cAddr k _ _ => some k
  | .i2cWrbyte k _ => some k
  | .i2cRdbyte k => some k
  | .i2cStop k => some k
  | .i2cWrite k _ _ _ => some k
  | .i2cRead k _ _ => some k
  | .clkSysfreq => none
  | .clkAhbfreq => none
  | .clkApb1freq => none
  | .clkApb2freq => none
  | .clkConfig _ _ _ _ => none
  | .clkPllconfig _ _ _ _ => none
  | .pack _ _ _ _ => none
  | .maskNew _ => none
  | .maskUnion _ _ => none
  | .maskIntersect _ _ => none
  | .maskComplement _ => none
  | .maskXor _ _ => none
  | .maskSet _ _ => none
  | .maskReset _ _ => none
  | .maskIsset _ _ => none
  | .perTake _ => none
  | .perEnclk _ => none
  | .perDisclk _ => none
  | .perReset _ => none

/-- INVARIANT. An enabled clock belongs to a taken peripheral, and a command in progress owns its peripheral, whose
clock is on if it is an I2C_ command (42_peripheral_access.md R136, R140; 44_bus_transactions.md R188). -/
def OwnershipHeld (s : State) : Prop :=
  (∀ p, s.enabled p = true → s.isTaken p = true) ∧
  (∀ i p, s.seq.cmd = some i → perIdOf i = some p → s.isTaken p = true) ∧
  (∀ i k, s.seq.cmd = some i → busInstOf i = some k → s.instTaken k = true ∧ s.clocked k = true)

/-- INVARIANT. A reset bit is set only between the two writes of `PER_RESET`, and then the instance's registers are at
their reset values (42_peripheral_access.md R139 (b)). -/
def ResetPulse (s : State) : Prop :=
  ∀ p, s.inReset p = true →
    s.seq.cmd = some (.perReset p) ∧ s.seq.point = .deassertReset ∧
    ∀ k, instOf s.par p = some k → s.regs k = BusRegs.reset

/-- INVARIANT. One result for every command that ended, and CPTR stays within the list (10_state.md R22, R23). -/
abbrev LogMatches (s : State) : Prop := s.results.length = s.cptr ∧ s.cptr ≤ s.commands.length

end Sys2Proof.Machine
end

