-- ==== Sys2Proof/Certificates/Slice0/Obligations.lean ====
section
/-! DEFINITION. The statements for the provers. Each docstring names the rule of spec/ it formalises; a statement that
rests on a choice of the model names its log entry. Words used below: a statement at `s.seq.point = p` is about the
micro-step of the command that performs line `p` of its pseudocode; `s.finish st v l` is the state in which the command
has ended with the result (st, v, l) (`Obligations.EachSeqTurnRunsItsCommand` says what that is). -/

open Sys2Proof Sys2Proof.Machine

namespace Sys2Proof.Claims

/-- The opcode of a command word (30_encoding.md R75). -/
def opcode (cw : Word) : Nat := (cw.extractLsb' 0 8).toNat

/-- The operand count of 30_encoding.md R87. -/
def operandWords (cw : Word) : Nat :=
  if opcode cw ∈ [0x11, 0x14, 0x16, 0x17, 0x18, 0x30] then 1
  else if opcode cw ∈ [0x12, 0x13, 0x15] then 2
  else if opcode cw = 0x10 then 3
  else if opcode cw = 0x36 then ((cw.extractLsb' 20 12).toNat + 3) / 4
  else 0

/-- The conditions of 30_encoding.md R84, for the parameters `NI2C` and `PERIPH`: (a) and (b) are "no row of the opcode
table matches". -/
abbrev IsDecodeError (par : Config.Params) (c : Command) : Prop :=
  (∀ r ∈ opcodeRows, c.cw &&& r.mask ≠ r.bits) ∨
  (opcode c.cw = 0x05 ∧ c.cw.extractLsb' 8 2 = 3#2) ∨
  (opcode c.cw = 0x30 ∧ (c.cw.extractLsb' 12 2 = 3#2 ∨ c.cw.extractLsb' 14 2 = 3#2)) ∨
  (opcode c.cw = 0x06 ∧ c.cw.extractLsb' 12 6 = 0#6) ∨
  (opcode c.cw ∈ [0x20, 0x21, 0x22, 0x23] ∧ par.periph[(c.cw.extractLsb' 8 4).toNat]? = some none) ∨
  (opcode c.cw ∈ [0x30, 0x31, 0x32, 0x33, 0x34, 0x35, 0x36, 0x37] ∧
    par.ni2c ≤ (c.cw.extractLsb' 8 4).toNat) ∨
  c.ops.length ≠ operandWords c.cw

/-- The AHB divisors by code (10_state.md R29). -/
def ahbDivisors : List Nat := [1, 1, 1, 1, 1, 1, 1, 1, 2, 4, 8, 16, 64, 128, 256, 512]

/-- The APB divisors by code (10_state.md R30). -/
def apbDivisors : List Nat := [1, 1, 1, 1, 2, 4, 8, 16]

/-- The PLL post-divider divisors by code (10_state.md R31). -/
def pllDivisors : List Nat := [2, 4, 6, 8]

/-- The frequency of the PLL input (40_clocktree.md R96). -/
def pllInputHz (s : State) : Nat := if s.cc.pllcfgr.pllsrc = .hsi then s.par.hsiHz.toNat else s.par.hseHz.toNat

/-- SYSCLK is `f` hertz: the source SWS names, the PLL pre-divided, multiplied with clamping, post-divided
(40_clocktree.md R96). -/
abbrev SysclkIs (s : State) (f : Nat) : Prop :=
  (s.cc.cfgr.sws = 0#2 ∧ f = s.par.hsiHz.toNat) ∨
  (s.cc.cfgr.sws = 1#2 ∧ f = s.par.hseHz.toNat) ∨
  (s.cc.cfgr.sws = 2#2 ∧ s.cc.pllcfgr.pllm ≠ 0#6 ∧
    f = min (pllInputHz s / s.cc.pllcfgr.pllm.toNat * s.cc.pllcfgr.plln.toNat) 4294967295 /
      pllDivisors.getD s.cc.pllcfgr.pllp.toNat 0)

/-- The error check of a wait that checks AF, ARLO and BERR, in this order (43_bus_engine.md R158). -/
abbrev FirstError (r : Sr1) (e : Status) : Prop :=
  (r.af = true ∧ e = .acknowledgeFailure) ∨
  (r.af = false ∧ r.arlo = true ∧ e = .arbitrationLost) ∨
  (r.af = false ∧ r.arlo = false ∧ r.berr = true ∧ e = .busError)

/-- No error a wait checks is set. -/
abbrev NoError (r : Sr1) : Prop := r.af = false ∧ r.arlo = false ∧ r.berr = false

/-- A poll that sees its flag and, under ERRORS_FIRST, no error succeeds (43_bus_engine.md R158). -/
abbrev WaitSucceeds (s : State) (k : InstId) (flag : Bool) : Prop :=
  flag = true ∧ (NoError (s.regs k).sr1 ∨ s.par.checkOrder = .successFirst)

/-- A poll that sees an error and, under SUCCESS_FIRST, not its flag ends the command (43_bus_engine.md R158). -/
abbrev WaitFails (s : State) (k : InstId) (flag : Bool) (e : Status) : Prop :=
  FirstError (s.regs k).sr1 e ∧ (flag = false ∨ s.par.checkOrder = .errorsFirst)

/-- A poll that sees neither polls again. -/
abbrev WaitGoesOn (s : State) (k : InstId) (flag : Bool) : Prop := flag = false ∧ NoError (s.regs k).sr1

/-- The instance is owned and clocked, so that the prelude passes (43_bus_engine.md R146;
`Obligations.OwnershipThenClockGate` says what `instTaken` and `clocked` are). -/
abbrev Usable (s : State) (k : InstId) : Prop := s.instTaken k = true ∧ s.clocked k = true

/-- The state after a SEQ write of byte `b` to DR: the byte handed to the transmitter, the byte last received as it was
(10_state.md R38; log 31, DEDUCED), TXE and BTF cleared, and an expected address byte taken by the bus agent
(43_bus_engine.md R173 L3; in both environments: log 15, DESIGN CHOICE). -/
def dataRegisterWritten (s : State) (k : InstId) (b : Byte) : State :=
  (s.setRegs k { s.regs k with drTx := b, sr1 := { (s.regs k).sr1 with txe := false, btf := false } }).setHidden k
    (if (s.hidden k).expectAddr then { s.hidden k with pending := .addr (b.getLsbD 0), expectAddr := false }
     else s.hidden k)

/-- A run-ready start: no fault, SEQ between commands, `i` the command under CPTR. -/
def ReadyToRun (s : State) (i : Instr) : Prop :=
  s.fault = none ∧ s.between ∧ ∃ c, s.fetch = some c ∧ decode s.par c = .ok i

/-- `n` steps of the machine. -/
def runs (n : Nat) (s : State) : Res := Host.Core.run Sys2Proof.core n s

/-- The OSC step that raises a source's ready flag (40_clocktree.md R108). -/
def readyStep (src : Source) : Config.OscStep :=
  match src with
  | .hsi => .hsiReady
  | .hse => .hseReady
  | .pll => .pllReady

/-- CC.CR with a source's ready flag set. -/
def withReady (src : Source) (r : Cr) : Cr :=
  match src with
  | .hsi => { r with hsirdy := true }
  | .hse => { r with hserdy := true }
  | .pll => { r with pllrdy := true }

/-- CC.CR with a source's enable bit set (40_clocktree.md R102). -/
def withEnable (src : Source) (r : Cr) : Cr :=
  match src with
  | .hsi => { r with hsion := true }
  | .hse => { r with hseon := true }
  | .pll => { r with pllon := true }

/-- The ready flag of a source (10_state.md R25). -/
def readyFlag (src : Source) (r : Cr) : Bool :=
  match src with
  | .hsi => r.hsirdy
  | .hse => r.hserdy
  | .pll => r.pllrdy

/-- The ready flag of the PLL's input (40_clocktree.md R108 (c)). -/
def pllInputReady (s : State) : Bool :=
  match s.cc.pllcfgr.pllsrc with
  | .hsi => s.cc.cr.hsirdy
  | .hse => s.cc.cr.hserdy

/-- The divider of 43_bus_engine.md R150. -/
def divider (speed : Speed) (pclk f : Nat) : Nat :=
  match speed with
  | .standard => pclk / f / 2
  | .fast2 => pclk / f / 3
  | .fast169 => pclk / f / 25

/-- The rise time of 43_bus_engine.md R151. -/
def riseTime (speed : Speed) (pclk : Nat) : Nat :=
  if speed = .standard then pclk / 1000000 + 1 else pclk * 3 / 10000000 + 1

/-- The target frequency passes the validation of 43_bus_engine.md R148, against `STD_MAX_HZ` (00_scope.md R6). -/
abbrev FreqAllowed (par : Config.Params) (speed : Speed) (f : Word) : Prop :=
  (speed = .standard ∧ f.toNat ≤ par.stdMaxHz.toNat) ∨ (speed ≠ .standard ∧ par.stdMaxHz.toNat < f.toNat)

/-- The derived timing passes the range check of 43_bus_engine.md R152, against `DIV_MAX` and `RISE_MAX`. -/
abbrev TimingInRange (par : Config.Params) (speed : Speed) (pclk f : Nat) : Prop :=
  1 ≤ divider speed pclk f ∧ divider speed pclk f ≤ par.divMax.toNat ∧ riseTime speed pclk ≤ par.riseMax.toNat

/-- The registers `I2C_INIT` leaves in an instance (43_bus_engine.md R154, R155). -/
def initialised (r : BusRegs) (speed : Speed) (mode : BusMode) (own1 own2 : BitVec 7) (div : BitVec 12)
    (rise : BitVec 6) : BusRegs :=
  { r with
    ccr := ⟨div, decide (speed = .fast169), decide (speed ≠ .standard)⟩
    trise := rise
    oar1 := if mode = .master then r.oar1 else own1
    oar2 := if mode = .slave2 then ⟨true, own2⟩ else r.oar2
    cr1 := { r.cr1 with pe := true, ack := true } }

/-- The SEQ micro-steps of an `I2C_INIT` that ends OK (70_reset_and_hazards.md R229). -/
def initMicroSteps (mode : BusMode) : Nat :=
  match mode with
  | .master => 8
  | .slave1 => 9
  | .slave2 => 10

/-- The statuses a command may end with, `DecodeError` apart (60_exceptions.md R191). -/
def statusesOf (i : Instr) : List Status :=
  match i with
  | .i2cInit _ _ _ _ _ _ => [.ok, .initError]
  | .i2cStart _ => [.ok, .busError]
  | .i2cAddr _ _ _ => [.ok, .acknowledgeFailure, .arbitrationLost, .busError]
  | .i2cWrbyte _ _ => [.ok, .acknowledgeFailure, .arbitrationLost, .busError]
  | .i2cWrite _ _ _ _ => [.ok, .acknowledgeFailure, .arbitrationLost, .busError]
  | .i2cRead _ _ _ => [.ok, .acknowledgeFailure, .arbitrationLost, .busError]
  | _ => [.ok]

/-- The lines of `I2C_READ` after its address phase (44_bus_transactions.md R183). -/
def afterAddress (p : Point) : Bool :=
  match p with
  | .ackOn _ => true
  | .readBody _ => true
  | .ackOff _ => true
  | .stopBody _ => true
  | .lastBody _ => true
  | .restoreAck _ => true
  | _ => false

/-- A bus instance that a lawful bus can serve: it exists, it is owned, clocked, enabled, no reset, the bus free, no error flag set, and
no other master on the line. -/
abbrev LawfulAndFree (s : State) (k : InstId) : Prop :=
  s.par.env = .lawful ∧ instExists s.par k = true ∧ Usable s k ∧ s.heldInReset k = false ∧ (s.regs k).cr1.pe = true ∧
  (s.regs k).sr2.busy = false ∧ NoError (s.regs k).sr1 ∧ (s.hidden k).line ≠ .other

/-- The turns of a start and an address phase that a lawful bus answers at once, from the bus-free poll on. -/
def openingTurns (k : InstId) : List Config.Turn :=
  [.seq, .seq, .seq, .bus k .startDone, .seq, .seq, .bus k .addrAck, .seq]

/-- The turns of an `I2C_WRITE` of `n` bytes: for each byte the DR write, step L6 and the TXE poll; then BTF and the
stop request. -/
def writeTurns (k : InstId) (n : Nat) : List Config.Turn :=
  .seq :: openingTurns k ++ (List.replicate n [Config.Turn.seq, .bus k .shiftOut, .seq]).flatten ++
    [.bus k .byteDone, .seq, .seq, .seq]

/-- The turns that receive one byte: step L8 with the byte, the RXNE poll, the DR read. -/
def byteTurns (k : InstId) (b : Byte) : List Config.Turn := [.bus k (.receive b), .seq, .seq]

/-- The turns of an `I2C_READ` of the bytes `first ++ [last]`: the saved ACK, ACK on where N > 1, the bytes before the
last, ACK off, STOP, the last byte, the restored ACK. -/
def readTurns (k : InstId) (first : List Byte) (last : Byte) : List Config.Turn :=
  .seq :: .seq :: openingTurns k ++ (if first = [] then [] else [.seq, .seq]) ++ first.flatMap (byteTurns k) ++
    [.seq, .seq, .seq, .seq] ++ byteTurns k last ++ [.seq, .seq]

/-- The packer's commands (41_bitfield_packer.md R115). -/
def isPacker (i : Instr) : Bool :=
  match i with
  | .pack _ _ _ _ => true
  | .maskNew _ => true
  | .maskUnion _ _ => true
  | .maskIntersect _ _ => true
  | .maskComplement _ => true
  | .maskXor _ _ => true
  | .maskSet _ _ => true
  | .maskReset _ _ => true
  | .maskIsset _ _ => true
  | _ => false

/-- The address that `I2C_READ` or `I2C_WRITE` has asked for waits for its acknowledge (43_bus_engine.md R173). -/
abbrev AddressPending (p : Pending) : Prop := p = .addr false ∨ p = .addr true

/-- The offsets of CR, PLLCFGR and CFGR, at which a wrong row of `PERIPH` may name a bit (42_peripheral_access.md R142). -/
def clockWords : List (Nat × Reg) := [(0x00, .cr), (0x04, .pllcfgr), (0x08, .cfgr)]

/-- The place `b` is in none of these three words. -/
abbrev ApartFromClockWords (b : Nat × Nat) : Prop := ∀ x ∈ clockWords, b.1 ≠ x.1

/-- The rows of `PERIPH` with a reset bit in the word at `off`, other than that of `p`, have it clear. -/
def OtherResetsClear (s : State) (off : Nat) (p : PeriphId) : Prop :=
  ∀ q r, q ≠ p → s.par.row q = some r → r.reset.1 = off → s.inReset q = false

/-- The registers of the block stand at different addresses of 32 bits, each a multiple of 4 (20_memory.md R54, R55,
R60). -/
abbrev AddressesOk (par : Config.Params) : Prop :=
  ((allRegs par).map fun r => r.addr par).Nodup ∧ ∀ r ∈ allRegs par, r.addr par % 4 = 0 ∧ r.addr par < 2 ^ 32

end Sys2Proof.Claims

open Sys2Proof.Claims

/-! Encoding and decoding -/

/-- Decoding the encoding of a well-formed command gives it back, for every command, every value of its fields
and every value of the parameters (30_encoding.md R76 to R87). -/
def Obligations.DecodeOfEncodeIsTheCommand : Prop :=
  ∀ (par : Config.Params) (i : Instr), i.wellFormed par = true → decode par (encode i) = .ok i

/-- Every command word and operand list that decodes is the encoding of the command it decodes to, which is well formed:
no bit of the encoding is ignored and no command has two encodings (30_encoding.md R84 (b), R88). -/
def Obligations.EncodeOfDecodeIsTheWords : Prop :=
  ∀ (par : Config.Params) (c : Command) (i : Instr), decode par c = .ok i → encode i = c ∧ i.wellFormed par = true

/-- 30_encoding.md R92: decoding is total, and no command word matches two rows of the opcode table. -/
def Obligations.DecodingIsTotalAndUnambiguous : Prop :=
  (∀ (par : Config.Params) (c : Command),
    (∃ i, decode par c = .ok i ∧ ∀ j, decode par c = .ok j → j = i) ∨ ∃ e, decode par c = .error e) ∧
  (∀ (cw : Word) (r r' : OpcodeRow), r ∈ opcodeRows → r' ∈ opcodeRows → cw &&& r.mask = r.bits →
    cw &&& r'.mask = r'.bits → r = r')

/-- 30_encoding.md R84, with the counts of R87: exactly the commands of R84 (a) to (f) do not decode, and such a command
ends with the status DecodeError, which writes nothing but CPTR and RESULTS. That it ends in one SEQ turn, its first, is
the model's reading (log 26, DEDUCED). -/
def Obligations.DecodeErrorsAreThoseOfRule84 : Prop :=
  (∀ (par : Config.Params) (c : Command), (∃ e, decode par c = .error e) ↔ IsDecodeError par c) ∧
  (∀ (s : State) (c : Command), s.fault = none → s.nextTurn = .seq → s.between → s.fetch = some c →
    IsDecodeError s.par c →
    step s = .next { s.takeTurn with
      results := s.results ++ [⟨.decodeError, 0#32, []⟩]
      cptr := s.cptr + 1 })

/-- Command words written out from the encodings of 30_encoding.md, one of each family, decode with the default
parameters to the command they stand for. -/
def Obligations.SampleWordsDecode : Prop :=
  decode .default ⟨0x00000001#32, []⟩ = .ok .clkSysfreq ∧
  decode .default ⟨0x0D408106#32, []⟩ = .ok (.clkPllconfig .hse 8#6 336#9 1#2) ∧
  decode .default ⟨0x00000210#32, [0xFFFFFFFF#32, 1#32, 5#32]⟩ = .ok (.pack 2#6 0xFFFFFFFF#32 1#32 5#32) ∧
  decode .default ⟨0x00000316#32, [0#32]⟩ = .ok (.maskSet 3#4 0#32) ∧
  decode .default ⟨0x00000121#32, []⟩ = .ok (.perEnclk 1) ∧
  decode .default ⟨0x1A128030#32, [0x000186A0#32]⟩ = .ok (.i2cInit 0 .standard .slave2 0x12#7 0x34#7 0x000186A0#32) ∧
  decode .default ⟨0x000FF032#32, []⟩ = .ok (.i2cAddr 0 0x7F#7 .read) ∧
  decode .default ⟨0x00151036#32, [0xCC#32]⟩ = .ok (.i2cWrite 0 0x51#7 1#12 [0xCC#32])

/-! The step, faults, reset -/

/-- A turn of SEQ performs a micro-step of the command in progress, or the first micro-step of the command under CPTR;
past the end of the list it changes nothing (the model's choice, log 5); and what `finish` is: the result is appended,
CPTR advances by one, the sequencer is as between commands (10_state.md R22, R23, R45). -/
def Obligations.EachSeqTurnRunsItsCommand : Prop :=
  (∀ (s : State) (i : Instr), s.fault = none → s.nextTurn = .seq → s.seq.cmd = some i → step s = exec i s.takeTurn) ∧
  (∀ (s : State) (c : Command) (i : Instr), s.fault = none → s.nextTurn = .seq → s.seq.cmd = none →
    s.commands[s.cptr]? = some c → decode s.par c = .ok i → step s = exec i s.takeTurn) ∧
  (∀ s : State, s.fault = none → s.nextTurn = .seq → s.seq.cmd = none → s.commands[s.cptr]? = none →
    step s = .next s.takeTurn) ∧
  (∀ (s : State) (st : Status) (v : Word) (l : List Byte), s.finish st v l =
    { s with
      seq := ⟨.idle, none, 0, false, [], .start⟩
      results := s.results ++ [⟨st, v, l⟩]
      cptr := s.cptr + 1 })

/-- 60_exceptions.md R198: entering a fault writes FAULT and nothing else, it happens only in a command's first
micro-step or at `I2C_INIT`'s second one, which only reads, so no register is written before; and no agent steps
afterwards. -/
def Obligations.FaultEntryWritesOnlyTheFault : Prop :=
  (∀ (s t : State) (f : Fault), step s = .next t → t.fault = some f →
    t = { s.takeTurn with fault := some f } ∧ s.nextTurn = .seq ∧
    (s.seq.point = .start ∨ s.seq.point = .init .clock)) ∧
  (∀ (s : State) (f : Fault), s.fault = some f → step s = .fault f)

/-- 10_state.md R49: the reset value of every piece of state; DR has the value 0 for both of its bytes (log 31,
DEDUCED). With another `RESET_STATE` (R50) the hardware rows are its values, and every other field is as at the default
reset (log 24, DESIGN CHOICE). -/
def Obligations.ResetHoldsTheStatedValues : Prop :=
  regWord State.reset .cr = 0x00000003#32 ∧
  State.reset.cc.pllcfgr = ⟨16#6, 192#9, 0#2, .hsi⟩ ∧
  regWord State.reset .cfgr = 0#32 ∧
  (∀ p, State.reset.enabled p = false ∧ State.reset.inReset p = false ∧ State.reset.isTaken p = false) ∧
  (∀ k, ∀ r ∈ [BusReg.cr1, .oar1, .oar2, .dr, .sr1, .sr2, .ccr], regWord State.reset (.bus k r) = 0#32) ∧
  (∀ k, regWord State.reset (.bus k .trise) = 2#32) ∧
  State.reset.seq.phase = .idle ∧ State.reset.seq.cmd = none ∧ State.reset.seq.i = 0 ∧
  State.reset.seq.savedAck = false ∧ State.reset.seq.buf = [] ∧
  State.reset.fault = none ∧ State.reset.cptr = 0 ∧ State.reset.results = [] ∧
  (∀ k, State.reset.hidden k = ⟨.idle, .none, false, false, false⟩ ∧ (State.reset.regs k).drTx = 0#8) ∧
  (∀ (par : Config.Params) (rs : ResetState),
    State.afterBlockReset par rs = { State.reset with par := par, cc := rs.cc, i2c := rs.i2c })

/-! ClockTree -/

/-- 40_clocktree.md R96 as the four queries answer it, with the faults of SWS = 3 (10_state.md R28) and of a PLL
pre-divider of 0. Each query ends in its one micro-step. -/
def Obligations.FrequencyQueriesFollowTheDerivation : Prop :=
  (∀ (s : State) (f : Nat), s.seq.point = .start → SysclkIs s f →
    exec .clkSysfreq s = .next (s.finish .ok (BitVec.ofNat 32 f) []) ∧
    exec .clkAhbfreq s =
      .next (s.finish .ok (BitVec.ofNat 32 (f / ahbDivisors.getD s.cc.cfgr.hpre.toNat 0)) []) ∧
    exec .clkApb1freq s = .next (s.finish .ok (BitVec.ofNat 32 (f / ahbDivisors.getD s.cc.cfgr.hpre.toNat 0 /
      apbDivisors.getD s.cc.cfgr.ppre1.toNat 0)) []) ∧
    exec .clkApb2freq s = .next (s.finish .ok (BitVec.ofNat 32 (f / ahbDivisors.getD s.cc.cfgr.hpre.toNat 0 /
      apbDivisors.getD s.cc.cfgr.ppre2.toNat 0)) [])) ∧
  (∀ (s : State) (i : Instr), s.seq.point = .start → i ∈ [Instr.clkSysfreq, .clkAhbfreq, .clkApb1freq, .clkApb2freq] →
    s.cc.cfgr.sws = 3#2 → exec i s = .next { s with fault := some .swsReserved }) ∧
  (∀ (s : State) (i : Instr), s.seq.point = .start → i ∈ [Instr.clkSysfreq, .clkAhbfreq, .clkApb1freq, .clkApb2freq] →
    s.cc.cfgr.sws = 2#2 → s.cc.pllcfgr.pllm = 0#6 → exec i s = .next { s with fault := some .divZero })

/-- 40_clocktree.md R101: the laws of the four frequencies in one state; R105 (d): no value exceeds 32 bits; and
10_state.md R29, R30, R31: the divisor of every prescaler and post-divider code, none of them 0. -/
def Obligations.FrequencyLaws : Prop :=
  (∀ (s : State) (f : Nat), sysclk s = .ok f →
    f < 2 ^ 32 ∧ ∃ h a b, hclk s = .ok h ∧ pclk1 s = .ok a ∧ pclk2 s = .ok b ∧ h ≤ f ∧ a ≤ h ∧ b ≤ h ∧
      h = f / hpreDiv s.cc.cfgr.hpre ∧
      a = f / (hpreDiv s.cc.cfgr.hpre * ppreDiv s.cc.cfgr.ppre1) ∧
      b = f / (hpreDiv s.cc.cfgr.hpre * ppreDiv s.cc.cfgr.ppre2)) ∧
  (∀ (s : State) (q : Nat), pllOut s = .ok q → q ≤ (2 ^ 32 - 1) / 2) ∧
  (∀ c : BitVec 4, hpreDiv c = ahbDivisors.getD c.toNat 0 ∧ hpreDiv c ≠ 0) ∧
  (∀ c : BitVec 3, ppreDiv c = apbDivisors.getD c.toNat 0 ∧ ppreDiv c ≠ 0) ∧
  (∀ c : BitVec 2, pllpDiv c = pllDivisors.getD c.toNat 0 ∧ pllpDiv c ≠ 0)

/-- The micro-steps of `CLK_CONFIG` (40_clocktree.md R102): the no-op of (a), which writes no prescaler, and each line
of the sequence in every state. -/
def Obligations.ClkConfigMicroSteps : Prop :=
  ∀ (s : State) (src : Source) (hpre : BitVec 4) (ppre1 ppre2 : BitVec 3),
    (s.seq.point = .start → s.cc.cfgr.sws = src.code →
      exec (.clkConfig src hpre ppre1 ppre2) s = .next (s.finish .ok 0#32 [])) ∧
    (s.seq.point = .start → s.cc.cfgr.sws ≠ src.code →
      exec (.clkConfig src hpre ppre1 ppre2) s =
        .next (s.enter (.clkConfig src hpre ppre1 ppre2) (.config .enable))) ∧
    (s.seq.point = .config .enable →
      exec (.clkConfig src hpre ppre1 ppre2) s =
        .next ((s.setCr (withEnable src s.cc.cr)).goto (.config .ready))) ∧
    (s.seq.point = .config .ready → readyFlag src s.cc.cr = false →
      exec (.clkConfig src hpre ppre1 ppre2) s = .next s) ∧
    (s.seq.point = .config .ready → readyFlag src s.cc.cr = true →
      exec (.clkConfig src hpre ppre1 ppre2) s = .next (s.goto (.config .prescale))) ∧
    (s.seq.point = .config .prescale →
      exec (.clkConfig src hpre ppre1 ppre2) s =
        .next ((s.setCfgr ⟨s.cc.cfgr.sw, s.cc.cfgr.sws, hpre, ppre1, ppre2⟩).goto (.config .switch))) ∧
    (s.seq.point = .config .switch →
      exec (.clkConfig src hpre ppre1 ppre2) s =
        .next ((s.setCfgr { s.cc.cfgr with sw := src.code }).goto (.config .confirm))) ∧
    (s.seq.point = .config .confirm → s.cc.cfgr.sws ≠ src.code →
      exec (.clkConfig src hpre ppre1 ppre2) s = .next s) ∧
    (s.seq.point = .config .confirm → s.cc.cfgr.sws = src.code →
      exec (.clkConfig src hpre ppre1 ppre2) s = .next (s.finish .ok 0#32 []))

/-- A `CLK_CONFIG` to a source that is not in use and not ready ends OK after its six SEQ micro-steps when OSC raises
the ready flag and confirms the switch at once (40_clocktree.md R102, R108, R110): the enable bit, the ready flag, the
prescalers, SW and SWS are written, and nothing else of the clock tree. -/
def Obligations.ClkConfigRunsToItsEnd : Prop :=
  ∀ (s : State) (src : Source) (hpre : BitVec 4) (ppre1 ppre2 : BitVec 3) (rest : List Config.Turn),
    ReadyToRun s (.clkConfig src hpre ppre1 ppre2) → s.cc.cfgr.sws ≠ src.code → readyFlag src s.cc.cr = false →
    (src = .pll → pllInputReady s = true) →
    s.agenda = [.seq, .seq, .osc (readyStep src), .seq, .seq, .seq, .osc .confirmSwitch, .seq] ++ rest →
    runs 8 s = .next { s with
      cc := { s.cc with
        cr := withReady src (withEnable src s.cc.cr)
        cfgr := ⟨src.code, src.code, hpre, ppre1, ppre2⟩ }
      agenda := rest
      results := s.results ++ [⟨.ok, 0#32, []⟩]
      cptr := s.cptr + 1 }

/-- The micro-steps of `CLK_PLLCONFIG` (40_clocktree.md R104): the fault while the PLL is on, else the one word write.
Nothing but PLLCFGR changes. -/
def Obligations.ClkPllConfigMicroSteps : Prop :=
  ∀ (s : State) (src : PllInput) (m : BitVec 6) (n : BitVec 9) (pcode : BitVec 2),
    (s.seq.point = .start → s.cc.cr.pllon = true →
      exec (.clkPllconfig src m n pcode) s = .next { s with fault := some .pllBusy }) ∧
    (s.seq.point = .start → s.cc.cr.pllon = false →
      exec (.clkPllconfig src m n pcode) s = .next (s.enter (.clkPllconfig src m n pcode) .commit)) ∧
    (s.seq.point = .commit →
      exec (.clkPllconfig src m n pcode) s =
        .next ({ s with cc := { s.cc with pllcfgr := ⟨m, n, pcode, src⟩ } }.finish .ok 0#32 []))

/-! BitfieldPacker -/

/-- 41_bitfield_packer.md R126, as the command answers it: where no check fails, `PACK` ends OK with an image that holds
the value in every selected slot and the old bits everywhere else. -/
def Obligations.PackChangesExactlyTheSelectedLanes : Prop :=
  ∀ (s : State) (w : BitVec 6) (r0 v laneMask : Word), s.seq.point = .start → 1 ≤ w.toNat → w.toNat ≤ 32 →
    v.toNat < 2 ^ w.toNat → (∀ i < 16, laneMask.getLsbD i = true → (i + 1) * w.toNat ≤ 32) →
    ∃ r : Word, exec (.pack w r0 v laneMask) s = .next (s.finish .ok r []) ∧
      (∀ i < 16, laneMask.getLsbD i = true → ∀ b < w.toNat, r.getLsbD (i * w.toNat + b) = v.getLsbD b) ∧
      (∀ b < 32, (∀ i < 16, laneMask.getLsbD i = true → b < i * w.toNat ∨ (i + 1) * w.toNat ≤ b) →
        r.getLsbD b = r0.getLsbD b)

/-- The faults of `PACK` and their order (41_bitfield_packer.md R116, 60_exceptions.md R195): the width, then the value,
then the selected lanes. -/
def Obligations.PackFaultsInOrder : Prop :=
  ∀ (s : State) (w : BitVec 6) (r0 v laneMask : Word), s.seq.point = .start →
    ((w.toNat = 0 ∨ 32 < w.toNat) →
      exec (.pack w r0 v laneMask) s = .next { s with fault := some .packRange }) ∧
    (1 ≤ w.toNat → w.toNat ≤ 32 → 2 ^ w.toNat ≤ v.toNat →
      exec (.pack w r0 v laneMask) s = .next { s with fault := some .packValue }) ∧
    (1 ≤ w.toNat → w.toNat ≤ 32 → v.toNat < 2 ^ w.toNat →
      (∃ i < 16, laneMask.getLsbD i = true ∧ 32 < (i + 1) * w.toNat) →
      exec (.pack w r0 v laneMask) s = .next { s with fault := some .packRange })

/-- 41_bitfield_packer.md R127: packing twice, packing disjoint masks in either order, splitting a mask, and the empty
mask, for arguments where `PACK` does not fault. -/
def Obligations.PackLaws : Prop :=
  (∀ (w : Nat) (r v r1 : Word) (m : BitVec 16), pack w r v m = .ok r1 → pack w r1 v m = .ok r1) ∧
  (∀ (w : Nat) (r v1 v2 ra rb : Word) (m1 m2 : BitVec 16), m1 &&& m2 = 0#16 → pack w r v1 m1 = .ok ra →
    pack w r v2 m2 = .ok rb → pack w ra v2 m2 = pack w rb v1 m1) ∧
  (∀ (w : Nat) (r v r1 : Word) (m1 m2 : BitVec 16), pack w r v m1 = .ok r1 →
    pack w r v (m1 ||| m2) = pack w r1 v m2) ∧
  (∀ (w : Nat) (r v r1 : Word), pack w r v 0#16 = .ok r1 → r1 = r)

/-- The values of the eight mask commands (41_bitfield_packer.md R117 to R125): each ends OK in its one micro-step, with
bits 31 to 16 of its operands ignored and of its value 0. -/
def Obligations.MaskCommandValues : Prop :=
  ∀ (s : State) (a b : Word) (lane : BitVec 4), s.seq.point = .start →
    exec (.maskNew a) s = .next (s.finish .ok (a &&& 0xFFFF#32) []) ∧
    exec (.maskUnion a b) s = .next (s.finish .ok ((a ||| b) &&& 0xFFFF#32) []) ∧
    exec (.maskIntersect a b) s = .next (s.finish .ok (a &&& b &&& 0xFFFF#32) []) ∧
    exec (.maskComplement a) s = .next (s.finish .ok (~~~a &&& 0xFFFF#32) []) ∧
    exec (.maskXor a b) s = .next (s.finish .ok ((a ^^^ b) &&& 0xFFFF#32) []) ∧
    exec (.maskSet lane a) s = .next (s.finish .ok ((a &&& 0xFFFF#32) ||| (1#32 <<< lane.toNat)) []) ∧
    exec (.maskReset lane a) s = .next (s.finish .ok (a &&& 0xFFFF#32 &&& ~~~(1#32 <<< lane.toNat)) []) ∧
    exec (.maskIsset lane a) s = .next (s.finish .ok (if a.getLsbD lane.toNat then 1#32 else 0#32) [])

/-- 41_bitfield_packer.md R130, the single-lane part, over the commands themselves: is-set after set answers 1 at the
lane and is unchanged at every other lane, and after reset 0 and unchanged. -/
def Obligations.SetAndResetActOnOneLane : Prop :=
  ∀ (s t : State) (a v : Word) (i j : BitVec 4), s.seq.point = .start → t.seq.point = .start →
    (exec (.maskSet i a) s = .next (s.finish .ok v []) →
      exec (.maskIsset j v) t = if j = i then .next (t.finish .ok 1#32 []) else exec (.maskIsset j a) t) ∧
    (exec (.maskReset i a) s = .next (s.finish .ok v []) →
      exec (.maskIsset j v) t = if j = i then .next (t.finish .ok 0#32 []) else exec (.maskIsset j a) t)

/-- 41_bitfield_packer.md R115: a packer command has no side effect and reads no state: one result, or one fault, in
every state alike. -/
def Obligations.PackerIsPure : Prop :=
  ∀ i : Instr, isPacker i = true →
    (∃ v : Word, ∀ s : State, s.seq.point = .start → exec i s = .next (s.finish .ok v [])) ∨
    (∃ f : Fault, ∀ s : State, s.seq.point = .start → exec i s = .next { s with fault := some f })

/-! PeripheralAccess -/

/-- The micro-steps of `PER_TAKE`, `PER_ENCLK` and `PER_DISCLK` (42_peripheral_access.md R135, R137, R138): the fault of
a second take, and the one bit each writes, for a clock enable the bit at the place that `PERIPH` gives (R142); and what
the write of a bit does, where it is no reset bit and where it is. It is CC.ENR and CC.RSTR of every id whose row names it
(rows that share a bit, or that name an enable bit as a reset bit: log 7, DESIGN CHOICE). At a place in CR, PLLCFGR or
CFGR, as a wrong row has it, it is the write of that word with the bit replaced, and the bit that reads there is the ENR
or RSTR of the row. A reset bit that is written 1 and reads 1 then (log 7) puts the instances of the rows that name it at
reset, their registers (R139) and their hidden state (43_bus_engine.md R173; log 15, DESIGN CHOICE, and log 20, DEDUCED).
Nothing else changes. -/
def Obligations.TakeAndClockMicroSteps : Prop :=
  (∀ (s : State) (p : PeriphId),
    (s.seq.point = .start → s.isTaken p = true → exec (.perTake p) s = .next { s with fault := some .doubleTake }) ∧
    (s.seq.point = .start → s.isTaken p = false → exec (.perTake p) s = .next (s.enter (.perTake p) .commit)) ∧
    (s.seq.point = .commit →
      exec (.perTake p) s = .next ({ s with taken := s.taken.set p.val true }.finish .ok 0#32 [])) ∧
    (s.seq.point = .start → s.isTaken p = true → exec (.perEnclk p) s = .next (s.enter (.perEnclk p) .commit)) ∧
    (∀ r, s.seq.point = .commit → s.par.row p = some r →
      exec (.perEnclk p) s = .next ((s.putBit r.enable true).finish .ok 0#32 [])) ∧
    (s.seq.point = .start → s.isTaken p = true → exec (.perDisclk p) s = .next (s.enter (.perDisclk p) .commit)) ∧
    (∀ r, s.seq.point = .commit → s.par.row p = some r →
      exec (.perDisclk p) s = .next ((s.putBit r.enable false).finish .ok 0#32 []))) ∧
  (∀ (s : State) (b : Nat × Nat) (v : Bool), ApartFromClockWords b →
    (∀ q r, s.par.row q = some r → r.reset ≠ b) →
    s.putBit b v = { s with cc := { s.cc with enr := (s.putBit b v).cc.enr } }) ∧
  (∀ (s : State) (b : Nat × Nat) (v : Bool),
    (∃ c i l, s.putBit b v = { s with cc := c, i2c := i, bus := l }) ∧
    (ApartFromClockWords b →
      (∃ e r, (s.putBit b v).cc = { s.cc with enr := e, rstr := r }) ∧
      (∀ q, s.par.row q = none →
        (s.putBit b v).enabled q = s.enabled q ∧ (s.putBit b v).inReset q = s.inReset q) ∧
      (∀ q r, s.par.row q = some r → (s.putBit b v).enabled q = (if r.enable = b then v else s.enabled q) ∧
        (s.putBit b v).inReset q = (if r.reset = b then v else s.inReset q))) ∧
    (∀ x ∈ clockWords, b.1 = x.1 → (s.putBit b v).cc = (regPut s x.2
      (if v then regWord s x.2 ||| (1#32 <<< b.2) else regWord s x.2 &&& ~~~(1#32 <<< b.2))).cc) ∧
    (∀ q r k, v = true → s.par.row q = some r → r.reset = b → r.inst = some k →
      (∀ x ∈ clockWords, b.1 = x.1 → (regWord (s.putBit b v) x.2).getLsbD b.2 = true) →
      (s.putBit b v).regs k = BusRegs.reset ∧
      (s.putBit b v).hidden k = { s.hidden k with
        line := if (s.hidden k).line = .ours then .idle else (s.hidden k).line
        pending := .none
        expectAddr := false }) ∧
    (∀ k, v = false ∨ (∃ x ∈ clockWords, b.1 = x.1 ∧ (regWord (s.putBit b v) x.2).getLsbD b.2 = false) ∨
        (∀ q r, s.par.row q = some r → r.reset = b → r.inst ≠ some k) →
      (s.putBit b v).regs k = s.regs k ∧ (s.putBit b v).hidden k = s.hidden k)) ∧
  (∀ (s : State) (q : PeriphId) (r : Config.PeriphRow), s.par.row q = some r → ∀ x ∈ clockWords,
    (r.enable.1 = x.1 → s.enabled q = (regWord s x.2).getLsbD r.enable.2) ∧
    (r.reset.1 = x.1 → s.inReset q = (regWord s x.2).getLsbD r.reset.2))

/-- 42_peripheral_access.md R136 and R140: the ownership check comes before every other check of the command, the
clock-gate check of an I2C_ command right after it; a failed check faults and writes nothing. The checks of an instance
are those of the peripheral id that `PERIPH` gives it. -/
def Obligations.OwnershipThenClockGate : Prop :=
  (∀ (s : State) (i : Instr) (p : PeriphId), s.seq.point = .start → perIdOf i = some p → s.isTaken p = false →
    exec i s = .next { s with fault := some .notOwned }) ∧
  (∀ (s : State) (i : Instr) (k : InstId), s.seq.point = .start → busInstOf i = some k → s.instTaken k = false →
    exec i s = .next { s with fault := some .notOwned }) ∧
  (∀ (s : State) (i : Instr) (k : InstId), s.seq.point = .start → busInstOf i = some k → s.instTaken k = true →
    s.clocked k = false → exec i s = .next { s with fault := some .clockGated }) ∧
  (∀ (s : State) (k : InstId) (p : PeriphId), BoardOk s.par → instOf s.par p = some k →
    s.instTaken k = s.isTaken p ∧ s.clocked k = s.enabled p ∧ s.heldInReset k = s.inReset p)

/-- `PER_RESET` (42_peripheral_access.md R139): the micro-step of each line, at the reset bit that `PERIPH` gives (for
one in CR, PLLCFGR or CFGR `Obligations.TakeAndClockMicroSteps` says what its write does); (b)
while its reset bit is set no step of the instance's bus agent changes anything; and run by SEQ alone it ends OK after
three micro-steps with the instance's registers at reset, its hidden line freed if it was ours (43_bus_engine.md R173),
the reset bit clear and everything else as it was, whatever the instance's clock enable. That the hidden state changes in
both environments is the model's choice (log 15, DESIGN CHOICE); that `dataWritten` and `stopSeenRx`, which R173 does not
list, stay as they are is its reading (log 20, DEDUCED). -/
def Obligations.PerResetFollowsItsRule : Prop :=
  (∀ (s : State) (p : PeriphId), s.seq.point = .start → s.isTaken p = true →
    exec (.perReset p) s = .next (s.enter (.perReset p) .assertReset)) ∧
  (∀ (s : State) (p : PeriphId) (r : Config.PeriphRow), s.seq.point = .assertReset → s.par.row p = some r →
    exec (.perReset p) s = .next ((s.putBit r.reset true).goto .deassertReset) ∧
    (ApartFromClockWords r.reset → (s.putBit r.reset true).inReset p = true ∧
      ∀ k, r.inst = some k → (s.putBit r.reset true).regs k = BusRegs.reset)) ∧
  (∀ (s : State) (p : PeriphId) (r : Config.PeriphRow), s.seq.point = .deassertReset → s.par.row p = some r →
    exec (.perReset p) s = .next ((s.putBit r.reset false).finish .ok 0#32 []) ∧
    (ApartFromClockWords r.reset → (s.putBit r.reset false).inReset p = false)) ∧
  (∀ (s : State) (k : InstId) (a : Config.BusStep), s.heldInReset k = true → busStep k a s = s) ∧
  (∀ (s : State) (p : PeriphId) (r : Config.PeriphRow) (rest : List Config.Turn), BoardOk s.par →
    ReadyToRun s (.perReset p) → s.isTaken p = true → s.par.row p = some r → s.agenda = [.seq, .seq, .seq] ++ rest →
    ∃ t, runs 3 s = .next t ∧
      t = { s with
        cc := { s.cc with rstr := t.cc.rstr }
        i2c := t.i2c
        bus := t.bus
        agenda := rest
        results := s.results ++ [⟨.ok, 0#32, []⟩]
        cptr := s.cptr + 1 } ∧
      (∀ q, t.inReset q = if q = p then false else s.inReset q) ∧
      (∀ k, r.inst = some k → t.regs k = BusRegs.reset ∧
        (∀ x ∈ busRegs, regWord t (.bus k x) = if x = .trise then 2#32 else 0#32) ∧
        t.hidden k = { s.hidden k with
          line := if (s.hidden k).line = .ours then .idle else (s.hidden k).line
          pending := .none
          expectAddr := false }) ∧
      (∀ j, r.inst ≠ some j → t.regs j = s.regs j ∧ t.hidden j = s.hidden j))

/-! I2C_INIT -/

/-- The checks of `I2C_INIT` in their order (43_bus_engine.md R148, R152, R157 (a); 60_exceptions.md R195): the speed
mode against the target frequency, then f = 0, then PE = 1; none writes a register. The limit is the parameter
`STD_MAX_HZ`, whose value 00_scope.md R6 gives as the 100_000 that R148 writes. -/
def Obligations.InitChecksInOrder : Prop :=
  Config.Params.default.stdMaxHz = 100000#32 ∧
  ∀ (s : State) (k : InstId) (speed : Speed) (mode : BusMode) (own1 own2 : BitVec 7) (f : Word),
    s.seq.point = .start → Usable s k →
    (speed = .standard → s.par.stdMaxHz.toNat < f.toNat →
      exec (.i2cInit k speed mode own1 own2 f) s = .next (s.finish .initError 0#32 [])) ∧
    (speed ≠ .standard → f.toNat ≤ s.par.stdMaxHz.toNat →
      exec (.i2cInit k speed mode own1 own2 f) s = .next (s.finish .initError 0#32 [])) ∧
    (speed = .standard → f = 0#32 →
      exec (.i2cInit k speed mode own1 own2 f) s = .next { s with fault := some .divZero }) ∧
    (FreqAllowed s.par speed f → f ≠ 0#32 → (s.regs k).cr1.pe = true →
      exec (.i2cInit k speed mode own1 own2 f) s = .next { s with fault := some .reinit }) ∧
    (FreqAllowed s.par speed f → f ≠ 0#32 → (s.regs k).cr1.pe = false →
      exec (.i2cInit k speed mode own1 own2 f) s = .next (s.enter (.i2cInit k speed mode own1 own2 f) (.init .clock)))

/-- 43_bus_engine.md R150 and R151 at the line that reads the clock: the divider and the rise time of each speed mode,
and the range fault of R152, for the clock PCLK_SRC selects (R149). -/
def Obligations.InitDerivesTheTiming : Prop :=
  ∀ (s : State) (k : InstId) (speed : Speed) (mode : BusMode) (own1 own2 : BitVec 7) (f : Word) (pclk : Nat),
    s.seq.point = .init .clock → f ≠ 0#32 →
    (s.par.pclkSrc = .apb1 → pclk1 s = .ok pclk) → (s.par.pclkSrc = .apb2 → pclk2 s = .ok pclk) →
    (TimingInRange s.par speed pclk f.toNat → ∃ (div : BitVec 12) (rise : BitVec 6),
      div.toNat = divider speed pclk f.toNat ∧ rise.toNat = riseTime speed pclk ∧
      exec (.i2cInit k speed mode own1 own2 f) s = .next (s.goto (.init (.divider div rise)))) ∧
    (¬ TimingInRange s.par speed pclk f.toNat →
      exec (.i2cInit k speed mode own1 own2 f) s = .next { s with fault := some .timingRange })

/-- The writing lines of `I2C_INIT` (43_bus_engine.md R154, R155, R156): CCR with the divider and the speed mode, TRISE,
the own addresses of the slave modes, then PE and ACK, each a read-modify-write of CR1; with the last it ends OK. -/
def Obligations.InitWriteMicroSteps : Prop :=
  ∀ (s : State) (k : InstId) (speed : Speed) (mode : BusMode) (own1 own2 : BitVec 7) (f : Word),
    (∀ (div : BitVec 12) (rise : BitVec 6), s.seq.point = .init (.divider div rise) →
      exec (.i2cInit k speed mode own1 own2 f) s = .next ((s.setRegs k { s.regs k with
        ccr := ⟨div, decide (speed = .fast169), decide (speed ≠ .standard)⟩ }).goto (.init (.riseTime rise)))) ∧
    (∀ rise : BitVec 6, s.seq.point = .init (.riseTime rise) →
      exec (.i2cInit k speed mode own1 own2 f) s = .next ((s.setRegs k { s.regs k with trise := rise }).goto
        (.init (if mode = .master then .enable .read else .own1)))) ∧
    (s.seq.point = .init .own1 →
      exec (.i2cInit k speed mode own1 own2 f) s = .next ((s.setRegs k { s.regs k with oar1 := own1 }).goto
        (.init (if mode = .slave2 then .own2 else .enable .read)))) ∧
    (s.seq.point = .init .own2 →
      exec (.i2cInit k speed mode own1 own2 f) s = .next ((s.setRegs k { s.regs k with oar2 := ⟨true, own2⟩ }).goto
        (.init (.enable .read)))) ∧
    (s.seq.point = .init (.enable .read) →
      exec (.i2cInit k speed mode own1 own2 f) s = .next (s.goto (.init (.enable (.write (s.regs k).cr1))))) ∧
    (∀ w : Cr1, s.seq.point = .init (.enable (.write w)) →
      exec (.i2cInit k speed mode own1 own2 f) s = .next ((s.setRegs k { s.regs k with
        cr1 := { w with pe := true } }).goto (.init (.ack .read)))) ∧
    (s.seq.point = .init (.ack .read) →
      exec (.i2cInit k speed mode own1 own2 f) s = .next (s.goto (.init (.ack (.write (s.regs k).cr1))))) ∧
    (∀ w : Cr1, s.seq.point = .init (.ack (.write w)) →
      exec (.i2cInit k speed mode own1 own2 f) s = .next ((s.setRegs k { s.regs k with
        cr1 := { w with ack := true } }).finish .ok 0#32 []))

/-- `I2C_INIT` run by SEQ alone (43_bus_engine.md R154, R155, R156; 70_reset_and_hazards.md R229): with every check
passed it ends OK after 8 micro-steps, 9 with one own address, 10 with two, and leaves CCR, TRISE, OAR1, OAR2 and CR1 as
the rules say; no other state changes. -/
def Obligations.InitRun : Prop :=
  ∀ (s : State) (k : InstId) (speed : Speed) (mode : BusMode) (own1 own2 : BitVec 7) (f : Word) (pclk : Nat)
    (rest : List Config.Turn),
    ReadyToRun s (.i2cInit k speed mode own1 own2 f) → Usable s k → FreqAllowed s.par speed f → f ≠ 0#32 →
    (s.regs k).cr1.pe = false → pclkOf s = .ok pclk → TimingInRange s.par speed pclk f.toNat →
    s.agenda = List.replicate (initMicroSteps mode) .seq ++ rest →
    ∃ (div : BitVec 12) (rise : BitVec 6), div.toNat = divider speed pclk f.toNat ∧
      rise.toNat = riseTime speed pclk ∧
      runs (initMicroSteps mode) s = .next (State.setRegs { s with
        agenda := rest
        results := s.results ++ [⟨.ok, 0#32, []⟩]
        cptr := s.cptr + 1 } k (initialised (s.regs k) speed mode own1 own2 div rise))

/-! The protocol phases -/

/-- 43_bus_engine.md R158: the error check of a snapshot, and its order against the success flag under both values of
CHECK_ORDER, whose default is ERRORS_FIRST. -/
def Obligations.PollOrder : Prop :=
  (∀ (r : Sr1) (e : Status), r.errs = some e ↔ FirstError r e) ∧
  (∀ r : Sr1, r.errs = none ↔ NoError r) ∧
  (∀ (err : Option Status) (flag : Bool), pollWith .errorsFirst err flag =
    match err, flag with
    | some e, _ => .error e
    | none, true => .success
    | none, false => .again) ∧
  (∀ (err : Option Status) (flag : Bool), pollWith .successFirst err flag =
    match flag, err with
    | true, _ => .success
    | false, some e => .error e
    | false, none => .again) ∧
  Config.Params.default.checkOrder = .errorsFirst

/-- The micro-steps of `I2C_START` (43_bus_engine.md R160): the bus-free wait without error checks, the
read-modify-write of START, the start wait that checks BERR only and consumes SB. -/
def Obligations.StartMicroSteps : Prop :=
  ∀ (s : State) (k : InstId),
    (s.seq.point = .start → Usable s k →
      exec (.i2cStart k) s = .next (s.enter (.i2cStart k) (.startBody .busFree))) ∧
    (s.seq.point = .startBody .busFree → (s.regs k).sr2.busy = true → exec (.i2cStart k) s = .next s) ∧
    (s.seq.point = .startBody .busFree → (s.regs k).sr2.busy = false →
      exec (.i2cStart k) s = .next (s.goto (.startBody (.request .read)))) ∧
    (s.seq.point = .startBody (.request .read) →
      exec (.i2cStart k) s = .next (s.goto (.startBody (.request (.write (s.regs k).cr1))))) ∧
    (∀ w : Cr1, s.seq.point = .startBody (.request (.write w)) →
      exec (.i2cStart k) s =
        .next ((s.setRegs k { s.regs k with cr1 := { w with start := true } }).goto (.startBody .wait))) ∧
    (s.seq.point = .startBody .wait → (s.regs k).sr1.sb = true →
      ((s.regs k).sr1.berr = false ∨ s.par.checkOrder = .successFirst) →
      exec (.i2cStart k) s =
        .next ((s.setRegs k { s.regs k with sr1 := { (s.regs k).sr1 with sb := false } }).finish .ok 0#32 [])) ∧
    (s.seq.point = .startBody .wait → (s.regs k).sr1.berr = true →
      ((s.regs k).sr1.sb = false ∨ s.par.checkOrder = .errorsFirst) →
      exec (.i2cStart k) s = .next (s.finish .busError 0#32 [])) ∧
    (s.seq.point = .startBody .wait → (s.regs k).sr1.sb = false → (s.regs k).sr1.berr = false →
      exec (.i2cStart k) s = .next s)

/-- The micro-steps of `I2C_ADDR` and `I2C_WRBYTE` (43_bus_engine.md R161, R162; 10_state.md R38): the byte in DR with
TXE and BTF cleared, the wait for ADDR, which is consumed, or for TXE, which is not, and the error statuses. The write of
DR is step L3 of R173 too, which the model makes in both environments (log 15, DESIGN CHOICE); the byte last received
stays (log 31, DEDUCED). -/
def Obligations.AddressAndWriteByteMicroSteps : Prop :=
  ∀ (s : State) (k : InstId) (addr : BitVec 7) (rw : Dir) (data : Byte),
    (s.seq.point = .start → Usable s k →
      exec (.i2cAddr k addr rw) s = .next (s.enter (.i2cAddr k addr rw) (.addressBody .put))) ∧
    (s.seq.point = .addressBody .put →
      exec (.i2cAddr k addr rw) s = .next ((dataRegisterWritten s k
        (BitVec.ofNat 8 (addr.toNat * 2 + if rw = .read then 1 else 0))).goto (.addressBody .wait))) ∧
    (s.seq.point = .addressBody .wait → WaitSucceeds s k (s.regs k).sr1.addr →
      exec (.i2cAddr k addr rw) s =
        .next ((s.setRegs k { s.regs k with sr1 := { (s.regs k).sr1 with addr := false } }).finish .ok 0#32 [])) ∧
    (∀ e, s.seq.point = .addressBody .wait → WaitFails s k (s.regs k).sr1.addr e →
      exec (.i2cAddr k addr rw) s = .next (s.finish e 0#32 [])) ∧
    (s.seq.point = .addressBody .wait → WaitGoesOn s k (s.regs k).sr1.addr →
      exec (.i2cAddr k addr rw) s = .next s) ∧
    (s.seq.point = .start → Usable s k →
      exec (.i2cWrbyte k data) s = .next (s.enter (.i2cWrbyte k data) (.writeBody .put))) ∧
    (s.seq.point = .writeBody .put →
      exec (.i2cWrbyte k data) s = .next ((dataRegisterWritten s k data).goto (.writeBody .wait))) ∧
    (s.seq.point = .writeBody .wait → WaitSucceeds s k (s.regs k).sr1.txe →
      exec (.i2cWrbyte k data) s = .next (s.finish .ok 0#32 [])) ∧
    (∀ e, s.seq.point = .writeBody .wait → WaitFails s k (s.regs k).sr1.txe e →
      exec (.i2cWrbyte k data) s = .next (s.finish e 0#32 [])) ∧
    (s.seq.point = .writeBody .wait → WaitGoesOn s k (s.regs k).sr1.txe →
      exec (.i2cWrbyte k data) s = .next s)

/-- The micro-steps of `I2C_RDBYTE` (43_bus_engine.md R163, R166): whatever the error flags, the wait ends on RXNE
alone, and the read returns the byte DR received last and clears RXNE and BTF. -/
def Obligations.ReadByteMicroSteps : Prop :=
  ∀ (s : State) (k : InstId),
    (s.seq.point = .start → Usable s k →
      exec (.i2cRdbyte k) s = .next (s.enter (.i2cRdbyte k) (.readBody .wait))) ∧
    (s.seq.point = .readBody .wait → (s.regs k).sr1.rxne = false → exec (.i2cRdbyte k) s = .next s) ∧
    (s.seq.point = .readBody .wait → (s.regs k).sr1.rxne = true →
      exec (.i2cRdbyte k) s = .next (s.goto (.readBody .take))) ∧
    (s.seq.point = .readBody .take →
      exec (.i2cRdbyte k) s = .next ((s.setRegs k { s.regs k with
        sr1 := { (s.regs k).sr1 with rxne := false, btf := false } }).finish .ok ((s.regs k).drRx.setWidth 32) []))

/-- `I2C_STOP` (43_bus_engine.md R164, R167; 70_reset_and_hazards.md R229): its lines, and run by SEQ alone it ends OK
after three micro-steps with CR1.STOP set, nothing polled and nothing else changed. -/
def Obligations.StopRun : Prop :=
  ∀ (s : State) (k : InstId) (rest : List Config.Turn),
    (s.seq.point = .start → Usable s k → exec (.i2cStop k) s = .next (s.enter (.i2cStop k) (.stopBody .read))) ∧
    (s.seq.point = .stopBody .read →
      exec (.i2cStop k) s = .next (s.goto (.stopBody (.write (s.regs k).cr1)))) ∧
    (∀ w : Cr1, s.seq.point = .stopBody (.write w) →
      exec (.i2cStop k) s =
        .next ((s.setRegs k { s.regs k with cr1 := { w with stop := true } }).finish .ok 0#32 [])) ∧
    (ReadyToRun s (.i2cStop k) → Usable s k → s.agenda = [.seq, .seq, .seq] ++ rest →
      runs 3 s = .next (State.setRegs { s with
        agenda := rest
        results := s.results ++ [⟨.ok, 0#32, []⟩]
        cptr := s.cptr + 1 } k { s.regs k with cr1 := { (s.regs k).cr1 with stop := true } }))

/-! The composite transactions -/

/-- The micro-steps of `I2C_WRITE` (44_bus_transactions.md R180, R58 of 20_memory.md): the prelude and the fault of
N = 0, the start and address bodies, byte j of the operand words in DR, the TXE waits, the BTF wait after the last byte,
and the stop request, with which it ends OK. Each wait ends in success, in an error status with nothing else written, or
polls again; the bus-free wait checks no error and the start wait BERR only. SEQ.phase and SEQ.i are written with the
neighbouring register access (log 11, DEDUCED); each write of DR is step L3 of 43_bus_engine.md R173 too, in both
environments (log 15, DESIGN CHOICE), and leaves the byte last received (log 31, DEDUCED). -/
def Obligations.WriteMicroSteps : Prop :=
  ∀ (s : State) (k : InstId) (addr : BitVec 7) (n : BitVec 12) (ops : List Word),
    (s.seq.point = .start → Usable s k → n = 0#12 →
      exec (.i2cWrite k addr n ops) s = .next { s with fault := some .zeroLength }) ∧
    (s.seq.point = .start → Usable s k → n ≠ 0#12 →
      exec (.i2cWrite k addr n ops) s = .next (s.enter (.i2cWrite k addr n ops) (.startBody .busFree))) ∧
    (∀ p t, s.seq.point = .startBody p → p ≠ .wait → exec (.i2cStart k) s = .next t →
      exec (.i2cWrite k addr n ops) s = .next t) ∧
    (s.seq.point = .startBody .wait → (s.regs k).sr1.sb = true →
      ((s.regs k).sr1.berr = false ∨ s.par.checkOrder = .successFirst) →
      exec (.i2cWrite k addr n ops) s =
        .next (((s.setRegs k { s.regs k with sr1 := { (s.regs k).sr1 with sb := false } }).setPhase .started).goto
          (.addressBody .put))) ∧
    (s.seq.point = .startBody .wait → (s.regs k).sr1.berr = true →
      ((s.regs k).sr1.sb = false ∨ s.par.checkOrder = .errorsFirst) →
      exec (.i2cWrite k addr n ops) s = .next (s.finish .busError 0#32 [])) ∧
    (s.seq.point = .startBody .wait → (s.regs k).sr1.sb = false → (s.regs k).sr1.berr = false →
      exec (.i2cWrite k addr n ops) s = .next s) ∧
    (s.seq.point = .addressBody .put →
      exec (.i2cWrite k addr n ops) s =
        .next ((dataRegisterWritten s k (BitVec.ofNat 8 (addr.toNat * 2))).goto (.addressBody .wait))) ∧
    (s.seq.point = .addressBody .wait → WaitSucceeds s k (s.regs k).sr1.addr →
      exec (.i2cWrite k addr n ops) s =
        .next ((((s.setRegs k { s.regs k with sr1 := { (s.regs k).sr1 with addr := false } }).setPhase
          .addressPhase).setIndex 0).goto (.writeBody .put))) ∧
    (s.seq.point = .writeBody .put →
      exec (.i2cWrite k addr n ops) s =
        .next ((dataRegisterWritten s k ((ops.getD (s.seq.i / 4) 0#32).extractLsb' (8 * (s.seq.i % 4)) 8)).goto
          (.writeBody .wait))) ∧
    (s.seq.point = .writeBody .wait → WaitSucceeds s k (s.regs k).sr1.txe → s.seq.i + 1 < n.toNat →
      exec (.i2cWrite k addr n ops) s =
        .next (((s.setPhase .dataPhase).setIndex (s.seq.i + 1)).goto (.writeBody .put))) ∧
    (s.seq.point = .writeBody .wait → WaitSucceeds s k (s.regs k).sr1.txe → n.toNat ≤ s.seq.i + 1 →
      exec (.i2cWrite k addr n ops) s = .next ((s.setPhase .dataPhase).goto .btfWait)) ∧
    (s.seq.point = .btfWait → WaitSucceeds s k (s.regs k).sr1.btf →
      exec (.i2cWrite k addr n ops) s = .next (s.goto (.stopBody .read))) ∧
    (s.seq.point = .stopBody .read →
      exec (.i2cWrite k addr n ops) s = .next (s.goto (.stopBody (.write (s.regs k).cr1)))) ∧
    (∀ w : Cr1, s.seq.point = .stopBody (.write w) →
      exec (.i2cWrite k addr n ops) s =
        .next ((s.setRegs k { s.regs k with cr1 := { w with stop := true } }).finish .ok 0#32 [])) ∧
    (∀ e, (s.seq.point = .addressBody .wait ∧ WaitFails s k (s.regs k).sr1.addr e ∨
        s.seq.point = .writeBody .wait ∧ WaitFails s k (s.regs k).sr1.txe e ∨
        s.seq.point = .btfWait ∧ WaitFails s k (s.regs k).sr1.btf e) →
      exec (.i2cWrite k addr n ops) s = .next (s.finish e 0#32 [])) ∧
    ((s.seq.point = .addressBody .wait ∧ WaitGoesOn s k (s.regs k).sr1.addr ∨
        s.seq.point = .writeBody .wait ∧ WaitGoesOn s k (s.regs k).sr1.txe ∨
        s.seq.point = .btfWait ∧ WaitGoesOn s k (s.regs k).sr1.btf) →
      exec (.i2cWrite k addr n ops) s = .next s)

/-- The micro-steps of `I2C_READ` (44_bus_transactions.md R183): the prelude and the fault of N = 0, the saved ACK, the
start body with the three outcomes of its start wait, the address phase with those of its wait, ACK on for N > 1, the
first N - 1 bytes, ACK off and STOP before the last byte, its read, and the restored ACK, with which it ends OK with the
bytes received. SEQ.phase, SEQ.i and SEQ.buf are written with the neighbouring register access (log 11, DEDUCED: R181
counts the micro-steps of `I2C_WRITE` only); the phase is Stopped and then DataPhase again (log 25, DEDUCED). The write of
the address byte is step L3 of 43_bus_engine.md R173 too, in both environments (log 15, DESIGN CHOICE), and leaves the
byte last received (log 31, DEDUCED). -/
def Obligations.ReadMicroSteps : Prop :=
  ∀ (s : State) (k : InstId) (addr : BitVec 7) (n : BitVec 12),
    (s.seq.point = .start → Usable s k → n = 0#12 →
      exec (.i2cRead k addr n) s = .next { s with fault := some .zeroLength }) ∧
    (s.seq.point = .start → Usable s k → n ≠ 0#12 →
      exec (.i2cRead k addr n) s = .next (s.enter (.i2cRead k addr n) .saveAck)) ∧
    (s.seq.point = .saveAck →
      exec (.i2cRead k addr n) s =
        .next ({ s with seq := { s.seq with savedAck := (s.regs k).cr1.ack, buf := [] } }.goto
          (.startBody .busFree))) ∧
    (∀ p t, s.seq.point = .startBody p → p ≠ .wait → exec (.i2cStart k) s = .next t →
      exec (.i2cRead k addr n) s = .next t) ∧
    (s.seq.point = .startBody .wait → (s.regs k).sr1.sb = true →
      ((s.regs k).sr1.berr = false ∨ s.par.checkOrder = .successFirst) →
      exec (.i2cRead k addr n) s =
        .next (((s.setRegs k { s.regs k with sr1 := { (s.regs k).sr1 with sb := false } }).setPhase .started).goto
          (.addressBody .put))) ∧
    (s.seq.point = .startBody .wait → (s.regs k).sr1.berr = true →
      ((s.regs k).sr1.sb = false ∨ s.par.checkOrder = .errorsFirst) →
      exec (.i2cRead k addr n) s = .next (s.finish .busError 0#32 [])) ∧
    (s.seq.point = .startBody .wait → (s.regs k).sr1.sb = false → (s.regs k).sr1.berr = false →
      exec (.i2cRead k addr n) s = .next s) ∧
    (s.seq.point = .addressBody .put →
      exec (.i2cRead k addr n) s =
        .next ((dataRegisterWritten s k (BitVec.ofNat 8 (addr.toNat * 2 + 1))).goto (.addressBody .wait))) ∧
    (s.seq.point = .addressBody .wait → WaitSucceeds s k (s.regs k).sr1.addr →
      exec (.i2cRead k addr n) s =
        .next ((((s.setRegs k { s.regs k with sr1 := { (s.regs k).sr1 with addr := false } }).setPhase
          .addressPhase).setIndex (if 1 < n.toNat then 0 else n.toNat - 1)).goto
            (if 1 < n.toNat then .ackOn .read else .ackOff .read))) ∧
    (∀ e, s.seq.point = .addressBody .wait → WaitFails s k (s.regs k).sr1.addr e →
      exec (.i2cRead k addr n) s = .next (s.finish e 0#32 [])) ∧
    (s.seq.point = .addressBody .wait → WaitGoesOn s k (s.regs k).sr1.addr →
      exec (.i2cRead k addr n) s = .next s) ∧
    (∀ w : Cr1, s.seq.point = .ackOn (.write w) →
      exec (.i2cRead k addr n) s =
        .next ((s.setRegs k { s.regs k with cr1 := { w with ack := true } }).goto (.readBody .wait))) ∧
    (∀ p, s.seq.point = .readBody .wait ∧ p = Point.readBody .take ∨
        s.seq.point = .lastBody .wait ∧ p = Point.lastBody .take →
      exec (.i2cRead k addr n) s = .next (if (s.regs k).sr1.rxne then s.goto p else s)) ∧
    (s.seq.point = .readBody .take →
      exec (.i2cRead k addr n) s =
        .next (((((s.setRegs k { s.regs k with sr1 := { (s.regs k).sr1 with rxne := false, btf := false } }).setPhase
          .dataPhase).pushByte (s.regs k).drRx).setIndex (if s.seq.i + 2 < n.toNat then s.seq.i + 1 else n.toNat - 1)).goto
            (if s.seq.i + 2 < n.toNat then .readBody .wait else .ackOff .read))) ∧
    (∀ w : Cr1, s.seq.point = .ackOff (.write w) →
      exec (.i2cRead k addr n) s =
        .next ((s.setRegs k { s.regs k with cr1 := { w with ack := false } }).goto (.stopBody .read))) ∧
    (∀ w : Cr1, s.seq.point = .stopBody (.write w) →
      exec (.i2cRead k addr n) s =
        .next (((s.setRegs k { s.regs k with cr1 := { w with stop := true } }).setPhase .stopped).goto
          (.lastBody .wait))) ∧
    (s.seq.point = .lastBody .take →
      exec (.i2cRead k addr n) s =
        .next ((((s.setRegs k { s.regs k with sr1 := { (s.regs k).sr1 with rxne := false, btf := false } }).setPhase
          .dataPhase).pushByte (s.regs k).drRx).goto (.restoreAck .read))) ∧
    (∀ w : Cr1, s.seq.point = .restoreAck (.write w) →
      exec (.i2cRead k addr n) s =
        .next ((s.setRegs k { s.regs k with cr1 := { w with ack := s.seq.savedAck } }).finish .ok 0#32 s.seq.buf)) ∧
    (∀ p : Rmw → Point, p ∈ [Point.ackOn, .ackOff, .stopBody, .restoreAck] → s.seq.point = p .read →
      exec (.i2cRead k addr n) s = .next (s.goto (p (.write (s.regs k).cr1))))

/-- An `I2C_WRITE` of any N ≥ 1 bytes on a lawful bus that is free and acknowledges everything ends OK, after the
10 + 2 N SEQ micro-steps of 44_bus_transactions.md R181 (each poll seeing its flag at once): the whole state it leaves,
with the stop still requested (R180 (e)), the last data byte handed to DR (the byte received last stays: log 31, DEDUCED),
TXE and BTF set and the bus held. -/
def Obligations.WriteOfNBytesCompletes : Prop :=
  ∀ (s : State) (k : InstId) (addr : BitVec 7) (n : BitVec 12) (ops : List Word) (rest : List Config.Turn),
    ReadyToRun s (.i2cWrite k addr n ops) → LawfulAndFree s k → n ≠ 0#12 →
    s.agenda = writeTurns k n.toNat ++ rest →
    (writeTurns k n.toNat).count .seq = 10 + 2 * n.toNat ∧
    runs (writeTurns k n.toNat).length s = .next ((State.setRegs { s with
        agenda := rest
        results := s.results ++ [⟨.ok, 0#32, []⟩]
        cptr := s.cptr + 1 } k { s.regs k with
      cr1 := { (s.regs k).cr1 with start := false, stop := true }
      drTx := (ops.getD ((n.toNat - 1) / 4) 0#32).extractLsb' (8 * ((n.toNat - 1) % 4)) 8
      sr1 := { (s.regs k).sr1 with sb := false, addr := false, txe := true, btf := true }
      sr2 := ⟨true, true, true⟩ }).setHidden k { s.hidden k with
      line := .ours
      pending := .tx
      expectAddr := false
      dataWritten := true })

/-- An `I2C_READ` of any N ≥ 1 bytes on a lawful bus that is free ends OK with exactly the bytes that step L8 delivered,
in their order (44_bus_transactions.md R183 (c), 43_bus_engine.md R174 (d)), ACK as it was at entry (R183 (e)), and the
stop requested before the last byte came: the whole state it leaves. DR is two bytes, the address byte SEQ wrote and the
last byte received (log 31, DEDUCED). -/
def Obligations.ReadReturnsTheDeliveredBytes : Prop :=
  ∀ (s : State) (k : InstId) (addr : BitVec 7) (n : BitVec 12) (first : List Byte) (last : Byte)
    (rest : List Config.Turn),
    ReadyToRun s (.i2cRead k addr n) → LawfulAndFree s k → (s.regs k).sr1.rxne = false →
    (s.regs k).cr1.stop = false → (s.hidden k).stopSeenRx = false → n.toNat = first.length + 1 →
    s.agenda = readTurns k first last ++ rest →
    runs (readTurns k first last).length s = .next ((State.setRegs { s with
        agenda := rest
        results := s.results ++ [⟨.ok, 0#32, first ++ [last]⟩]
        cptr := s.cptr + 1 } k { s.regs k with
      cr1 := { (s.regs k).cr1 with start := false, stop := true }
      drTx := BitVec.ofNat 8 (addr.toNat * 2 + 1)
      drRx := last
      sr1 := { (s.regs k).sr1 with sb := false, addr := false, rxne := false, txe := false, btf := false }
      sr2 := ⟨true, true, false⟩ }).setHidden k { s.hidden k with
      line := .ours
      pending := .rx
      expectAddr := false
      dataWritten := false
      stopSeenRx := true })

/-- Whatever the buses do, an `I2C_READ` that ends once its address phase has passed ends OK with exactly N bytes and
value 0 (44_bus_transactions.md R183 (c), (d)). -/
def Obligations.ReadEndsOkWithNBytes : Prop :=
  ∀ (s t : State) (k : InstId) (addr : BitVec 7) (n : BitVec 12), SeqCoherent s →
    s.seq.cmd = some (.i2cRead k addr n) → afterAddress s.seq.point = true → step s = .next t →
    t.cptr = s.cptr ∧ t.results = s.results ∨
    ∃ l : List Byte, l.length = n.toNat ∧ t.results = s.results ++ [⟨.ok, 0#32, l⟩] ∧ t.cptr = s.cptr + 1

/-- 60_exceptions.md R192: a SEQ turn that ends a command with a status other than OK appends (status, 0, []), advances
CPTR in the same micro-step, and changes nothing else; nothing written before is undone. -/
def Obligations.ErrorStatusChangesNothingElse : Prop :=
  ∀ (s t : State) (r : Result), step s = .next t → t.results = s.results ++ [r] → r.status ≠ .ok →
    r.value = 0#32 ∧ r.bytes = [] ∧
    t = { s.takeTurn with
      seq := ⟨.idle, none, 0, false, [], .start⟩
      results := s.results ++ [r]
      cptr := s.cptr + 1 }

/-- 60_exceptions.md R191: the statuses each command may end with, DecodeError only where it does not decode; no command
ends with BusyError, and `I2C_READ` with an error only from its start or address wait; and the numeric code of each status (R190). -/
def Obligations.StatusesByCommand : Prop :=
  (∀ (i : Instr) (s t : State) (r : Result), exec i s = .next t → t.results = s.results ++ [r] →
    r.status ∈ statusesOf i) ∧
  (∀ (s t : State) (r : Result), step s = .next t → t.results = s.results ++ [r] → r.status ≠ .busyError) ∧
  (∀ (s t : State) (c : Command) (e : DecodeError) (r : Result), s.seq.cmd = none → s.nextTurn = .seq →
    s.fetch = some c → decode s.par c = .error e → step s = .next t → t.results = s.results ++ [r] →
    r.status = .decodeError) ∧
  (∀ (k : InstId) (addr : BitVec 7) (n : BitVec 12) (s t : State) (r : Result), exec (.i2cRead k addr n) s = .next t →
    t.results = s.results ++ [r] → r.status ≠ .ok →
    s.seq.point = .startBody .wait ∨ s.seq.point = .addressBody .wait) ∧
  [Status.ok, .busError, .arbitrationLost, .acknowledgeFailure, .initError, .busyError, .decodeError].map Status.code =
    [0x00#8, 0x01#8, 0x02#8, 0x03#8, 0x04#8, 0x05#8, 0x06#8]

/-! The other agents -/

/-- 40_clocktree.md R109 and R110: a turn of OSC writes only HSIRDY, HSERDY, PLLRDY and SWS, and a step that changes SWS,
whoever takes it, is OSC copying SW while the source SW selects is ready, which OSC may do whenever SWS differs. -/
def Obligations.OscWritesOnlyReadyFlagsAndSws : Prop :=
  (∀ (a : Config.OscStep) (s : State), ∃ h e p w, oscStep a s = { s with cc := { s.cc with
    cr := { s.cc.cr with hsirdy := h, hserdy := e, pllrdy := p }
    cfgr := { s.cc.cfgr with sws := w } } }) ∧
  (∀ s t : State, step s = .next t → t.cc.cfgr.sws ≠ s.cc.cfgr.sws →
    s.nextTurn = .osc .confirmSwitch ∧ t.cc.cfgr.sws = s.cc.cfgr.sw ∧
    ∃ src : Source, s.cc.cfgr.sw = src.code ∧ readyFlag src s.cc.cr = true) ∧
  (∀ (s : State) (src : Source), s.cc.cfgr.sw = src.code → s.cc.cfgr.sws ≠ s.cc.cfgr.sw →
    readyFlag src s.cc.cr = true →
    oscStep .confirmSwitch s = s.setCfgr { s.cc.cfgr with sws := s.cc.cfgr.sw })

/-- The steps of OSC that raise or drop a ready flag, each exactly when 40_clocktree.md R108 allows it. A
turn that its rule does not allow is no step and changes nothing (log 17, DESIGN CHOICE). -/
def Obligations.OscReadySteps : Prop :=
  ∀ s : State,
    oscStep .hsiReady s = (if s.cc.cr.hsion = true ∧ s.cc.cr.hsirdy = false then
      s.setCr { s.cc.cr with hsirdy := true } else s) ∧
    oscStep .hseReady s = (if s.cc.cr.hseon = true ∧ s.cc.cr.hserdy = false then
      s.setCr { s.cc.cr with hserdy := true } else s) ∧
    oscStep .pllReady s = (if s.cc.cr.pllon = true ∧ s.cc.cr.pllrdy = false ∧ pllInputReady s = true then
      s.setCr { s.cc.cr with pllrdy := true } else s) ∧
    oscStep .hsiLost s = (if s.cc.cr.hsion = false ∧ s.cc.cr.hsirdy = true then
      s.setCr { s.cc.cr with hsirdy := false } else s) ∧
    oscStep .hseLost s = (if s.cc.cr.hseon = false ∧ s.cc.cr.hserdy = true then
      s.setCr { s.cc.cr with hserdy := false } else s) ∧
    oscStep .pllLost s = (if s.cc.cr.pllon = false ∧ s.cc.cr.pllrdy = true then
      s.setCr { s.cc.cr with pllrdy := false } else s)

/-- What a turn of BUS[k] may write, in both environments (43_bus_engine.md R171, R172; 10_state.md R43): never PE, ACK,
the own addresses, CCR, TRISE or the byte SEQ handed to DR (log 31, DEDUCED); START and STOP only cleared, START only where SB is then set; nothing of another
instance or of the rest of the state. -/
def Obligations.BusAgentWrites : Prop :=
  ∀ (s : State) (k : InstId) (a : Config.BusStep),
    (∃ x y, busStep k a s = (s.setRegs k x).setHidden k y) ∧
    ((busStep k a s).regs k).cr1.pe = (s.regs k).cr1.pe ∧
    ((busStep k a s).regs k).cr1.ack = (s.regs k).cr1.ack ∧
    ((busStep k a s).regs k).oar1 = (s.regs k).oar1 ∧
    ((busStep k a s).regs k).oar2 = (s.regs k).oar2 ∧
    ((busStep k a s).regs k).ccr = (s.regs k).ccr ∧
    ((busStep k a s).regs k).trise = (s.regs k).trise ∧
    ((busStep k a s).regs k).drTx = (s.regs k).drTx ∧
    (((busStep k a s).regs k).cr1.start = true → (s.regs k).cr1.start = true) ∧
    (((busStep k a s).regs k).cr1.stop = true → (s.regs k).cr1.stop = true) ∧
    ((s.regs k).cr1.start = true → ((busStep k a s).regs k).cr1.start = false →
      ((busStep k a s).regs k).sr1.sb = true)

/-- 43_bus_engine.md R171: under FREE a bus agent whose instance exists, is clocked and not in reset can bring SR1, SR2
and the received byte of DR to any values at all, and clear START or STOP or both; where it clears START it sets SB in the
same step (R172; log 16, DEDUCED). -/
def Obligations.FreeBusReachesEveryFlagValue : Prop :=
  ∀ (s : State) (k : InstId) (sr1 : Sr1) (sr2 : Sr2) (b : Byte) (clearStart clearStop : Bool), s.par.env = .free →
    instExists s.par k = true → s.clocked k = true → s.heldInReset k = false →
    ∃ a, busStep k a s = (s.setRegs k { s.regs k with
      sr1 := { sr1 with sb := sr1.sb || clearStart }, sr2 := sr2, drRx := b
      cr1 := { (s.regs k).cr1 with
        start := (s.regs k).cr1.start && !clearStart, stop := (s.regs k).cr1.stop && !clearStop } })

/-- 42_peripheral_access.md R141: while the clock is gated the bus agent writes no register, and the hidden line state
may still change. -/
def Obligations.GatedBusWritesNoRegister : Prop :=
  (∀ (s : State) (k : InstId) (a : Config.BusStep), s.clocked k = false → (busStep k a s).i2c = s.i2c) ∧
  (∃ (s : State) (k : InstId) (a : Config.BusStep), s.clocked k = false ∧ (busStep k a s).hidden k ≠ s.hidden k)

/-- The steps L1, L2 and L4 to L11 of 43_bus_engine.md R173 on a lawful instance that exists, is clocked and is not in
reset (L3 is part of the DR write, `Obligations.AddressAndWriteByteMicroSteps`): where the guard of a step holds, the
flags and the hidden state it sets, and where it fails, nothing (a turn that its rule
does not allow is no step: log 17, DESIGN CHOICE). Every step but L1 asks for PE. L9 with MSL = 0 leaves
`line` as it is (log 13, DEDUCED). No other step changes a lawful clocked instance. -/
def Obligations.LawfulSteps : Prop :=
  ∀ (s : State) (k : InstId) (r : BusRegs) (h : BusLine), s.regs k = r → s.hidden k = h → s.par.env = .lawful →
    instExists s.par k = true → s.clocked k = true → s.heldInReset k = false →
    busStep k .trafficBusy s = (if h.line ≠ .ours then
      (s.setRegs k { r with sr2 := { r.sr2 with busy := true } }).setHidden k { h with line := .other } else s) ∧
    busStep k .trafficIdle s = (if h.line ≠ .ours then
      (s.setRegs k { r with sr2 := { r.sr2 with busy := false } }).setHidden k { h with line := .idle } else s) ∧
    busStep k .startDone s = (if r.cr1.pe = true ∧ r.cr1.start = true ∧ h.line ≠ .other then
      (s.setRegs k { r with
        cr1 := { r.cr1 with start := false }, sr1 := { r.sr1 with sb := true }
        sr2 := { r.sr2 with msl := true, busy := true } }).setHidden k
          { h with line := .ours, pending := .none, expectAddr := true } else s) ∧
    busStep k .addrAck s = (if r.cr1.pe = true ∧ h.pending = .addr false then
        (s.setRegs k { r with
          sr1 := { r.sr1 with addr := true, txe := true }, sr2 := { r.sr2 with tra := true } }).setHidden k
            { h with pending := .tx, dataWritten := false }
      else if r.cr1.pe = true ∧ h.pending = .addr true then
        (s.setRegs k { r with sr1 := { r.sr1 with addr := true }, sr2 := { r.sr2 with tra := false } }).setHidden k
          { h with pending := .rx, dataWritten := false }
      else s) ∧
    busStep k .addrNack s = (if r.cr1.pe = true ∧ AddressPending h.pending then
      (s.setRegs k { r with sr1 := { r.sr1 with af := true } }).setHidden k { h with pending := .none } else s) ∧
    busStep k .shiftOut s = (if r.cr1.pe = true ∧ h.pending = .tx ∧ r.sr1.addr = false ∧ r.sr1.txe = false then
      (s.setRegs k { r with sr1 := { r.sr1 with txe := true } }).setHidden k { h with dataWritten := true } else s) ∧
    busStep k .byteDone s = (if r.cr1.pe = true ∧ h.pending = .tx ∧ r.sr1.txe = true ∧ h.dataWritten = true then
      s.setRegs k { r with sr1 := { r.sr1 with btf := true } } else s) ∧
    busStep k .dataNack s = (if r.cr1.pe = true ∧ h.pending = .tx ∧ h.dataWritten = true then
      s.setRegs k { r with sr1 := { r.sr1 with af := true } } else s) ∧
    (∀ b, busStep k (.receive b) s = (if r.cr1.pe = true ∧ h.pending = .rx ∧ r.sr1.addr = false ∧ r.sr1.rxne = false ∧
        h.stopSeenRx = false then
      (s.setRegs k { r with drRx := b, sr1 := { r.sr1 with rxne := true } }).setHidden k
        { h with stopSeenRx := r.cr1.stop } else s)) ∧
    busStep k .stopDone s = (if r.cr1.pe = true ∧ r.cr1.stop = true ∧ (r.sr2.msl = false ∨
        h.line = .ours ∧ (h.pending ≠ .rx ∨ h.stopSeenRx = true ∨ r.sr1.rxne = true)) then
      (s.setRegs k { r with
        cr1 := { r.cr1 with stop := false }, sr1 := { r.sr1 with txe := false, btf := false }
        sr2 := { r.sr2 with msl := false, busy := false } }).setHidden k
          { h with line := if r.sr2.msl then .idle else h.line, pending := .none, stopSeenRx := false } else s) ∧
    busStep k .busError s = (if r.cr1.pe = true ∧ h.line ≠ .idle then
      s.setRegs k { r with sr1 := { r.sr1 with berr := true } } else s) ∧
    busStep k .arbLost s = (if r.cr1.pe = true ∧ (AddressPending h.pending ∨ h.pending = .tx) then
      (s.setRegs k { r with sr1 := { r.sr1 with arlo := true }, sr2 := { r.sr2 with msl := false } }).setHidden k
        { h with line := .other, pending := .none } else s) ∧
    (∀ sr1 sr2 b x y, busStep k (.any sr1 sr2 b x y) s = s) ∧ (∀ b, busStep k (.drift b) s = s)

/-- 43_bus_engine.md R159, 10_state.md R39: on a lawful bus the error flags are sticky; only `PER_RESET` of the
instance, at its first write, clears one, on a platform whose `PERIPH` rows name bits of their own. -/
def Obligations.ErrorFlagsAreSticky : Prop :=
  ∀ (s t : State) (k : InstId), BoardOk s.par → SeqCoherent s → s.par.env = .lawful → step s = .next t →
    (s.nextTurn = .seq ∧ s.seq.point = .assertReset ∧ ∃ p, s.seq.cmd = some (.perReset p) ∧ instOf s.par p = some k) ∨
    (((s.regs k).sr1.af = true → (t.regs k).sr1.af = true) ∧
     ((s.regs k).sr1.arlo = true → (t.regs k).sr1.arlo = true) ∧
     ((s.regs k).sr1.berr = true → (t.regs k).sr1.berr = true))

/-- The race of 70_reset_and_hazards.md R223 and 20_memory.md R62: when the bus agent completes the stop between the two
micro-steps of `I2C_READ`'s restoring ACK write, the write-back requests the stop again. -/
def Obligations.RestoreWritesStaleStopBack : Prop :=
  ∀ (s : State) (k : InstId) (addr : BitVec 7) (n : BitVec 12) (sr1 sr2 : Word) (b : Byte) (rest : List Config.Turn),
    s.fault = none → s.seq.cmd = some (.i2cRead k addr n) → s.seq.point = .restoreAck .read → s.par.env = .free →
    instExists s.par k = true → s.clocked k = true → s.heldInReset k = false → (s.regs k).cr1.stop = true →
    s.agenda = [.seq, .bus k (.any sr1 sr2 b false true), .seq] ++ rest →
    ∃ t u, runs 2 s = .next t ∧ (t.regs k).cr1.stop = false ∧ runs 3 s = .next u ∧ (u.regs k).cr1.stop = true ∧
      u.results = s.results ++ [⟨.ok, 0#32, s.seq.buf⟩]

/-! Whole-machine rules -/

/-- No step writes the parameters or the command space (70_reset_and_hazards.md R211, 20_memory.md R71), and CPTR stays
or advances by one, with one result for each advance (10_state.md R22, R23). -/
def Obligations.CommandSpaceAndPointer : Prop :=
  ∀ s t : State, step s = .next t → t.par = s.par ∧ t.commands = s.commands ∧
    (t.cptr = s.cptr ∧ t.results = s.results ∨ t.cptr = s.cptr + 1 ∧ ∃ r, t.results = s.results ++ [r])

/-- 44_bus_transactions.md R188: while a composite transaction runs, no step of any agent changes TAKEN, the clock
enables (those of a `PERIPH` whose rows name bits of their own, and every one that is held apart from CR, PLLCFGR and
CFGR), what SEQ writes of the clock tree, or the timing in any CCR and TRISE. -/
def Obligations.TransactionHoldsItsResources : Prop :=
  ∀ (s t : State) (i : Instr), s.seq.cmd = some i →
    ((∃ k a n ops, i = .i2cWrite k a n ops) ∨ (∃ k a n, i = .i2cRead k a n)) → step s = .next t →
    t.taken = s.taken ∧ t.cc.enr = s.cc.enr ∧ (BoardOk s.par → ∀ p, t.enabled p = s.enabled p) ∧
    t.cc.pllcfgr = s.cc.pllcfgr ∧ t.cc.cfgr.sw = s.cc.cfgr.sw ∧
    t.cc.cfgr.hpre = s.cc.cfgr.hpre ∧ t.cc.cfgr.ppre1 = s.cc.cfgr.ppre1 ∧ t.cc.cfgr.ppre2 = s.cc.cfgr.ppre2 ∧
    t.cc.cr.hsion = s.cc.cr.hsion ∧ t.cc.cr.hseon = s.cc.cr.hseon ∧ t.cc.cr.pllon = s.cc.cr.pllon ∧
    (∀ j, (t.regs j).ccr = (s.regs j).ccr ∧ (t.regs j).trise = (s.regs j).trise)

/-- 40_clocktree.md R112 (b), 70_reset_and_hazards.md R213: a `CLK_CONFIG PLL` that awaits PLLRDY with the PLL fed from
an external oscillator that is off and not ready hangs, whatever turns the agents take. Where the oscillator is off and
its ready flag is still 1, R108 (c) lets PLLRDY rise, and this statement says nothing (log 36, DEDUCED). -/
def Obligations.PllSwitchHangsWithoutItsInput : Prop :=
  ∀ (s : State) (hpre : BitVec 4) (ppre1 ppre2 : BitVec 3), s.fault = none →
    s.seq.cmd = some (.clkConfig .pll hpre ppre1 ppre2) → s.seq.point = .config .ready →
    s.cc.pllcfgr.pllsrc = .hse → s.cc.cr.hseon = false → s.cc.cr.hserdy = false → s.cc.cr.pllrdy = false → Hangs s

/-- 43_bus_engine.md R174 (b): on a lawful bus that this instance holds with no stop requested and nothing pending, as an
address that nobody acknowledged (L5) leaves it, the bus-free wait of the next `I2C_START` never ends, whatever turns the
agents take. An abort with a transfer still pending (AF from L7) is not of this kind: there L11 and then L1 may free the
bus, against the letter of R174 (b) (log 30). -/
def Obligations.StartHangsOnAHeldBus : Prop :=
  ∀ (s : State) (k : InstId), s.fault = none → s.par.env = .lawful → s.seq.cmd = some (.i2cStart k) →
    s.seq.point = .startBody .busFree → (s.hidden k).line = .ours → (s.hidden k).pending = .none →
    (s.regs k).cr1.stop = false → (s.regs k).sr2.busy = true → Hangs s

/-! Invariants -/

/-- A block right after its reset, with any parameters, command list and agenda, meets every invariant below, with a
`RESET_STATE` (10_state.md R50) whose clock registers hold no reserved code, whose SW is its SWS, and whose enable and
reset bits are clear; the default one is such (R49; log 24, DESIGN CHOICE), with a `PERIPH` that names bits of their own. The sequencer and the result log ask nothing of it. -/
def Obligations.LoadedStatesMeetTheInvariants : Prop :=
  (∀ (par : Config.Params) (rs : ResetState) (commands : List Command) (agenda : List Config.Turn),
    SeqCoherent (State.loaded par rs commands agenda) ∧ LogMatches (State.loaded par rs commands agenda) ∧
    (rs.cc.cfgr.sw ≠ 3#2 → rs.cc.cfgr.sws ≠ 3#2 → rs.cc.pllcfgr.pllm ≠ 0#6 →
      ClockLegal (State.loaded par rs commands agenda)) ∧
    (rs.cc.cfgr.sw = rs.cc.cfgr.sws → SwitchSettled (State.loaded par rs commands agenda)) ∧
    ((∀ p, (State.loaded par rs commands agenda).enabled p = false) →
      OwnershipHeld (State.loaded par rs commands agenda)) ∧
    ((∀ p, (State.loaded par rs commands agenda).inReset p = false) →
      ResetPulse (State.loaded par rs commands agenda))) ∧
  (∀ (par : Config.Params) (commands : List Command) (agenda : List Config.Turn),
    ClockLegal (State.loaded par .default commands agenda) ∧ SwitchSettled (State.loaded par .default commands agenda) ∧
    (BoardOk par →
      OwnershipHeld (State.loaded par .default commands agenda) ∧ ResetPulse (State.loaded par .default commands agenda))) ∧
  BoardOk .default

/-- Every step keeps the sequencer coherent (10_state.md R22, R45): between commands it is idle, and inside one CPTR is
the command's index and SEQ stands at one of its lines with the byte count the pseudocode gives there. Every step also
keeps: one result for every command that ended, and CPTR within the list (R22, R23). -/
def Obligations.StepKeepsSeqCoherent : Prop :=
  (∀ s t : State, SeqCoherent s → step s = .next t → SeqCoherent t) ∧
  (∀ s t : State, SeqCoherent s → LogMatches s → step s = .next t → LogMatches t)

/-- A coherent block that is not faulted always steps: no step is refused, and the only stop is a fault already taken
(30_encoding.md R92, 60_exceptions.md R198). -/
def Obligations.CoherentBlockNeverStops : Prop :=
  ∀ s : State, SeqCoherent s → (s.fault = none → ∃ t, step s = .next t) ∧ (∀ f, s.fault = some f → step s = .fault f)

/-- Every step keeps SW and SWS free of the reserved code and the PLL pre-divider non-zero (10_state.md R28,
40_clocktree.md R96), on a platform whose `PERIPH` rows name bits of their own, so that there on no run from the default
reset a frequency rule faults. -/
def Obligations.StepKeepsClockLegal : Prop :=
  (∀ s t : State, BoardOk s.par → SeqCoherent s → ClockLegal s → step s = .next t → ClockLegal t) ∧
  (∀ s : State, ClockLegal s → ∃ f, sysclk s = .ok f)

/-- 40_clocktree.md R103: SW = SWS at every command boundary; every step keeps SW = SWS but while `CLK_CONFIG` awaits the
confirmation of its own switch, on a platform whose `PERIPH` rows name bits of their own. -/
def Obligations.StepKeepsSwitchSettled : Prop :=
  ∀ s t : State, BoardOk s.par → SeqCoherent s → SwitchSettled s → step s = .next t → SwitchSettled t

/-- Every step keeps: an enabled clock is a taken peripheral's, and a command in progress owns its peripheral, with the
clock on for an I2C_ command (42_peripheral_access.md R136, R140; 44_bus_transactions.md R188), on a platform whose
`PERIPH` rows name bits of their own. On every platform TAKEN is never cleared, and only `PER_TAKE` of the id sets it
(10_state.md R34). -/
def Obligations.StepKeepsOwnershipHeld : Prop :=
  (∀ s t : State, BoardOk s.par → SeqCoherent s → OwnershipHeld s → step s = .next t → OwnershipHeld t) ∧
  (∀ (s t : State) (p : PeriphId), step s = .next t → s.isTaken p = true → t.isTaken p = true) ∧
  (∀ (s t : State) (p : PeriphId), SeqCoherent s → step s = .next t → s.isTaken p = false → t.isTaken p = true →
    s.nextTurn = .seq ∧ s.seq.cmd = some (.perTake p) ∧ s.seq.point = .commit)

/-- Every step keeps: a reset bit is set only between the two writes of `PER_RESET`, with the instance's registers at
their reset values, on a platform whose `PERIPH` rows name bits of their own (42_peripheral_access.md R139 (b)). -/
def Obligations.StepKeepsResetPulse : Prop :=
  ∀ s t : State, BoardOk s.par → SeqCoherent s → ResetPulse s → step s = .next t → ResetPulse t

/-! The register space -/

/-- 10_state.md R52 (with R51 for CR2) and 20_memory.md R62: after a whole-word write of a register that SEQ writes, the
word reads back in its named bits, and 0 in every reserved bit; read-only bits keep their value. A write of DR hands its
low byte to the transmitter, and what a read takes stays (10_state.md R38; log 31, DEDUCED). A write of CR1 takes its
START and STOP bits, 0 too (R62; against R43 for a 0: log 35, DESIGN CHOICE). The enable and reset words
have the bits that `PERIPH` names, those of the default table written out; that their whole-word write sets each named bit
is the model's reading, since no command makes one (log 18, DEDUCED). That an instance is read and written by word whatever
its clock and its reset bit is its choice (log 33, DESIGN CHOICE). -/
def Obligations.ReservedBitsReadZero : Prop :=
  ∀ (s : State) (k : InstId) (v : Word),
    regWord (regPut s .cr v) .cr = (v &&& 0x01010001#32) ||| (regWord s .cr &&& 0x02020002#32) ∧
    regWord (regPut s .pllcfgr v) .pllcfgr = v &&& 0x00437FFF#32 ∧
    regWord (regPut s .cfgr v) .cfgr = (v &&& 0x0000FCF3#32) ||| (regWord s .cfgr &&& 0x0000000C#32) ∧
    regWord (regPut s (.bus k .cr1) v) (.bus k .cr1) = v &&& 0x00000701#32 ∧
    regWord (regPut s (.bus k .cr2) v) (.bus k .cr2) = 0#32 ∧ regPut s (.bus k .cr2) v = s ∧
    regWord (regPut s (.bus k .oar1) v) (.bus k .oar1) = v &&& 0x000000FE#32 ∧
    regWord (regPut s (.bus k .oar2) v) (.bus k .oar2) = v &&& 0x000000FF#32 ∧
    ((regPut s (.bus k .dr) v).regs k).drTx = v.extractLsb' 0 8 ∧
    regWord (regPut s (.bus k .dr) v) (.bus k .dr) = regWord s (.bus k .dr) ∧
    regWord s (.bus k .dr) &&& ~~~0x000000FF#32 = 0#32 ∧
    regWord (regPut s (.bus k .ccr) v) (.bus k .ccr) = v &&& 0x0000CFFF#32 ∧
    regWord (regPut s (.bus k .trise) v) (.bus k .trise) = v &&& 0x0000003F#32 ∧
    regWord s (.bus k .sr1) &&& ~~~0x000007C7#32 = 0#32 ∧ regWord s (.bus k .sr2) &&& ~~~0x00000007#32 = 0#32 ∧
    (s.par.periph = Config.defaultPeriph →
      regWord (regPut s (.gate 0x40) v) (.gate 0x40) = v &&& 0x00E00000#32 ∧
      regWord (regPut s (.gate 0x20) v) (.gate 0x20) = v &&& 0x00E00000#32) ∧
    (∀ off i, i < 32 → (∀ p r, s.par.row p = some r → r.enable ≠ (off, i) ∧ r.reset ≠ (off, i)) →
      (regWord s (.gate off)).getLsbD i = false)

/-- 20_memory.md R63, 00_scope.md R10: each field write a command makes is the write of the word that holds the field.
The bits of the PER_ commands, on a platform whose `PERIPH` rows name bits of their own, are such writes where no other
reset bit of the word is set, as `Obligations.StepKeepsResetPulse` has it. That a word write of SR1 clears SB and ADDR
where their bits are 0, and that one of an enable or reset word sets each named bit, is the model's reading (log 18,
DEDUCED). -/
def Obligations.FieldWritesAreWordWrites : Prop :=
  (∀ (s : State) (k : InstId),
    (∀ w : Cr1, s.writeCr1 k w = regPut s (.bus k .cr1) w.toWord) ∧
    (∀ w : Ccr, s.writeCcr k w = regPut s (.bus k .ccr) w.toWord) ∧
    (∀ w : BitVec 6, s.writeTrise k w = regPut s (.bus k .trise) (w.setWidth 32)) ∧
    (∀ w : BitVec 7, s.writeOar1 k w = regPut s (.bus k .oar1) (oar1Word w)) ∧
    (∀ w : Oar2, s.writeOar2 k w = regPut s (.bus k .oar2) w.toWord) ∧
    (∀ b : Byte, s.writeDr k b = regPut s (.bus k .dr) (b.setWidth 32)) ∧
    s.consumeSb k = regPut s (.bus k .sr1) (regWord s (.bus k .sr1) &&& ~~~1#32) ∧
    s.consumeAddr k = regPut s (.bus k .sr1) (regWord s (.bus k .sr1) &&& ~~~2#32) ∧
    (∀ src : Source, s.setCr (withEnable src s.cc.cr) = regPut s .cr (withEnable src s.cc.cr).toWord) ∧
    (∀ w : Pllcfgr, s.setPllcfgr w = regPut s .pllcfgr w.toWord) ∧
    (∀ w : Cfgr, w.sws = s.cc.cfgr.sws → s.setCfgr w = regPut s .cfgr w.toWord)) ∧
  (∀ (s : State) (p : PeriphId) (r : Config.PeriphRow), BoardOk s.par → s.par.row p = some r →
    (OtherResetsClear s r.enable.1 p → (r.reset.1 = r.enable.1 → s.inReset p = false) →
      s.setEnabled p true =
        regPut s (.gate r.enable.1) (regWord s (.gate r.enable.1) ||| (1#32 <<< r.enable.2)) ∧
      s.setEnabled p false =
        regPut s (.gate r.enable.1) (regWord s (.gate r.enable.1) &&& ~~~(1#32 <<< r.enable.2))) ∧
    (OtherResetsClear s r.reset.1 p →
      s.assertReset p = regPut s (.gate r.reset.1) (regWord s (.gate r.reset.1) ||| (1#32 <<< r.reset.2)) ∧
      s.deassertReset p =
        regPut s (.gate r.reset.1) (regWord s (.gate r.reset.1) &&& ~~~(1#32 <<< r.reset.2))))

/-- 20_memory.md R55 with the offsets of 10_state.md R35: the address of every register, from the bases and the stride,
and with the default parameters as numbers. R60, R61: an address that is no multiple of 4, or at which R55 puts no
register, is refused, whatever the parameters. R64: a read of a register gives its word, with a side effect for DR only,
where it clears RXNE and BTF; a write is the write of the word; and R57: the bytes of a register's word stand
little-endian at its address; these on a platform whose registers stand at different aligned addresses of 32 bits, as the
default ones do (what other bases do is the model's choice: log 32). That an instance whose clock is off or whose reset
bit is set is accessed like any other is the model's choice too (log 33, DESIGN CHOICE). -/
def Obligations.RegisterSpaceAccess : Prop :=
  (∀ (par : Config.Params) (k : InstId) (off : Nat),
    Reg.cr.addr par = par.rccBase ∧ Reg.pllcfgr.addr par = par.rccBase + 4 ∧ Reg.cfgr.addr par = par.rccBase + 8 ∧
    (Reg.gate off).addr par = par.rccBase + off ∧
    [BusReg.cr1, .cr2, .oar1, .oar2, .dr, .sr1, .sr2, .ccr, .trise].map (fun r => (Reg.bus k r).addr par) =
      [0x00, 0x04, 0x08, 0x0C, 0x10, 0x14, 0x18, 0x1C, 0x20].map (fun o => par.i2cBase + k.val * par.i2cStride + o)) ∧
  (AddressesOk .default ∧ ∀ (s : State) (a : Nat), s.par = .default →
    ((∃ w t, regRead a s = .ok (w, t)) ↔
      a ∈ [0x40023800, 0x40023804, 0x40023808, 0x40023820, 0x40023840] ∨
      ∃ k o, k < 3 ∧ o < 9 ∧ a = 0x40005400 + k * 0x400 + 4 * o)) ∧
  (∀ (a : Nat) (s : State) (v : Word), (a % 4 ≠ 0 ∨ ∀ r ∈ allRegs s.par, r.addr s.par ≠ a) →
    regRead a s = .error .unmodelledAddress ∧ regWrite a v s = .error .unmodelledAddress) ∧
  (∀ (s : State) (r : Reg) (v : Word), AddressesOk s.par → r ∈ allRegs s.par →
    regWrite (r.addr s.par) v s = .ok (regPut s r v)) ∧
  (∀ (s : State) (r : Reg), AddressesOk s.par → r ∈ allRegs s.par →
    ∃ t, regRead (r.addr s.par) s = .ok (regWord s r, t) ∧
    ((∀ k, r ≠ .bus k .dr) → t = s) ∧
    (∀ k, r = .bus k .dr → t = s.setRegs k { s.regs k with
      sr1 := { (s.regs k).sr1 with rxne := false, btf := false } })) ∧
  (∀ (s : State) (r : Reg) (i : Nat), AddressesOk s.par → r ∈ allRegs s.par → i < 4 →
    s.readByte (r.addr s.par + i) = some ((regWord s r).extractLsb' (8 * i) 8))
end

