-- ==== Sys2Proof/Laws/State.lean ====
section
/-! SUPPORT. One lemma per field and update of State, true by rfl, and the read-over-write lemmas of its accessors. -/

namespace Sys2Proof.Machine

variable (s : State)

@[simp] theorem State.setRegs_par (k : InstId) (r : BusRegs) : (s.setRegs k r).par = s.par := rfl
@[simp] theorem State.setRegs_cc (k : InstId) (r : BusRegs) : (s.setRegs k r).cc = s.cc := rfl
@[simp] theorem State.setRegs_taken (k : InstId) (r : BusRegs) : (s.setRegs k r).taken = s.taken := rfl
@[simp] theorem State.setRegs_i2c (k : InstId) (r : BusRegs) : (s.setRegs k r).i2c = s.i2c.set k.val r := rfl
@[simp] theorem State.setRegs_bus (k : InstId) (r : BusRegs) : (s.setRegs k r).bus = s.bus := rfl
@[simp] theorem State.setRegs_seq (k : InstId) (r : BusRegs) : (s.setRegs k r).seq = s.seq := rfl
@[simp] theorem State.setRegs_fault (k : InstId) (r : BusRegs) : (s.setRegs k r).fault = s.fault := rfl
@[simp] theorem State.setRegs_commands (k : InstId) (r : BusRegs) : (s.setRegs k r).commands = s.commands := rfl
@[simp] theorem State.setRegs_cptr (k : InstId) (r : BusRegs) : (s.setRegs k r).cptr = s.cptr := rfl
@[simp] theorem State.setRegs_results (k : InstId) (r : BusRegs) : (s.setRegs k r).results = s.results := rfl
@[simp] theorem State.setRegs_agenda (k : InstId) (r : BusRegs) : (s.setRegs k r).agenda = s.agenda := rfl
@[simp] theorem State.setRegs_draws (k : InstId) (r : BusRegs) : (s.setRegs k r).draws = s.draws := rfl

@[simp] theorem State.setHidden_par (k : InstId) (h : BusLine) : (s.setHidden k h).par = s.par := rfl
@[simp] theorem State.setHidden_cc (k : InstId) (h : BusLine) : (s.setHidden k h).cc = s.cc := rfl
@[simp] theorem State.setHidden_taken (k : InstId) (h : BusLine) : (s.setHidden k h).taken = s.taken := rfl
@[simp] theorem State.setHidden_i2c (k : InstId) (h : BusLine) : (s.setHidden k h).i2c = s.i2c := rfl
@[simp] theorem State.setHidden_bus (k : InstId) (h : BusLine) : (s.setHidden k h).bus = s.bus.set k.val h := rfl
@[simp] theorem State.setHidden_seq (k : InstId) (h : BusLine) : (s.setHidden k h).seq = s.seq := rfl
@[simp] theorem State.setHidden_fault (k : InstId) (h : BusLine) : (s.setHidden k h).fault = s.fault := rfl
@[simp] theorem State.setHidden_commands (k : InstId) (h : BusLine) : (s.setHidden k h).commands = s.commands := rfl
@[simp] theorem State.setHidden_cptr (k : InstId) (h : BusLine) : (s.setHidden k h).cptr = s.cptr := rfl
@[simp] theorem State.setHidden_results (k : InstId) (h : BusLine) : (s.setHidden k h).results = s.results := rfl
@[simp] theorem State.setHidden_agenda (k : InstId) (h : BusLine) : (s.setHidden k h).agenda = s.agenda := rfl
@[simp] theorem State.setHidden_draws (k : InstId) (h : BusLine) : (s.setHidden k h).draws = s.draws := rfl

@[simp] theorem State.setTaken_par (p : PeriphId) : (s.setTaken p).par = s.par := rfl
@[simp] theorem State.setTaken_cc (p : PeriphId) : (s.setTaken p).cc = s.cc := rfl
@[simp] theorem State.setTaken_taken (p : PeriphId) : (s.setTaken p).taken = s.taken.set p.val true := rfl
@[simp] theorem State.setTaken_i2c (p : PeriphId) : (s.setTaken p).i2c = s.i2c := rfl
@[simp] theorem State.setTaken_bus (p : PeriphId) : (s.setTaken p).bus = s.bus := rfl
@[simp] theorem State.setTaken_seq (p : PeriphId) : (s.setTaken p).seq = s.seq := rfl
@[simp] theorem State.setTaken_fault (p : PeriphId) : (s.setTaken p).fault = s.fault := rfl
@[simp] theorem State.setTaken_commands (p : PeriphId) : (s.setTaken p).commands = s.commands := rfl
@[simp] theorem State.setTaken_cptr (p : PeriphId) : (s.setTaken p).cptr = s.cptr := rfl
@[simp] theorem State.setTaken_results (p : PeriphId) : (s.setTaken p).results = s.results := rfl
@[simp] theorem State.setTaken_agenda (p : PeriphId) : (s.setTaken p).agenda = s.agenda := rfl
@[simp] theorem State.setTaken_draws (p : PeriphId) : (s.setTaken p).draws = s.draws := rfl

@[simp] theorem State.setCr_par (r : Cr) : (s.setCr r).par = s.par := rfl
@[simp] theorem State.setCr_cc (r : Cr) : (s.setCr r).cc = { s.cc with cr := r } := rfl
@[simp] theorem State.setCr_taken (r : Cr) : (s.setCr r).taken = s.taken := rfl
@[simp] theorem State.setCr_i2c (r : Cr) : (s.setCr r).i2c = s.i2c := rfl
@[simp] theorem State.setCr_bus (r : Cr) : (s.setCr r).bus = s.bus := rfl
@[simp] theorem State.setCr_seq (r : Cr) : (s.setCr r).seq = s.seq := rfl
@[simp] theorem State.setCr_fault (r : Cr) : (s.setCr r).fault = s.fault := rfl
@[simp] theorem State.setCr_commands (r : Cr) : (s.setCr r).commands = s.commands := rfl
@[simp] theorem State.setCr_cptr (r : Cr) : (s.setCr r).cptr = s.cptr := rfl
@[simp] theorem State.setCr_results (r : Cr) : (s.setCr r).results = s.results := rfl
@[simp] theorem State.setCr_agenda (r : Cr) : (s.setCr r).agenda = s.agenda := rfl
@[simp] theorem State.setCr_draws (r : Cr) : (s.setCr r).draws = s.draws := rfl

@[simp] theorem State.setPllcfgr_par (r : Pllcfgr) : (s.setPllcfgr r).par = s.par := rfl
@[simp] theorem State.setPllcfgr_cc (r : Pllcfgr) : (s.setPllcfgr r).cc = { s.cc with pllcfgr := r } := rfl
@[simp] theorem State.setPllcfgr_taken (r : Pllcfgr) : (s.setPllcfgr r).taken = s.taken := rfl
@[simp] theorem State.setPllcfgr_i2c (r : Pllcfgr) : (s.setPllcfgr r).i2c = s.i2c := rfl
@[simp] theorem State.setPllcfgr_bus (r : Pllcfgr) : (s.setPllcfgr r).bus = s.bus := rfl
@[simp] theorem State.setPllcfgr_seq (r : Pllcfgr) : (s.setPllcfgr r).seq = s.seq := rfl
@[simp] theorem State.setPllcfgr_fault (r : Pllcfgr) : (s.setPllcfgr r).fault = s.fault := rfl
@[simp] theorem State.setPllcfgr_commands (r : Pllcfgr) : (s.setPllcfgr r).commands = s.commands := rfl
@[simp] theorem State.setPllcfgr_cptr (r : Pllcfgr) : (s.setPllcfgr r).cptr = s.cptr := rfl
@[simp] theorem State.setPllcfgr_results (r : Pllcfgr) : (s.setPllcfgr r).results = s.results := rfl
@[simp] theorem State.setPllcfgr_agenda (r : Pllcfgr) : (s.setPllcfgr r).agenda = s.agenda := rfl
@[simp] theorem State.setPllcfgr_draws (r : Pllcfgr) : (s.setPllcfgr r).draws = s.draws := rfl

@[simp] theorem State.setCfgr_par (r : Cfgr) : (s.setCfgr r).par = s.par := rfl
@[simp] theorem State.setCfgr_cc (r : Cfgr) : (s.setCfgr r).cc = { s.cc with cfgr := r } := rfl
@[simp] theorem State.setCfgr_taken (r : Cfgr) : (s.setCfgr r).taken = s.taken := rfl
@[simp] theorem State.setCfgr_i2c (r : Cfgr) : (s.setCfgr r).i2c = s.i2c := rfl
@[simp] theorem State.setCfgr_bus (r : Cfgr) : (s.setCfgr r).bus = s.bus := rfl
@[simp] theorem State.setCfgr_seq (r : Cfgr) : (s.setCfgr r).seq = s.seq := rfl
@[simp] theorem State.setCfgr_fault (r : Cfgr) : (s.setCfgr r).fault = s.fault := rfl
@[simp] theorem State.setCfgr_commands (r : Cfgr) : (s.setCfgr r).commands = s.commands := rfl
@[simp] theorem State.setCfgr_cptr (r : Cfgr) : (s.setCfgr r).cptr = s.cptr := rfl
@[simp] theorem State.setCfgr_results (r : Cfgr) : (s.setCfgr r).results = s.results := rfl
@[simp] theorem State.setCfgr_agenda (r : Cfgr) : (s.setCfgr r).agenda = s.agenda := rfl
@[simp] theorem State.setCfgr_draws (r : Cfgr) : (s.setCfgr r).draws = s.draws := rfl

@[simp] theorem State.goto_par (p : Point) : (s.goto p).par = s.par := rfl
@[simp] theorem State.goto_cc (p : Point) : (s.goto p).cc = s.cc := rfl
@[simp] theorem State.goto_taken (p : Point) : (s.goto p).taken = s.taken := rfl
@[simp] theorem State.goto_i2c (p : Point) : (s.goto p).i2c = s.i2c := rfl
@[simp] theorem State.goto_bus (p : Point) : (s.goto p).bus = s.bus := rfl
@[simp] theorem State.goto_seq (p : Point) : (s.goto p).seq = { s.seq with point := p } := rfl
@[simp] theorem State.goto_fault (p : Point) : (s.goto p).fault = s.fault := rfl
@[simp] theorem State.goto_commands (p : Point) : (s.goto p).commands = s.commands := rfl
@[simp] theorem State.goto_cptr (p : Point) : (s.goto p).cptr = s.cptr := rfl
@[simp] theorem State.goto_results (p : Point) : (s.goto p).results = s.results := rfl
@[simp] theorem State.goto_agenda (p : Point) : (s.goto p).agenda = s.agenda := rfl
@[simp] theorem State.goto_draws (p : Point) : (s.goto p).draws = s.draws := rfl

@[simp] theorem State.enter_par (i : Instr) (p : Point) : (s.enter i p).par = s.par := rfl
@[simp] theorem State.enter_cc (i : Instr) (p : Point) : (s.enter i p).cc = s.cc := rfl
@[simp] theorem State.enter_taken (i : Instr) (p : Point) : (s.enter i p).taken = s.taken := rfl
@[simp] theorem State.enter_i2c (i : Instr) (p : Point) : (s.enter i p).i2c = s.i2c := rfl
@[simp] theorem State.enter_bus (i : Instr) (p : Point) : (s.enter i p).bus = s.bus := rfl
@[simp] theorem State.enter_seq (i : Instr) (p : Point) : (s.enter i p).seq = { s.seq with cmd := some i, point := p } := rfl
@[simp] theorem State.enter_fault (i : Instr) (p : Point) : (s.enter i p).fault = s.fault := rfl
@[simp] theorem State.enter_commands (i : Instr) (p : Point) : (s.enter i p).commands = s.commands := rfl
@[simp] theorem State.enter_cptr (i : Instr) (p : Point) : (s.enter i p).cptr = s.cptr := rfl
@[simp] theorem State.enter_results (i : Instr) (p : Point) : (s.enter i p).results = s.results := rfl
@[simp] theorem State.enter_agenda (i : Instr) (p : Point) : (s.enter i p).agenda = s.agenda := rfl
@[simp] theorem State.enter_draws (i : Instr) (p : Point) : (s.enter i p).draws = s.draws := rfl

@[simp] theorem State.setPhase_par (p : Phase) : (s.setPhase p).par = s.par := rfl
@[simp] theorem State.setPhase_cc (p : Phase) : (s.setPhase p).cc = s.cc := rfl
@[simp] theorem State.setPhase_taken (p : Phase) : (s.setPhase p).taken = s.taken := rfl
@[simp] theorem State.setPhase_i2c (p : Phase) : (s.setPhase p).i2c = s.i2c := rfl
@[simp] theorem State.setPhase_bus (p : Phase) : (s.setPhase p).bus = s.bus := rfl
@[simp] theorem State.setPhase_seq (p : Phase) : (s.setPhase p).seq = { s.seq with phase := p } := rfl
@[simp] theorem State.setPhase_fault (p : Phase) : (s.setPhase p).fault = s.fault := rfl
@[simp] theorem State.setPhase_commands (p : Phase) : (s.setPhase p).commands = s.commands := rfl
@[simp] theorem State.setPhase_cptr (p : Phase) : (s.setPhase p).cptr = s.cptr := rfl
@[simp] theorem State.setPhase_results (p : Phase) : (s.setPhase p).results = s.results := rfl
@[simp] theorem State.setPhase_agenda (p : Phase) : (s.setPhase p).agenda = s.agenda := rfl
@[simp] theorem State.setPhase_draws (p : Phase) : (s.setPhase p).draws = s.draws := rfl

@[simp] theorem State.setIndex_par (i : Nat) : (s.setIndex i).par = s.par := rfl
@[simp] theorem State.setIndex_cc (i : Nat) : (s.setIndex i).cc = s.cc := rfl
@[simp] theorem State.setIndex_taken (i : Nat) : (s.setIndex i).taken = s.taken := rfl
@[simp] theorem State.setIndex_i2c (i : Nat) : (s.setIndex i).i2c = s.i2c := rfl
@[simp] theorem State.setIndex_bus (i : Nat) : (s.setIndex i).bus = s.bus := rfl
@[simp] theorem State.setIndex_seq (i : Nat) : (s.setIndex i).seq = { s.seq with i := i } := rfl
@[simp] theorem State.setIndex_fault (i : Nat) : (s.setIndex i).fault = s.fault := rfl
@[simp] theorem State.setIndex_commands (i : Nat) : (s.setIndex i).commands = s.commands := rfl
@[simp] theorem State.setIndex_cptr (i : Nat) : (s.setIndex i).cptr = s.cptr := rfl
@[simp] theorem State.setIndex_results (i : Nat) : (s.setIndex i).results = s.results := rfl
@[simp] theorem State.setIndex_agenda (i : Nat) : (s.setIndex i).agenda = s.agenda := rfl
@[simp] theorem State.setIndex_draws (i : Nat) : (s.setIndex i).draws = s.draws := rfl

@[simp] theorem State.saveAck_par (b : Bool) : (s.saveAck b).par = s.par := rfl
@[simp] theorem State.saveAck_cc (b : Bool) : (s.saveAck b).cc = s.cc := rfl
@[simp] theorem State.saveAck_taken (b : Bool) : (s.saveAck b).taken = s.taken := rfl
@[simp] theorem State.saveAck_i2c (b : Bool) : (s.saveAck b).i2c = s.i2c := rfl
@[simp] theorem State.saveAck_bus (b : Bool) : (s.saveAck b).bus = s.bus := rfl
@[simp] theorem State.saveAck_seq (b : Bool) : (s.saveAck b).seq = { s.seq with savedAck := b, buf := [] } := rfl
@[simp] theorem State.saveAck_fault (b : Bool) : (s.saveAck b).fault = s.fault := rfl
@[simp] theorem State.saveAck_commands (b : Bool) : (s.saveAck b).commands = s.commands := rfl
@[simp] theorem State.saveAck_cptr (b : Bool) : (s.saveAck b).cptr = s.cptr := rfl
@[simp] theorem State.saveAck_results (b : Bool) : (s.saveAck b).results = s.results := rfl
@[simp] theorem State.saveAck_agenda (b : Bool) : (s.saveAck b).agenda = s.agenda := rfl
@[simp] theorem State.saveAck_draws (b : Bool) : (s.saveAck b).draws = s.draws := rfl

@[simp] theorem State.pushByte_par (b : Byte) : (s.pushByte b).par = s.par := rfl
@[simp] theorem State.pushByte_cc (b : Byte) : (s.pushByte b).cc = s.cc := rfl
@[simp] theorem State.pushByte_taken (b : Byte) : (s.pushByte b).taken = s.taken := rfl
@[simp] theorem State.pushByte_i2c (b : Byte) : (s.pushByte b).i2c = s.i2c := rfl
@[simp] theorem State.pushByte_bus (b : Byte) : (s.pushByte b).bus = s.bus := rfl
@[simp] theorem State.pushByte_seq (b : Byte) : (s.pushByte b).seq = { s.seq with buf := s.seq.buf ++ [b] } := rfl
@[simp] theorem State.pushByte_fault (b : Byte) : (s.pushByte b).fault = s.fault := rfl
@[simp] theorem State.pushByte_commands (b : Byte) : (s.pushByte b).commands = s.commands := rfl
@[simp] theorem State.pushByte_cptr (b : Byte) : (s.pushByte b).cptr = s.cptr := rfl
@[simp] theorem State.pushByte_results (b : Byte) : (s.pushByte b).results = s.results := rfl
@[simp] theorem State.pushByte_agenda (b : Byte) : (s.pushByte b).agenda = s.agenda := rfl
@[simp] theorem State.pushByte_draws (b : Byte) : (s.pushByte b).draws = s.draws := rfl

@[simp] theorem State.finish_par (st : Status) (v : Word) (l : List Byte) : (s.finish st v l).par = s.par := rfl
@[simp] theorem State.finish_cc (st : Status) (v : Word) (l : List Byte) : (s.finish st v l).cc = s.cc := rfl
@[simp] theorem State.finish_taken (st : Status) (v : Word) (l : List Byte) : (s.finish st v l).taken = s.taken := rfl
@[simp] theorem State.finish_i2c (st : Status) (v : Word) (l : List Byte) : (s.finish st v l).i2c = s.i2c := rfl
@[simp] theorem State.finish_bus (st : Status) (v : Word) (l : List Byte) : (s.finish st v l).bus = s.bus := rfl
@[simp] theorem State.finish_seq (st : Status) (v : Word) (l : List Byte) : (s.finish st v l).seq = Sequencer.idle := rfl
@[simp] theorem State.finish_fault (st : Status) (v : Word) (l : List Byte) : (s.finish st v l).fault = s.fault := rfl
@[simp] theorem State.finish_commands (st : Status) (v : Word) (l : List Byte) : (s.finish st v l).commands = s.commands := rfl
@[simp] theorem State.finish_cptr (st : Status) (v : Word) (l : List Byte) : (s.finish st v l).cptr = s.cptr + 1 := rfl
@[simp] theorem State.finish_results (st : Status) (v : Word) (l : List Byte) : (s.finish st v l).results = s.results ++ [⟨st, v, l⟩] := rfl
@[simp] theorem State.finish_agenda (st : Status) (v : Word) (l : List Byte) : (s.finish st v l).agenda = s.agenda := rfl
@[simp] theorem State.finish_draws (st : Status) (v : Word) (l : List Byte) : (s.finish st v l).draws = s.draws := rfl

@[simp] theorem State.writeDr_par (k : InstId) (b : Byte) : (s.writeDr k b).par = s.par := rfl
@[simp] theorem State.writeDr_cc (k : InstId) (b : Byte) : (s.writeDr k b).cc = s.cc := rfl
@[simp] theorem State.writeDr_taken (k : InstId) (b : Byte) : (s.writeDr k b).taken = s.taken := rfl
@[simp] theorem State.writeDr_seq (k : InstId) (b : Byte) : (s.writeDr k b).seq = s.seq := rfl
@[simp] theorem State.writeDr_fault (k : InstId) (b : Byte) : (s.writeDr k b).fault = s.fault := rfl
@[simp] theorem State.writeDr_commands (k : InstId) (b : Byte) : (s.writeDr k b).commands = s.commands := rfl
@[simp] theorem State.writeDr_cptr (k : InstId) (b : Byte) : (s.writeDr k b).cptr = s.cptr := rfl
@[simp] theorem State.writeDr_results (k : InstId) (b : Byte) : (s.writeDr k b).results = s.results := rfl
@[simp] theorem State.writeDr_agenda (k : InstId) (b : Byte) : (s.writeDr k b).agenda = s.agenda := rfl
@[simp] theorem State.writeDr_draws (k : InstId) (b : Byte) : (s.writeDr k b).draws = s.draws := rfl

@[simp] theorem State.afterDrRead_par (k : InstId) : (s.afterDrRead k).par = s.par := rfl
@[simp] theorem State.afterDrRead_cc (k : InstId) : (s.afterDrRead k).cc = s.cc := rfl
@[simp] theorem State.afterDrRead_taken (k : InstId) : (s.afterDrRead k).taken = s.taken := rfl
@[simp] theorem State.afterDrRead_bus (k : InstId) : (s.afterDrRead k).bus = s.bus := rfl
@[simp] theorem State.afterDrRead_seq (k : InstId) : (s.afterDrRead k).seq = s.seq := rfl
@[simp] theorem State.afterDrRead_fault (k : InstId) : (s.afterDrRead k).fault = s.fault := rfl
@[simp] theorem State.afterDrRead_commands (k : InstId) : (s.afterDrRead k).commands = s.commands := rfl
@[simp] theorem State.afterDrRead_cptr (k : InstId) : (s.afterDrRead k).cptr = s.cptr := rfl
@[simp] theorem State.afterDrRead_results (k : InstId) : (s.afterDrRead k).results = s.results := rfl
@[simp] theorem State.afterDrRead_agenda (k : InstId) : (s.afterDrRead k).agenda = s.agenda := rfl
@[simp] theorem State.afterDrRead_draws (k : InstId) : (s.afterDrRead k).draws = s.draws := rfl

@[simp] theorem State.writeCr1_par (k : InstId) (w : Cr1) : (s.writeCr1 k w).par = s.par := rfl
@[simp] theorem State.writeCr1_cc (k : InstId) (w : Cr1) : (s.writeCr1 k w).cc = s.cc := rfl
@[simp] theorem State.writeCr1_taken (k : InstId) (w : Cr1) : (s.writeCr1 k w).taken = s.taken := rfl
@[simp] theorem State.writeCr1_bus (k : InstId) (w : Cr1) : (s.writeCr1 k w).bus = s.bus := rfl
@[simp] theorem State.writeCr1_seq (k : InstId) (w : Cr1) : (s.writeCr1 k w).seq = s.seq := rfl
@[simp] theorem State.writeCr1_fault (k : InstId) (w : Cr1) : (s.writeCr1 k w).fault = s.fault := rfl
@[simp] theorem State.writeCr1_commands (k : InstId) (w : Cr1) : (s.writeCr1 k w).commands = s.commands := rfl
@[simp] theorem State.writeCr1_cptr (k : InstId) (w : Cr1) : (s.writeCr1 k w).cptr = s.cptr := rfl
@[simp] theorem State.writeCr1_results (k : InstId) (w : Cr1) : (s.writeCr1 k w).results = s.results := rfl
@[simp] theorem State.writeCr1_agenda (k : InstId) (w : Cr1) : (s.writeCr1 k w).agenda = s.agenda := rfl
@[simp] theorem State.writeCr1_draws (k : InstId) (w : Cr1) : (s.writeCr1 k w).draws = s.draws := rfl

@[simp] theorem State.writeCcr_par (k : InstId) (w : Ccr) : (s.writeCcr k w).par = s.par := rfl
@[simp] theorem State.writeCcr_cc (k : InstId) (w : Ccr) : (s.writeCcr k w).cc = s.cc := rfl
@[simp] theorem State.writeCcr_taken (k : InstId) (w : Ccr) : (s.writeCcr k w).taken = s.taken := rfl
@[simp] theorem State.writeCcr_bus (k : InstId) (w : Ccr) : (s.writeCcr k w).bus = s.bus := rfl
@[simp] theorem State.writeCcr_seq (k : InstId) (w : Ccr) : (s.writeCcr k w).seq = s.seq := rfl
@[simp] theorem State.writeCcr_fault (k : InstId) (w : Ccr) : (s.writeCcr k w).fault = s.fault := rfl
@[simp] theorem State.writeCcr_commands (k : InstId) (w : Ccr) : (s.writeCcr k w).commands = s.commands := rfl
@[simp] theorem State.writeCcr_cptr (k : InstId) (w : Ccr) : (s.writeCcr k w).cptr = s.cptr := rfl
@[simp] theorem State.writeCcr_results (k : InstId) (w : Ccr) : (s.writeCcr k w).results = s.results := rfl
@[simp] theorem State.writeCcr_agenda (k : InstId) (w : Ccr) : (s.writeCcr k w).agenda = s.agenda := rfl
@[simp] theorem State.writeCcr_draws (k : InstId) (w : Ccr) : (s.writeCcr k w).draws = s.draws := rfl

@[simp] theorem State.writeTrise_par (k : InstId) (w : BitVec 6) : (s.writeTrise k w).par = s.par := rfl
@[simp] theorem State.writeTrise_cc (k : InstId) (w : BitVec 6) : (s.writeTrise k w).cc = s.cc := rfl
@[simp] theorem State.writeTrise_taken (k : InstId) (w : BitVec 6) : (s.writeTrise k w).taken = s.taken := rfl
@[simp] theorem State.writeTrise_bus (k : InstId) (w : BitVec 6) : (s.writeTrise k w).bus = s.bus := rfl
@[simp] theorem State.writeTrise_seq (k : InstId) (w : BitVec 6) : (s.writeTrise k w).seq = s.seq := rfl
@[simp] theorem State.writeTrise_fault (k : InstId) (w : BitVec 6) : (s.writeTrise k w).fault = s.fault := rfl
@[simp] theorem State.writeTrise_commands (k : InstId) (w : BitVec 6) : (s.writeTrise k w).commands = s.commands := rfl
@[simp] theorem State.writeTrise_cptr (k : InstId) (w : BitVec 6) : (s.writeTrise k w).cptr = s.cptr := rfl
@[simp] theorem State.writeTrise_results (k : InstId) (w : BitVec 6) : (s.writeTrise k w).results = s.results := rfl
@[simp] theorem State.writeTrise_agenda (k : InstId) (w : BitVec 6) : (s.writeTrise k w).agenda = s.agenda := rfl
@[simp] theorem State.writeTrise_draws (k : InstId) (w : BitVec 6) : (s.writeTrise k w).draws = s.draws := rfl

@[simp] theorem State.writeOar1_par (k : InstId) (w : BitVec 7) : (s.writeOar1 k w).par = s.par := rfl
@[simp] theorem State.writeOar1_cc (k : InstId) (w : BitVec 7) : (s.writeOar1 k w).cc = s.cc := rfl
@[simp] theorem State.writeOar1_taken (k : InstId) (w : BitVec 7) : (s.writeOar1 k w).taken = s.taken := rfl
@[simp] theorem State.writeOar1_bus (k : InstId) (w : BitVec 7) : (s.writeOar1 k w).bus = s.bus := rfl
@[simp] theorem State.writeOar1_seq (k : InstId) (w : BitVec 7) : (s.writeOar1 k w).seq = s.seq := rfl
@[simp] theorem State.writeOar1_fault (k : InstId) (w : BitVec 7) : (s.writeOar1 k w).fault = s.fault := rfl
@[simp] theorem State.writeOar1_commands (k : InstId) (w : BitVec 7) : (s.writeOar1 k w).commands = s.commands := rfl
@[simp] theorem State.writeOar1_cptr (k : InstId) (w : BitVec 7) : (s.writeOar1 k w).cptr = s.cptr := rfl
@[simp] theorem State.writeOar1_results (k : InstId) (w : BitVec 7) : (s.writeOar1 k w).results = s.results := rfl
@[simp] theorem State.writeOar1_agenda (k : InstId) (w : BitVec 7) : (s.writeOar1 k w).agenda = s.agenda := rfl
@[simp] theorem State.writeOar1_draws (k : InstId) (w : BitVec 7) : (s.writeOar1 k w).draws = s.draws := rfl

@[simp] theorem State.writeOar2_par (k : InstId) (w : Oar2) : (s.writeOar2 k w).par = s.par := rfl
@[simp] theorem State.writeOar2_cc (k : InstId) (w : Oar2) : (s.writeOar2 k w).cc = s.cc := rfl
@[simp] theorem State.writeOar2_taken (k : InstId) (w : Oar2) : (s.writeOar2 k w).taken = s.taken := rfl
@[simp] theorem State.writeOar2_bus (k : InstId) (w : Oar2) : (s.writeOar2 k w).bus = s.bus := rfl
@[simp] theorem State.writeOar2_seq (k : InstId) (w : Oar2) : (s.writeOar2 k w).seq = s.seq := rfl
@[simp] theorem State.writeOar2_fault (k : InstId) (w : Oar2) : (s.writeOar2 k w).fault = s.fault := rfl
@[simp] theorem State.writeOar2_commands (k : InstId) (w : Oar2) : (s.writeOar2 k w).commands = s.commands := rfl
@[simp] theorem State.writeOar2_cptr (k : InstId) (w : Oar2) : (s.writeOar2 k w).cptr = s.cptr := rfl
@[simp] theorem State.writeOar2_results (k : InstId) (w : Oar2) : (s.writeOar2 k w).results = s.results := rfl
@[simp] theorem State.writeOar2_agenda (k : InstId) (w : Oar2) : (s.writeOar2 k w).agenda = s.agenda := rfl
@[simp] theorem State.writeOar2_draws (k : InstId) (w : Oar2) : (s.writeOar2 k w).draws = s.draws := rfl

@[simp] theorem State.consumeSb_par (k : InstId) : (s.consumeSb k).par = s.par := rfl
@[simp] theorem State.consumeSb_cc (k : InstId) : (s.consumeSb k).cc = s.cc := rfl
@[simp] theorem State.consumeSb_taken (k : InstId) : (s.consumeSb k).taken = s.taken := rfl
@[simp] theorem State.consumeSb_bus (k : InstId) : (s.consumeSb k).bus = s.bus := rfl
@[simp] theorem State.consumeSb_seq (k : InstId) : (s.consumeSb k).seq = s.seq := rfl
@[simp] theorem State.consumeSb_fault (k : InstId) : (s.consumeSb k).fault = s.fault := rfl
@[simp] theorem State.consumeSb_commands (k : InstId) : (s.consumeSb k).commands = s.commands := rfl
@[simp] theorem State.consumeSb_cptr (k : InstId) : (s.consumeSb k).cptr = s.cptr := rfl
@[simp] theorem State.consumeSb_results (k : InstId) : (s.consumeSb k).results = s.results := rfl
@[simp] theorem State.consumeSb_agenda (k : InstId) : (s.consumeSb k).agenda = s.agenda := rfl
@[simp] theorem State.consumeSb_draws (k : InstId) : (s.consumeSb k).draws = s.draws := rfl

@[simp] theorem State.consumeAddr_par (k : InstId) : (s.consumeAddr k).par = s.par := rfl
@[simp] theorem State.consumeAddr_cc (k : InstId) : (s.consumeAddr k).cc = s.cc := rfl
@[simp] theorem State.consumeAddr_taken (k : InstId) : (s.consumeAddr k).taken = s.taken := rfl
@[simp] theorem State.consumeAddr_bus (k : InstId) : (s.consumeAddr k).bus = s.bus := rfl
@[simp] theorem State.consumeAddr_seq (k : InstId) : (s.consumeAddr k).seq = s.seq := rfl
@[simp] theorem State.consumeAddr_fault (k : InstId) : (s.consumeAddr k).fault = s.fault := rfl
@[simp] theorem State.consumeAddr_commands (k : InstId) : (s.consumeAddr k).commands = s.commands := rfl
@[simp] theorem State.consumeAddr_cptr (k : InstId) : (s.consumeAddr k).cptr = s.cptr := rfl
@[simp] theorem State.consumeAddr_results (k : InstId) : (s.consumeAddr k).results = s.results := rfl
@[simp] theorem State.consumeAddr_agenda (k : InstId) : (s.consumeAddr k).agenda = s.agenda := rfl
@[simp] theorem State.consumeAddr_draws (k : InstId) : (s.consumeAddr k).draws = s.draws := rfl

/-- Taking a turn touches only the record of turns. -/
theorem State.takeTurn_eq : s.takeTurn = { s with agenda := s.takeTurn.agenda, draws := s.takeTurn.draws } := by
  unfold State.takeTurn; cases s.agenda <;> rfl

@[simp] theorem State.takeTurn_par : s.takeTurn.par = s.par := by unfold State.takeTurn; cases s.agenda <;> rfl
@[simp] theorem State.takeTurn_cc : s.takeTurn.cc = s.cc := by unfold State.takeTurn; cases s.agenda <;> rfl
@[simp] theorem State.takeTurn_taken : s.takeTurn.taken = s.taken := by unfold State.takeTurn; cases s.agenda <;> rfl
@[simp] theorem State.takeTurn_i2c : s.takeTurn.i2c = s.i2c := by unfold State.takeTurn; cases s.agenda <;> rfl
@[simp] theorem State.takeTurn_bus : s.takeTurn.bus = s.bus := by unfold State.takeTurn; cases s.agenda <;> rfl
@[simp] theorem State.takeTurn_seq : s.takeTurn.seq = s.seq := by unfold State.takeTurn; cases s.agenda <;> rfl
@[simp] theorem State.takeTurn_fault : s.takeTurn.fault = s.fault := by unfold State.takeTurn; cases s.agenda <;> rfl
@[simp] theorem State.takeTurn_commands : s.takeTurn.commands = s.commands := by unfold State.takeTurn; cases s.agenda <;> rfl
@[simp] theorem State.takeTurn_cptr : s.takeTurn.cptr = s.cptr := by unfold State.takeTurn; cases s.agenda <;> rfl
@[simp] theorem State.takeTurn_results : s.takeTurn.results = s.results := by unfold State.takeTurn; cases s.agenda <;> rfl

@[simp] theorem State.setRegs_hidden (k : InstId) (r : BusRegs) (j : InstId) : (s.setRegs k r).hidden j = s.hidden j := rfl
@[simp] theorem State.setRegs_isTaken (k : InstId) (r : BusRegs) (q : PeriphId) : (s.setRegs k r).isTaken q = s.isTaken q := rfl
@[simp] theorem State.setRegs_instTaken (k : InstId) (r : BusRegs) (j : InstId) : (s.setRegs k r).instTaken j = s.instTaken j := rfl
@[simp] theorem State.setRegs_enabled (k : InstId) (r : BusRegs) (q : PeriphId) : (s.setRegs k r).enabled q = s.enabled q := rfl
@[simp] theorem State.setRegs_clocked (k : InstId) (r : BusRegs) (j : InstId) : (s.setRegs k r).clocked j = s.clocked j := rfl
@[simp] theorem State.setRegs_inReset (k : InstId) (r : BusRegs) (q : PeriphId) : (s.setRegs k r).inReset q = s.inReset q := rfl
@[simp] theorem State.setRegs_heldInReset (k : InstId) (r : BusRegs) (j : InstId) : (s.setRegs k r).heldInReset j = s.heldInReset j := rfl
@[simp] theorem State.setRegs_fetch (k : InstId) (r : BusRegs) : (s.setRegs k r).fetch = s.fetch := rfl

@[simp] theorem State.setHidden_regs (k : InstId) (h : BusLine) (j : InstId) : (s.setHidden k h).regs j = s.regs j := rfl
@[simp] theorem State.setHidden_isTaken (k : InstId) (h : BusLine) (q : PeriphId) : (s.setHidden k h).isTaken q = s.isTaken q := rfl
@[simp] theorem State.setHidden_instTaken (k : InstId) (h : BusLine) (j : InstId) : (s.setHidden k h).instTaken j = s.instTaken j := rfl
@[simp] theorem State.setHidden_enabled (k : InstId) (h : BusLine) (q : PeriphId) : (s.setHidden k h).enabled q = s.enabled q := rfl
@[simp] theorem State.setHidden_clocked (k : InstId) (h : BusLine) (j : InstId) : (s.setHidden k h).clocked j = s.clocked j := rfl
@[simp] theorem State.setHidden_inReset (k : InstId) (h : BusLine) (q : PeriphId) : (s.setHidden k h).inReset q = s.inReset q := rfl
@[simp] theorem State.setHidden_heldInReset (k : InstId) (h : BusLine) (j : InstId) : (s.setHidden k h).heldInReset j = s.heldInReset j := rfl
@[simp] theorem State.setHidden_fetch (k : InstId) (h : BusLine) : (s.setHidden k h).fetch = s.fetch := rfl

@[simp] theorem State.setTaken_regs (p : PeriphId) (j : InstId) : (s.setTaken p).regs j = s.regs j := rfl
@[simp] theorem State.setTaken_hidden (p : PeriphId) (j : InstId) : (s.setTaken p).hidden j = s.hidden j := rfl
@[simp] theorem State.setTaken_enabled (p : PeriphId) (q : PeriphId) : (s.setTaken p).enabled q = s.enabled q := rfl
@[simp] theorem State.setTaken_inReset (p : PeriphId) (q : PeriphId) : (s.setTaken p).inReset q = s.inReset q := rfl
@[simp] theorem State.setTaken_fetch (p : PeriphId) : (s.setTaken p).fetch = s.fetch := rfl

@[simp] theorem State.setCr_regs (r : Cr) (j : InstId) : (s.setCr r).regs j = s.regs j := rfl
@[simp] theorem State.setCr_hidden (r : Cr) (j : InstId) : (s.setCr r).hidden j = s.hidden j := rfl
@[simp] theorem State.setCr_isTaken (r : Cr) (q : PeriphId) : (s.setCr r).isTaken q = s.isTaken q := rfl
@[simp] theorem State.setCr_instTaken (r : Cr) (j : InstId) : (s.setCr r).instTaken j = s.instTaken j := rfl
@[simp] theorem State.setCr_fetch (r : Cr) : (s.setCr r).fetch = s.fetch := rfl

@[simp] theorem State.setPllcfgr_regs (r : Pllcfgr) (j : InstId) : (s.setPllcfgr r).regs j = s.regs j := rfl
@[simp] theorem State.setPllcfgr_hidden (r : Pllcfgr) (j : InstId) : (s.setPllcfgr r).hidden j = s.hidden j := rfl
@[simp] theorem State.setPllcfgr_isTaken (r : Pllcfgr) (q : PeriphId) : (s.setPllcfgr r).isTaken q = s.isTaken q := rfl
@[simp] theorem State.setPllcfgr_instTaken (r : Pllcfgr) (j : InstId) : (s.setPllcfgr r).instTaken j = s.instTaken j := rfl
@[simp] theorem State.setPllcfgr_fetch (r : Pllcfgr) : (s.setPllcfgr r).fetch = s.fetch := rfl

@[simp] theorem State.setCfgr_regs (r : Cfgr) (j : InstId) : (s.setCfgr r).regs j = s.regs j := rfl
@[simp] theorem State.setCfgr_hidden (r : Cfgr) (j : InstId) : (s.setCfgr r).hidden j = s.hidden j := rfl
@[simp] theorem State.setCfgr_isTaken (r : Cfgr) (q : PeriphId) : (s.setCfgr r).isTaken q = s.isTaken q := rfl
@[simp] theorem State.setCfgr_instTaken (r : Cfgr) (j : InstId) : (s.setCfgr r).instTaken j = s.instTaken j := rfl
@[simp] theorem State.setCfgr_fetch (r : Cfgr) : (s.setCfgr r).fetch = s.fetch := rfl

@[simp] theorem State.goto_regs (p : Point) (j : InstId) : (s.goto p).regs j = s.regs j := rfl
@[simp] theorem State.goto_hidden (p : Point) (j : InstId) : (s.goto p).hidden j = s.hidden j := rfl
@[simp] theorem State.goto_isTaken (p : Point) (q : PeriphId) : (s.goto p).isTaken q = s.isTaken q := rfl
@[simp] theorem State.goto_instTaken (p : Point) (j : InstId) : (s.goto p).instTaken j = s.instTaken j := rfl
@[simp] theorem State.goto_enabled (p : Point) (q : PeriphId) : (s.goto p).enabled q = s.enabled q := rfl
@[simp] theorem State.goto_clocked (p : Point) (j : InstId) : (s.goto p).clocked j = s.clocked j := rfl
@[simp] theorem State.goto_inReset (p : Point) (q : PeriphId) : (s.goto p).inReset q = s.inReset q := rfl
@[simp] theorem State.goto_heldInReset (p : Point) (j : InstId) : (s.goto p).heldInReset j = s.heldInReset j := rfl
@[simp] theorem State.goto_fetch (p : Point) : (s.goto p).fetch = s.fetch := rfl

@[simp] theorem State.enter_regs (i : Instr) (p : Point) (j : InstId) : (s.enter i p).regs j = s.regs j := rfl
@[simp] theorem State.enter_hidden (i : Instr) (p : Point) (j : InstId) : (s.enter i p).hidden j = s.hidden j := rfl
@[simp] theorem State.enter_isTaken (i : Instr) (p : Point) (q : PeriphId) : (s.enter i p).isTaken q = s.isTaken q := rfl
@[simp] theorem State.enter_instTaken (i : Instr) (p : Point) (j : InstId) : (s.enter i p).instTaken j = s.instTaken j := rfl
@[simp] theorem State.enter_enabled (i : Instr) (p : Point) (q : PeriphId) : (s.enter i p).enabled q = s.enabled q := rfl
@[simp] theorem State.enter_clocked (i : Instr) (p : Point) (j : InstId) : (s.enter i p).clocked j = s.clocked j := rfl
@[simp] theorem State.enter_inReset (i : Instr) (p : Point) (q : PeriphId) : (s.enter i p).inReset q = s.inReset q := rfl
@[simp] theorem State.enter_heldInReset (i : Instr) (p : Point) (j : InstId) : (s.enter i p).heldInReset j = s.heldInReset j := rfl
@[simp] theorem State.enter_fetch (i : Instr) (p : Point) : (s.enter i p).fetch = s.fetch := rfl

@[simp] theorem State.setPhase_regs (p : Phase) (j : InstId) : (s.setPhase p).regs j = s.regs j := rfl
@[simp] theorem State.setPhase_hidden (p : Phase) (j : InstId) : (s.setPhase p).hidden j = s.hidden j := rfl
@[simp] theorem State.setPhase_isTaken (p : Phase) (q : PeriphId) : (s.setPhase p).isTaken q = s.isTaken q := rfl
@[simp] theorem State.setPhase_instTaken (p : Phase) (j : InstId) : (s.setPhase p).instTaken j = s.instTaken j := rfl
@[simp] theorem State.setPhase_enabled (p : Phase) (q : PeriphId) : (s.setPhase p).enabled q = s.enabled q := rfl
@[simp] theorem State.setPhase_clocked (p : Phase) (j : InstId) : (s.setPhase p).clocked j = s.clocked j := rfl
@[simp] theorem State.setPhase_inReset (p : Phase) (q : PeriphId) : (s.setPhase p).inReset q = s.inReset q := rfl
@[simp] theorem State.setPhase_heldInReset (p : Phase) (j : InstId) : (s.setPhase p).heldInReset j = s.heldInReset j := rfl
@[simp] theorem State.setPhase_fetch (p : Phase) : (s.setPhase p).fetch = s.fetch := rfl

@[simp] theorem State.setIndex_regs (i : Nat) (j : InstId) : (s.setIndex i).regs j = s.regs j := rfl
@[simp] theorem State.setIndex_hidden (i : Nat) (j : InstId) : (s.setIndex i).hidden j = s.hidden j := rfl
@[simp] theorem State.setIndex_isTaken (i : Nat) (q : PeriphId) : (s.setIndex i).isTaken q = s.isTaken q := rfl
@[simp] theorem State.setIndex_instTaken (i : Nat) (j : InstId) : (s.setIndex i).instTaken j = s.instTaken j := rfl
@[simp] theorem State.setIndex_enabled (i : Nat) (q : PeriphId) : (s.setIndex i).enabled q = s.enabled q := rfl
@[simp] theorem State.setIndex_clocked (i : Nat) (j : InstId) : (s.setIndex i).clocked j = s.clocked j := rfl
@[simp] theorem State.setIndex_inReset (i : Nat) (q : PeriphId) : (s.setIndex i).inReset q = s.inReset q := rfl
@[simp] theorem State.setIndex_heldInReset (i : Nat) (j : InstId) : (s.setIndex i).heldInReset j = s.heldInReset j := rfl
@[simp] theorem State.setIndex_fetch (i : Nat) : (s.setIndex i).fetch = s.fetch := rfl

@[simp] theorem State.saveAck_regs (b : Bool) (j : InstId) : (s.saveAck b).regs j = s.regs j := rfl
@[simp] theorem State.saveAck_hidden (b : Bool) (j : InstId) : (s.saveAck b).hidden j = s.hidden j := rfl
@[simp] theorem State.saveAck_isTaken (b : Bool) (q : PeriphId) : (s.saveAck b).isTaken q = s.isTaken q := rfl
@[simp] theorem State.saveAck_instTaken (b : Bool) (j : InstId) : (s.saveAck b).instTaken j = s.instTaken j := rfl
@[simp] theorem State.saveAck_enabled (b : Bool) (q : PeriphId) : (s.saveAck b).enabled q = s.enabled q := rfl
@[simp] theorem State.saveAck_clocked (b : Bool) (j : InstId) : (s.saveAck b).clocked j = s.clocked j := rfl
@[simp] theorem State.saveAck_inReset (b : Bool) (q : PeriphId) : (s.saveAck b).inReset q = s.inReset q := rfl
@[simp] theorem State.saveAck_heldInReset (b : Bool) (j : InstId) : (s.saveAck b).heldInReset j = s.heldInReset j := rfl
@[simp] theorem State.saveAck_fetch (b : Bool) : (s.saveAck b).fetch = s.fetch := rfl

@[simp] theorem State.pushByte_regs (b : Byte) (j : InstId) : (s.pushByte b).regs j = s.regs j := rfl
@[simp] theorem State.pushByte_hidden (b : Byte) (j : InstId) : (s.pushByte b).hidden j = s.hidden j := rfl
@[simp] theorem State.pushByte_isTaken (b : Byte) (q : PeriphId) : (s.pushByte b).isTaken q = s.isTaken q := rfl
@[simp] theorem State.pushByte_instTaken (b : Byte) (j : InstId) : (s.pushByte b).instTaken j = s.instTaken j := rfl
@[simp] theorem State.pushByte_enabled (b : Byte) (q : PeriphId) : (s.pushByte b).enabled q = s.enabled q := rfl
@[simp] theorem State.pushByte_clocked (b : Byte) (j : InstId) : (s.pushByte b).clocked j = s.clocked j := rfl
@[simp] theorem State.pushByte_inReset (b : Byte) (q : PeriphId) : (s.pushByte b).inReset q = s.inReset q := rfl
@[simp] theorem State.pushByte_heldInReset (b : Byte) (j : InstId) : (s.pushByte b).heldInReset j = s.heldInReset j := rfl
@[simp] theorem State.pushByte_fetch (b : Byte) : (s.pushByte b).fetch = s.fetch := rfl

@[simp] theorem State.finish_regs (st : Status) (v : Word) (l : List Byte) (j : InstId) : (s.finish st v l).regs j = s.regs j := rfl
@[simp] theorem State.finish_hidden (st : Status) (v : Word) (l : List Byte) (j : InstId) : (s.finish st v l).hidden j = s.hidden j := rfl
@[simp] theorem State.finish_isTaken (st : Status) (v : Word) (l : List Byte) (q : PeriphId) : (s.finish st v l).isTaken q = s.isTaken q := rfl
@[simp] theorem State.finish_instTaken (st : Status) (v : Word) (l : List Byte) (j : InstId) : (s.finish st v l).instTaken j = s.instTaken j := rfl
@[simp] theorem State.finish_enabled (st : Status) (v : Word) (l : List Byte) (q : PeriphId) : (s.finish st v l).enabled q = s.enabled q := rfl
@[simp] theorem State.finish_clocked (st : Status) (v : Word) (l : List Byte) (j : InstId) : (s.finish st v l).clocked j = s.clocked j := rfl
@[simp] theorem State.finish_inReset (st : Status) (v : Word) (l : List Byte) (q : PeriphId) : (s.finish st v l).inReset q = s.inReset q := rfl
@[simp] theorem State.finish_heldInReset (st : Status) (v : Word) (l : List Byte) (j : InstId) : (s.finish st v l).heldInReset j = s.heldInReset j := rfl

@[simp] theorem State.takeTurn_regs (j : InstId) : s.takeTurn.regs j = s.regs j := by
  simp [State.regs]
@[simp] theorem State.takeTurn_hidden (j : InstId) : s.takeTurn.hidden j = s.hidden j := by
  simp [State.hidden]
@[simp] theorem State.takeTurn_isTaken (q : PeriphId) : s.takeTurn.isTaken q = s.isTaken q := by
  simp [State.isTaken]
@[simp] theorem State.takeTurn_enabled (q : PeriphId) : s.takeTurn.enabled q = s.enabled q := by
  simp [State.enabled]
@[simp] theorem State.takeTurn_inReset (q : PeriphId) : s.takeTurn.inReset q = s.inReset q := by
  simp [State.inReset]
@[simp] theorem State.takeTurn_fetch : s.takeTurn.fetch = s.fetch := by
  simp [State.fetch]

@[simp] theorem State.regs_setRegs_same (k : InstId) (r : BusRegs) : (s.setRegs k r).regs k = r := by simp [State.regs]
theorem State.regs_setRegs (k : InstId) (r : BusRegs) (j : InstId) : (s.setRegs k r).regs j = if j = k then r else s.regs j := by
  simp [State.regs, Vector.getElem_set, Fin.ext_iff, eq_comm (a := j.val)]
@[simp] theorem State.regs_setRegs_other (k : InstId) (r : BusRegs) (j : InstId) (h : j ≠ k) : (s.setRegs k r).regs j = s.regs j := by
  rw [State.regs_setRegs, if_neg h]
@[simp] theorem State.hidden_setHidden_same (k : InstId) (r : BusLine) : (s.setHidden k r).hidden k = r := by simp [State.hidden]
theorem State.hidden_setHidden (k : InstId) (r : BusLine) (j : InstId) : (s.setHidden k r).hidden j = if j = k then r else s.hidden j := by
  simp [State.hidden, Vector.getElem_set, Fin.ext_iff, eq_comm (a := j.val)]
@[simp] theorem State.hidden_setHidden_other (k : InstId) (r : BusLine) (j : InstId) (h : j ≠ k) : (s.setHidden k r).hidden j = s.hidden j := by
  rw [State.hidden_setHidden, if_neg h]
@[simp] theorem State.isTaken_setTaken_same (k : PeriphId) : (s.setTaken k).isTaken k = true := by simp [State.isTaken]
theorem State.isTaken_setTaken (k : PeriphId) (j : PeriphId) : (s.setTaken k).isTaken j = if j = k then true else s.isTaken j := by
  simp [State.isTaken, Vector.getElem_set, Fin.ext_iff, eq_comm (a := j.val)]
@[simp] theorem State.isTaken_setTaken_other (k : PeriphId) (j : PeriphId) (h : j ≠ k) : (s.setTaken k).isTaken j = s.isTaken j := by
  rw [State.isTaken_setTaken, if_neg h]

theorem State.regs_writeDr (k : InstId) (b : Byte) (j : InstId) : (s.writeDr k b).regs j = if j = k then { s.regs k with drTx := b, sr1 := (s.regs k).sr1.afterDrWrite } else s.regs j := by
  simp [State.writeDr, State.regs_setRegs]
@[simp] theorem State.regs_writeDr_same (k : InstId) (b : Byte) : (s.writeDr k b).regs k = { s.regs k with drTx := b, sr1 := (s.regs k).sr1.afterDrWrite } := by simp [State.writeDr]
@[simp] theorem State.regs_writeDr_other (k : InstId) (b : Byte) (j : InstId) (h : j ≠ k) : (s.writeDr k b).regs j = s.regs j := by simp [State.writeDr, h]
@[simp] theorem State.writeDr_isTaken (k : InstId) (b : Byte) (q : PeriphId) : (s.writeDr k b).isTaken q = s.isTaken q := rfl
@[simp] theorem State.writeDr_instTaken (k : InstId) (b : Byte) (j : InstId) : (s.writeDr k b).instTaken j = s.instTaken j := rfl
@[simp] theorem State.writeDr_enabled (k : InstId) (b : Byte) (q : PeriphId) : (s.writeDr k b).enabled q = s.enabled q := rfl
@[simp] theorem State.writeDr_clocked (k : InstId) (b : Byte) (j : InstId) : (s.writeDr k b).clocked j = s.clocked j := rfl
@[simp] theorem State.writeDr_inReset (k : InstId) (b : Byte) (q : PeriphId) : (s.writeDr k b).inReset q = s.inReset q := rfl
@[simp] theorem State.writeDr_heldInReset (k : InstId) (b : Byte) (j : InstId) : (s.writeDr k b).heldInReset j = s.heldInReset j := rfl
@[simp] theorem State.writeDr_fetch (k : InstId) (b : Byte) : (s.writeDr k b).fetch = s.fetch := rfl
theorem State.regs_afterDrRead (k : InstId) (j : InstId) : (s.afterDrRead k).regs j = if j = k then { s.regs k with sr1 := (s.regs k).sr1.afterDrRead } else s.regs j := by
  simp [State.afterDrRead, State.regs_setRegs]
@[simp] theorem State.regs_afterDrRead_same (k : InstId) : (s.afterDrRead k).regs k = { s.regs k with sr1 := (s.regs k).sr1.afterDrRead } := by simp [State.afterDrRead]
@[simp] theorem State.regs_afterDrRead_other (k : InstId) (j : InstId) (h : j ≠ k) : (s.afterDrRead k).regs j = s.regs j := by simp [State.afterDrRead, h]
@[simp] theorem State.afterDrRead_hidden (k : InstId) (j : InstId) : (s.afterDrRead k).hidden j = s.hidden j := rfl
@[simp] theorem State.afterDrRead_isTaken (k : InstId) (q : PeriphId) : (s.afterDrRead k).isTaken q = s.isTaken q := rfl
@[simp] theorem State.afterDrRead_instTaken (k : InstId) (j : InstId) : (s.afterDrRead k).instTaken j = s.instTaken j := rfl
@[simp] theorem State.afterDrRead_enabled (k : InstId) (q : PeriphId) : (s.afterDrRead k).enabled q = s.enabled q := rfl
@[simp] theorem State.afterDrRead_clocked (k : InstId) (j : InstId) : (s.afterDrRead k).clocked j = s.clocked j := rfl
@[simp] theorem State.afterDrRead_inReset (k : InstId) (q : PeriphId) : (s.afterDrRead k).inReset q = s.inReset q := rfl
@[simp] theorem State.afterDrRead_heldInReset (k : InstId) (j : InstId) : (s.afterDrRead k).heldInReset j = s.heldInReset j := rfl
@[simp] theorem State.afterDrRead_fetch (k : InstId) : (s.afterDrRead k).fetch = s.fetch := rfl
theorem State.regs_writeCr1 (k : InstId) (w : Cr1) (j : InstId) : (s.writeCr1 k w).regs j = if j = k then { s.regs k with cr1 := w } else s.regs j := by
  simp [State.writeCr1, State.regs_setRegs]
@[simp] theorem State.regs_writeCr1_same (k : InstId) (w : Cr1) : (s.writeCr1 k w).regs k = { s.regs k with cr1 := w } := by simp [State.writeCr1]
@[simp] theorem State.regs_writeCr1_other (k : InstId) (w : Cr1) (j : InstId) (h : j ≠ k) : (s.writeCr1 k w).regs j = s.regs j := by simp [State.writeCr1, h]
@[simp] theorem State.writeCr1_hidden (k : InstId) (w : Cr1) (j : InstId) : (s.writeCr1 k w).hidden j = s.hidden j := rfl
@[simp] theorem State.writeCr1_isTaken (k : InstId) (w : Cr1) (q : PeriphId) : (s.writeCr1 k w).isTaken q = s.isTaken q := rfl
@[simp] theorem State.writeCr1_instTaken (k : InstId) (w : Cr1) (j : InstId) : (s.writeCr1 k w).instTaken j = s.instTaken j := rfl
@[simp] theorem State.writeCr1_enabled (k : InstId) (w : Cr1) (q : PeriphId) : (s.writeCr1 k w).enabled q = s.enabled q := rfl
@[simp] theorem State.writeCr1_clocked (k : InstId) (w : Cr1) (j : InstId) : (s.writeCr1 k w).clocked j = s.clocked j := rfl
@[simp] theorem State.writeCr1_inReset (k : InstId) (w : Cr1) (q : PeriphId) : (s.writeCr1 k w).inReset q = s.inReset q := rfl
@[simp] theorem State.writeCr1_heldInReset (k : InstId) (w : Cr1) (j : InstId) : (s.writeCr1 k w).heldInReset j = s.heldInReset j := rfl
@[simp] theorem State.writeCr1_fetch (k : InstId) (w : Cr1) : (s.writeCr1 k w).fetch = s.fetch := rfl
theorem State.regs_writeCcr (k : InstId) (w : Ccr) (j : InstId) : (s.writeCcr k w).regs j = if j = k then { s.regs k with ccr := w } else s.regs j := by
  simp [State.writeCcr, State.regs_setRegs]
@[simp] theorem State.regs_writeCcr_same (k : InstId) (w : Ccr) : (s.writeCcr k w).regs k = { s.regs k with ccr := w } := by simp [State.writeCcr]
@[simp] theorem State.regs_writeCcr_other (k : InstId) (w : Ccr) (j : InstId) (h : j ≠ k) : (s.writeCcr k w).regs j = s.regs j := by simp [State.writeCcr, h]
@[simp] theorem State.writeCcr_hidden (k : InstId) (w : Ccr) (j : InstId) : (s.writeCcr k w).hidden j = s.hidden j := rfl
@[simp] theorem State.writeCcr_isTaken (k : InstId) (w : Ccr) (q : PeriphId) : (s.writeCcr k w).isTaken q = s.isTaken q := rfl
@[simp] theorem State.writeCcr_instTaken (k : InstId) (w : Ccr) (j : InstId) : (s.writeCcr k w).instTaken j = s.instTaken j := rfl
@[simp] theorem State.writeCcr_enabled (k : InstId) (w : Ccr) (q : PeriphId) : (s.writeCcr k w).enabled q = s.enabled q := rfl
@[simp] theorem State.writeCcr_clocked (k : InstId) (w : Ccr) (j : InstId) : (s.writeCcr k w).clocked j = s.clocked j := rfl
@[simp] theorem State.writeCcr_inReset (k : InstId) (w : Ccr) (q : PeriphId) : (s.writeCcr k w).inReset q = s.inReset q := rfl
@[simp] theorem State.writeCcr_heldInReset (k : InstId) (w : Ccr) (j : InstId) : (s.writeCcr k w).heldInReset j = s.heldInReset j := rfl
@[simp] theorem State.writeCcr_fetch (k : InstId) (w : Ccr) : (s.writeCcr k w).fetch = s.fetch := rfl
theorem State.regs_writeTrise (k : InstId) (w : BitVec 6) (j : InstId) : (s.writeTrise k w).regs j = if j = k then { s.regs k with trise := w } else s.regs j := by
  simp [State.writeTrise, State.regs_setRegs]
@[simp] theorem State.regs_writeTrise_same (k : InstId) (w : BitVec 6) : (s.writeTrise k w).regs k = { s.regs k with trise := w } := by simp [State.writeTrise]
@[simp] theorem State.regs_writeTrise_other (k : InstId) (w : BitVec 6) (j : InstId) (h : j ≠ k) : (s.writeTrise k w).regs j = s.regs j := by simp [State.writeTrise, h]
@[simp] theorem State.writeTrise_hidden (k : InstId) (w : BitVec 6) (j : InstId) : (s.writeTrise k w).hidden j = s.hidden j := rfl
@[simp] theorem State.writeTrise_isTaken (k : InstId) (w : BitVec 6) (q : PeriphId) : (s.writeTrise k w).isTaken q = s.isTaken q := rfl
@[simp] theorem State.writeTrise_instTaken (k : InstId) (w : BitVec 6) (j : InstId) : (s.writeTrise k w).instTaken j = s.instTaken j := rfl
@[simp] theorem State.writeTrise_enabled (k : InstId) (w : BitVec 6) (q : PeriphId) : (s.writeTrise k w).enabled q = s.enabled q := rfl
@[simp] theorem State.writeTrise_clocked (k : InstId) (w : BitVec 6) (j : InstId) : (s.writeTrise k w).clocked j = s.clocked j := rfl
@[simp] theorem State.writeTrise_inReset (k : InstId) (w : BitVec 6) (q : PeriphId) : (s.writeTrise k w).inReset q = s.inReset q := rfl
@[simp] theorem State.writeTrise_heldInReset (k : InstId) (w : BitVec 6) (j : InstId) : (s.writeTrise k w).heldInReset j = s.heldInReset j := rfl
@[simp] theorem State.writeTrise_fetch (k : InstId) (w : BitVec 6) : (s.writeTrise k w).fetch = s.fetch := rfl
theorem State.regs_writeOar1 (k : InstId) (w : BitVec 7) (j : InstId) : (s.writeOar1 k w).regs j = if j = k then { s.regs k with oar1 := w } else s.regs j := by
  simp [State.writeOar1, State.regs_setRegs]
@[simp] theorem State.regs_writeOar1_same (k : InstId) (w : BitVec 7) : (s.writeOar1 k w).regs k = { s.regs k with oar1 := w } := by simp [State.writeOar1]
@[simp] theorem State.regs_writeOar1_other (k : InstId) (w : BitVec 7) (j : InstId) (h : j ≠ k) : (s.writeOar1 k w).regs j = s.regs j := by simp [State.writeOar1, h]
@[simp] theorem State.writeOar1_hidden (k : InstId) (w : BitVec 7) (j : InstId) : (s.writeOar1 k w).hidden j = s.hidden j := rfl
@[simp] theorem State.writeOar1_isTaken (k : InstId) (w : BitVec 7) (q : PeriphId) : (s.writeOar1 k w).isTaken q = s.isTaken q := rfl
@[simp] theorem State.writeOar1_instTaken (k : InstId) (w : BitVec 7) (j : InstId) : (s.writeOar1 k w).instTaken j = s.instTaken j := rfl
@[simp] theorem State.writeOar1_enabled (k : InstId) (w : BitVec 7) (q : PeriphId) : (s.writeOar1 k w).enabled q = s.enabled q := rfl
@[simp] theorem State.writeOar1_clocked (k : InstId) (w : BitVec 7) (j : InstId) : (s.writeOar1 k w).clocked j = s.clocked j := rfl
@[simp] theorem State.writeOar1_inReset (k : InstId) (w : BitVec 7) (q : PeriphId) : (s.writeOar1 k w).inReset q = s.inReset q := rfl
@[simp] theorem State.writeOar1_heldInReset (k : InstId) (w : BitVec 7) (j : InstId) : (s.writeOar1 k w).heldInReset j = s.heldInReset j := rfl
@[simp] theorem State.writeOar1_fetch (k : InstId) (w : BitVec 7) : (s.writeOar1 k w).fetch = s.fetch := rfl
theorem State.regs_writeOar2 (k : InstId) (w : Oar2) (j : InstId) : (s.writeOar2 k w).regs j = if j = k then { s.regs k with oar2 := w } else s.regs j := by
  simp [State.writeOar2, State.regs_setRegs]
@[simp] theorem State.regs_writeOar2_same (k : InstId) (w : Oar2) : (s.writeOar2 k w).regs k = { s.regs k with oar2 := w } := by simp [State.writeOar2]
@[simp] theorem State.regs_writeOar2_other (k : InstId) (w : Oar2) (j : InstId) (h : j ≠ k) : (s.writeOar2 k w).regs j = s.regs j := by simp [State.writeOar2, h]
@[simp] theorem State.writeOar2_hidden (k : InstId) (w : Oar2) (j : InstId) : (s.writeOar2 k w).hidden j = s.hidden j := rfl
@[simp] theorem State.writeOar2_isTaken (k : InstId) (w : Oar2) (q : PeriphId) : (s.writeOar2 k w).isTaken q = s.isTaken q := rfl
@[simp] theorem State.writeOar2_instTaken (k : InstId) (w : Oar2) (j : InstId) : (s.writeOar2 k w).instTaken j = s.instTaken j := rfl
@[simp] theorem State.writeOar2_enabled (k : InstId) (w : Oar2) (q : PeriphId) : (s.writeOar2 k w).enabled q = s.enabled q := rfl
@[simp] theorem State.writeOar2_clocked (k : InstId) (w : Oar2) (j : InstId) : (s.writeOar2 k w).clocked j = s.clocked j := rfl
@[simp] theorem State.writeOar2_inReset (k : InstId) (w : Oar2) (q : PeriphId) : (s.writeOar2 k w).inReset q = s.inReset q := rfl
@[simp] theorem State.writeOar2_heldInReset (k : InstId) (w : Oar2) (j : InstId) : (s.writeOar2 k w).heldInReset j = s.heldInReset j := rfl
@[simp] theorem State.writeOar2_fetch (k : InstId) (w : Oar2) : (s.writeOar2 k w).fetch = s.fetch := rfl
theorem State.regs_consumeSb (k : InstId) (j : InstId) : (s.consumeSb k).regs j = if j = k then { s.regs k with sr1 := (s.regs k).sr1.consumeSb } else s.regs j := by
  simp [State.consumeSb, State.regs_setRegs]
@[simp] theorem State.regs_consumeSb_same (k : InstId) : (s.consumeSb k).regs k = { s.regs k with sr1 := (s.regs k).sr1.consumeSb } := by simp [State.consumeSb]
@[simp] theorem State.regs_consumeSb_other (k : InstId) (j : InstId) (h : j ≠ k) : (s.consumeSb k).regs j = s.regs j := by simp [State.consumeSb, h]
@[simp] theorem State.consumeSb_hidden (k : InstId) (j : InstId) : (s.consumeSb k).hidden j = s.hidden j := rfl
@[simp] theorem State.consumeSb_isTaken (k : InstId) (q : PeriphId) : (s.consumeSb k).isTaken q = s.isTaken q := rfl
@[simp] theorem State.consumeSb_instTaken (k : InstId) (j : InstId) : (s.consumeSb k).instTaken j = s.instTaken j := rfl
@[simp] theorem State.consumeSb_enabled (k : InstId) (q : PeriphId) : (s.consumeSb k).enabled q = s.enabled q := rfl
@[simp] theorem State.consumeSb_clocked (k : InstId) (j : InstId) : (s.consumeSb k).clocked j = s.clocked j := rfl
@[simp] theorem State.consumeSb_inReset (k : InstId) (q : PeriphId) : (s.consumeSb k).inReset q = s.inReset q := rfl
@[simp] theorem State.consumeSb_heldInReset (k : InstId) (j : InstId) : (s.consumeSb k).heldInReset j = s.heldInReset j := rfl
@[simp] theorem State.consumeSb_fetch (k : InstId) : (s.consumeSb k).fetch = s.fetch := rfl
theorem State.regs_consumeAddr (k : InstId) (j : InstId) : (s.consumeAddr k).regs j = if j = k then { s.regs k with sr1 := (s.regs k).sr1.consumeAddr } else s.regs j := by
  simp [State.consumeAddr, State.regs_setRegs]
@[simp] theorem State.regs_consumeAddr_same (k : InstId) : (s.consumeAddr k).regs k = { s.regs k with sr1 := (s.regs k).sr1.consumeAddr } := by simp [State.consumeAddr]
@[simp] theorem State.regs_consumeAddr_other (k : InstId) (j : InstId) (h : j ≠ k) : (s.consumeAddr k).regs j = s.regs j := by simp [State.consumeAddr, h]
@[simp] theorem State.consumeAddr_hidden (k : InstId) (j : InstId) : (s.consumeAddr k).hidden j = s.hidden j := rfl
@[simp] theorem State.consumeAddr_isTaken (k : InstId) (q : PeriphId) : (s.consumeAddr k).isTaken q = s.isTaken q := rfl
@[simp] theorem State.consumeAddr_instTaken (k : InstId) (j : InstId) : (s.consumeAddr k).instTaken j = s.instTaken j := rfl
@[simp] theorem State.consumeAddr_enabled (k : InstId) (q : PeriphId) : (s.consumeAddr k).enabled q = s.enabled q := rfl
@[simp] theorem State.consumeAddr_clocked (k : InstId) (j : InstId) : (s.consumeAddr k).clocked j = s.clocked j := rfl
@[simp] theorem State.consumeAddr_inReset (k : InstId) (q : PeriphId) : (s.consumeAddr k).inReset q = s.inReset q := rfl
@[simp] theorem State.consumeAddr_heldInReset (k : InstId) (j : InstId) : (s.consumeAddr k).heldInReset j = s.heldInReset j := rfl
@[simp] theorem State.consumeAddr_fetch (k : InstId) : (s.consumeAddr k).fetch = s.fetch := rfl


/-! The enable and reset bits -/

@[simp] theorem State.putBit_par (b : Nat × Nat) (v : Bool) : (s.putBit b v).par = s.par := rfl
@[simp] theorem State.putBit_taken (b : Nat × Nat) (v : Bool) : (s.putBit b v).taken = s.taken := rfl
@[simp] theorem State.putBit_seq (b : Nat × Nat) (v : Bool) : (s.putBit b v).seq = s.seq := rfl
@[simp] theorem State.putBit_fault (b : Nat × Nat) (v : Bool) : (s.putBit b v).fault = s.fault := rfl
@[simp] theorem State.putBit_commands (b : Nat × Nat) (v : Bool) : (s.putBit b v).commands = s.commands := rfl
@[simp] theorem State.putBit_cptr (b : Nat × Nat) (v : Bool) : (s.putBit b v).cptr = s.cptr := rfl
@[simp] theorem State.putBit_results (b : Nat × Nat) (v : Bool) : (s.putBit b v).results = s.results := rfl
@[simp] theorem State.putBit_agenda (b : Nat × Nat) (v : Bool) : (s.putBit b v).agenda = s.agenda := rfl
@[simp] theorem State.putBit_draws (b : Nat × Nat) (v : Bool) : (s.putBit b v).draws = s.draws := rfl
@[simp] theorem State.putBit_fetch (b : Nat × Nat) (v : Bool) : (s.putBit b v).fetch = s.fetch := rfl
@[simp] theorem State.putBit_isTaken (b : Nat × Nat) (v : Bool) (q : PeriphId) : (s.putBit b v).isTaken q = s.isTaken q :=
  rfl
@[simp] theorem State.putBit_instTaken (b : Nat × Nat) (v : Bool) (j : InstId) :
    (s.putBit b v).instTaken j = s.instTaken j := rfl
theorem State.putBit_cc (b : Nat × Nat) (v : Bool) : (s.putBit b v).cc = s.cc.putBit s.par b v := rfl

/-- The words that stand at 0x00, 0x04 and 0x08 (10_state.md R25 to R27). -/
theorem ClockControl.wordAt_cr (c : ClockControl) : c.wordAt 0x00 = some c.cr.toWord := rfl
theorem ClockControl.wordAt_pllcfgr (c : ClockControl) : c.wordAt 0x04 = some c.pllcfgr.toWord := rfl
theorem ClockControl.wordAt_cfgr (c : ClockControl) : c.wordAt 0x08 = some c.cfgr.toWord := rfl
theorem ClockControl.wordAt_other {off : Nat} (c : ClockControl) (h0 : off ≠ 0x00) (h4 : off ≠ 0x04) (h8 : off ≠ 0x08) :
    c.wordAt off = none := by simp [ClockControl.wordAt, h0, h4, h8]

/-- A bit of another word is the one held for the row. -/
theorem ClockControl.bitAtPlace_other {b : Nat × Nat} (c : ClockControl) (held : Bool) (h0 : b.1 ≠ 0x00)
    (h4 : b.1 ≠ 0x04) (h8 : b.1 ≠ 0x08) : c.bitAtPlace b held = held := by
  simp [ClockControl.bitAtPlace, ClockControl.wordAt_other c h0 h4 h8]

/-- A write of a bit of another word leaves CR, PLLCFGR and CFGR, and is held for every row that names it. -/
theorem ClockControl.putBit_other {b : Nat × Nat} (c : ClockControl) (par : Config.Params) (v : Bool) (h0 : b.1 ≠ 0x00)
    (h4 : b.1 ≠ 0x04) (h8 : b.1 ≠ 0x08) : c.putBit par b v = { c with
      enr := Vector.ofFn fun p => if (par.row p).any (fun r => r.enable == b) then v else c.enr[p.val]
      rstr := Vector.ofFn fun p => if (par.row p).any (fun r => r.reset == b) then v else c.rstr[p.val] } := by
  simp [ClockControl.putBit, ClockControl.wordAt_other c h0 h4 h8]

/-- A write of a bit of CR, PLLCFGR or CFGR is the write of their word with the bit replaced. -/
theorem ClockControl.putBit_word {b : Nat × Nat} {c : ClockControl} {w : Word} (par : Config.Params) (v : Bool)
    (h : c.wordAt b.1 = some w) : c.putBit par b v = c.putWord b.1 (withBit w b.2 v) := by
  simp [ClockControl.putBit, h]

/-- A write of a 0 asserts nothing; one of a 1 in another word than CR, PLLCFGR and CFGR does. -/
@[simp] theorem ClockControl.asserts_false (c : ClockControl) (par : Config.Params) (b : Nat × Nat) :
    c.asserts par b false = false := rfl
theorem ClockControl.asserts_other {b : Nat × Nat} (c : ClockControl) (par : Config.Params) (v : Bool) (h0 : b.1 ≠ 0x00)
    (h4 : b.1 ≠ 0x04) (h8 : b.1 ≠ 0x08) : c.asserts par b v = v := by
  simp [ClockControl.asserts, ClockControl.bitAtPlace_other _ _ h0 h4 h8]

theorem State.enabled_putBit {b : Nat × Nat} (v : Bool) (q : PeriphId) (h0 : b.1 ≠ 0x00) (h4 : b.1 ≠ 0x04)
    (h8 : b.1 ≠ 0x08) :
    (s.putBit b v).enabled q = if (s.par.row q).any (fun r => r.enable == b) then v else s.enabled q := by
  simp only [State.enabled, State.putBit_cc, State.putBit_par, ClockControl.putBit_other _ _ _ h0 h4 h8]
  cases hq : s.par.row q with
  | none => simp [hq]
  | some r =>
    by_cases e : r.enable = b
    · subst e; simp [hq, ClockControl.bitAtPlace_other _ _ h0 h4 h8]
    · simp [hq, e, ClockControl.bitAtPlace, ClockControl.wordAt]
theorem State.inReset_putBit {b : Nat × Nat} (v : Bool) (q : PeriphId) (h0 : b.1 ≠ 0x00) (h4 : b.1 ≠ 0x04)
    (h8 : b.1 ≠ 0x08) :
    (s.putBit b v).inReset q = if (s.par.row q).any (fun r => r.reset == b) then v else s.inReset q := by
  simp only [State.inReset, State.putBit_cc, State.putBit_par, ClockControl.putBit_other _ _ _ h0 h4 h8]
  cases hq : s.par.row q with
  | none => simp [hq]
  | some r =>
    by_cases e : r.reset = b
    · subst e; simp [hq, ClockControl.bitAtPlace_other _ _ h0 h4 h8]
    · simp [hq, e, ClockControl.bitAtPlace, ClockControl.wordAt]
theorem State.regs_putBit (b : Nat × Nat) (v : Bool) (j : InstId) :
    (s.putBit b v).regs j =
      if s.cc.asserts s.par b v && resetsInst s.par b j then BusRegs.reset else s.regs j := by
  simp [State.putBit, State.regs]
theorem State.hidden_putBit (b : Nat × Nat) (v : Bool) (j : InstId) :
    (s.putBit b v).hidden j =
      if s.cc.asserts s.par b v && resetsInst s.par b j then (s.hidden j).afterReset else s.hidden j := by
  simp [State.putBit, State.hidden]
@[simp] theorem State.regs_putBit_false (b : Nat × Nat) (j : InstId) : (s.putBit b false).regs j = s.regs j := by
  simp [State.regs_putBit]
@[simp] theorem State.hidden_putBit_false (b : Nat × Nat) (j : InstId) : (s.putBit b false).hidden j = s.hidden j := by
  simp [State.hidden_putBit]

/-- A write of a bit of the clock-control words never changes what OSC writes: the ready flags and SWS (40_clocktree.md
R109). -/
theorem ClockControl.putBit_osc (c : ClockControl) (par : Config.Params) (b : Nat × Nat) (v : Bool) :
    (c.putBit par b v).cr.hsirdy = c.cr.hsirdy ∧ (c.putBit par b v).cr.hserdy = c.cr.hserdy ∧
    (c.putBit par b v).cr.pllrdy = c.cr.pllrdy ∧ (c.putBit par b v).cfgr.sws = c.cfgr.sws := by
  unfold ClockControl.putBit
  split
  · unfold ClockControl.putWord
    split
    · simp [Cr.put]
    · split
      · simp
      · split
        · simp [Cfgr.put]
        · simp
  · simp

/-- The bit operations of the PER_ commands are writes of the bit that `PERIPH` gives (42_peripheral_access.md R142). -/
theorem State.setEnabled_row {p : PeriphId} {r : Config.PeriphRow} (h : s.par.row p = some r) (v : Bool) :
    s.setEnabled p v = s.putBit r.enable v := by simp [State.setEnabled, h]
theorem State.assertReset_row {p : PeriphId} {r : Config.PeriphRow} (h : s.par.row p = some r) :
    s.assertReset p = s.putBit r.reset true := by simp [State.assertReset, h]
theorem State.deassertReset_row {p : PeriphId} {r : Config.PeriphRow} (h : s.par.row p = some r) :
    s.deassertReset p = s.putBit r.reset false := by simp [State.deassertReset, h]
@[simp] theorem State.setEnabled_par (p : PeriphId) (v : Bool) : (s.setEnabled p v).par = s.par := by
  unfold State.setEnabled; split <;> rfl
@[simp] theorem State.setEnabled_taken (p : PeriphId) (v : Bool) : (s.setEnabled p v).taken = s.taken := by
  unfold State.setEnabled; split <;> rfl
@[simp] theorem State.setEnabled_seq (p : PeriphId) (v : Bool) : (s.setEnabled p v).seq = s.seq := by
  unfold State.setEnabled; split <;> rfl
@[simp] theorem State.setEnabled_fault (p : PeriphId) (v : Bool) : (s.setEnabled p v).fault = s.fault := by
  unfold State.setEnabled; split <;> rfl
@[simp] theorem State.setEnabled_commands (p : PeriphId) (v : Bool) : (s.setEnabled p v).commands = s.commands := by
  unfold State.setEnabled; split <;> rfl
@[simp] theorem State.setEnabled_cptr (p : PeriphId) (v : Bool) : (s.setEnabled p v).cptr = s.cptr := by
  unfold State.setEnabled; split <;> rfl
@[simp] theorem State.setEnabled_results (p : PeriphId) (v : Bool) : (s.setEnabled p v).results = s.results := by
  unfold State.setEnabled; split <;> rfl
@[simp] theorem State.setEnabled_agenda (p : PeriphId) (v : Bool) : (s.setEnabled p v).agenda = s.agenda := by
  unfold State.setEnabled; split <;> rfl
@[simp] theorem State.setEnabled_draws (p : PeriphId) (v : Bool) : (s.setEnabled p v).draws = s.draws := by
  unfold State.setEnabled; split <;> rfl
@[simp] theorem State.setEnabled_fetch (p : PeriphId) (v : Bool) : (s.setEnabled p v).fetch = s.fetch := by
  unfold State.setEnabled; split <;> rfl
@[simp] theorem State.setEnabled_isTaken (p : PeriphId) (v : Bool) (q : PeriphId) : (s.setEnabled p v).isTaken q = s.isTaken q := by
  simp [State.isTaken]
@[simp] theorem State.setEnabled_instTaken (p : PeriphId) (v : Bool) (j : InstId) : (s.setEnabled p v).instTaken j = s.instTaken j := by
  unfold State.setEnabled; split <;> rfl
@[simp] theorem State.assertReset_par (p : PeriphId) : (s.assertReset p).par = s.par := by
  unfold State.assertReset; split <;> rfl
@[simp] theorem State.assertReset_taken (p : PeriphId) : (s.assertReset p).taken = s.taken := by
  unfold State.assertReset; split <;> rfl
@[simp] theorem State.assertReset_seq (p : PeriphId) : (s.assertReset p).seq = s.seq := by
  unfold State.assertReset; split <;> rfl
@[simp] theorem State.assertReset_fault (p : PeriphId) : (s.assertReset p).fault = s.fault := by
  unfold State.assertReset; split <;> rfl
@[simp] theorem State.assertReset_commands (p : PeriphId) : (s.assertReset p).commands = s.commands := by
  unfold State.assertReset; split <;> rfl
@[simp] theorem State.assertReset_cptr (p : PeriphId) : (s.assertReset p).cptr = s.cptr := by
  unfold State.assertReset; split <;> rfl
@[simp] theorem State.assertReset_results (p : PeriphId) : (s.assertReset p).results = s.results := by
  unfold State.assertReset; split <;> rfl
@[simp] theorem State.assertReset_agenda (p : PeriphId) : (s.assertReset p).agenda = s.agenda := by
  unfold State.assertReset; split <;> rfl
@[simp] theorem State.assertReset_draws (p : PeriphId) : (s.assertReset p).draws = s.draws := by
  unfold State.assertReset; split <;> rfl
@[simp] theorem State.assertReset_fetch (p : PeriphId) : (s.assertReset p).fetch = s.fetch := by
  unfold State.assertReset; split <;> rfl
@[simp] theorem State.assertReset_isTaken (p : PeriphId) (q : PeriphId) : (s.assertReset p).isTaken q = s.isTaken q := by
  simp [State.isTaken]
@[simp] theorem State.assertReset_instTaken (p : PeriphId) (j : InstId) : (s.assertReset p).instTaken j = s.instTaken j := by
  unfold State.assertReset; split <;> rfl
@[simp] theorem State.deassertReset_par (p : PeriphId) : (s.deassertReset p).par = s.par := by
  unfold State.deassertReset; split <;> rfl
@[simp] theorem State.deassertReset_taken (p : PeriphId) : (s.deassertReset p).taken = s.taken := by
  unfold State.deassertReset; split <;> rfl
@[simp] theorem State.deassertReset_seq (p : PeriphId) : (s.deassertReset p).seq = s.seq := by
  unfold State.deassertReset; split <;> rfl
@[simp] theorem State.deassertReset_fault (p : PeriphId) : (s.deassertReset p).fault = s.fault := by
  unfold State.deassertReset; split <;> rfl
@[simp] theorem State.deassertReset_commands (p : PeriphId) : (s.deassertReset p).commands = s.commands := by
  unfold State.deassertReset; split <;> rfl
@[simp] theorem State.deassertReset_cptr (p : PeriphId) : (s.deassertReset p).cptr = s.cptr := by
  unfold State.deassertReset; split <;> rfl
@[simp] theorem State.deassertReset_results (p : PeriphId) : (s.deassertReset p).results = s.results := by
  unfold State.deassertReset; split <;> rfl
@[simp] theorem State.deassertReset_agenda (p : PeriphId) : (s.deassertReset p).agenda = s.agenda := by
  unfold State.deassertReset; split <;> rfl
@[simp] theorem State.deassertReset_draws (p : PeriphId) : (s.deassertReset p).draws = s.draws := by
  unfold State.deassertReset; split <;> rfl
@[simp] theorem State.deassertReset_fetch (p : PeriphId) : (s.deassertReset p).fetch = s.fetch := by
  unfold State.deassertReset; split <;> rfl
@[simp] theorem State.deassertReset_isTaken (p : PeriphId) (q : PeriphId) : (s.deassertReset p).isTaken q = s.isTaken q := by
  simp [State.isTaken]
@[simp] theorem State.deassertReset_instTaken (p : PeriphId) (j : InstId) : (s.deassertReset p).instTaken j = s.instTaken j := by
  unfold State.deassertReset; split <;> rfl
@[simp] theorem State.deassertReset_regs (p : PeriphId) (j : InstId) : (s.deassertReset p).regs j = s.regs j := by
  unfold State.deassertReset; split <;> simp
@[simp] theorem State.deassertReset_hidden (p : PeriphId) (j : InstId) : (s.deassertReset p).hidden j = s.hidden j := by
  unfold State.deassertReset; split <;> simp
@[simp] theorem State.takeTurn_instTaken (j : InstId) : s.takeTurn.instTaken j = s.instTaken j := by
  unfold State.takeTurn; cases s.agenda <;> rfl
@[simp] theorem State.takeTurn_clocked (j : InstId) : s.takeTurn.clocked j = s.clocked j := by
  unfold State.takeTurn; cases s.agenda <;> rfl
@[simp] theorem State.takeTurn_heldInReset (j : InstId) : s.takeTurn.heldInReset j = s.heldInReset j := by
  unfold State.takeTurn; cases s.agenda <;> rfl
theorem State.hidden_writeDr (k : InstId) (b : Byte) (j : InstId) :
    (s.writeDr k b).hidden j = if j = k then (s.hidden k).afterDrWrite b else s.hidden j := by
  simp [State.writeDr, State.hidden_setHidden]

end Sys2Proof.Machine
end

