-- ==== Sys2Proof/Laws/Board.lean ====
section
/-! SUPPORT. What a bit of the enable and reset words is on a platform whose `PERIPH` rows name bits of their own
(`BoardOk`), the bits of a composed word, and the register at an address. Later proofs cite these lemmas instead of
unfolding `putBit`, `gateWord` and `regAt`. -/

namespace Sys2Proof.Machine

/-- A row of `PERIPH` is one of its rows. -/
theorem mem_rows {par : Config.Params} {p : PeriphId} {r : Config.PeriphRow} (h : par.row p = some r) : r ∈ par.rows := by
  simp only [Config.Params.rows, List.mem_filterMap]
  exact ⟨some r, by rw [← h]; simp [Config.Params.row], rfl⟩

/-- One of the rows of `PERIPH` is the row of an id. -/
theorem row_of_mem {par : Config.Params} {r : Config.PeriphRow} (h : r ∈ par.rows) : ∃ p, par.row p = some r := by
  simp only [Config.Params.rows, List.mem_filterMap] at h
  obtain ⟨o, ho, rfl⟩ := h
  obtain ⟨n, hn, he⟩ := Vector.mem_iff_getElem.mp (Vector.mem_toList_iff.mp ho)
  exact ⟨⟨n, hn⟩, he⟩

/-- An instance is the peripheral of the row that names it (10_state.md R33). -/
theorem instOf_eq_some {par : Config.Params} {p : PeriphId} {k : InstId} :
    instOf par p = some k ↔ ∃ r, par.row p = some r ∧ r.inst = some k := by
  simp [instOf, Option.bind_eq_some_iff]

/-- No two ids are one instance (42_peripheral_access.md R142). -/
theorem BoardOk.inst_unique {par : Config.Params} (h : BoardOk par) {p q : PeriphId} {k : InstId}
    (hp : instOf par p = some k) (hq : instOf par q = some k) : p = q := by
  obtain ⟨a, ha, hak⟩ := instOf_eq_some.mp hp
  obtain ⟨b, hb, hbk⟩ := instOf_eq_some.mp hq
  exact Classical.byContradiction fun n => ((h.2.1 p q a b ha hb).2 n).2.2 k hak hbk

/-- No two ids have one enable bit. -/
theorem BoardOk.enable_unique {par : Config.Params} (h : BoardOk par) {p q : PeriphId} {a b : Config.PeriphRow}
    (ha : par.row p = some a) (hb : par.row q = some b) (e : a.enable = b.enable) : p = q :=
  Classical.byContradiction fun n => ((h.2.1 p q a b ha hb).2 n).1 e

/-- No two ids have one reset bit. -/
theorem BoardOk.reset_unique {par : Config.Params} (h : BoardOk par) {p q : PeriphId} {a b : Config.PeriphRow}
    (ha : par.row p = some a) (hb : par.row q = some b) (e : a.reset = b.reset) : p = q :=
  Classical.byContradiction fun n => ((h.2.1 p q a b ha hb).2 n).2.1 e

/-- The id of an instance (43_bus_engine.md R146). -/
theorem BoardOk.periphOf_eq {par : Config.Params} (h : BoardOk par) {p : PeriphId} {k : InstId}
    (hp : instOf par p = some k) : periphOf par k = some p := by
  unfold periphOf
  cases hf : (List.finRange Config.ids).find? fun q => instOf par q == some k with
  | none => simp [List.find?_eq_none] at hf; exact absurd hp (hf p)
  | some q =>
    have hq := List.find?_some hf
    rw [h.inst_unique hp (by simpa using hq)]

/-- Whether an id has the enable bit of row `a` (42_peripheral_access.md R142). -/
theorem BoardOk.enable_any {par : Config.Params} (h : BoardOk par) {p q : PeriphId} {a : Config.PeriphRow}
    (ha : par.row p = some a) : ((par.row q).any fun r => r.enable == a.enable) = decide (q = p) := by
  cases hq : par.row q with
  | none => simp only [Option.any_none]; exact (decide_eq_false fun e => by simp [e, ha] at hq).symm
  | some b =>
    refine (Bool.eq_iff_iff).mpr ⟨fun e => ?_, fun e => ?_⟩
    · exact decide_eq_true (h.enable_unique hq ha (by simpa using e))
    · rw [of_decide_eq_true e, ha] at hq; cases hq; simp

/-- Whether an id has the reset bit of row `a`. -/
theorem BoardOk.reset_any {par : Config.Params} (h : BoardOk par) {p q : PeriphId} {a : Config.PeriphRow}
    (ha : par.row p = some a) : ((par.row q).any fun r => r.reset == a.reset) = decide (q = p) := by
  cases hq : par.row q with
  | none => simp only [Option.any_none]; exact (decide_eq_false fun e => by simp [e, ha] at hq).symm
  | some b =>
    refine (Bool.eq_iff_iff).mpr ⟨fun e => ?_, fun e => ?_⟩
    · exact decide_eq_true (h.reset_unique hq ha (by simpa using e))
    · rw [of_decide_eq_true e, ha] at hq; cases hq; simp

/-- An enable bit is nobody's reset bit. -/
theorem BoardOk.enable_ne_reset {par : Config.Params} (h : BoardOk par) {p q : PeriphId} {a : Config.PeriphRow}
    (ha : par.row p = some a) : ((par.row q).any fun r => r.reset == a.enable) = false := by
  cases hq : par.row q with
  | none => rfl
  | some b => simpa using fun e => (h.2.1 p q a b ha hq).1 e.symm

/-- A reset bit is nobody's enable bit. -/
theorem BoardOk.reset_ne_enable {par : Config.Params} (h : BoardOk par) {p q : PeriphId} {a : Config.PeriphRow}
    (ha : par.row p = some a) : ((par.row q).any fun r => r.enable == a.reset) = false := by
  cases hq : par.row q with
  | none => rfl
  | some b => simpa using fun e => (h.2.1 q p b a hq ha).1 e

/-- An enable bit resets no instance. -/
theorem BoardOk.resetsInst_enable {par : Config.Params} (h : BoardOk par) {p : PeriphId} {a : Config.PeriphRow}
    (ha : par.row p = some a) (k : InstId) : resetsInst par a.enable k = false := by
  simp only [resetsInst, List.any_eq_false, Bool.and_eq_true, beq_iff_eq, not_and]
  intro b hb e
  obtain ⟨q, hq⟩ := row_of_mem hb
  exact absurd e.symm (h.2.1 p q a b ha hq).1

/-- A reset bit resets the instance of its row and no other (42_peripheral_access.md R139). -/
theorem BoardOk.resetsInst_reset {par : Config.Params} (h : BoardOk par) {p : PeriphId} {a : Config.PeriphRow}
    (ha : par.row p = some a) (k : InstId) : resetsInst par a.reset k = decide (a.inst = some k) := by
  refine Bool.eq_iff_iff.mpr ⟨fun e => ?_, fun e => ?_⟩
  · simp only [resetsInst, List.any_eq_true, Bool.and_eq_true, beq_iff_eq] at e
    obtain ⟨b, hb, hr, hi⟩ := e
    obtain ⟨q, hq⟩ := row_of_mem hb
    rw [h.reset_unique hq ha hr, ha] at hq
    cases hq
    exact decide_eq_true hi
  · simp only [resetsInst, List.any_eq_true, Bool.and_eq_true, beq_iff_eq]
    exact ⟨a, mem_rows ha, rfl, of_decide_eq_true e⟩

/-- A right row names no bit of CR, PLLCFGR and CFGR. -/
theorem BoardOk.enable_place {par : Config.Params} (h : BoardOk par) {p : PeriphId} {a : Config.PeriphRow}
    (ha : par.row p = some a) : a.enable.1 ≠ 0x00 ∧ a.enable.1 ≠ 0x04 ∧ a.enable.1 ≠ 0x08 := by
  have := h.1 p a ha
  omega

/-- A right row names no reset bit in CR, PLLCFGR and CFGR. -/
theorem BoardOk.reset_place {par : Config.Params} (h : BoardOk par) {p : PeriphId} {a : Config.PeriphRow}
    (ha : par.row p = some a) : a.reset.1 ≠ 0x00 ∧ a.reset.1 ≠ 0x04 ∧ a.reset.1 ≠ 0x08 := by
  have := h.1 p a ha
  omega

/-- On a right platform CC.ENR[p] is the bit held for p (10_state.md R32). -/
theorem BoardOk.enabled_eq {s : State} (h : BoardOk s.par) (p : PeriphId) : s.enabled p = s.cc.enr[p.val] := by
  unfold State.enabled
  cases hr : s.par.row p with
  | none => rfl
  | some r =>
    obtain ⟨h0, h4, h8⟩ := h.enable_place hr
    exact ClockControl.bitAtPlace_other _ _ h0 h4 h8

/-- On a right platform CC.RSTR[p] is the bit held for p (10_state.md R32). -/
theorem BoardOk.inReset_eq {s : State} (h : BoardOk s.par) (p : PeriphId) : s.inReset p = s.cc.rstr[p.val] := by
  unfold State.inReset
  cases hr : s.par.row p with
  | none => rfl
  | some r =>
    obtain ⟨h0, h4, h8⟩ := h.reset_place hr
    exact ClockControl.bitAtPlace_other _ _ h0 h4 h8

/-- All that the write of an enable bit does (42_peripheral_access.md R137, R138). -/
theorem putBit_enable {s : State} {p : PeriphId} {a : Config.PeriphRow} (h : BoardOk s.par) (ha : s.par.row p = some a)
    (v : Bool) : s.putBit a.enable v = { s with cc := { s.cc with enr := s.cc.enr.set p.val v } } := by
  obtain ⟨h0, h4, h8⟩ := h.enable_place ha
  simp only [State.putBit, ClockControl.putBit_other _ _ _ h0 h4 h8, h.enable_any ha, h.enable_ne_reset ha,
    h.resetsInst_enable ha, Bool.and_false, Bool.false_eq_true, ↓reduceIte, State.regs, State.hidden]
  congr 1
  · congr 1
    · ext q hq
      simp [Vector.getElem_set, Fin.ext_iff, eq_comm]
    · ext q hq
      simp
  · ext q hq
    all_goals simp
  · ext q hq
    all_goals simp

/-- What the write of a reset bit does to the reset bits, the enable bits, the registers and the hidden state
(42_peripheral_access.md R139). -/
theorem putBit_reset {s : State} {p : PeriphId} {a : Config.PeriphRow} (h : BoardOk s.par) (ha : s.par.row p = some a)
    (v : Bool) :
    (s.putBit a.reset v).cc = { s.cc with rstr := s.cc.rstr.set p.val v } ∧
    (∀ k, (s.putBit a.reset v).regs k = if v = true ∧ a.inst = some k then BusRegs.reset else s.regs k) ∧
    (∀ k, (s.putBit a.reset v).hidden k = if v = true ∧ a.inst = some k then (s.hidden k).afterReset else s.hidden k) := by
  obtain ⟨h0, h4, h8⟩ := h.reset_place ha
  refine ⟨?_, fun k => by simp [State.regs_putBit, h.resetsInst_reset ha, ClockControl.asserts_other _ _ _ h0 h4 h8],
    fun k => by simp [State.hidden_putBit, h.resetsInst_reset ha, ClockControl.asserts_other _ _ _ h0 h4 h8]⟩
  simp only [State.putBit, ClockControl.putBit_other _ _ _ h0 h4 h8, h.reset_any ha, h.reset_ne_enable ha,
    Bool.false_eq_true, ↓reduceIte]
  congr 1
  · ext q hq
    simp
  · ext q hq
    simp [Vector.getElem_set, Fin.ext_iff, eq_comm]

/-- A write that leaves an instance's hidden state as it is writes its registers only. -/
theorem setRegs_setHidden_self {s : State} {k : InstId} {h : BusLine} (e : s.hidden k = h) (r : BusRegs) :
    (s.setRegs k r).setHidden k h = s.setRegs k r := by
  subst e
  simp [State.setRegs, State.setHidden, State.hidden]

/-- The one bit of `bitAt`. -/
theorem bitAt_getLsbD (b : Bool) (n i : Nat) (hi : i < 32) : (bitAt b n).getLsbD i = (b && decide (n = i)) := by
  cases b
  · simp [bitAt]
  · simp only [bitAt, ↓reduceIte, BitVec.getLsbD_ofNat, Nat.testBit_two_pow, hi, decide_true, Bool.true_and]

/-- A word with one bit replaced is the word with that bit set or cleared. -/
theorem withBit_eq (w : Word) (i : Nat) (v : Bool) :
    withBit w i v = if v then w ||| (1#32 <<< i) else w &&& ~~~(1#32 <<< i) := by
  have : bitAt true i = 1#32 <<< i := by
    apply BitVec.eq_of_toNat_eq
    simp [bitAt, Nat.shiftLeft_eq]
  simp [withBit, this]

/-- The bits of one peripheral id in the word at an offset. -/
theorem gateBitsOf_getLsbD (s : State) (off i : Nat) (p : PeriphId) (hi : i < 32) :
    (gateBitsOf s off p).getLsbD i = true ↔ ∃ r, s.par.row p = some r ∧
      (r.enable = (off, i) ∧ s.enabled p = true ∨ r.reset = (off, i) ∧ s.inReset p = true) := by
  unfold gateBitsOf
  cases s.par.row p with
  | none => simp
  | some r =>
    simp only [BitVec.getLsbD_or, bitAt_getLsbD _ _ _ hi, Bool.or_eq_true, Bool.and_eq_true, beq_iff_eq,
      decide_eq_true_eq, Option.some.injEq, exists_eq_left', Prod.ext_iff]
    tauto

/-- The bits of the word that `PERIPH` composes (10_state.md R32). -/
theorem gateWord_getLsbD (s : State) (off i : Nat) (hi : i < 32) :
    (gateWord s off).getLsbD i = true ↔ ∃ p r, s.par.row p = some r ∧
      (r.enable = (off, i) ∧ s.enabled p = true ∨ r.reset = (off, i) ∧ s.inReset p = true) := by
  have key : ∀ (l : List PeriphId) (w : Word), (l.foldl (fun w p => w ||| gateBitsOf s off p) w).getLsbD i = true ↔
      w.getLsbD i = true ∨ ∃ p ∈ l, (gateBitsOf s off p).getLsbD i = true := by
    intro l
    induction l with
    | nil => simp
    | cons q l ih => intro w; simp [ih, or_assoc]
  rw [gateWord, key]
  simp [gateBitsOf_getLsbD s off i _ hi]

/-- The register at the address of a register, where it is aligned and within 32 bits and no two have one address
(20_memory.md R54, R55, R60). -/
theorem regAt_addr {par : Config.Params} (h : ((allRegs par).map fun r => r.addr par).Nodup) {r : Reg}
    (hr : r ∈ allRegs par) (aligned : r.addr par % 4 = 0) (within : r.addr par < 2 ^ 32) :
    regAt par (r.addr par) = some r := by
  rw [regAt, if_pos ⟨aligned, within⟩]
  cases hf : (allRegs par).find? fun q => q.addr par == r.addr par with
  | none => simp only [List.find?_eq_none] at hf; exact absurd (by simp) (hf r hr)
  | some q =>
    have hq : q.addr par = r.addr par := by simpa using List.find?_some hf
    rw [List.inj_on_of_nodup_map h (List.mem_of_find?_eq_some hf) hr hq]

/-- No register stands at a misaligned address, at one of more than 32 bits, or where R55 puts none (20_memory.md R61). -/
theorem regAt_none {par : Config.Params} {a : Nat}
    (h : a % 4 ≠ 0 ∨ 2 ^ 32 ≤ a ∨ ∀ r ∈ allRegs par, r.addr par ≠ a) : regAt par a = none := by
  unfold regAt
  split
  · rcases h with h | h | h
    · omega
    · omega
    · simpa [List.find?_eq_none] using h
  · rfl

end Sys2Proof.Machine
end

