-- ==== Sys2Proof/Laws/Ops.lean ====
section
/-! SUPPORT. One lemma for each shared operation that says everything it can do when it answers a next state, for later
proofs to cite instead of unfolding it; and how each never refuses. -/

namespace Sys2Proof.Machine

/-- The ownership check goes on, or faults (42_peripheral_access.md R136). -/
theorem requireOwned_next {p : PeriphId} {s t : State} {rest : Res} (h : requireOwned p s rest = .next t) :
    (s.isTaken p = true ∧ rest = .next t) ∨ (s.isTaken p = false ∧ t = { s with fault := some .notOwned }) := by
  unfold requireOwned raiseFault at h
  split at h
  · exact .inl ⟨‹_›, h⟩
  · exact .inr ⟨Bool.eq_false_of_not_eq_true ‹_›, by cases h; rfl⟩

/-- The prelude goes on, or faults for want of the take or of the clock (43_bus_engine.md R146). -/
theorem prelude_next {k : InstId} {s t : State} {rest : Res} (h : prelude k s rest = .next t) :
    (s.instTaken k = true ∧ s.clocked k = true ∧ rest = .next t) ∨
    (s.instTaken k = false ∧ t = { s with fault := some .notOwned }) ∨
    (s.instTaken k = true ∧ s.clocked k = false ∧ t = { s with fault := some .clockGated }) := by
  unfold prelude raiseFault at h
  split at h
  · split at h
    · exact .inl ⟨‹_›, ‹_›, h⟩
    · exact .inr (.inr ⟨‹_›, Bool.eq_false_of_not_eq_true ‹_›, by cases h; rfl⟩)
  · exact .inr (.inl ⟨Bool.eq_false_of_not_eq_true ‹_›, by cases h; rfl⟩)

/-- A CR1 field write latches the word, or writes the latched word back changed (20_memory.md R62). -/
theorem cr1Write_next {k : InstId} {f : Cr1 → Cr1} {at_ : Rmw → Point} {r : Rmw} {s t : State} {done : State → Res}
    (h : cr1Write k f at_ r s done = .next t) :
    (r = .read ∧ t = s.goto (at_ (.write (s.regs k).cr1))) ∨
    ∃ w, r = .write w ∧ done (s.writeCr1 k (f w)) = .next t := by
  cases r with
  | read => exact .inl ⟨rfl, by cases h; rfl⟩
  | write w => exact .inr ⟨w, rfl, h⟩

/-- A poll that checks errors ends in the error, in success, or polls again (43_bus_engine.md R158). -/
theorem pollFlags_next {err : Option Status} {flag : Bool} {s t : State} {done : State → Res}
    (h : pollFlags err flag s done = .next t) :
    (∃ e, err = some e ∧ (flag = false ∨ s.par.checkOrder = .errorsFirst) ∧ t = s.finish e 0#32 []) ∨
    (flag = true ∧ (err = none ∨ s.par.checkOrder = .successFirst) ∧ done s = .next t) ∨
    (flag = false ∧ err = none ∧ t = s) := by
  unfold pollFlags pollWith raiseStatus at h
  cases hc : s.par.checkOrder <;> rw [hc] at h <;> cases err <;> cases flag <;> simp at h <;> simp_all

/-- What the start wait may report: a bus error (43_bus_engine.md R159). -/
theorem Sr1.startErrs_some {r : Sr1} {e : Status} (h : r.startErrs = some e) : r.berr = true ∧ e = .busError := by
  unfold Sr1.startErrs at h
  split at h
  · exact ⟨‹_›, by cases h; rfl⟩
  · cases h

/-- What the other waits may report (43_bus_engine.md R158). -/
theorem Sr1.errs_some {r : Sr1} {e : Status} (h : r.errs = some e) :
    e = .acknowledgeFailure ∨ e = .arbitrationLost ∨ e = .busError := by
  unfold Sr1.errs at h
  split at h
  · exact .inl (by cases h; rfl)
  · split at h
    · exact .inr (.inl (by cases h; rfl))
    · split at h
      · exact .inr (.inr (by cases h; rfl))
      · cases h

/-- One micro-step of the start body (43_bus_engine.md R160). -/
theorem startBody_next {k : InstId} {p : StartPoint} {s t : State} {done : State → Res}
    (h : startBody k p s done = .next t) :
    (p = .busFree ∧ t = (if (s.regs k).sr2.busy then s else s.goto (.startBody (.request .read)))) ∨
    (p = .request .read ∧ t = s.goto (.startBody (.request (.write (s.regs k).cr1)))) ∨
    (∃ w, p = .request (.write w) ∧ t = (s.writeCr1 k { w with start := true }).goto (.startBody .wait)) ∨
    (p = .wait ∧ (s.regs k).sr1.berr = true ∧ t = s.finish .busError 0#32 []) ∨
    (p = .wait ∧ (s.regs k).sr1.sb = true ∧ done ((s.consumeSb k).setPhase .started) = .next t) ∨
    (p = .wait ∧ t = s) := by
  cases p with
  | busFree => exact .inl ⟨rfl, by cases h; rfl⟩
  | request r =>
    simp only [startBody] at h
    rcases cr1Write_next h with ⟨rfl, ht⟩ | ⟨w, rfl, ht⟩
    · exact .inr (.inl ⟨rfl, ht⟩)
    · exact .inr (.inr (.inl ⟨w, rfl, by cases ht; rfl⟩))
  | wait =>
    simp only [startBody] at h
    rcases pollFlags_next h with ⟨e, he, -, ht⟩ | ⟨hf, -, ht⟩ | ⟨-, -, ht⟩
    · obtain ⟨hb, rfl⟩ := Sr1.startErrs_some he
      exact .inr (.inr (.inr (.inl ⟨rfl, hb, ht⟩)))
    · exact .inr (.inr (.inr (.inr (.inl ⟨rfl, hf, ht⟩))))
    · exact .inr (.inr (.inr (.inr (.inr ⟨rfl, ht⟩))))

/-- One micro-step of the address body (43_bus_engine.md R161). -/
theorem addressBody_next {k : InstId} {addr : BitVec 7} {d : Dir} {p : PutPoint} {s t : State} {done : State → Res}
    (h : addressBody k addr d p s done = .next t) :
    (p = .put ∧ t = (s.writeDr k (addressByte addr d)).goto (.addressBody .wait)) ∨
    (∃ e, p = .wait ∧ (s.regs k).sr1.errs = some e ∧ t = s.finish e 0#32 []) ∨
    (p = .wait ∧ (s.regs k).sr1.addr = true ∧ done ((s.consumeAddr k).setPhase .addressPhase) = .next t) ∨
    (p = .wait ∧ t = s) := by
  cases p with
  | put => exact .inl ⟨rfl, by cases h; rfl⟩
  | wait =>
    simp only [addressBody] at h
    rcases pollFlags_next h with ⟨e, he, -, ht⟩ | ⟨hf, -, ht⟩ | ⟨-, -, ht⟩
    · exact .inr (.inl ⟨e, rfl, he, ht⟩)
    · exact .inr (.inr (.inl ⟨rfl, hf, ht⟩))
    · exact .inr (.inr (.inr ⟨rfl, ht⟩))

/-- One micro-step of the write-byte body (43_bus_engine.md R162). -/
theorem writeByteBody_next {k : InstId} {b : Byte} {p : PutPoint} {s t : State} {done : State → Res}
    (h : writeByteBody k b p s done = .next t) :
    (p = .put ∧ t = (s.writeDr k b).goto (.writeBody .wait)) ∨
    (∃ e, p = .wait ∧ (s.regs k).sr1.errs = some e ∧ t = s.finish e 0#32 []) ∨
    (p = .wait ∧ (s.regs k).sr1.txe = true ∧ done (s.setPhase .dataPhase) = .next t) ∨
    (p = .wait ∧ t = s) := by
  cases p with
  | put => exact .inl ⟨rfl, by cases h; rfl⟩
  | wait =>
    simp only [writeByteBody] at h
    rcases pollFlags_next h with ⟨e, he, -, ht⟩ | ⟨hf, -, ht⟩ | ⟨-, -, ht⟩
    · exact .inr (.inl ⟨e, rfl, he, ht⟩)
    · exact .inr (.inr (.inl ⟨rfl, hf, ht⟩))
    · exact .inr (.inr (.inr ⟨rfl, ht⟩))

/-- One iteration of the BTF wait (43_bus_engine.md R169). -/
theorem waitBtf_next {k : InstId} {s t : State} {done : State → Res} (h : waitBtf k s done = .next t) :
    (∃ e, (s.regs k).sr1.errs = some e ∧ t = s.finish e 0#32 []) ∨
    ((s.regs k).sr1.btf = true ∧ done s = .next t) ∨ t = s := by
  unfold waitBtf at h
  rcases pollFlags_next h with ⟨e, he, -, ht⟩ | ⟨hf, -, ht⟩ | ⟨-, -, ht⟩
  · exact .inl ⟨e, he, ht⟩
  · exact .inr (.inl ⟨hf, ht⟩)
  · exact .inr (.inr ht)

/-- One micro-step of the read-byte body (43_bus_engine.md R163). -/
theorem readByteBody_next {k : InstId} {at_ : TakePoint → Point} {p : TakePoint} {s t : State}
    {done : Byte → State → Res} (h : readByteBody k at_ p s done = .next t) :
    (p = .wait ∧ t = (if (s.regs k).sr1.rxne then s.goto (at_ .take) else s)) ∨
    (p = .take ∧ done (s.regs k).drRx ((s.afterDrRead k).setPhase .dataPhase) = .next t) := by
  cases p with
  | wait => exact .inl ⟨rfl, by cases h; rfl⟩
  | take => exact .inr ⟨rfl, h⟩

/-- One micro-step of the stop body (43_bus_engine.md R164). -/
theorem stopBody_next {k : InstId} {r : Rmw} {s t : State} {done : State → Res} (h : stopBody k r s done = .next t) :
    (r = .read ∧ t = s.goto (.stopBody (.write (s.regs k).cr1))) ∨
    ∃ w, r = .write w ∧ done ((s.writeCr1 k { w with stop := true }).setPhase .stopped) = .next t :=
  cr1Write_next h

/-- One micro-step of an ACK write (44_bus_transactions.md R183). -/
theorem ackWrite_next {k : InstId} {b : Bool} {at_ : Rmw → Point} {r : Rmw} {s t : State} {done : State → Res}
    (h : ackWrite k b at_ r s done = .next t) :
    (r = .read ∧ t = s.goto (at_ (.write (s.regs k).cr1))) ∨
    ∃ w, r = .write w ∧ done (s.writeCr1 k { w with ack := b }) = .next t :=
  cr1Write_next h

/-- The lane loop of `PACK` fails only with a range fault (41_bitfield_packer.md R116). -/
theorem packLanes_error {w : Nat} {v : Word} {m : BitVec 16} {fuel i : Nat} {r : Word} {f : Fault}
    (h : packLanes w v m fuel i r = .error f) : f = .packRange := by
  induction fuel generalizing i r with
  | zero => cases h
  | succ n ih =>
    unfold packLanes at h
    split at h
    · split at h
      · cases h; rfl
      · exact ih h
    · exact ih h

/-- Where `PACK` succeeds the width and the value fit (41_bitfield_packer.md R116). -/
theorem pack_ok {w : Nat} {r0 v r : Word} {m : BitVec 16} (h : pack w r0 v m = .ok r) :
    1 ≤ w ∧ w ≤ 32 ∧ v.toNat < 2 ^ w ∧ packLanes w v m 16 0 r0 = .ok r := by
  unfold pack at h
  split at h
  · cases h
  · split at h
    · cases h
    · exact ⟨by omega, by omega, by omega, h⟩

/-- A frequency divided by a divisor (40_clocktree.md R96). -/
theorem divFreq_ok {f : Except Fault Nat} {d v : Nat} (h : divFreq f d = .ok v) : ∃ u, f = .ok u ∧ v = u / d := by
  cases f with
  | ok u => exact ⟨u, rfl, by cases h; rfl⟩
  | error e => cases h

/-- A prescaler divisor is not 0 (10_state.md R29). -/
theorem hpreDiv_pos (c : BitVec 4) : 0 < hpreDiv c := by
  revert c
  decide

/-- A prescaler divisor is not 0 (10_state.md R30). -/
theorem ppreDiv_pos (c : BitVec 3) : 0 < ppreDiv c := by
  revert c
  decide

/-- A post-divider divisor is not 0 (10_state.md R31). -/
theorem pllpDiv_pos (c : BitVec 2) : 0 < pllpDiv c := by
  unfold pllpDiv
  omega

/-- A register access succeeds only at the address of a register (20_memory.md R55, R61). -/
theorem regRead_ok {a : Nat} {s t : State} {w : Word} (h : regRead a s = .ok (w, t)) :
    ∃ r, regAt s.par a = some r ∧ w = regWord s r ∧ t = afterRegRead s r := by
  unfold regRead at h
  split at h
  · cases h
    exact ⟨_, ‹_›, rfl, rfl⟩
  · cases h

/-- A register write succeeds only at the address of a register (20_memory.md R55, R61). -/
theorem regWrite_ok {a : Nat} {v : Word} {s t : State} (h : regWrite a v s = .ok t) :
    ∃ r, regAt s.par a = some r ∧ t = regPut s r v := by
  unfold regWrite at h
  split at h
  · cases h
    exact ⟨_, ‹_›, rfl⟩
  · cases h

end Sys2Proof.Machine
end

