-- ==== Sys2Proof/Laws/PerInstr.lean ====
section
/-! SUPPORT. The family `TableRow`: the command word of every command lies in the opcode-table row of its mnemonic,
whatever the values of its fields (30_encoding.md R86, R92). -/

namespace Sys2Proof.Laws

open Sys2Proof

/-- The mnemonic of a command (30_encoding.md R86). -/
def mnemonicOf (i : Instr) : String :=
  match i with
  | .clkSysfreq => "CLK_SYSFREQ"
  | .clkAhbfreq => "CLK_AHBFREQ"
  | .clkApb1freq => "CLK_APB1FREQ"
  | .clkApb2freq => "CLK_APB2FREQ"
  | .clkConfig _ _ _ _ => "CLK_CONFIG"
  | .clkPllconfig _ _ _ _ => "CLK_PLLCONFIG"
  | .pack _ _ _ _ => "PACK"
  | .maskNew _ => "MASK_NEW"
  | .maskUnion _ _ => "MASK_UNION"
  | .maskIntersect _ _ => "MASK_INTERSECT"
  | .maskComplement _ => "MASK_COMPLEMENT"
  | .maskXor _ _ => "MASK_XOR"
  | .maskSet _ _ => "MASK_SET"
  | .maskReset _ _ => "MASK_RESET"
  | .maskIsset _ _ => "MASK_ISSET"
  | .perTake _ => "PER_TAKE"
  | .perEnclk _ => "PER_ENCLK"
  | .perDisclk _ => "PER_DISCLK"
  | .perReset _ => "PER_RESET"
  | .i2cInit _ _ _ _ _ _ => "I2C_INIT"
  | .i2cStart _ => "I2C_START"
  | .i2cAddr _ _ _ => "I2C_ADDR"
  | .i2cWrbyte _ _ => "I2C_WRBYTE"
  | .i2cRdbyte _ => "I2C_RDBYTE"
  | .i2cStop _ => "I2C_STOP"
  | .i2cWrite _ _ _ _ => "I2C_WRITE"
  | .i2cRead _ _ _ => "I2C_READ"

/-- The row of opcode_table.json with a mnemonic. -/
def rowOf (i : Instr) : Option OpcodeRow := opcodeRows.find? fun r => r.mnemonic == mnemonicOf i

/-- The command word of `i` has the fixed bits of the row. -/
def TableRow.Statement (i : Instr) : Prop := ∃ r, rowOf i = some r ∧ (encode i).cw &&& r.mask = r.bits

namespace TableRow

/-- Format Z fixes the whole word (30_encoding.md R76). -/
theorem wordZ_fixed (opc : Byte) : wordZ opc &&& 0xFFFFFFFF#32 = opc.setWidth 32 := by
  revert opc
  decide

theorem clkSysfreq : Statement .clkSysfreq :=
  ⟨⟨"CLK_SYSFREQ", 0xFFFFFFFF#32, 0x01#32⟩, rfl, wordZ_fixed _⟩

theorem clkAhbfreq : Statement .clkAhbfreq :=
  ⟨⟨"CLK_AHBFREQ", 0xFFFFFFFF#32, 0x02#32⟩, rfl, wordZ_fixed _⟩

theorem clkApb1freq : Statement .clkApb1freq :=
  ⟨⟨"CLK_APB1FREQ", 0xFFFFFFFF#32, 0x03#32⟩, rfl, wordZ_fixed _⟩

theorem clkApb2freq : Statement .clkApb2freq :=
  ⟨⟨"CLK_APB2FREQ", 0xFFFFFFFF#32, 0x04#32⟩, rfl, wordZ_fixed _⟩

/-- A word of the family has its row's fixed bits when it has them bit by bit. -/
theorem of_bits {i : Instr} {r : OpcodeRow} (h : rowOf i = some r)
    (hb : ∀ j, j < 32 → ((encode i).cw &&& r.mask).getLsbD j = r.bits.getLsbD j) : Statement i :=
  ⟨r, h, BitVec.eq_of_getLsbD_eq hb⟩

theorem clkConfig (src : Source) (hpre : BitVec 4) (ppre1 ppre2 : BitVec 3) :
    Statement (.clkConfig src hpre ppre1 ppre2) := by
  refine of_bits (r := ⟨"CLK_CONFIG", 0xFFC00CFF#32, 0x05#32⟩) rfl fun j hj => ?_
  simp only [encode, BitVec.getLsbD_and, BitVec.getLsbD_append]
  interval_cases j <;> simp

theorem clkPllconfig (src : PllInput) (m : BitVec 6) (n : BitVec 9) (pcode : BitVec 2) :
    Statement (.clkPllconfig src m n pcode) := by
  refine of_bits (r := ⟨"CLK_PLLCONFIG", 0xE0000EFF#32, 0x06#32⟩) rfl fun j hj => ?_
  simp only [encode, BitVec.getLsbD_and, BitVec.getLsbD_append]
  interval_cases j <;> simp

theorem pack (w : BitVec 6) (existing value laneMask : Word) : Statement (.pack w existing value laneMask) := by
  refine of_bits (r := ⟨"PACK", 0xFFFFC0FF#32, 0x10#32⟩) rfl fun j hj => ?_
  simp only [encode, BitVec.getLsbD_and, BitVec.getLsbD_append]
  interval_cases j <;> simp

theorem maskNew (a : Word) : Statement (.maskNew a) :=
  ⟨⟨"MASK_NEW", 0xFFFFFFFF#32, 0x11#32⟩, rfl, wordZ_fixed _⟩

theorem maskUnion (a b : Word) : Statement (.maskUnion a b) :=
  ⟨⟨"MASK_UNION", 0xFFFFFFFF#32, 0x12#32⟩, rfl, wordZ_fixed _⟩

theorem maskIntersect (a b : Word) : Statement (.maskIntersect a b) :=
  ⟨⟨"MASK_INTERSECT", 0xFFFFFFFF#32, 0x13#32⟩, rfl, wordZ_fixed _⟩

theorem maskComplement (a : Word) : Statement (.maskComplement a) :=
  ⟨⟨"MASK_COMPLEMENT", 0xFFFFFFFF#32, 0x14#32⟩, rfl, wordZ_fixed _⟩

theorem maskXor (a b : Word) : Statement (.maskXor a b) :=
  ⟨⟨"MASK_XOR", 0xFFFFFFFF#32, 0x15#32⟩, rfl, wordZ_fixed _⟩

/-- The fixed bits of formats I and L: all but the 4-bit field (30_encoding.md R77, R81). -/
theorem wordI_fixed (f : BitVec 4) (opc : Byte) : wordI f opc &&& 0xFFFFF0FF#32 = opc.setWidth 32 := by
  refine BitVec.eq_of_getLsbD_eq fun j hj => ?_
  simp only [wordI, BitVec.getLsbD_and, BitVec.getLsbD_append, BitVec.getLsbD_setWidth]
  interval_cases j <;> simp

theorem maskSet (lane : BitVec 4) (a : Word) : Statement (.maskSet lane a) :=
  ⟨⟨"MASK_SET", 0xFFFFF0FF#32, 0x16#32⟩, rfl, wordI_fixed _ _⟩

theorem maskReset (lane : BitVec 4) (a : Word) : Statement (.maskReset lane a) :=
  ⟨⟨"MASK_RESET", 0xFFFFF0FF#32, 0x17#32⟩, rfl, wordI_fixed _ _⟩

theorem maskIsset (lane : BitVec 4) (a : Word) : Statement (.maskIsset lane a) :=
  ⟨⟨"MASK_ISSET", 0xFFFFF0FF#32, 0x18#32⟩, rfl, wordI_fixed _ _⟩

theorem perTake (p : PeriphId) : Statement (.perTake p) :=
  ⟨⟨"PER_TAKE", 0xFFFFF0FF#32, 0x20#32⟩, rfl, wordI_fixed _ _⟩

theorem perEnclk (p : PeriphId) : Statement (.perEnclk p) :=
  ⟨⟨"PER_ENCLK", 0xFFFFF0FF#32, 0x21#32⟩, rfl, wordI_fixed _ _⟩

theorem perDisclk (p : PeriphId) : Statement (.perDisclk p) :=
  ⟨⟨"PER_DISCLK", 0xFFFFF0FF#32, 0x22#32⟩, rfl, wordI_fixed _ _⟩

theorem perReset (p : PeriphId) : Statement (.perReset p) :=
  ⟨⟨"PER_RESET", 0xFFFFF0FF#32, 0x23#32⟩, rfl, wordI_fixed _ _⟩

theorem i2cInit (k : InstId) (speed : Speed) (mode : BusMode) (own1 own2 : BitVec 7) (freq : Word) :
    Statement (.i2cInit k speed mode own1 own2 freq) := by
  refine of_bits (r := ⟨"I2C_INIT", 0xC00000FF#32, 0x30#32⟩) rfl fun j hj => ?_
  simp only [encode, BitVec.getLsbD_and, BitVec.getLsbD_append]
  interval_cases j <;> simp

theorem i2cStart (k : InstId) : Statement (.i2cStart k) :=
  ⟨⟨"I2C_START", 0xFFFFF0FF#32, 0x31#32⟩, rfl, wordI_fixed _ _⟩

theorem i2cAddr (k : InstId) (addr : BitVec 7) (rw : Dir) : Statement (.i2cAddr k addr rw) := by
  refine of_bits (r := ⟨"I2C_ADDR", 0xFFF000FF#32, 0x32#32⟩) rfl fun j hj => ?_
  simp only [encode, BitVec.getLsbD_and, BitVec.getLsbD_append]
  interval_cases j <;> simp

theorem i2cWrbyte (k : InstId) (data : Byte) : Statement (.i2cWrbyte k data) := by
  refine of_bits (r := ⟨"I2C_WRBYTE", 0xFFF000FF#32, 0x33#32⟩) rfl fun j hj => ?_
  simp only [encode, BitVec.getLsbD_and, BitVec.getLsbD_append]
  interval_cases j <;> simp

theorem i2cRdbyte (k : InstId) : Statement (.i2cRdbyte k) :=
  ⟨⟨"I2C_RDBYTE", 0xFFFFF0FF#32, 0x34#32⟩, rfl, wordI_fixed _ _⟩

theorem i2cStop (k : InstId) : Statement (.i2cStop k) :=
  ⟨⟨"I2C_STOP", 0xFFFFF0FF#32, 0x35#32⟩, rfl, wordI_fixed _ _⟩

/-- The fixed bits of format T: the opcode and bit 19 (30_encoding.md R83). -/
theorem wordT_fixed (k : InstId) (addr : BitVec 7) (n : BitVec 12) (opc : Byte) :
    wordT k addr n opc &&& 0x000800FF#32 = opc.setWidth 32 := by
  refine BitVec.eq_of_getLsbD_eq fun j hj => ?_
  simp only [wordT, BitVec.getLsbD_and, BitVec.getLsbD_append, BitVec.getLsbD_setWidth]
  interval_cases j <;> simp

theorem i2cWrite (k : InstId) (addr : BitVec 7) (n : BitVec 12) (ops : List Word) :
    Statement (.i2cWrite k addr n ops) :=
  ⟨⟨"I2C_WRITE", 0x000800FF#32, 0x36#32⟩, rfl, wordT_fixed _ _ _ _⟩

theorem i2cRead (k : InstId) (addr : BitVec 7) (n : BitVec 12) : Statement (.i2cRead k addr n) :=
  ⟨⟨"I2C_READ", 0x000800FF#32, 0x37#32⟩, rfl, wordT_fixed _ _ _ _⟩

end TableRow

end Sys2Proof.Laws
end

