-- ==== Sys2Proof/Laws/Step.lean ====
section
/-! SUPPORT. What one step can do, said once: the turn it takes, and for a turn of SEQ the command it performs a
micro-step of. Later proofs cite these lemmas instead of unfolding the step. -/

namespace Sys2Proof.Machine

/-- What a SEQ turn that answers `t` did on the state `s` (its turn already taken). -/
inductive SeqMove (s t : State) : Prop where
  /-- a micro-step of the command in progress -/
  | resume (i : Instr) (running : s.seq.cmd = some i) (runs : exec i s = .next t)
  /-- the first micro-step of the command under CPTR -/
  | begins (c : Command) (i : Instr) (idle : s.seq.cmd = none) (fetched : s.fetch = some c) (decoded : decode s.par c = .ok i)
      (runs : exec i s = .next t)
  /-- a decode error -/
  | undecoded (c : Command) (e : DecodeError) (idle : s.seq.cmd = none) (fetched : s.fetch = some c)
      (refused : decode s.par c = .error e) (ends : t = s.finish .decodeError 0#32 [])
  /-- nothing to do past the end of the list -/
  | ended (idle : s.seq.cmd = none) (empty : s.fetch = none) (same : t = s)

/-- Every SEQ turn that answers a next state is one of the four moves. -/
theorem seqTurn_cases {s t : State} (h : seqTurn s = .next t) : SeqMove s t := by
  unfold seqTurn at h
  split at h
  · exact .resume _ ‹_› h
  · unfold startCommand at h
    split at h
    · exact .ended ‹_› ‹_› (by cases h; rfl)
    · split at h
      · exact .begins _ _ ‹_› ‹_› ‹_› h
      · exact .undecoded _ _ ‹_› ‹_› ‹_› (by unfold raiseStatus at h; cases h; rfl)

/-- What one step that answers `t` did: the fault register was clear, and it was the turn of one agent. -/
inductive Move (s t : State) : Prop where
  | seq (clear : s.fault = none) (turn : s.nextTurn = .seq) (move : SeqMove s.takeTurn t)
  | osc (clear : s.fault = none) (a : Config.OscStep) (turn : s.nextTurn = .osc a) (eq : t = oscStep a s.takeTurn)
  | bus (clear : s.fault = none) (k : InstId) (a : Config.BusStep) (turn : s.nextTurn = .bus k a)
      (eq : t = busStep k a s.takeTurn)

/-- Every step that answers a next state is a move of one agent. -/
theorem step_cases {s t : State} (h : step s = .next t) : Move s t := by
  unfold step stepMachine at h
  split at h
  · cases h
  · rename_i hf
    unfold runTurn at h
    split at h
    · exact .seq hf ‹_› (seqTurn_cases h)
    · exact .osc hf _ ‹_› (by cases h; rfl)
    · exact .bus hf _ _ ‹_› (by cases h; rfl)

/-- A faulted block answers its fault. -/
theorem step_of_fault {s : State} {f : Fault} (h : s.fault = some f) : step s = .fault f := by
  simp [step, stepMachine, h]

/-- A step of a block that is not faulted is the turn it takes. -/
theorem step_of_clear {s : State} (h : s.fault = none) : step s = runTurn s.nextTurn s.takeTurn := by
  simp [step, stepMachine, h]

/-- A turn on the agenda is the next turn. -/
@[simp] theorem nextTurn_cons {s : State} {t : Config.Turn} {l : List Config.Turn} (h : s.agenda = t :: l) :
    s.nextTurn = t := by simp [State.nextTurn, h]

/-- A turn on the agenda leaves it when taken. -/
theorem takeTurn_cons {s : State} {t : Config.Turn} {l : List Config.Turn} (h : s.agenda = t :: l) :
    s.takeTurn = { s with agenda := l } := by simp [State.takeTurn, h]

/-- An oscillator turn writes ready flags and SWS only (40_clocktree.md R109). -/
theorem oscStep_eq (a : Config.OscStep) (s : State) :
    oscStep a s = { s with cc := { s.cc with
      cr := { s.cc.cr with
        hsirdy := (oscStep a s).cc.cr.hsirdy
        hserdy := (oscStep a s).cc.cr.hserdy
        pllrdy := (oscStep a s).cc.cr.pllrdy }
      cfgr := { s.cc.cfgr with sws := (oscStep a s).cc.cfgr.sws } } } := by
  unfold oscStep
  split
  · cases a <;> rfl
  · rfl

/-- A bus turn touches only the registers and the hidden state of its instance. -/
theorem busStep_eq (k : InstId) (a : Config.BusStep) (s : State) :
    busStep k a s = { s with i2c := (busStep k a s).i2c, bus := (busStep k a s).bus } := by
  unfold busStep
  split <;> rfl

/-- A bus turn leaves every other instance's registers alone. -/
theorem busStep_regs_other (k j : InstId) (a : Config.BusStep) (s : State) (h : j ≠ k) :
    (busStep k a s).regs j = s.regs j := by
  unfold busStep
  split
  · simp [h]
  · rfl

/-- A bus turn leaves every other instance's hidden state alone. -/
theorem busStep_hidden_other (k j : InstId) (a : Config.BusStep) (s : State) (h : j ≠ k) :
    (busStep k a s).hidden j = s.hidden j := by
  unfold busStep
  split
  · simp [h]
  · rfl

end Sys2Proof.Machine
end

