-- ==== Sys2Proof/Tests/Slice0.lean ====
section
/-! SUPPORT. Tests. The expected values come from the spec: the vectors V1 to V75 of 95_test_vectors.md, the examples of
the command rules, or the words written out from the formats of 30_encoding.md. The theorems `witness_…` show, for each
statement of Certificates/Slice0/Obligations.lean with hypotheses, states and operands that meet them, clause by clause. -/

namespace Sys2Proof.Tests

open Sys2Proof Sys2Proof.Machine Sys2Proof.Claims

/-! Helpers -/

/-- What `f` sees in the next state. -/
def seen {α : Type} (r : Res) (f : State → α) : Option α :=
  match r with
  | .next t => some (f t)
  | .fault _ => none
  | .refused _ => none

/-- Every peripheral taken and clocked, otherwise as after reset. -/
def owned : State :=
  { State.reset with
    taken := Vector.replicate Config.ids true
    cc := { ClockControl.reset with enr := Vector.replicate Config.ids true } }

/-- `owned` with instance 0 initialised (CR1 = 0x0401), the given flags and the given byte received. -/
def running (sr1 : Sr1) (dr : Byte) : State :=
  owned.setRegs 0 { BusRegs.reset with cr1 := ⟨true, false, false, true⟩, sr1 := sr1, drRx := dr }

/-- No flag set. -/
def noFlags : Sr1 := ⟨false, false, false, false, false, false, false, false⟩

/-- The clock configuration of V1: PLL from HSE, 8 / 8 * 336 / 4, in use, PPRE1 = 0b100. -/
def v1 : State :=
  { owned with cc := { owned.cc with pllcfgr := ⟨8#6, 336#9, 1#2, .hse⟩, cfgr := ⟨2#2, 2#2, 0#4, 4#3, 7#3⟩ } }

/-- The state with another CHECK_ORDER. -/
def successFirst (s : State) : State := { s with par := { s.par with checkOrder := .successFirst } }

/-- The state with ENV = LAWFUL. -/
def lawful (s : State) : State := { s with par := { s.par with env := .lawful } }

/-- The state with the given prescalers, SW and SWS. -/
def withCfgr (s : State) (c : Cfgr) : State := { s with cc := { s.cc with cfgr := c } }

/-- The state with the given CC.CR. -/
def withCr (s : State) (c : Cr) : State := { s with cc := { s.cc with cr := c } }

/-- The state with an agenda. -/
def withAgenda (s : State) (l : List Config.Turn) : State := { s with agenda := l }

/-- The state with one command in its list. -/
def withCommand (s : State) (c : Command) : State := { s with commands := [c] }

/-- The state inside a command. -/
def inside (s : State) (i : Instr) (p : Point) : State := s.enter i p

/-! Well-formedness: what each check refuses -/

theorem test_wf_pll_m_zero : (Instr.clkPllconfig .hse 0#6 336#9 1#2).wellFormed .default = false := by decide

theorem test_wf_pll_m_one : (Instr.clkPllconfig .hse 1#6 336#9 1#2).wellFormed .default = true := by decide

theorem test_wf_write_operands : (Instr.i2cWrite 0 0x50#7 5#12 [0xAA#32]).wellFormed .default = false := by decide

theorem test_wf_write_two_words : (Instr.i2cWrite 0 0x50#7 5#12 [0xAA#32, 0#32]).wellFormed .default = true := by decide

/-! Decoding: one word for every constructor, written out from 30_encoding.md R76 to R83 -/

theorem test_decode_clkSysfreq : decode .default ⟨0x00000001#32, []⟩ = .ok .clkSysfreq := by decide

theorem test_decode_clkAhbfreq : decode .default ⟨0x00000002#32, []⟩ = .ok .clkAhbfreq := by decide

theorem test_decode_clkApb1freq : decode .default ⟨0x00000003#32, []⟩ = .ok .clkApb1freq := by decide

theorem test_decode_clkApb2freq : decode .default ⟨0x00000004#32, []⟩ = .ok .clkApb2freq := by decide

/-- V13 with PPRE1 = 0b101 and PPRE2 = 0b110. -/
theorem test_decode_clkConfig : decode .default ⟨0x00358205#32, []⟩ = .ok (.clkConfig .pll 8#4 5#3 6#3) := by decide

/-- The example of 40_clocktree.md R104. -/
theorem test_decode_clkPllconfig : decode .default ⟨0x0D408106#32, []⟩ = .ok (.clkPllconfig .hse 8#6 336#9 1#2) := by decide

/-- V2. -/
theorem test_decode_pack : decode .default ⟨0x00000210#32, [0xFFFFFFFF#32, 1#32, 5#32]⟩ = .ok (.pack 2#6 0xFFFFFFFF#32 1#32 5#32) :=
  by decide

/-- V46. -/
theorem test_decode_maskNew : decode .default ⟨0x00000011#32, [0x12345678#32]⟩ = .ok (.maskNew 0x12345678#32) := by decide

/-- V47. -/
theorem test_decode_maskUnion : decode .default ⟨0x00000012#32, [0xFFFF0001#32, 2#32]⟩ = .ok (.maskUnion 0xFFFF0001#32 2#32) := by
  decide

/-- V48. -/
theorem test_decode_maskIntersect : decode .default ⟨0x00000013#32, [0xFF#32, 0xF0F#32]⟩ = .ok (.maskIntersect 0xFF#32 0xF0F#32) :=
  by decide

/-- V49. -/
theorem test_decode_maskComplement : decode .default ⟨0x00000014#32, [0#32]⟩ = .ok (.maskComplement 0#32) := by decide

/-- V50. -/
theorem test_decode_maskXor : decode .default ⟨0x00000015#32, [0xFF#32, 0xF0F#32]⟩ = .ok (.maskXor 0xFF#32 0xF0F#32) := by decide

/-- V51. -/
theorem test_decode_maskSet : decode .default ⟨0x00000F16#32, [0#32]⟩ = .ok (.maskSet 15#4 0#32) := by decide

/-- V5, row 3. -/
theorem test_decode_maskReset : decode .default ⟨0x00000317#32, [8#32]⟩ = .ok (.maskReset 3#4 8#32) := by decide

/-- V5, row 2. -/
theorem test_decode_maskIsset : decode .default ⟨0x00000318#32, [8#32]⟩ = .ok (.maskIsset 3#4 8#32) := by decide

theorem test_decode_perTake : decode .default ⟨0x00000220#32, []⟩ = .ok (.perTake 2) := by decide

/-- V57. -/
theorem test_decode_perEnclk : decode .default ⟨0x00000121#32, []⟩ = .ok (.perEnclk 1) := by decide

theorem test_decode_perDisclk : decode .default ⟨0x00000122#32, []⟩ = .ok (.perDisclk 1) := by decide

/-- V60. -/
theorem test_decode_perReset : decode .default ⟨0x00000023#32, []⟩ = .ok (.perReset 0) := by decide

/-- V32. -/
theorem test_decode_i2cInit :
    decode .default ⟨0x1A128030#32, [0x186A0#32]⟩ = .ok (.i2cInit 0 .standard .slave2 0x12#7 0x34#7 0x186A0#32) := by decide

theorem test_decode_i2cStart : decode .default ⟨0x00000231#32, []⟩ = .ok (.i2cStart 2) := by decide

/-- V66. -/
theorem test_decode_i2cAddr : decode .default ⟨0x000FF032#32, []⟩ = .ok (.i2cAddr 0 0x7F#7 .read) := by decide

/-- V68. -/
theorem test_decode_i2cWrbyte : decode .default ⟨0x000AB033#32, []⟩ = .ok (.i2cWrbyte 0 0xAB#8) := by decide

theorem test_decode_i2cRdbyte : decode .default ⟨0x00000134#32, []⟩ = .ok (.i2cRdbyte 1) := by decide

theorem test_decode_i2cStop : decode .default ⟨0x00000135#32, []⟩ = .ok (.i2cStop 1) := by decide

/-- Program P2, command 3. -/
theorem test_decode_i2cWrite : decode .default ⟨0x00250036#32, [0xBBAA#32]⟩ = .ok (.i2cWrite 0 0x50#7 2#12 [0xBBAA#32]) := by
  decide

/-- V6. -/
theorem test_decode_i2cRead : decode .default ⟨0x00150037#32, []⟩ = .ok (.i2cRead 0 0x50#7 1#12) := by decide

/-- An opcode that is no row of 30_encoding.md R86. -/
theorem test_decode_unknown : decode .default ⟨0x00000007#32, []⟩ = .error .unknownOpcode := by decide

/-- V45 and V73: a reserved bit. -/
theorem test_decode_reserved : decode .default ⟨0x00004010#32, [0#32, 0#32, 0#32]⟩ = .error .reservedField ∧
    decode .default ⟨0x001D0036#32, [0#32]⟩ = .error .reservedField := by decide

/-- V19, V34 and MODE = 3: a reserved code. -/
theorem test_decode_code : decode .default ⟨0x00000305#32, []⟩ = .error .reservedCode ∧
    decode .default ⟨0x00003030#32, [0#32]⟩ = .error .reservedCode ∧ decode .default ⟨0x0000C030#32, [0#32]⟩ = .error .reservedCode := by
  decide

/-- V18: M = 0. -/
theorem test_decode_m_zero : decode .default ⟨0x0D400106#32, []⟩ = .error .zeroPllM := by decide

/-- V58 and V70: no such peripheral, no such instance. -/
theorem test_decode_inst : decode .default ⟨0x00000320#32, []⟩ = .error .badInst ∧ decode .default ⟨0x00000331#32, []⟩ = .error .badInst := by
  decide

/-- V44, V72 and V74: the operand count. -/
theorem test_decode_count : decode .default ⟨0x00000210#32, [0#32, 0#32]⟩ = .error .operandCount ∧
    decode .default ⟨0x00550036#32, [0#32]⟩ = .error .operandCount ∧ decode .default ⟨0x00250037#32, [0#32]⟩ = .error .operandCount := by
  decide

/-- The host's reading of a table word: operand words above the command word, those the table gives no bits being 0. -/
theorem test_decodeTableWord : decodeTableWord 32 0x00040105 = some (.clkConfig .hse 0#4 4#3 0#3) ∧
    decodeTableWord 32 0x12 = some (.maskUnion 0#32 0#32) ∧
    decodeTableWord 64 0x0000AABB00100036 = some (.i2cWrite 0 0#7 1#12 [0xAABB#32]) := by decide

/-! Single micro-steps -/

/-- V1. -/
theorem test_sysfreq_pll : seen (exec .clkSysfreq v1) (fun t => t.results) = some [⟨.ok, 84000000#32, []⟩] := by decide

/-- V8: the product saturates at 2^32 - 1, the value is 2_147_483_647. -/
theorem test_sysfreq_saturates :
    seen (exec .clkSysfreq { v1 with
      par := { v1.par with hseHz := 25000000#32 }
      cc := { v1.cc with pllcfgr := ⟨1#6, 432#9, 0#2, .hse⟩ } }) (fun t => t.results) =
      some [⟨.ok, 2147483647#32, []⟩] := by decide

/-- V10. -/
theorem test_ahbfreq : seen (exec .clkAhbfreq (withCfgr .reset ⟨0#2, 0#2, 15#4, 0#3, 0#3⟩)) (fun t => t.results) =
    some [⟨.ok, 31250#32, []⟩] := by decide

/-- Program P1, command 5. -/
theorem test_apb1freq : seen (exec .clkApb1freq v1) (fun t => t.results) = some [⟨.ok, 42000000#32, []⟩] := by decide

/-- V11. -/
theorem test_apb2freq : seen (exec .clkApb2freq v1) (fun t => t.results) = some [⟨.ok, 5250000#32, []⟩] := by decide

/-- V13: the no-op writes no prescaler. -/
theorem test_config_noop : seen (exec (.clkConfig .hsi 8#4 4#3 4#3) .reset) (fun t => (t.cc.cfgr, t.results, t.cptr)) =
    some (⟨0#2, 0#2, 0#4, 0#3, 0#3⟩, [⟨.ok, 0#32, []⟩], 1) := by decide

/-- V14: CFGR = 0x1005 at the end. -/
theorem test_config_confirm :
    seen (exec (.clkConfig .hse 0#4 4#3 0#3) ((withCfgr .reset ⟨1#2, 1#2, 0#4, 4#3, 0#3⟩).goto (.config .confirm)))
      (fun t => (t.cc.cfgr.toWord, t.results)) = some (0x1005#32, [⟨.ok, 0#32, []⟩]) := by decide

/-- P1, command 0: PLLCFGR = 0x0041_5408. -/
theorem test_pllconfig : seen (exec (.clkPllconfig .hse 8#6 336#9 1#2) (State.reset.goto .commit))
    (fun t => t.cc.pllcfgr.toWord) = some 0x00415408#32 := by decide

/-- V17. -/
theorem test_pllconfig_busy :
    seen (exec (.clkPllconfig .hse 8#6 336#9 1#2) (withCr .reset ⟨true, true, false, false, true, false⟩))
      (fun t => (t.fault, t.cptr, t.cc.pllcfgr)) = some (some .pllBusy, 0, ⟨16#6, 192#9, 0#2, .hsi⟩) := by decide

/-- V2. -/
theorem test_pack : seen (exec (.pack 2#6 0xFFFFFFFF#32 1#32 5#32) .reset) (fun t => t.results) =
    some [⟨.ok, 0xFFFFFFDD#32, []⟩] := by decide

/-- V43. -/
theorem test_pack_range : seen (exec (.pack 4#6 0#32 1#32 0x100#32) .reset) (fun t => (t.fault, t.results)) =
    some (some .packRange, []) := by decide

/-- V46. -/
theorem test_maskNew : seen (exec (.maskNew 0x12345678#32) .reset) (fun t => t.results) = some [⟨.ok, 0x5678#32, []⟩] := by
  decide

/-- V47. -/
theorem test_maskUnion : seen (exec (.maskUnion 0xFFFF0001#32 2#32) .reset) (fun t => t.results) =
    some [⟨.ok, 3#32, []⟩] := by decide

/-- V48. -/
theorem test_maskIntersect : seen (exec (.maskIntersect 0xFF#32 0xF0F#32) .reset) (fun t => t.results) =
    some [⟨.ok, 0xF#32, []⟩] := by decide

/-- V49. -/
theorem test_maskComplement : seen (exec (.maskComplement 0#32) .reset) (fun t => t.results) =
    some [⟨.ok, 0xFFFF#32, []⟩] := by decide

/-- V50. -/
theorem test_maskXor : seen (exec (.maskXor 0xFF#32 0xF0F#32) .reset) (fun t => t.results) =
    some [⟨.ok, 0xFF0#32, []⟩] := by decide

/-- V51. -/
theorem test_maskSet : seen (exec (.maskSet 15#4 0#32) .reset) (fun t => t.results) = some [⟨.ok, 0x8000#32, []⟩] := by
  decide

/-- V5, row 3. -/
theorem test_maskReset : seen (exec (.maskReset 3#4 8#32) .reset) (fun t => t.results) = some [⟨.ok, 0#32, []⟩] := by
  decide

/-- V52. -/
theorem test_maskIsset : seen (exec (.maskIsset 0#4 0x10000#32) .reset) (fun t => t.results) = some [⟨.ok, 0#32, []⟩] := by
  decide

/-- V54. -/
theorem test_take : seen (exec (.perTake 0) (State.reset.goto .commit)) (fun t => (t.taken.toList.take 3, t.cc.enr.toList.take 3)) =
    some ([true, false, false], [false, false, false]) := by decide

/-- V55. -/
theorem test_double_take : seen (exec (.perTake 0) owned) (fun t => t.fault) = some (some .doubleTake) := by decide

/-- V57: bit 22 of APB1ENR. -/
theorem test_enclk : seen (exec (.perEnclk 1) (State.reset.goto .commit)) (fun t => regWord t (.gate 0x40)) =
    some 0x00400000#32 := by decide

/-- V56. -/
theorem test_enclk_not_owned : seen (exec (.perEnclk 0) .reset) (fun t => t.fault) = some (some .notOwned) := by decide

/-- 42_peripheral_access.md R142: a wrong `PERIPH` row touches the wrong bit. -/
theorem test_wrong_row :
    let s := { owned with par := { owned.par with periph := owned.par.periph.set 0 (owned.par.row 1) } }
    seen (exec (.perDisclk 0) (s.goto .commit)) (fun t => (t.enabled 0, t.enabled 1, regWord t (.gate 0x40))) =
      some (false, false, 0x00800000#32) := by decide

/-- 42_peripheral_access.md R142, 10_state.md R25: a wrong row that names PLLON switches the PLL on, and one that names
PLLRDY, a read-only bit, writes nothing. -/
theorem test_row_in_cr :
    let withRow (b : Nat × Nat) (s : State) := { s with
      par := { s.par with periph := s.par.periph.set 0 (some ⟨b, (0x20, 21), some 0⟩) } }
    seen (exec (.perEnclk 0) (withRow (0x00, 24) (owned.goto .commit))) (fun t => (t.cc.cr.pllon, t.clocked 0)) =
      some (true, true) ∧
    seen (exec (.perEnclk 0) (withRow (0x00, 25) (owned.goto .commit))) (fun t => (t.cc.cr.pllrdy, t.clocked 0)) =
      some (false, false) := by decide

theorem test_disclk : seen (exec (.perDisclk 1) (owned.goto .commit)) (fun t => regWord t (.gate 0x40)) =
    some 0x00A00000#32 := by decide

/-- V60. -/
theorem test_reset_assert :
    seen (exec (.perReset 0) ((running { noFlags with af := true } 9#8).goto .assertReset))
      (fun t => (t.regs 0, t.cc.rstr.toList.take 3)) = some (BusRegs.reset, [true, false, false]) := by decide

theorem test_reset_deassert :
    seen (exec (.perReset 0) ((owned.assertReset 0).goto .deassertReset)) (fun t => (t.cc.rstr.toList.take 3, t.results)) =
      some ([false, false, false], [⟨.ok, 0#32, []⟩]) := by decide

/-- V4: divider 210, rise time 43. -/
theorem test_init_timing :
    seen (exec (.i2cInit 0 .standard .master 0#7 0#7 100000#32) (v1.goto (.init .clock))) (fun t => t.seq.point) =
      some (.init (.divider 210#12 43#6)) := by decide

/-- V32: OAR2 = 0x69. -/
theorem test_init_own2 :
    seen (exec (.i2cInit 0 .standard .slave2 0x12#7 0x34#7 100000#32) (owned.goto (.init .own2)))
      (fun t => regWord t (.bus 0 .oar2)) = some 0x69#32 := by decide

/-- V65: BERR ends the start wait. -/
theorem test_start_berr :
    seen (exec (.i2cStart 0) ((running { noFlags with berr := true } 0#8).goto (.startBody .wait))) (fun t => t.results) =
      some [⟨.busError, 0#32, []⟩] := by decide

/-- V64: AF does not. -/
theorem test_start_af :
    seen (exec (.i2cStart 0) ((running { noFlags with sb := true, af := true } 0#8).goto (.startBody .wait)))
      (fun t => (t.results, (t.regs 0).sr1)) = some ([⟨.ok, 0#32, []⟩], { noFlags with af := true }) := by decide

/-- V66: address 0x7F with read is 0xFF, and the DR write clears TXE. -/
theorem test_addr_byte :
    seen (exec (.i2cAddr 0 0x7F#7 .read) ((running { noFlags with txe := true } 0#8).goto (.addressBody .put)))
      (fun t => ((t.regs 0).drTx, (t.regs 0).sr1)) = some (0xFF#8, noFlags) := by decide

/-- V62, both orders. -/
theorem test_addr_order :
    seen (exec (.i2cAddr 0 0x50#7 .write) ((running { noFlags with addr := true, af := true } 0#8).goto
      (.addressBody .wait))) (fun t => t.results) = some [⟨.acknowledgeFailure, 0#32, []⟩] ∧
    seen (exec (.i2cAddr 0 0x50#7 .write) (successFirst ((running { noFlags with addr := true, af := true } 0#8).goto
      (.addressBody .wait)))) (fun t => (t.results, (t.regs 0).sr1)) =
      some ([⟨.ok, 0#32, []⟩], { noFlags with af := true }) := by decide

/-- V68. -/
theorem test_wrbyte : seen (exec (.i2cWrbyte 0 0xAB#8) ((running noFlags 0#8).goto (.writeBody .put)))
    (fun t => ((t.regs 0).drTx, t.seq.point)) = some (0xAB#8, .writeBody .wait) := by decide

/-- 43_bus_engine.md R162 (b): TXE is not consumed. -/
theorem test_wrbyte_txe :
    seen (exec (.i2cWrbyte 0 0xAB#8) ((running { noFlags with txe := true } 0#8).goto (.writeBody .wait)))
      (fun t => (t.results, (t.regs 0).sr1)) = some ([⟨.ok, 0#32, []⟩], { noFlags with txe := true }) := by decide

/-- 10_state.md R38: a byte that SEQ hands to the transmitter leaves the byte received last (log 31). -/
theorem test_dr_two_bytes :
    seen (exec (.i2cWrbyte 0 0xAB#8) ((running { noFlags with rxne := true } 0x5A#8).goto (.writeBody .put)))
      (fun t => (regWord t (.bus 0 .dr), (t.regs 0).drTx, (t.regs 0).sr1.rxne)) = some (0x5A#32, 0xAB#8, true) := by decide

/-- V61: RXNE with AF still returns the byte. -/
theorem test_rdbyte :
    seen (exec (.i2cRdbyte 0) ((running { noFlags with rxne := true, af := true } 0x5A#8).goto (.readBody .take)))
      (fun t => (t.results, (t.regs 0).sr1)) = some ([⟨.ok, 0x5A#32, []⟩], { noFlags with af := true }) := by decide

/-- V61: AF does not end the wait. -/
theorem test_rdbyte_wait :
    seen (exec (.i2cRdbyte 0) ((running { noFlags with af := true } 0x5A#8).goto (.readBody .wait)))
      (fun t => (t.results, t.seq.point)) = some ([], .readBody .wait) := by decide

/-- V67: CR1 = 0x0601. -/
theorem test_stop :
    seen (exec (.i2cStop 0) ((running noFlags 0#8).goto (.stopBody (.write ⟨true, false, false, true⟩))))
      (fun t => (regWord t (.bus 0 .cr1), t.results)) = some (0x601#32, [⟨.ok, 0#32, []⟩]) := by decide

/-- V71. -/
theorem test_write_zero : seen (exec (.i2cWrite 0 0x50#7 0#12 []) owned) (fun t => t.fault) = some (some .zeroLength) := by
  decide

/-- P2: the second byte of 0x0000_BBAA is 0xBB. -/
theorem test_write_byte_order :
    seen (exec (.i2cWrite 0 0x50#7 2#12 [0xBBAA#32]) (((running noFlags 0#8).setIndex 1).goto (.writeBody .put)))
      (fun t => (t.regs 0).drTx) = some 0xBB#8 := by decide

/-- V6: with N = 1 no ACK is enabled after the address phase. -/
theorem test_read_single :
    seen (exec (.i2cRead 0 0x50#7 1#12) ((running { noFlags with addr := true } 0#8).goto (.addressBody .wait)))
      (fun t => (t.seq.point, t.seq.i)) = some (.ackOff .read, 0) := by decide

/-- V75: the restore writes the saved 0. -/
theorem test_read_restore :
    seen (exec (.i2cRead 0 0x50#7 1#12) (((running noFlags 0#8).pushByte 0x3C#8).goto
      (.restoreAck (.write ⟨true, false, true, true⟩)))) (fun t => ((t.regs 0).cr1, t.results)) =
      some (⟨true, false, true, false⟩, [⟨.ok, 0#32, [0x3C#8]⟩]) := by decide

/-- 40_clocktree.md R108 (c): the PLL waits for its input. -/
theorem test_osc_pll :
    oscStep .pllReady (withCr v1 ⟨true, true, false, false, true, false⟩) =
      withCr v1 ⟨true, true, false, false, true, false⟩ ∧
    oscStep .pllReady (withCr v1 ⟨true, true, true, true, true, false⟩) =
      withCr v1 ⟨true, true, true, true, true, true⟩ := by decide

/-- Program P2, bus step 3 (L4), and 43_bus_engine.md R173 L9 with MSL = 0: another master's line stays. -/
theorem test_bus_lawful :
    (let t := busStep 0 .addrAck (lawful ((running noFlags 0#8).setHidden 0 ⟨.ours, .addr false, false, false, false⟩));
      (((t.regs 0).sr1, (t.regs 0).sr2), t.hidden 0)) =
      (({ noFlags with addr := true, txe := true }, ⟨false, false, true⟩), ⟨.ours, .tx, false, false, false⟩) ∧
    (let t := busStep 0 .stopDone (lawful ((owned.setRegs 0 { BusRegs.reset with cr1 := ⟨true, false, true, true⟩ }).setHidden
        0 ⟨.other, .none, false, false, false⟩)); ((t.regs 0).cr1.stop, (t.hidden 0).line)) = (false, .other) := by decide

/-- V18 through the whole step: a decode error ends the command. -/
theorem test_step_decode_error :
    seen (step (State.reset.withFetchWord 32 0x0D400106)) (fun t => (t.results, t.cptr)) =
      some ([⟨.decodeError, 0#32, []⟩], 1) := by decide

/-- V7 through the whole step. -/
theorem test_step_sysfreq :
    seen (step (State.reset.withFetchWord 32 0x01)) (fun t => t.results) = some [⟨.ok, 16000000#32, []⟩] := by decide

/-! Witnesses. Each theorem meets the hypotheses of the statement it names, clause by clause. -/

/-- Instance 0 with no clock, taken. -/
def gated : State := { State.reset with taken := Vector.replicate Config.ids true }

/-- A block ready to run `i`, with an agenda. -/
def ready (i : Instr) (l : List Config.Turn) : State := withAgenda (withCommand owned (encode i)) l

/-- A lawful block whose instance 0 is initialised and whose next command is `i`. -/
def readyLawful (i : Instr) (l : List Config.Turn) : State :=
  lawful (withAgenda (withCommand (running noFlags 0#8) (encode i)) l)

theorem witness_DecodeOfEncodeIsTheCommand :
    (Instr.clkPllconfig .hse 63#6 511#9 3#2).wellFormed .default = true ∧ (Instr.i2cWrite 2 0x7F#7 0#12 []).wellFormed .default = true ∧
    (Instr.i2cWrite 0 0#7 5#12 [0#32, 1#32]).wellFormed .default = true := by decide

theorem witness_EncodeOfDecodeIsTheWords : decode .default ⟨0x0017F036#32, [7#32]⟩ = .ok (.i2cWrite 0 0x7F#7 1#12 [7#32]) := by
  decide

theorem witness_DecodingIsTotalAndUnambiguous :
    (⟨"PER_TAKE", 0xFFFFF0FF#32, 0x20#32⟩ : OpcodeRow) ∈ opcodeRows ∧
      (0x220#32 : Word) &&& 0xFFFFF0FF#32 = 0x20#32 := by decide

theorem witness_DecodeErrorsAreThoseOfRule84 :
    let s := withAgenda (withCommand .reset ⟨0x24#32, []⟩) [.seq]
    s.fault = none ∧ s.nextTurn = .seq ∧ s.between ∧ s.fetch = some ⟨0x24#32, []⟩ ∧ IsDecodeError .default ⟨0x24#32, []⟩ :=
  ⟨rfl, rfl, rfl, rfl, by decide⟩

/-- One command for each of 30_encoding.md R84 (b) to (f), and one that is no decode error. -/
theorem witness_decode_errors :
    IsDecodeError .default ⟨0x00400005#32, []⟩ ∧ IsDecodeError .default ⟨0x305#32, []⟩ ∧ IsDecodeError .default ⟨0x3030#32, [1#32]⟩ ∧
    IsDecodeError .default ⟨0x06#32, []⟩ ∧ IsDecodeError .default ⟨0x320#32, []⟩ ∧ IsDecodeError .default ⟨0x331#32, []⟩ ∧
    IsDecodeError .default ⟨0x11#32, []⟩ ∧ ¬ IsDecodeError .default ⟨0x231#32, []⟩ :=
  ⟨by decide, by decide, by decide, by decide, by decide, by decide, by decide, by decide⟩

theorem witness_EachSeqTurnRunsItsCommand :
    (let s := withAgenda (inside .reset (.perTake 2) .commit) [.seq]
     s.fault = none ∧ s.nextTurn = .seq ∧ s.seq.cmd = some (.perTake 2)) ∧
    (let s := ready .clkSysfreq [.seq]
     s.fault = none ∧ s.nextTurn = .seq ∧ s.seq.cmd = none ∧ s.commands[s.cptr]? = some ⟨1#32, []⟩ ∧
       decode .default ⟨1#32, []⟩ = .ok .clkSysfreq) ∧
    (let s := withAgenda .reset [.seq]
     s.fault = none ∧ s.nextTurn = .seq ∧ s.seq.cmd = none ∧ s.commands[s.cptr]? = none) := by decide

theorem witness_FaultEntryWritesOnlyTheFault :
    seen (step (withAgenda (withCommand .reset ⟨0x21#32, []⟩) [.seq])) (fun t => t.fault) = some (some .notOwned) ∧
    seen (step (withAgenda (inside owned (.i2cInit 0 .standard .master 0#7 0#7 1#32) (.init .clock)) [.seq]))
      (fun t => t.fault) = some (some .timingRange) ∧
    ({ State.reset with fault := some .packRange } : State).fault = some .packRange := by decide

theorem witness_FrequencyQueriesFollowTheDerivation :
    (State.reset.seq.point = .start ∧ SysclkIs .reset 16000000) ∧ SysclkIs (withCfgr .reset ⟨1#2, 1#2, 15#4, 7#3, 7#3⟩) 8000000 ∧
    SysclkIs v1 84000000 ∧
    (let s := withCfgr .reset ⟨3#2, 3#2, 0#4, 0#3, 0#3⟩; s.seq.point = .start ∧ s.cc.cfgr.sws = 3#2) ∧
    (let s := { v1 with cc := { v1.cc with pllcfgr := ⟨0#6, 0#9, 0#2, .hsi⟩ } }
     s.seq.point = .start ∧ s.cc.cfgr.sws = 2#2 ∧ s.cc.pllcfgr.pllm = 0#6) ∧
    Instr.clkApb2freq ∈ [Instr.clkSysfreq, .clkAhbfreq, .clkApb1freq, .clkApb2freq] := by decide

theorem witness_FrequencyLaws : sysclk .reset = .ok 16000000 ∧ sysclk v1 = .ok 84000000 ∧ pllOut v1 = .ok 84000000 := by
  decide

theorem witness_ClkConfigMicroSteps :
    (State.reset.seq.point = .start ∧ State.reset.cc.cfgr.sws = Source.hsi.code) ∧
    (State.reset.seq.point = .start ∧ State.reset.cc.cfgr.sws ≠ Source.pll.code) ∧
    (owned.goto (.config .enable)).seq.point = .config .enable ∧
    (let s := owned.goto (.config .ready); s.seq.point = .config .ready ∧ readyFlag .hse s.cc.cr = false ∧
      readyFlag .hsi s.cc.cr = true) ∧
    (owned.goto (.config .prescale)).seq.point = .config .prescale ∧
    (owned.goto (.config .switch)).seq.point = .config .switch ∧
    (let s := owned.goto (.config .confirm); s.seq.point = .config .confirm ∧ s.cc.cfgr.sws ≠ Source.hse.code ∧
      s.cc.cfgr.sws = Source.hsi.code) := by decide

theorem witness_ClkConfigRunsToItsEnd :
    (let s := ready (.clkConfig .hse 0#4 4#3 0#3)
        [.seq, .seq, .osc .hseReady, .seq, .seq, .seq, .osc .confirmSwitch, .seq]
     ReadyToRun s (.clkConfig .hse 0#4 4#3 0#3) ∧ s.cc.cfgr.sws ≠ Source.hse.code ∧ readyFlag .hse s.cc.cr = false ∧
       s.agenda = [.seq, .seq, .osc (readyStep .hse), .seq, .seq, .seq, .osc .confirmSwitch, .seq] ++ []) ∧
    (let s := ready (.clkConfig .pll 15#4 7#3 7#3)
        [.seq, .seq, .osc .pllReady, .seq, .seq, .seq, .osc .confirmSwitch, .seq]
     ReadyToRun s (.clkConfig .pll 15#4 7#3 7#3) ∧ s.cc.cfgr.sws ≠ Source.pll.code ∧ readyFlag .pll s.cc.cr = false ∧
       pllInputReady s = true) :=
  ⟨⟨⟨rfl, rfl, _, rfl, by decide⟩, by decide, rfl, rfl⟩, ⟨⟨rfl, rfl, _, rfl, by decide⟩, by decide, rfl, rfl⟩⟩

theorem witness_ClkPllConfigMicroSteps :
    (let s := withCr .reset ⟨true, true, true, true, true, true⟩; s.seq.point = .start ∧ s.cc.cr.pllon = true) ∧
    (State.reset.seq.point = .start ∧ State.reset.cc.cr.pllon = false) ∧ (owned.goto .commit).seq.point = .commit := by
  decide

theorem witness_PackChangesExactlyTheSelectedLanes :
    State.reset.seq.point = .start ∧
    ((0xFFFFFFFF#32).toNat < 2 ^ (32#6).toNat ∧
      ∀ i < 16, (1#32).getLsbD i = true → (i + 1) * (32#6).toNat ≤ 32) ∧
    ((3#32).toNat < 2 ^ (2#6).toNat ∧
      ∀ i < 16, (0xFFFF#32).getLsbD i = true → (i + 1) * (2#6).toNat ≤ 32) := by decide

theorem witness_PackFaultsInOrder :
    State.reset.seq.point = .start ∧ (0#6).toNat = 0 ∧ 32 < (33#6).toNat ∧ 2 ^ (1#6).toNat ≤ (2#32).toNat ∧
    (0#32).toNat < 2 ^ (4#6).toNat ∧ (∃ i < 16, (0x100#32).getLsbD i = true ∧ 32 < (i + 1) * (4#6).toNat) := by decide

theorem witness_PackLaws :
    pack 2 0xFFFFFFFF#32 1#32 5#16 = .ok 0xFFFFFFDD#32 ∧ (5#16 &&& 2#16 = 0#16) ∧
    pack 2 0xFFFFFFFF#32 0#32 2#16 = .ok 0xFFFFFFF3#32 ∧ pack 32 7#32 1#32 0#16 = .ok 7#32 := by decide

theorem witness_MaskCommandValues : State.reset.seq.point = .start := rfl

theorem witness_SetAndResetActOnOneLane :
    State.reset.seq.point = .start ∧ exec (.maskSet 15#4 0#32) .reset = .next (State.reset.finish .ok 0x8000#32 []) ∧
    exec (.maskReset 3#4 8#32) .reset = .next (State.reset.finish .ok 0#32 []) := ⟨rfl, rfl, rfl⟩

theorem witness_PackerIsPure : isPacker (.pack 2#6 0#32 0#32 0#32) = true ∧ State.reset.seq.point = .start := by decide

/-- The row of id 2 in the default table. -/
def row2 : Config.PeriphRow := ⟨(0x40, 23), (0x20, 23), some 2⟩

/-- The rows of the default `PERIPH` table (10_state.md R33). -/
theorem row_default (p : PeriphId) (r : Config.PeriphRow) (h : Config.Params.default.row p = some r) :
    r.enable = (0x40, 21 + p.val) ∧ r.reset = (0x20, 21 + p.val) ∧ r.inst = some p ∧ p.val < 3 := by
  have key : ∀ q : PeriphId, (Config.Params.default.row q).all (fun r => r.enable == (0x40, 21 + q.val) &&
    (r.reset == (0x20, 21 + q.val) && (r.inst == some q && decide (q.val < 3)))) = true := by decide
  simpa [h] using key p

theorem witness_TakeAndClockMicroSteps :
    (owned.seq.point = .start ∧ owned.isTaken 2 = true) ∧ (State.reset.seq.point = .start ∧ State.reset.isTaken 0 = false) ∧
    ((owned.goto .commit).seq.point = .commit ∧ owned.par.row 2 = some row2) ∧
    (∀ q r, owned.par.row q = some r → r.reset ≠ row2.enable) ∧ owned.par.row 15 = none ∧
    ((true = true) ∧ row2.reset = (0x20, 23) ∧ row2.inst = some 2) ∧
    (∀ q r, owned.par.row q = some r → r.reset = (0x20, 23) → r.inst ≠ some 0) ∧
    ApartFromClockWords row2.enable ∧ ApartFromClockWords row2.reset ∧
    ((0x00, Reg.cr) ∈ clockWords ∧ (regWord (owned.putBit (0x00, 24) true) .cr).getLsbD 24 = true ∧
      (regWord (owned.putBit (0x00, 25) true) .cr).getLsbD 25 = false) := by
  refine ⟨by decide, by decide, by decide, fun q r h => ?_, by decide, by decide, fun q r h e => ?_, by decide, by decide,
    by decide⟩
  · simp [(row_default q r h).2.1, row2]
  · rw [(row_default q r h).2.2.1]
    rw [(row_default q r h).2.1, Prod.mk.injEq] at e
    simp only [ne_eq, Option.some.injEq, Fin.ext_iff]
    have : ((0 : InstId) : Nat) = 0 := rfl
    omega

/-- The default `PERIPH` table is such as `BoardOk` asks for (10_state.md R33). -/
theorem boardOk_default : BoardOk .default := by
  refine ⟨fun p r h => ?_, fun p q a b ha hb => ?_, fun k h => ⟨k, by revert k; decide⟩⟩
  · obtain ⟨he, hr, -, hp⟩ := row_default p r h
    simp only [he, hr]
    omega
  · obtain ⟨he, hr, hi, -⟩ := row_default p a ha
    obtain ⟨ge, gr, gi, -⟩ := row_default q b hb
    simp only [he, hr, hi, ge, gr, gi, ne_eq, Prod.mk.injEq, Option.some.injEq, Fin.ext_iff]
    refine ⟨by omega, fun n => ⟨by omega, by omega, fun k e => by omega⟩⟩

theorem witness_OwnershipThenClockGate :
    (State.reset.seq.point = .start ∧ perIdOf (.perReset 2) = some 2 ∧ State.reset.isTaken 2 = false) ∧
    (busInstOf (.i2cWrite 0 0#7 0#12 []) = some 0 ∧ State.reset.instTaken 0 = false) ∧
    (gated.seq.point = .start ∧ gated.instTaken 0 = true ∧ gated.clocked 0 = false) ∧
    instOf gated.par 2 = some 2 := by decide

theorem witness_PerResetFollowsItsRule :
    (gated.seq.point = .start ∧ gated.isTaken 1 = true) ∧ (gated.goto .assertReset).seq.point = .assertReset ∧
    (gated.goto .deassertReset).seq.point = .deassertReset ∧ (owned.assertReset 0).heldInReset 0 = true ∧
    (let s := ready (.perReset 2) [.seq, .seq, .seq]
     BoardOk s.par ∧ ReadyToRun s (.perReset 2) ∧ s.isTaken 2 = true ∧ s.par.row 2 = some row2 ∧
       s.agenda = [.seq, .seq, .seq] ++ []) :=
  ⟨⟨rfl, rfl⟩, rfl, rfl, by decide, boardOk_default, ⟨rfl, rfl, _, rfl, by decide⟩, rfl, rfl, rfl⟩

theorem witness_InitChecksInOrder :
    (owned.seq.point = .start ∧ Usable owned 0) ∧ 100000 < (100001#32).toNat ∧
    (Speed.fast2 ≠ .standard ∧ (100000#32).toNat ≤ 100000) ∧
    (FreqAllowed .default .standard 100000#32 ∧ FreqAllowed .default .fast169 100001#32 ∧ 100000#32 ≠ 0#32) ∧
    ((running noFlags 0#8).seq.point = .start ∧ Usable (running noFlags 0#8) 0 ∧
      ((running noFlags 0#8).regs 0).cr1.pe = true) ∧
    (owned.regs 0).cr1.pe = false := by decide

theorem witness_InitDerivesTheTiming :
    (let s := v1.goto (.init .clock); s.seq.point = .init .clock ∧ s.par.pclkSrc = .apb1 ∧ pclk1 s = .ok 42000000) ∧
    TimingInRange .default .standard 42000000 5127 ∧ ¬ TimingInRange .default .standard 42000000 5126 ∧
    TimingInRange .default .standard 62999999 100000 ∧ ¬ TimingInRange .default .standard 63000000 100000 ∧
    ¬ TimingInRange .default .fast169 8000000 400000 := by decide

theorem witness_InitWriteMicroSteps :
    (owned.goto (.init (.divider 4095#12 63#6))).seq.point = .init (.divider 4095#12 63#6) ∧
    (owned.goto (.init (.riseTime 1#6))).seq.point = .init (.riseTime 1#6) ∧
    (owned.goto (.init .own1)).seq.point = .init .own1 ∧ (owned.goto (.init .own2)).seq.point = .init .own2 ∧
    (owned.goto (.init (.enable .read))).seq.point = .init (.enable .read) ∧
    (owned.goto (.init (.enable (.write ⟨true, true, true, true⟩)))).seq.point =
      .init (.enable (.write ⟨true, true, true, true⟩)) ∧
    (owned.goto (.init (.ack .read))).seq.point = .init (.ack .read) ∧
    (owned.goto (.init (.ack (.write ⟨true, false, false, false⟩)))).seq.point =
      .init (.ack (.write ⟨true, false, false, false⟩)) := by decide

theorem witness_InitRun :
    let i := Instr.i2cInit 0 .standard .slave2 0x12#7 0x34#7 100000#32
    let s := ready i (List.replicate 10 .seq)
    ReadyToRun s i ∧ Usable s 0 ∧ FreqAllowed .default .standard 100000#32 ∧ 100000#32 ≠ 0#32 ∧ (s.regs 0).cr1.pe = false ∧
      pclkOf s = .ok 16000000 ∧ TimingInRange .default .standard 16000000 100000 ∧
      s.agenda = List.replicate (initMicroSteps .slave2) .seq ++ [] :=
  ⟨⟨rfl, rfl, _, rfl, by decide⟩, by decide, by decide, by decide, rfl, by decide, by decide, rfl⟩

theorem witness_StartMicroSteps :
    (owned.seq.point = .start ∧ Usable owned 2) ∧
    (let s := (owned.setRegs 0 { BusRegs.reset with sr2 := ⟨false, true, false⟩ }).goto (.startBody .busFree)
     s.seq.point = .startBody .busFree ∧ (s.regs 0).sr2.busy = true ∧ (s.regs 1).sr2.busy = false) ∧
    (owned.goto (.startBody (.request .read))).seq.point = .startBody (.request .read) ∧
    (owned.goto (.startBody (.request (.write ⟨true, false, true, false⟩)))).seq.point =
      .startBody (.request (.write ⟨true, false, true, false⟩)) ∧
    (let s := (running { noFlags with sb := true } 0#8).goto (.startBody .wait)
     s.seq.point = .startBody .wait ∧ (s.regs 0).sr1.sb = true ∧ (s.regs 0).sr1.berr = false) ∧
    (let s := (running { noFlags with sb := true, berr := true } 0#8).goto (.startBody .wait)
     (s.regs 0).sr1.berr = true ∧ s.par.checkOrder = .errorsFirst ∧
       (successFirst s).par.checkOrder = .successFirst ∧ ((successFirst s).regs 0).sr1.sb = true) ∧
    (let s := (running noFlags 0#8).goto (.startBody .wait)
     s.seq.point = .startBody .wait ∧ (s.regs 0).sr1.sb = false ∧ (s.regs 0).sr1.berr = false) := by decide

/-- A wait that succeeds under SUCCESS_FIRST alone, and one that fails under both orders. -/
theorem witness_waits :
    (let s := running { noFlags with addr := true, af := true, arlo := true } 0#8
     WaitFails s 0 (s.regs 0).sr1.addr .acknowledgeFailure ∧
       WaitSucceeds (successFirst s) 0 ((successFirst s).regs 0).sr1.addr) ∧
    (let s := running { noFlags with arlo := true, berr := true } 0#8
     WaitFails s 0 (s.regs 0).sr1.btf .arbitrationLost ∧
       WaitFails (successFirst s) 0 ((successFirst s).regs 0).sr1.btf .arbitrationLost) := ⟨by decide, by decide⟩

theorem witness_AddressAndWriteByteMicroSteps :
    (owned.seq.point = .start ∧ Usable owned 0) ∧ (owned.goto (.addressBody .put)).seq.point = .addressBody .put ∧
    (let s := (running { noFlags with addr := true } 0#8).goto (.addressBody .wait)
     s.seq.point = .addressBody .wait ∧ WaitSucceeds s 0 (s.regs 0).sr1.addr) ∧
    (let s := (running { noFlags with af := true } 0#8).goto (.addressBody .wait)
     s.seq.point = .addressBody .wait ∧ WaitFails s 0 (s.regs 0).sr1.addr .acknowledgeFailure) ∧
    (let s := (running noFlags 0#8).goto (.addressBody .wait)
     s.seq.point = .addressBody .wait ∧ WaitGoesOn s 0 (s.regs 0).sr1.addr) ∧
    (owned.goto (.writeBody .put)).seq.point = .writeBody .put ∧
    (let s := (running { noFlags with txe := true } 0#8).goto (.writeBody .wait)
     s.seq.point = .writeBody .wait ∧ WaitSucceeds s 0 (s.regs 0).sr1.txe) ∧
    (let s := (running { noFlags with berr := true } 0#8).goto (.writeBody .wait)
     s.seq.point = .writeBody .wait ∧ WaitFails s 0 (s.regs 0).sr1.txe .busError) ∧
    (let s := (running noFlags 0#8).goto (.writeBody .wait)
     s.seq.point = .writeBody .wait ∧ WaitGoesOn s 0 (s.regs 0).sr1.txe) := by decide

theorem witness_ReadByteMicroSteps :
    (owned.seq.point = .start ∧ Usable owned 1) ∧
    (let s := (running noFlags 0#8).goto (.readBody .wait)
     s.seq.point = .readBody .wait ∧ (s.regs 0).sr1.rxne = false) ∧
    (let s := (running { noFlags with rxne := true, af := true } 0#8).goto (.readBody .wait)
     s.seq.point = .readBody .wait ∧ (s.regs 0).sr1.rxne = true) ∧
    (owned.goto (.readBody .take)).seq.point = .readBody .take := by decide

theorem witness_StopRun :
    (owned.seq.point = .start ∧ Usable owned 0) ∧ (owned.goto (.stopBody .read)).seq.point = .stopBody .read ∧
    (owned.goto (.stopBody (.write ⟨true, false, false, true⟩))).seq.point = .stopBody (.write ⟨true, false, false, true⟩) ∧
    (let s := ready (.i2cStop 2) [.seq, .seq, .seq]
     ReadyToRun s (.i2cStop 2) ∧ Usable s 2 ∧ s.agenda = [.seq, .seq, .seq] ++ []) :=
  ⟨⟨rfl, by decide⟩, rfl, rfl, ⟨rfl, rfl, _, rfl, by decide⟩, by decide, rfl⟩

theorem witness_WriteMicroSteps :
    (owned.seq.point = .start ∧ Usable owned 0 ∧ (1#12 ≠ 0#12)) ∧
    (exec (.i2cStart 0) (owned.goto (.startBody .busFree)) =
      .next ((owned.goto (.startBody .busFree)).goto (.startBody (.request .read))) ∧ StartPoint.busFree ≠ .wait) ∧
    (let s := (running { noFlags with sb := true } 0#8).goto (.startBody .wait)
     s.seq.point = .startBody .wait ∧ (s.regs 0).sr1.sb = true ∧ (s.regs 0).sr1.berr = false) ∧
    (owned.goto (.addressBody .put)).seq.point = .addressBody .put ∧
    (let s := (running { noFlags with addr := true } 0#8).goto (.addressBody .wait)
     s.seq.point = .addressBody .wait ∧ WaitSucceeds s 0 (s.regs 0).sr1.addr) ∧
    (owned.goto (.writeBody .put)).seq.point = .writeBody .put ∧
    (let s := ((running { noFlags with txe := true } 0#8).setIndex 3).goto (.writeBody .wait)
     s.seq.point = .writeBody .wait ∧ WaitSucceeds s 0 (s.regs 0).sr1.txe ∧ s.seq.i + 1 < (5#12).toNat ∧
       (4#12).toNat ≤ s.seq.i + 1) ∧
    (let s := (running { noFlags with btf := true } 0#8).goto .btfWait
     s.seq.point = .btfWait ∧ WaitSucceeds s 0 (s.regs 0).sr1.btf) ∧
    (owned.goto (.stopBody .read)).seq.point = .stopBody .read ∧
    (owned.goto (.stopBody (.write ⟨true, true, false, true⟩))).seq.point = .stopBody (.write ⟨true, true, false, true⟩) ∧
    (let s := (running { noFlags with arlo := true } 0#8).goto .btfWait
     s.seq.point = .btfWait ∧ WaitFails s 0 (s.regs 0).sr1.btf .arbitrationLost) ∧
    (let s := (running noFlags 0#8).goto .btfWait; s.seq.point = .btfWait ∧ WaitGoesOn s 0 (s.regs 0).sr1.btf) :=
  ⟨by decide, ⟨rfl, by decide⟩, by decide, rfl, by decide, rfl, by decide, by decide, rfl, rfl, by decide, by decide⟩

/-- The other outcomes of the start wait, which `I2C_WRITE` and `I2C_READ` share: a bus error with SB set and without, and
neither flag. -/
theorem witness_startWait :
    (let s := (running { noFlags with sb := true, berr := true } 0#8).goto (.startBody .wait)
     s.seq.point = .startBody .wait ∧ (s.regs 0).sr1.berr = true ∧ s.par.checkOrder = .errorsFirst) ∧
    (let s := successFirst ((running { noFlags with berr := true } 0#8).goto (.startBody .wait))
     s.seq.point = .startBody .wait ∧ (s.regs 0).sr1.berr = true ∧ (s.regs 0).sr1.sb = false) ∧
    (let s := (running { noFlags with af := true } 0#8).goto (.startBody .wait)
     s.seq.point = .startBody .wait ∧ (s.regs 0).sr1.sb = false ∧ (s.regs 0).sr1.berr = false) := by decide

theorem witness_ReadMicroSteps :
    (owned.seq.point = .start ∧ Usable owned 0 ∧ (1#12 ≠ 0#12)) ∧ (owned.goto .saveAck).seq.point = .saveAck ∧
    (let s := owned.goto (.startBody .busFree)
     s.seq.point = .startBody .busFree ∧ seen (exec (.i2cStart 0) s) (fun t => t.seq.point) =
       some (.startBody (.request .read))) ∧
    (owned.goto (.addressBody .put)).seq.point = .addressBody .put ∧
    (let s := (running { noFlags with af := true, arlo := true } 0#8).goto (.addressBody .wait)
     s.seq.point = .addressBody .wait ∧ WaitFails s 0 (s.regs 0).sr1.addr .acknowledgeFailure) ∧
    (let s := (running noFlags 0#8).goto (.addressBody .wait)
     s.seq.point = .addressBody .wait ∧ WaitGoesOn s 0 (s.regs 0).sr1.addr) ∧
    (let s := (running { noFlags with addr := true } 0#8).goto (.addressBody .wait)
     s.seq.point = .addressBody .wait ∧ WaitSucceeds s 0 (s.regs 0).sr1.addr) ∧
    (owned.goto (.ackOn (.write ⟨true, false, false, false⟩))).seq.point = .ackOn (.write ⟨true, false, false, false⟩) ∧
    (owned.goto (.lastBody .wait)).seq.point = .lastBody .wait ∧ (owned.goto (.readBody .take)).seq.point = .readBody .take ∧
    (owned.goto (.ackOff (.write ⟨true, false, false, true⟩))).seq.point = .ackOff (.write ⟨true, false, false, true⟩) ∧
    (owned.goto (.stopBody (.write ⟨true, false, false, false⟩))).seq.point = .stopBody (.write ⟨true, false, false, false⟩) ∧
    (owned.goto (.lastBody .take)).seq.point = .lastBody .take ∧
    (owned.goto (.restoreAck (.write ⟨true, false, true, false⟩))).seq.point =
      .restoreAck (.write ⟨true, false, true, false⟩) ∧
    (owned.goto (.restoreAck .read)).seq.point = .restoreAck .read := by decide

theorem witness_WriteOfNBytesCompletes :
    let i := Instr.i2cWrite 0 0x50#7 1#12 [0xCC#32]
    let s := readyLawful i (writeTurns 0 1)
    ReadyToRun s i ∧ LawfulAndFree s 0 ∧ (1#12 ≠ 0#12) ∧ s.agenda = writeTurns 0 (1#12).toNat ++ [] :=
  ⟨⟨rfl, rfl, _, rfl, by decide⟩, by decide, by decide, rfl⟩

theorem witness_ReadReturnsTheDeliveredBytes :
    (let i := Instr.i2cRead 0 0x50#7 1#12
     let s := readyLawful i (readTurns 0 [] 0x3C#8)
     ReadyToRun s i ∧ LawfulAndFree s 0 ∧ (s.regs 0).sr1.rxne = false ∧ (s.regs 0).cr1.stop = false ∧
       (s.hidden 0).stopSeenRx = false ∧ (1#12).toNat = ([] : List Byte).length + 1 ∧
       s.agenda = readTurns 0 [] 0x3C#8 ++ []) ∧
    (let i := Instr.i2cRead 0 0x50#7 2#12
     let s := readyLawful i (readTurns 0 [0x11#8] 0x22#8)
     ReadyToRun s i ∧ LawfulAndFree s 0 ∧ (2#12).toNat = [0x11#8].length + 1) :=
  ⟨⟨⟨rfl, rfl, _, rfl, by decide⟩, by decide, rfl, rfl, rfl, rfl, rfl⟩,
    ⟨⟨rfl, rfl, _, rfl, by decide⟩, by decide, rfl⟩⟩

/-- Inside an `I2C_READ` of one byte, at its last micro-step. -/
def lastLine : State :=
  let s := inside (withCommand (running noFlags 0#8) (encode (.i2cRead 0 0x50#7 1#12))) (.i2cRead 0 0x50#7 1#12)
    (.restoreAck (.write ⟨true, false, true, false⟩))
  withAgenda (s.pushByte 0x3C#8) [.seq]

theorem witness_ReadEndsOkWithNBytes :
    SeqCoherent lastLine ∧ lastLine.seq.cmd = some (.i2cRead 0 0x50#7 1#12) ∧ afterAddress lastLine.seq.point = true ∧
    ∃ t, step lastLine = .next t ∧ t.results = lastLine.results ++ [⟨.ok, 0#32, [0x3C#8]⟩] :=
  ⟨⟨⟨_, rfl, by decide⟩, by decide⟩, rfl, rfl, _, rfl, rfl⟩

/-- Inside an `I2C_ADDR` whose wait sees AF. -/
def nacked : State :=
  withAgenda (inside (withCommand (running { noFlags with af := true } 0#8) (encode (.i2cAddr 0 0x51#7 .write)))
    (.i2cAddr 0 0x51#7 .write) (.addressBody .wait)) [.seq]

theorem witness_ErrorStatusChangesNothingElse :
    ∃ t, step nacked = .next t ∧ t.results = nacked.results ++ [⟨.acknowledgeFailure, 0#32, []⟩] ∧
      Status.acknowledgeFailure ≠ .ok := ⟨_, rfl, rfl, by decide⟩

theorem witness_StatusesByCommand :
    (∃ t, exec (.i2cAddr 0 0x51#7 .write) nacked = .next t ∧
      t.results = nacked.results ++ [⟨.acknowledgeFailure, 0#32, []⟩]) ∧
    (∃ t, step nacked = .next t ∧ t.results = nacked.results ++ [⟨.acknowledgeFailure, 0#32, []⟩]) ∧
    (let s := withAgenda (withCommand .reset ⟨0#32, []⟩) [.seq]
     s.seq.cmd = none ∧ s.nextTurn = .seq ∧ s.fetch = some ⟨0#32, []⟩ ∧ decode .default ⟨0#32, []⟩ = .error .unknownOpcode ∧
       ∃ t, step s = .next t ∧ t.results = s.results ++ [⟨.decodeError, 0#32, []⟩]) ∧
    (∃ t, exec (.i2cRead 0 0x51#7 1#12) nacked = .next t ∧
      t.results = nacked.results ++ [⟨.acknowledgeFailure, 0#32, []⟩]) :=
  ⟨⟨_, rfl, rfl⟩, ⟨_, rfl, rfl⟩, ⟨rfl, rfl, rfl, by decide, _, rfl, rfl⟩, ⟨_, rfl, rfl⟩⟩

theorem witness_OscWritesOnlyReadyFlagsAndSws :
    let s := withAgenda (withCfgr (withCr .reset ⟨true, true, true, true, false, false⟩) ⟨1#2, 0#2, 0#4, 0#3, 0#3⟩)
      [.osc .confirmSwitch]
    (∃ t, step s = .next t ∧ t.cc.cfgr.sws ≠ s.cc.cfgr.sws) ∧ s.cc.cfgr.sw = Source.hse.code ∧
      s.cc.cfgr.sws ≠ s.cc.cfgr.sw ∧ readyFlag .hse s.cc.cr = true :=
  ⟨⟨_, rfl, by decide⟩, by decide, by decide, rfl⟩

theorem witness_BusAgentWrites :
    (((busStep 0 .startDone (lawful ((running noFlags 0#8).setRegs 0 { BusRegs.reset with
      cr1 := ⟨true, true, false, true⟩ }))).regs 0).cr1.start = false) ∧
    ((running noFlags 0#8).setRegs 0 { BusRegs.reset with cr1 := ⟨true, true, true, true⟩ } |>.regs 0).cr1.stop = true := by
  decide

theorem witness_FreeBusReachesEveryFlagValue :
    owned.par.env = .free ∧ instExists owned.par 2 = true ∧ owned.clocked 2 = true ∧ owned.heldInReset 2 = false := by
  decide

theorem witness_GatedBusWritesNoRegister : gated.clocked 0 = false := by decide

theorem witness_LawfulSteps :
    (let s := lawful (running noFlags 0#8)
     s.par.env = .lawful ∧ instExists s.par 0 = true ∧ s.clocked 0 = true ∧ s.heldInReset 0 = false ∧
       (s.regs 0).cr1.pe = true) ∧ AddressPending (.addr true) ∧ ¬ AddressPending .tx := by decide

theorem witness_ErrorFlagsAreSticky :
    BoardOk (lawful nacked).par ∧ SeqCoherent (lawful nacked) ∧ (lawful nacked).par.env = .lawful ∧ ((lawful nacked).regs 0).sr1.af = true ∧
    (∃ t, step (lawful nacked) = .next t ∧ (t.regs 0).sr1.af = true) :=
  ⟨boardOk_default, ⟨⟨_, rfl, by decide⟩, by decide⟩, rfl, rfl, _, rfl, rfl⟩

theorem witness_RestoreWritesStaleStopBack :
    let s := withAgenda ((inside (owned.setRegs 0 { BusRegs.reset with cr1 := ⟨true, false, true, false⟩ })
      (.i2cRead 0 0x50#7 1#12) (.restoreAck .read))) [.seq, .bus 0 (.any 0#32 0#32 0#8 false true), .seq]
    s.fault = none ∧ s.seq.cmd = some (.i2cRead 0 0x50#7 1#12) ∧ s.seq.point = .restoreAck .read ∧ s.par.env = .free ∧
      instExists s.par 0 = true ∧ s.clocked 0 = true ∧ s.heldInReset 0 = false ∧ (s.regs 0).cr1.stop = true ∧
      s.agenda = [.seq, .bus 0 (.any 0#32 0#32 0#8 false true), .seq] ++ [] := by decide

theorem witness_CommandSpaceAndPointer :
    ∃ t, step (ready .clkSysfreq [.seq]) = .next t ∧ t.cptr = (ready .clkSysfreq [.seq]).cptr + 1 := ⟨_, rfl, rfl⟩

theorem witness_TransactionHoldsItsResources :
    lastLine.seq.cmd = some (.i2cRead 0 0x50#7 1#12) ∧ BoardOk lastLine.par ∧ ∃ t, step lastLine = .next t :=
  ⟨rfl, boardOk_default, _, rfl⟩

theorem witness_PllSwitchHangsWithoutItsInput :
    let s := inside { owned with cc := { owned.cc with
      cr := ⟨true, true, false, false, true, false⟩, pllcfgr := ⟨8#6, 336#9, 1#2, .hse⟩ } } (.clkConfig .pll 0#4 4#3 0#3)
      (.config .ready)
    s.fault = none ∧ s.seq.cmd = some (.clkConfig .pll 0#4 4#3 0#3) ∧ s.seq.point = .config .ready ∧
      s.cc.pllcfgr.pllsrc = .hse ∧ s.cc.cr.hseon = false ∧ s.cc.cr.hserdy = false ∧ s.cc.cr.pllrdy = false := by decide

theorem witness_StartHangsOnAHeldBus :
    let s := lawful (inside ((owned.setRegs 0 { BusRegs.reset with
        cr1 := ⟨true, false, false, true⟩, sr1 := { noFlags with af := true }, sr2 := ⟨true, true, false⟩ }).setHidden 0
        ⟨.ours, .none, false, false, false⟩) (.i2cStart 0) (.startBody .busFree))
    s.fault = none ∧ s.par.env = .lawful ∧ s.seq.cmd = some (.i2cStart 0) ∧ s.seq.point = .startBody .busFree ∧
      (s.hidden 0).line = .ours ∧ (s.hidden 0).pending = .none ∧ (s.regs 0).cr1.stop = false ∧
      (s.regs 0).sr2.busy = true := by decide

/-- The invariants hold of a state in the middle of a command, from which a step is taken. -/
theorem witness_StepKeepsSeqCoherent :
    SeqCoherent lastLine ∧ LogMatches lastLine ∧ ∃ t, step lastLine = .next t :=
  ⟨⟨⟨_, rfl, by decide⟩, by decide⟩, by decide, _, rfl⟩

theorem witness_CoherentBlockNeverStops :
    SeqCoherent lastLine ∧ lastLine.fault = none ∧
    SeqCoherent { State.reset with fault := some .packRange } :=
  ⟨⟨⟨_, rfl, by decide⟩, by decide⟩, rfl, rfl⟩

theorem witness_StepKeepsClockLegal :
    BoardOk lastLine.par ∧ SeqCoherent lastLine ∧ ClockLegal lastLine ∧ ∃ t, step lastLine = .next t :=
  ⟨boardOk_default, ⟨⟨_, rfl, by decide⟩, by decide⟩, by decide, _, rfl⟩

theorem witness_StepKeepsSwitchSettled :
    BoardOk lastLine.par ∧ SeqCoherent lastLine ∧ SwitchSettled lastLine ∧ ∃ t, step lastLine = .next t :=
  ⟨boardOk_default, ⟨⟨_, rfl, by decide⟩, by decide⟩, rfl, _, rfl⟩

/-- At the write of a `PER_TAKE 0`. -/
def taking : State := withAgenda (inside (withCommand .reset ⟨0x20#32, []⟩) (.perTake 0) .commit) [.seq]

theorem witness_StepKeepsOwnershipHeld :
    (BoardOk lastLine.par ∧ SeqCoherent lastLine ∧ OwnershipHeld lastLine ∧ ∃ t, step lastLine = .next t) ∧
    (SeqCoherent taking ∧ taking.isTaken 0 = false ∧ ∃ t, step taking = .next t ∧ t.isTaken 0 = true) :=
  ⟨⟨boardOk_default, ⟨⟨_, rfl, by decide⟩, by decide⟩, ⟨by decide, (fun _ _ h g => by cases h; cases g),
    (fun _ _ h g => by cases h; cases g; decide)⟩, _, rfl⟩, ⟨⟨_, rfl, by decide⟩, by decide⟩, rfl, _, rfl, rfl⟩

/-- Between the two writes of a `PER_RESET 0`. -/
def inPulse : State :=
  withAgenda (inside ((withCommand owned (encode (.perReset 0))).assertReset 0) (.perReset 0) .deassertReset) [.seq]

theorem witness_StepKeepsResetPulse :
    BoardOk inPulse.par ∧ SeqCoherent inPulse ∧ ResetPulse inPulse ∧ inPulse.inReset 0 = true ∧
    ∃ t, step inPulse = .next t :=
  ⟨boardOk_default, ⟨⟨_, rfl, by decide⟩, by decide⟩, by unfold ResetPulse; decide, by decide, _, rfl⟩

theorem witness_ReservedBitsReadZero :
    State.reset.par.periph = Config.defaultPeriph ∧
    (∀ p r, State.reset.par.row p = some r → r.enable ≠ (0x40, 20) ∧ r.reset ≠ (0x40, 20)) := by
  refine ⟨rfl, fun p r h => ?_⟩
  have := row_default p r h
  simp only [this.1, this.2.1, ne_eq, Prod.mk.injEq]
  omega

theorem witness_FieldWritesAreWordWrites :
    (⟨1#2, State.reset.cc.cfgr.sws, 15#4, 7#3, 7#3⟩ : Cfgr).sws = State.reset.cc.cfgr.sws ∧
    BoardOk inPulse.par ∧ inPulse.par.row 0 = some ⟨(0x40, 21), (0x20, 21), some 0⟩ ∧ OtherResetsClear inPulse 0x20 0 ∧
    OtherResetsClear inPulse 0x40 0 :=
  have key : ∀ q : PeriphId, q ≠ 0 → inPulse.inReset q = false := by decide
  ⟨rfl, boardOk_default, rfl, fun q _ hq _ _ => key q hq, fun q _ hq _ _ => key q hq⟩

theorem witness_RegisterSpaceAccess :
    AddressesOk State.reset.par ∧ 0x40023801 % 4 ≠ 0 ∧ State.reset.par = .default ∧
    (∀ r ∈ allRegs State.reset.par, r.addr State.reset.par ≠ 0x4002380C) ∧
    Reg.bus 2 .trise ∈ allRegs State.reset.par ∧ Reg.cr ∈ allRegs State.reset.par ∧
    Reg.gate 0x40 ∈ allRegs State.reset.par ∧ Reg.bus 0 .dr ∈ allRegs State.reset.par ∧ 3 < 4 := by decide

end Sys2Proof.Tests
end

section
/-! PROOF. What one micro-step of a command can do (`MicroStep`), and the rules by which the shared operations and
bodies of the commands are such micro-steps (10_state.md R22, R23, R45). -/

namespace Sys2Proof.Machine

/-! What a micro-step of a command does -/

/-- What SEQ keeps while a command goes on: the parameters, the command space with its pointer, the result log, and
which command is in progress (10_state.md R22, R23). -/
structure Kept (s u : State) : Prop where
  par : u.par = s.par
  commands : u.commands = s.commands
  cptr : u.cptr = s.cptr
  results : u.results = s.results
  cmd : u.seq.cmd = s.seq.cmd

/-- `u` is `s` but for registers, hidden bus state and the phase: what the shared bodies of 43_bus_engine.md leave. -/
structure OnlyBus (s u : State) : Prop extends Kept s u where
  cc : u.cc = s.cc
  index : u.seq.i = s.seq.i
  buf : u.seq.buf = s.seq.buf

/-- Everything that one micro-step of command `i` can write to the clock-control state. -/
inductive ClockWrite (i : Instr) (s : State) : ClockControl → Prop where
  /-- no write -/
  | none : ClockWrite i s s.cc
  /-- `CLK_CONFIG` enables its source (40_clocktree.md R102) -/
  | enable (src : Source) (hpre : BitVec 4) (ppre1 ppre2 : BitVec 3) (cmd : i = .clkConfig src hpre ppre1 ppre2)
      (point : s.seq.point = .config .enable) : ClockWrite i s { s.cc with cr := s.cc.cr.enable src }
  /-- `CLK_CONFIG` writes the prescalers -/
  | prescale (src : Source) (hpre : BitVec 4) (ppre1 ppre2 : BitVec 3) (cmd : i = .clkConfig src hpre ppre1 ppre2)
      (point : s.seq.point = .config .prescale) :
      ClockWrite i s { s.cc with cfgr := { s.cc.cfgr with hpre := hpre, ppre1 := ppre1, ppre2 := ppre2 } }
  /-- `CLK_CONFIG` switches -/
  | switch (src : Source) (hpre : BitVec 4) (ppre1 ppre2 : BitVec 3) (cmd : i = .clkConfig src hpre ppre1 ppre2)
      (point : s.seq.point = .config .switch) :
      ClockWrite i s { s.cc with cfgr := { s.cc.cfgr with sw := src.code } }
  /-- `CLK_PLLCONFIG` (40_clocktree.md R104) -/
  | pll (src : PllInput) (m : BitVec 6) (n : BitVec 9) (pcode : BitVec 2) (cmd : i = .clkPllconfig src m n pcode) :
      ClockWrite i s { s.cc with pllcfgr := ⟨m, n, pcode, src⟩ }
  /-- `PER_ENCLK`, `PER_DISCLK` (42_peripheral_access.md R137, R138) -/
  | enableBit (p : PeriphId) (r : Config.PeriphRow) (v : Bool) (row : s.par.row p = some r) :
      ClockWrite i s (s.cc.putBit s.par r.enable v)
  /-- `PER_RESET` (42_peripheral_access.md R139) -/
  | resetBit (p : PeriphId) (r : Config.PeriphRow) (v : Bool) (row : s.par.row p = some r) :
      ClockWrite i s (s.cc.putBit s.par r.reset v)

/-- SEQ is between commands, or inside `i` at one of its lines. -/
def AtLine (i : Instr) (s : State) : Prop :=
  s.seq = Sequencer.idle ∨ s.seq.cmd = some i ∧ hasLine i s.seq = true

/-- What a micro-step of command `i` that answers `t` did: the command goes on, ends, or faults. -/
inductive MicroStep (i : Instr) (s t : State) : Prop where
  /-- the command goes on, at a line of its pseudocode if it stood at one -/
  | goesOn (par : t.par = s.par) (commands : t.commands = s.commands) (cptr : t.cptr = s.cptr)
      (results : t.results = s.results) (clock : ClockWrite i s t.cc)
      (line : AtLine i s → t.seq.cmd = some i ∧ hasLine i t.seq = true)
  /-- the command ends with the result `r` (10_state.md R23) -/
  | ends (r : Result) (par : t.par = s.par) (commands : t.commands = s.commands) (cptr : t.cptr = s.cptr + 1)
      (results : t.results = s.results ++ [r]) (clock : ClockWrite i s t.cc) (idle : t.seq = Sequencer.idle)
  /-- the command enters a fault (60_exceptions.md R198) -/
  | faults (f : Fault) (eq : t = { s with fault := some f })

variable {i : Instr} {s t u : State}

theorem Kept.refl (s : State) : Kept s s := ⟨rfl, rfl, rfl, rfl, rfl⟩

theorem OnlyBus.refl (s : State) : OnlyBus s s := ⟨.refl s, rfl, rfl, rfl⟩

/-- The bodies write registers (every register operation of SEQ is a `setRegs`), hidden bus state and the phase. -/
theorem OnlyBus.setRegs (k : InstId) (r : BusRegs) : OnlyBus s (s.setRegs k r) :=
  ⟨⟨rfl, rfl, rfl, rfl, rfl⟩, rfl, rfl, rfl⟩

theorem OnlyBus.writeDr (k : InstId) (b : Byte) : OnlyBus s (s.writeDr k b) :=
  ⟨⟨rfl, rfl, rfl, rfl, rfl⟩, rfl, rfl, rfl⟩

theorem OnlyBus.setPhase (h : OnlyBus s u) (p : Phase) : OnlyBus s (u.setPhase p) :=
  ⟨⟨h.par, h.commands, h.cptr, h.results, h.cmd⟩, h.cc, h.index, h.buf⟩

theorem Kept.setCr (h : Kept s u) (r : Cr) : Kept s (u.setCr r) :=
  ⟨h.par, h.commands, h.cptr, h.results, h.cmd⟩

theorem Kept.setPllcfgr (h : Kept s u) (r : Pllcfgr) : Kept s (u.setPllcfgr r) :=
  ⟨h.par, h.commands, h.cptr, h.results, h.cmd⟩

theorem Kept.setCfgr (h : Kept s u) (r : Cfgr) : Kept s (u.setCfgr r) :=
  ⟨h.par, h.commands, h.cptr, h.results, h.cmd⟩

theorem Kept.setTaken (h : Kept s u) (p : PeriphId) : Kept s (u.setTaken p) :=
  ⟨h.par, h.commands, h.cptr, h.results, h.cmd⟩

theorem Kept.saveAck (h : Kept s u) (b : Bool) : Kept s (u.saveAck b) :=
  ⟨h.par, h.commands, h.cptr, h.results, h.cmd⟩

theorem Kept.setIndex (h : Kept s u) (n : Nat) : Kept s (u.setIndex n) :=
  ⟨h.par, h.commands, h.cptr, h.results, h.cmd⟩

theorem Kept.pushByte (h : Kept s u) (b : Byte) : Kept s (u.pushByte b) :=
  ⟨h.par, h.commands, h.cptr, h.results, h.cmd⟩

/-- A micro-step of the bodies that leaves clock control alone. -/
theorem ClockWrite.of_eq {c : ClockControl} (h : c = s.cc) : ClockWrite i s c := h ▸ .none

/-- A line of the command other than its first: the command is in progress there. -/
theorem AtLine.inside (h : AtLine i s) (inside : s.seq.point ≠ .start) :
    s.seq.cmd = some i ∧ hasLine i s.seq = true := by
  rcases h with h | h
  · exact absurd (congrArg Sequencer.point h) inside
  · exact h

theorem strayPoint_ne_next : strayPoint ≠ .next t := by simp [strayPoint]

/-! The lines of one body -/

/-- The first line of the body a line belongs to; the lines of one body are those of a command alike. -/
def Point.first : Point → Point
  | .config _ => .config .enable
  | .init (.enable _) => .init (.enable .read)
  | .init (.ack _) => .init (.ack .read)
  | .startBody _ => .startBody .busFree
  | .addressBody _ => .addressBody .put
  | .writeBody _ => .writeBody .put
  | .readBody _ => .readBody .wait
  | .ackOn _ => .ackOn .read
  | .ackOff _ => .ackOff .read
  | .stopBody _ => .stopBody .read
  | .lastBody _ => .lastBody .wait
  | .restoreAck _ => .restoreAck .read
  | p => p

/-- Whether a command has a line depends on the body alone. -/
theorem hasLine_first (i : Instr) (q : Sequencer) : hasLine i q = hasLine i { q with point := q.point.first } := by
  obtain ⟨phase, cmd, n, ack, buf, point⟩ := q
  cases point with
  | init p => cases p <;> cases i <;> rfl
  | _ => cases i <;> rfl

/-- Whether a command has a line depends on the line, the byte index and the bytes received. -/
theorem hasLine_congr {q r : Sequencer} (point : r.point = q.point) (index : r.i = q.i) (buf : r.buf = q.buf) :
    hasLine i r = hasLine i q := by
  obtain ⟨phase, cmd, n, ack, buf, point⟩ := q
  obtain ⟨phase', cmd', n', ack', buf', point'⟩ := r
  cases point; cases index; cases buf
  cases i <;> rfl

/-- A command that has one line of a body has them all. -/
theorem hasLine_of_first {q r : Sequencer} (first : r.point.first = q.point.first) (index : r.i = q.i)
    (buf : r.buf = q.buf) : hasLine i r = hasLine i q := by
  rw [hasLine_first i r, hasLine_first i q]
  exact hasLine_congr first index buf

/-! How a command goes on, ends and faults -/

theorem MicroStep.fault (f : Fault) : MicroStep i s { s with fault := some f } := .faults f rfl

theorem MicroStep.of_raiseFault {f : Fault} (h : raiseFault f s = .next t) : MicroStep i s t := by
  cases h
  exact .fault f

theorem MicroStep.finish (kept : Kept s u) (clock : ClockWrite i s u.cc) (st : Status) (v : Word) (l : List Byte) :
    MicroStep i s (u.finish st v l) :=
  .ends ⟨st, v, l⟩ kept.par kept.commands (by simp [kept.cptr]) (by simp [kept.results]) clock rfl

theorem MicroStep.of_returnValue {v : Word} (kept : Kept s u) (clock : ClockWrite i s u.cc)
    (h : returnValue v u = .next t) : MicroStep i s t := by
  cases h
  exact .finish kept clock _ _ _

/-- The first micro-step of a command that goes on. -/
theorem MicroStep.enter (i : Instr) (p : Point) (line : hasLine i (s.enter i p).seq = true) :
    MicroStep i s (s.enter i p) :=
  .goesOn rfl rfl rfl rfl .none fun _ => ⟨rfl, line⟩

/-- A later micro-step of a command that goes on at line `p`. -/
theorem MicroStep.goto (inside : s.seq.point ≠ .start) (kept : Kept s u) (clock : ClockWrite i s u.cc) (p : Point)
    (line : hasLine i s.seq = true → hasLine i (u.goto p).seq = true) : MicroStep i s (u.goto p) :=
  .goesOn kept.par kept.commands kept.cptr kept.results clock fun at_ =>
    ⟨kept.cmd.trans (at_.inside inside).1, line (at_.inside inside).2⟩

/-- A micro-step that stays in its body. -/
theorem MicroStep.stay (inside : s.seq.point ≠ .start) (only : OnlyBus s u) {p : Point}
    (first : p.first = s.seq.point.first) : MicroStep i s (u.goto p) :=
  .goto inside only.toKept (.of_eq only.cc) p fun h =>
    (hasLine_of_first (r := (u.goto p).seq) first only.index only.buf).trans h

/-- A poll iteration that sees nothing. -/
theorem MicroStep.again (inside : s.seq.point ≠ .start) : MicroStep i s s :=
  .stay (p := s.seq.point) inside (.refl s) rfl

/-! The checks and the shared bodies: each ends or faults the command, stays in its lines, or goes on with what follows
it (`goes`), on a state that differs by what the body wrote -/

theorem MicroStep.of_requireOwned {p : PeriphId} {rest : Res} (h : requireOwned p s rest = .next t)
    (goes : rest = .next t → MicroStep i s t) : MicroStep i s t := by
  rcases requireOwned_next h with ⟨-, h⟩ | ⟨-, rfl⟩
  · exact goes h
  · exact .fault _

theorem MicroStep.of_prelude {k : InstId} {rest : Res} (h : prelude k s rest = .next t)
    (goes : rest = .next t → MicroStep i s t) : MicroStep i s t := by
  rcases prelude_next h with ⟨-, -, h⟩ | ⟨-, rfl⟩ | ⟨-, -, rfl⟩
  · exact goes h
  · exact .fault _
  · exact .fault _

theorem MicroStep.of_returnPure {r : Except Fault Word} (h : returnPure r s = .next t) : MicroStep i s t := by
  unfold returnPure at h
  split at h
  · split at h
    · exact .of_returnValue (.refl s) .none h
    · exact .of_raiseFault h
  · exact absurd h strayPoint_ne_next

theorem MicroStep.of_returnFreq {f : Except Fault Nat} (h : returnFreq f s = .next t) : MicroStep i s t := by
  unfold returnFreq at h
  split at h
  · exact .of_returnValue (.refl s) .none h
  · exact .of_raiseFault h

section Bodies

variable {k : InstId} {done : State → Res}

theorem MicroStep.of_cr1Write {f : Cr1 → Cr1} {at_ : Rmw → Point} {r : Rmw} (inside : s.seq.point ≠ .start)
    (first : ∀ r, (at_ r).first = s.seq.point.first) (h : cr1Write k f at_ r s done = .next t)
    (goes : ∀ u, OnlyBus s u → done u = .next t → MicroStep i s t) : MicroStep i s t := by
  rcases cr1Write_next h with ⟨-, rfl⟩ | ⟨w, -, h⟩
  · exact .stay inside (.refl s) (first _)
  · exact goes _ (.setRegs k _) h

theorem MicroStep.of_startBody {p : StartPoint} (at_ : s.seq.point = .startBody p)
    (h : startBody k p s done = .next t) (goes : ∀ u, OnlyBus s u → done u = .next t → MicroStep i s t) :
    MicroStep i s t := by
  have inside : s.seq.point ≠ .start := by simp [at_]
  have first (q : StartPoint) : (Point.startBody q).first = s.seq.point.first := by rw [at_]; rfl
  rcases startBody_next h with ⟨-, rfl⟩ | ⟨-, rfl⟩ | ⟨w, -, rfl⟩ | ⟨-, -, rfl⟩ | ⟨-, -, h⟩ | ⟨-, rfl⟩
  · split
    · exact .again inside
    · exact .stay inside (.refl s) (first _)
  · exact .stay inside (.refl s) (first _)
  · exact .stay inside (.setRegs k _) (first _)
  · exact .finish (.refl s) .none _ _ _
  · exact goes _ ((OnlyBus.setRegs k _).setPhase _) h
  · exact .again inside

theorem MicroStep.of_addressBody {addr : BitVec 7} {d : Dir} {p : PutPoint} (at_ : s.seq.point = .addressBody p)
    (h : addressBody k addr d p s done = .next t) (goes : ∀ u, OnlyBus s u → done u = .next t → MicroStep i s t) :
    MicroStep i s t := by
  have inside : s.seq.point ≠ .start := by simp [at_]
  rcases addressBody_next h with ⟨-, rfl⟩ | ⟨e, -, -, rfl⟩ | ⟨-, -, h⟩ | ⟨-, rfl⟩
  · exact .stay inside (.writeDr k _) (by rw [at_]; rfl)
  · exact .finish (.refl s) .none _ _ _
  · exact goes _ ((OnlyBus.setRegs k _).setPhase _) h
  · exact .again inside

theorem MicroStep.of_writeByteBody {b : Byte} {p : PutPoint} (at_ : s.seq.point = .writeBody p)
    (h : writeByteBody k b p s done = .next t) (goes : ∀ u, OnlyBus s u → done u = .next t → MicroStep i s t) :
    MicroStep i s t := by
  have inside : s.seq.point ≠ .start := by simp [at_]
  rcases writeByteBody_next h with ⟨-, rfl⟩ | ⟨e, -, -, rfl⟩ | ⟨-, -, h⟩ | ⟨-, rfl⟩
  · exact .stay inside (.writeDr k _) (by rw [at_]; rfl)
  · exact .finish (.refl s) .none _ _ _
  · exact goes _ ((OnlyBus.refl s).setPhase _) h
  · exact .again inside

theorem MicroStep.of_waitBtf (inside : s.seq.point ≠ .start) (h : waitBtf k s done = .next t)
    (goes : done s = .next t → MicroStep i s t) : MicroStep i s t := by
  rcases waitBtf_next h with ⟨e, -, rfl⟩ | ⟨-, h⟩ | rfl
  · exact .finish (.refl s) .none _ _ _
  · exact goes h
  · exact .again inside

theorem MicroStep.of_readByteBody {at_ : TakePoint → Point} {p : TakePoint} {done : Byte → State → Res}
    (inside : s.seq.point ≠ .start) (first : (at_ .take).first = s.seq.point.first)
    (h : readByteBody k at_ p s done = .next t)
    (goes : ∀ b u, OnlyBus s u → done b u = .next t → MicroStep i s t) : MicroStep i s t := by
  rcases readByteBody_next h with ⟨-, rfl⟩ | ⟨-, h⟩
  · split
    · exact .stay inside (.refl s) first
    · exact .again inside
  · exact goes _ _ ((OnlyBus.setRegs k _).setPhase _) h

theorem MicroStep.of_stopBody {r : Rmw} (at_ : s.seq.point = .stopBody r) (h : stopBody k r s done = .next t)
    (goes : ∀ u, OnlyBus s u → done u = .next t → MicroStep i s t) : MicroStep i s t := by
  rcases stopBody_next h with ⟨-, rfl⟩ | ⟨w, -, h⟩
  · exact .stay (by simp [at_]) (.refl s) (by rw [at_]; rfl)
  · exact goes _ ((OnlyBus.setRegs k _).setPhase _) h

end Bodies

end Sys2Proof.Machine
end

section
/-! PROOF. Every micro-step of every command is a `MicroStep`: one lemma for each command, its cases the lines of the
command's pseudocode (40_clocktree.md to 44_bus_transactions.md). -/

namespace Sys2Proof.Machine

variable {s t : State}

theorem execClkConfig_microStep {src : Source} {hpre : BitVec 4} {ppre1 ppre2 : BitVec 3}
    (h : execClkConfig src hpre ppre1 ppre2 s = .next t) : MicroStep (.clkConfig src hpre ppre1 ppre2) s t := by
  unfold execClkConfig at h
  split at h
  next =>
    split at h
    · exact .of_returnValue (.refl s) .none h
    · cases h; exact .enter _ _ rfl
  next at_ =>
    cases h
    exact .goto (by simp [at_]) (.setCr (.refl s) _) (.enable src hpre ppre1 ppre2 rfl at_) _ fun _ => rfl
  next at_ =>
    cases h
    split
    · exact .stay (by simp [at_]) (.refl s) (by rw [at_]; rfl)
    · exact .again (by simp [at_])
  next at_ =>
    cases h
    exact .goto (by simp [at_]) (.setCfgr (.refl s) _) (.prescale src hpre ppre1 ppre2 rfl at_) _ fun _ => rfl
  next at_ =>
    cases h
    exact .goto (by simp [at_]) (.setCfgr (.refl s) _) (.switch src hpre ppre1 ppre2 rfl at_) _ fun _ => rfl
  next at_ =>
    split at h
    · exact .of_returnValue (.refl s) .none h
    · cases h; exact .again (by simp [at_])
  next => exact absurd h strayPoint_ne_next

theorem execClkPllconfig_microStep {src : PllInput} {m : BitVec 6} {n : BitVec 9} {pcode : BitVec 2}
    (h : execClkPllconfig src m n pcode s = .next t) : MicroStep (.clkPllconfig src m n pcode) s t := by
  unfold execClkPllconfig at h
  split at h
  next =>
    split at h
    · exact .of_raiseFault h
    · cases h; exact .enter _ _ rfl
  next => exact .of_returnValue (.setPllcfgr (.refl s) ⟨m, n, pcode, src⟩) (.pll src m n pcode rfl) h
  next => exact absurd h strayPoint_ne_next

theorem execPerTake_microStep {p : PeriphId} (h : execPerTake p s = .next t) : MicroStep (.perTake p) s t := by
  unfold execPerTake at h
  split at h
  next =>
    split at h
    · exact .of_raiseFault h
    · cases h; exact .enter _ _ rfl
  next => exact .of_returnValue (.setTaken (.refl s) p) .none h
  next => exact absurd h strayPoint_ne_next

/-- The clock-control write of `PER_ENCLK` and `PER_DISCLK`. -/
theorem ClockWrite.setEnabled (i : Instr) (s : State) (p : PeriphId) (v : Bool) :
    ClockWrite i s (s.setEnabled p v).cc := by
  unfold State.setEnabled
  split
  · exact .enableBit p _ v ‹_›
  · exact .none

/-- The clock-control writes of `PER_RESET`. -/
theorem ClockWrite.assertReset (i : Instr) (s : State) (p : PeriphId) : ClockWrite i s (s.assertReset p).cc := by
  unfold State.assertReset
  split
  · exact .resetBit p _ true ‹_›
  · exact .none

theorem ClockWrite.deassertReset (i : Instr) (s : State) (p : PeriphId) : ClockWrite i s (s.deassertReset p).cc := by
  unfold State.deassertReset
  split
  · exact .resetBit p _ false ‹_›
  · exact .none

theorem Kept.setEnabled (p : PeriphId) (v : Bool) : Kept s (s.setEnabled p v) := by constructor <;> simp

theorem Kept.assertReset (p : PeriphId) : Kept s (s.assertReset p) := by constructor <;> simp

theorem Kept.deassertReset (p : PeriphId) : Kept s (s.deassertReset p) := by constructor <;> simp

theorem execPerEnclk_microStep {p : PeriphId} (h : execPerEnclk p s = .next t) : MicroStep (.perEnclk p) s t := by
  unfold execPerEnclk at h
  split at h
  next => exact .of_requireOwned h fun h => by cases h; exact .enter _ _ rfl
  next => exact .of_returnValue (.setEnabled p true) (.setEnabled _ s p true) h
  next => exact absurd h strayPoint_ne_next

theorem execPerDisclk_microStep {p : PeriphId} (h : execPerDisclk p s = .next t) : MicroStep (.perDisclk p) s t := by
  unfold execPerDisclk at h
  split at h
  next => exact .of_requireOwned h fun h => by cases h; exact .enter _ _ rfl
  next => exact .of_returnValue (.setEnabled p false) (.setEnabled _ s p false) h
  next => exact absurd h strayPoint_ne_next

theorem execPerReset_microStep {p : PeriphId} (h : execPerReset p s = .next t) : MicroStep (.perReset p) s t := by
  unfold execPerReset at h
  split at h
  next => exact .of_requireOwned h fun h => by cases h; exact .enter _ _ rfl
  next at_ =>
    cases h
    exact .goto (by simp [at_]) (.assertReset p) (.assertReset _ s p) _ fun _ => rfl
  next => exact .of_returnValue (.deassertReset p) (.deassertReset _ s p) h
  next => exact absurd h strayPoint_ne_next

section Init

variable {k : InstId} {speed : Speed} {mode : BusMode} {own1 own2 : BitVec 7} {freq : Word}

/-- A register write of `I2C_INIT` that goes on to a line its mode has (43_bus_engine.md R155, R156). -/
theorem MicroStep.init_next {u : State} {p q : InitPoint} (at_ : s.seq.point = .init p) (only : OnlyBus s u)
    (line : hasLine (.i2cInit k speed mode own1 own2 freq) { u.seq with point := .init q } = true) :
    MicroStep (.i2cInit k speed mode own1 own2 freq) s (u.goto (.init q)) :=
  .goto (by simp [at_]) only.toKept (.of_eq only.cc) _ fun _ => line

theorem initStep_microStep {p : InitPoint} (at_ : s.seq.point = .init p)
    (h : initStep k speed mode own1 own2 freq p s = .next t) :
    MicroStep (.i2cInit k speed mode own1 own2 freq) s t := by
  have inside : s.seq.point ≠ .start := by simp [at_]
  cases p with
  | clock =>
    simp only [initStep] at h
    split at h
    · exact .of_raiseFault h
    · split at h
      · cases h; exact .init_next at_ (.refl s) rfl
      · exact .of_raiseFault h
  | divider div rise => cases h; exact .init_next at_ (.setRegs k _) rfl
  | riseTime rise => cases h; exact .init_next at_ (.setRegs k _) (by cases mode <;> rfl)
  | own1 => cases h; exact .init_next at_ (.setRegs k _) (by cases mode <;> rfl)
  | own2 => cases h; exact .init_next at_ (.setRegs k _) rfl
  | enable r =>
    simp only [initStep] at h
    exact .of_cr1Write inside (fun r => by rw [at_]; rfl) h fun u only h => by
      cases h; exact .init_next at_ only rfl
  | ack r =>
    simp only [initStep, ackWrite] at h
    exact .of_cr1Write inside (fun r => by rw [at_]; rfl) h fun u only h =>
      .of_returnValue only.toKept (.of_eq only.cc) h

theorem execI2cInit_microStep (h : execI2cInit k speed mode own1 own2 freq s = .next t) :
    MicroStep (.i2cInit k speed mode own1 own2 freq) s t := by
  unfold execI2cInit at h
  split at h
  next =>
    refine .of_prelude h fun h => ?_
    split at h
    · split at h
      · exact .of_raiseFault h
      · split at h
        · exact .of_raiseFault h
        · cases h; exact .enter _ _ rfl
    · cases h; exact .finish (.refl s) .none _ _ _
  next at_ => exact initStep_microStep at_ h
  next => exact absurd h strayPoint_ne_next

end Init

theorem execI2cStart_microStep {k : InstId} (h : execI2cStart k s = .next t) : MicroStep (.i2cStart k) s t := by
  unfold execI2cStart at h
  split at h
  next => exact .of_prelude h fun h => by cases h; exact .enter _ _ rfl
  next at_ => exact .of_startBody at_ h fun u only h => .of_returnValue only.toKept (.of_eq only.cc) h
  next => exact absurd h strayPoint_ne_next

theorem execI2cAddr_microStep {k : InstId} {addr : BitVec 7} {rw : Dir} (h : execI2cAddr k addr rw s = .next t) :
    MicroStep (.i2cAddr k addr rw) s t := by
  unfold execI2cAddr at h
  split at h
  next => exact .of_prelude h fun h => by cases h; exact .enter _ _ rfl
  next at_ => exact .of_addressBody at_ h fun u only h => .of_returnValue only.toKept (.of_eq only.cc) h
  next => exact absurd h strayPoint_ne_next

theorem execI2cWrbyte_microStep {k : InstId} {data : Byte} (h : execI2cWrbyte k data s = .next t) :
    MicroStep (.i2cWrbyte k data) s t := by
  unfold execI2cWrbyte at h
  split at h
  next => exact .of_prelude h fun h => by cases h; exact .enter _ _ rfl
  next at_ => exact .of_writeByteBody at_ h fun u only h => .of_returnValue only.toKept (.of_eq only.cc) h
  next => exact absurd h strayPoint_ne_next

theorem execI2cRdbyte_microStep {k : InstId} (h : execI2cRdbyte k s = .next t) : MicroStep (.i2cRdbyte k) s t := by
  unfold execI2cRdbyte at h
  split at h
  next => exact .of_prelude h fun h => by cases h; exact .enter _ _ rfl
  next at_ =>
    exact .of_readByteBody (by simp [at_]) (by rw [at_]; rfl) h fun b u only h =>
      .of_returnValue only.toKept (.of_eq only.cc) h
  next => exact absurd h strayPoint_ne_next

theorem execI2cStop_microStep {k : InstId} (h : execI2cStop k s = .next t) : MicroStep (.i2cStop k) s t := by
  unfold execI2cStop at h
  split at h
  next => exact .of_prelude h fun h => by cases h; exact .enter _ _ rfl
  next at_ => exact .of_stopBody at_ h fun u only h => .of_returnValue only.toKept (.of_eq only.cc) h
  next => exact absurd h strayPoint_ne_next

/-! The composite transactions: the byte index and the bytes received at each line -/

/-- A nonzero length field as a number. -/
theorem length_pos {n : BitVec 12} (h : n ≠ 0#12) : 0 < n.toNat := by
  have : n.toNat ≠ 0 := fun e => h (BitVec.eq_of_toNat_eq e)
  omega

section Write

variable {k : InstId} {addr : BitVec 7} {n : BitVec 12} {ops : List Word}

/-- After byte `SEQ.i` (44_bus_transactions.md R180). -/
theorem afterByteWritten_microStep {u : State} {p : PutPoint} (at_ : s.seq.point = .writeBody p) (only : OnlyBus s u)
    (h : afterByteWritten n.toNat u = .next t) : MicroStep (.i2cWrite k addr n ops) s t := by
  have inside : s.seq.point ≠ .start := by simp [at_]
  unfold afterByteWritten at h
  split at h <;> cases h
  · exact .goto inside (only.toKept.setIndex (u.seq.i + 1)) (.of_eq only.cc) _ fun _ => decide_eq_true ‹_›
  · exact .goto inside only.toKept (.of_eq only.cc) _ fun _ => rfl

theorem execI2cWrite_microStep (h : execI2cWrite k addr n ops s = .next t) :
    MicroStep (.i2cWrite k addr n ops) s t := by
  unfold execI2cWrite at h
  split at h
  next =>
    refine .of_prelude h fun h => ?_
    split at h
    · exact .of_raiseFault h
    · cases h; exact .enter _ _ (by simpa [hasLine])
  next at_ =>
    exact .of_startBody at_ h fun u only h => by
      cases h
      exact .goto (by simp [at_]) only.toKept (.of_eq only.cc) _ fun line => by simpa [hasLine, at_] using line
  next at_ =>
    exact .of_addressBody at_ h fun u only h => by
      cases h
      exact .goto (by simp [at_]) (only.toKept.setIndex 0) (.of_eq only.cc) _ fun line =>
        decide_eq_true (length_pos (by simpa [hasLine, at_] using line))
  next at_ => exact .of_writeByteBody at_ h fun u only h => afterByteWritten_microStep at_ only h
  next at_ =>
    exact .of_waitBtf (by simp [at_]) h fun h => by
      cases h; exact .goto (by simp [at_]) (.refl s) .none _ fun _ => rfl
  next at_ => exact .of_stopBody at_ h fun u only h => .of_returnValue only.toKept (.of_eq only.cc) h
  next => exact absurd h strayPoint_ne_next

end Write

section Read

variable {k : InstId} {addr : BitVec 7} {n : BitVec 12}

/-- After the address: the first byte of more than one, or the last byte (44_bus_transactions.md R183, R185). -/
theorem afterReadAddress_microStep {u : State} {p : PutPoint} (at_ : s.seq.point = .addressBody p)
    (only : OnlyBus s u) (h : afterReadAddress n.toNat u = .next t) : MicroStep (.i2cRead k addr n) s t := by
  have inside : s.seq.point ≠ .start := by simp [at_]
  unfold afterReadAddress at h
  split at h <;> cases h
  · refine .goto inside (only.toKept.setIndex 0) (.of_eq only.cc) _ fun line => ?_
    simp_all [hasLine, only.buf]
  · refine .goto inside (only.toKept.setIndex (n.toNat - 1)) (.of_eq only.cc) _ fun line => ?_
    obtain ⟨pos, empty⟩ : n ≠ 0#12 ∧ s.seq.buf = [] := by simpa [hasLine, at_] using line
    have := length_pos pos
    simp only [hasLine, State.goto_seq, State.setIndex_seq, only.buf, empty, List.length_nil, beq_iff_eq]
    omega

/-- After byte `SEQ.i` of the first N - 1 (44_bus_transactions.md R183, R186). -/
theorem afterByteRead_microStep {u : State} {b : Byte} {p : TakePoint} (at_ : s.seq.point = .readBody p)
    (only : OnlyBus s u) (h : afterByteRead n.toNat (u.pushByte b) = .next t) : MicroStep (.i2cRead k addr n) s t := by
  have inside : s.seq.point ≠ .start := by simp [at_]
  have bytes (line : hasLine (.i2cRead k addr n) s.seq = true) :
      s.seq.i + 1 < n.toNat ∧ s.seq.buf.length = s.seq.i := by
    simpa [hasLine, at_] using line
  unfold afterByteRead at h
  split at h <;> cases h
  · refine .goto inside ((only.toKept.pushByte b).setIndex _) (.of_eq only.cc) _ fun line => ?_
    obtain ⟨-, length⟩ := bytes line
    simp_all [hasLine, only.buf, only.index]
  · refine .goto inside ((only.toKept.pushByte b).setIndex _) (.of_eq only.cc) _ fun line => ?_
    obtain ⟨more, length⟩ := bytes line
    simp_all [hasLine, only.buf, only.index]
    omega

theorem execI2cRead_microStep (h : execI2cRead k addr n s = .next t) : MicroStep (.i2cRead k addr n) s t := by
  unfold execI2cRead at h
  split at h
  next =>
    refine .of_prelude h fun h => ?_
    split at h
    · exact .of_raiseFault h
    · cases h; exact .enter _ _ (by simpa [hasLine])
  next at_ =>
    cases h
    exact .goto (by simp [at_]) (.saveAck (.refl s) (s.regs k).cr1.ack) .none _ fun line => by
      simpa [hasLine, at_] using line
  next at_ =>
    exact .of_startBody at_ h fun u only h => by
      cases h
      exact .goto (by simp [at_]) only.toKept (.of_eq only.cc) _ fun line => by
        simpa [hasLine, at_, only.buf] using line
  next at_ => exact .of_addressBody at_ h fun u only h => afterReadAddress_microStep at_ only h
  next at_ =>
    exact .of_cr1Write (by simp [at_]) (fun r => by rw [at_]; rfl) h fun u only h => by
      cases h
      exact .goto (by simp [at_]) only.toKept (.of_eq only.cc) _ fun line => by
        simp_all [hasLine, only.buf, only.index]
  next at_ =>
    exact .of_readByteBody (by simp [at_]) (by rw [at_]; rfl) h fun b u only h => afterByteRead_microStep at_ only h
  next at_ =>
    exact .of_cr1Write (by simp [at_]) (fun r => by rw [at_]; rfl) h fun u only h => by
      cases h
      exact .goto (by simp [at_]) only.toKept (.of_eq only.cc) _ fun line => by
        simpa [hasLine, at_, only.buf] using line
  next at_ =>
    exact .of_stopBody at_ h fun u only h => by
      cases h
      exact .goto (by simp [at_]) only.toKept (.of_eq only.cc) _ fun line => by
        simpa [hasLine, at_, only.buf] using line
  next at_ =>
    exact .of_readByteBody (by simp [at_]) (by rw [at_]; rfl) h fun b u only h => by
      cases h
      exact .goto (by simp [at_]) (only.toKept.pushByte b) (.of_eq only.cc) _ fun line => by
        simpa [hasLine, at_, only.buf] using line
  next at_ =>
    exact .of_cr1Write (by simp [at_]) (fun r => by rw [at_]; rfl) h fun u only h => by
      cases h; exact .finish only.toKept (.of_eq only.cc) _ _ _
  next => exact absurd h strayPoint_ne_next

end Read

/-- Every micro-step of every command: the command goes on at one of its lines, ends, or faults. -/
theorem exec_microStep {i : Instr} (h : exec i s = .next t) : MicroStep i s t := by
  cases i with
  | clkSysfreq | clkAhbfreq | clkApb1freq | clkApb2freq =>
    simp only [exec, execClkSysfreq, execClkAhbfreq, execClkApb1freq, execClkApb2freq] at h
    split at h
    · exact .of_returnFreq h
    · exact absurd h strayPoint_ne_next
  | clkConfig src hpre ppre1 ppre2 => exact execClkConfig_microStep h
  | clkPllconfig src m n pcode => exact execClkPllconfig_microStep h
  | pack | maskNew | maskUnion | maskIntersect | maskComplement | maskXor | maskSet | maskReset | maskIsset =>
    simp only [exec, execPack, execMaskNew, execMaskUnion, execMaskIntersect, execMaskComplement, execMaskXor,
      execMaskSet, execMaskReset, execMaskIsset] at h
    exact .of_returnPure h
  | perTake p => exact execPerTake_microStep h
  | perEnclk p => exact execPerEnclk_microStep h
  | perDisclk p => exact execPerDisclk_microStep h
  | perReset p => exact execPerReset_microStep h
  | i2cInit k speed mode own1 own2 freq => exact execI2cInit_microStep h
  | i2cStart k => exact execI2cStart_microStep h
  | i2cAddr k addr rw => exact execI2cAddr_microStep h
  | i2cWrbyte k data => exact execI2cWrbyte_microStep h
  | i2cRdbyte k => exact execI2cRdbyte_microStep h
  | i2cStop k => exact execI2cStop_microStep h
  | i2cWrite k addr n ops => exact execI2cWrite_microStep h
  | i2cRead k addr n => exact execI2cRead_microStep h

end Sys2Proof.Machine
end

section
/-! PROOF. Every step keeps the sequencer coherent and the result log as long as CPTR (10_state.md R22, R23, R45). -/

namespace Sys2Proof.Machine

variable {s t : State}

/-- What the turns of OSC and BUS[k] leave: the parameters, the command space, the result log and the sequencer. -/
structure SeqSide (s t : State) : Prop where
  par : t.par = s.par
  commands : t.commands = s.commands
  cptr : t.cptr = s.cptr
  results : t.results = s.results
  seq : t.seq = s.seq

theorem SeqSide.takeTurn (s : State) : SeqSide s s.takeTurn := by constructor <;> simp

theorem SeqSide.trans {u : State} (h : SeqSide s t) (g : SeqSide t u) : SeqSide s u :=
  ⟨g.par.trans h.par, g.commands.trans h.commands, g.cptr.trans h.cptr, g.results.trans h.results, g.seq.trans h.seq⟩

theorem oscStep_seqSide (a : Config.OscStep) (s : State) : SeqSide s (oscStep a s) := by
  rw [oscStep_eq]
  exact ⟨rfl, rfl, rfl, rfl, rfl⟩

theorem busStep_seqSide (k : InstId) (a : Config.BusStep) (s : State) : SeqSide s (busStep k a s) := by
  rw [busStep_eq]
  exact ⟨rfl, rfl, rfl, rfl, rfl⟩

theorem SeqSide.fetch_eq (h : SeqSide s t) : t.fetch = s.fetch := by simp only [State.fetch, h.commands, h.cptr]

theorem SeqSide.coherent (h : SeqSide s t) (coherent : SeqCoherent s) : SeqCoherent t := by
  unfold SeqCoherent at *
  rwa [h.seq, h.fetch_eq, h.par]

theorem SeqSide.logMatches (h : SeqSide s t) (log : LogMatches s) : LogMatches t := by
  unfold LogMatches at *
  rwa [h.results, h.cptr, h.commands]

/-- Inside a command of a coherent block CPTR holds its index and SEQ stands at one of its lines. -/
theorem SeqCoherent.running {i : Instr} (coherent : SeqCoherent s) (cmd : s.seq.cmd = some i) :
    (∃ c, s.fetch = some c ∧ decode s.par c = .ok i) ∧ AtLine i s := by
  unfold SeqCoherent at coherent
  rw [cmd] at coherent
  exact ⟨coherent.1, .inr ⟨cmd, coherent.2⟩⟩

/-- Between commands the sequencer of a coherent block is idle. -/
theorem SeqCoherent.between (coherent : SeqCoherent s) (cmd : s.seq.cmd = none) : s.seq = Sequencer.idle := by
  unfold SeqCoherent at coherent
  rwa [cmd] at coherent

theorem SeqCoherent.of_idle (idle : s.seq = Sequencer.idle) : SeqCoherent s := by
  unfold SeqCoherent
  rw [idle]
  rfl

/-- What a SEQ turn of a coherent block performs: a micro-step of the command under CPTR, the end of a command that
does not decode, or nothing. -/
inductive CoherentMove (s t : State) : Prop where
  | micro (c : Command) (i : Instr) (fetched : s.fetch = some c) (decoded : decode s.par c = .ok i)
      (line : AtLine i s) (move : MicroStep i s t)
  | undecoded (c : Command) (fetched : s.fetch = some c) (ends : t = s.finish .decodeError 0#32 [])
  | same (eq : t = s)

theorem SeqMove.coherent (coherent : SeqCoherent s) (move : SeqMove s t) : CoherentMove s t := by
  cases move with
  | resume i running runs =>
    obtain ⟨⟨c, fetched, decoded⟩, line⟩ := coherent.running running
    exact .micro c i fetched decoded line (exec_microStep runs)
  | begins c i idle fetched decoded runs =>
    exact .micro c i fetched decoded (.inl (coherent.between idle)) (exec_microStep runs)
  | undecoded c e idle fetched refused ends => exact .undecoded c fetched ends
  | ended idle empty same => exact .same same

theorem MicroStep.coherent {i : Instr} {c : Command} (coherent : SeqCoherent s) (fetched : s.fetch = some c)
    (decoded : decode s.par c = .ok i) (line : AtLine i s) (move : MicroStep i s t) : SeqCoherent t := by
  cases move with
  | goesOn par commands cptr results clock goes =>
    obtain ⟨cmd, stands⟩ := goes line
    unfold SeqCoherent
    rw [cmd]
    refine ⟨⟨c, ?_, ?_⟩, stands⟩
    · rwa [State.fetch, commands, cptr]
    · rwa [par]
  | ends r par commands cptr results clock idle => exact .of_idle idle
  | faults f eq => subst eq; exact coherent

/-- Every SEQ turn keeps the sequencer coherent. -/
theorem SeqMove.keeps_coherent (coherent : SeqCoherent s) (move : SeqMove s t) : SeqCoherent t := by
  cases move.coherent coherent with
  | micro c i fetched decoded line move => exact move.coherent coherent fetched decoded line
  | undecoded c fetched ends => exact ends ▸ .of_idle rfl
  | same eq => exact eq ▸ coherent

/-- A command that ends was under CPTR, so CPTR stays within the list. -/
theorem logMatches_of_ends {c : Command} {r : Result} (log : LogMatches s) (fetched : s.fetch = some c)
    (commands : t.commands = s.commands) (cptr : t.cptr = s.cptr + 1) (results : t.results = s.results ++ [r]) :
    LogMatches t := by
  obtain ⟨within, -⟩ := List.getElem?_eq_some_iff.mp fetched
  refine ⟨?_, ?_⟩
  · rw [results, cptr, List.length_append, log.1, List.length_singleton]
  · rw [cptr, commands]; exact within

/-- Every SEQ turn of a coherent block keeps one result for every command that ended. -/
theorem SeqMove.keeps_logMatches (coherent : SeqCoherent s) (log : LogMatches s) (move : SeqMove s t) :
    LogMatches t := by
  cases move.coherent coherent with
  | micro c i fetched decoded line move =>
    cases move with
    | goesOn par commands cptr results clock goes => unfold LogMatches at *; rwa [results, cptr, commands]
    | ends r par commands cptr results clock idle => exact logMatches_of_ends log fetched commands cptr results
    | faults f eq => subst eq; exact log
  | undecoded c fetched ends => subst ends; exact logMatches_of_ends log fetched rfl rfl rfl
  | same eq => exact eq ▸ log

theorem step_keeps_coherent (coherent : SeqCoherent s) (h : step s = .next t) : SeqCoherent t := by
  have taken := SeqSide.takeTurn s
  cases step_cases h with
  | seq clear turn move => exact move.keeps_coherent (taken.coherent coherent)
  | osc clear a turn eq => exact eq ▸ (taken.trans (oscStep_seqSide a _)).coherent coherent
  | bus clear k a turn eq => exact eq ▸ (taken.trans (busStep_seqSide k a _)).coherent coherent

theorem step_keeps_logMatches (coherent : SeqCoherent s) (log : LogMatches s) (h : step s = .next t) :
    LogMatches t := by
  have taken := SeqSide.takeTurn s
  cases step_cases h with
  | seq clear turn move => exact move.keeps_logMatches (taken.coherent coherent) (taken.logMatches log)
  | osc clear a turn eq => exact eq ▸ (taken.trans (oscStep_seqSide a _)).logMatches log
  | bus clear k a turn eq => exact eq ▸ (taken.trans (busStep_seqSide k a _)).logMatches log

/-- Settles O52: every SEQ turn is a `MicroStep` of the command under CPTR (or ends one that does not decode), which
gives the next line; the other agents leave the sequencer's side. -/
theorem stepKeepsSeqCoherent : Obligations.StepKeepsSeqCoherent :=
  ⟨fun _ _ => step_keeps_coherent, fun _ _ => step_keeps_logMatches⟩

end Sys2Proof.Machine
end

section
/-! PROOF. What the decoder answers is well formed (30_encoding.md R84, R93). -/

namespace Sys2Proof

variable {par : Config.Params} {c : Command} {ops : List Word} {i j : Instr}

theorem reservedZero_ok {n : Nat} {f : BitVec n} {rest : Except DecodeError Instr} (h : reservedZero f rest = .ok i) :
    f = 0#n ∧ rest = .ok i := by
  unfold reservedZero at h
  split at h
  · exact ⟨‹_›, h⟩
  · cases h

theorem operands0_ok (h : operands0 ops j = .ok i) : ops = [] ∧ i = j := by
  unfold operands0 at h
  split at h
  · exact ⟨rfl, by cases h; rfl⟩
  · cases h

theorem operands1_ok {f : Word → Instr} (h : operands1 ops f = .ok i) : ∃ a, ops = [a] ∧ i = f a := by
  unfold operands1 at h
  split at h
  · exact ⟨_, rfl, by cases h; rfl⟩
  · cases h

theorem operands2_ok {f : Word → Word → Instr} (h : operands2 ops f = .ok i) : ∃ a b, ops = [a, b] ∧ i = f a b := by
  unfold operands2 at h
  split at h
  · exact ⟨_, _, rfl, by cases h; rfl⟩
  · cases h

theorem operands3_ok {f : Word → Word → Word → Instr} (h : operands3 ops f = .ok i) :
    ∃ a b d, ops = [a, b, d] ∧ i = f a b d := by
  unfold operands3 at h
  split at h
  · exact ⟨_, _, _, rfl, by cases h; rfl⟩
  · cases h

theorem orReserved_ok {α : Type} {x : Option α} {f : α → Except DecodeError Instr} (h : orReserved x f = .ok i) :
    ∃ a, x = some a ∧ f a = .ok i := by
  unfold orReserved at h
  split at h
  · exact ⟨_, rfl, h⟩
  · cases h

theorem orBadInst_ok {α : Type} {x : Option α} {f : α → Except DecodeError Instr} (h : orBadInst x f = .ok i) :
    ∃ a, x = some a ∧ f a = .ok i := by
  unfold orBadInst at h
  split at h
  · exact ⟨_, rfl, h⟩
  · cases h

theorem instOfCode_some {f : BitVec 4} {k : InstId} (h : instOfCode par f = some k) :
    k = f.toFin ∧ instExists par k = true := by
  unfold instOfCode at h
  split at h <;> cases h
  exact ⟨rfl, ‹_›⟩

theorem periphOfCode_some {f : BitVec 4} {p : PeriphId} (h : periphOfCode par f = some p) :
    p = f.toFin ∧ periphExists par p = true := by
  unfold periphOfCode at h
  split at h <;> cases h
  exact ⟨rfl, ‹_›⟩

theorem formatZ_ok {rest : Except DecodeError Instr} (h : formatZ c.cw rest = .ok i) :
    field c.cw 8 24 = 0#24 ∧ rest = .ok i := reservedZero_ok h

theorem formatL_ok {f : BitVec 4 → Word → Instr} (h : formatL c f = .ok i) :
    field c.cw 12 20 = 0#20 ∧ ∃ a, c.ops = [a] ∧ i = f (field c.cw 8 4) a := by
  obtain ⟨zero, h⟩ := reservedZero_ok h
  exact ⟨zero, operands1_ok h⟩

theorem formatPer_ok {f : PeriphId → Instr} (h : formatPer par c f = .ok i) :
    field c.cw 12 20 = 0#20 ∧ c.ops = [] ∧ ∃ p, p = (field c.cw 8 4).toFin ∧ periphExists par p = true ∧ i = f p := by
  obtain ⟨zero, h⟩ := reservedZero_ok h
  obtain ⟨p, code, h⟩ := orBadInst_ok h
  obtain ⟨ops, rfl⟩ := operands0_ok h
  obtain ⟨code, known⟩ := periphOfCode_some code
  exact ⟨zero, ops, p, code, known, rfl⟩

theorem formatBus_ok {f : InstId → Instr} (h : formatBus par c f = .ok i) :
    field c.cw 12 20 = 0#20 ∧ c.ops = [] ∧ ∃ k, k = (field c.cw 8 4).toFin ∧ instExists par k = true ∧ i = f k := by
  obtain ⟨zero, h⟩ := reservedZero_ok h
  obtain ⟨k, code, h⟩ := orBadInst_ok h
  obtain ⟨ops, rfl⟩ := operands0_ok h
  obtain ⟨code, known⟩ := instOfCode_some code
  exact ⟨zero, ops, k, code, known, rfl⟩

theorem decodeClkConfig_ok (h : decodeClkConfig c = .ok i) :
    field c.cw 10 2 = 0#2 ∧ field c.cw 22 10 = 0#10 ∧ c.ops = [] ∧ ∃ src, Source.ofCode (field c.cw 8 2) = some src ∧
      i = .clkConfig src (field c.cw 12 4) (field c.cw 16 3) (field c.cw 19 3) := by
  obtain ⟨low, h⟩ := reservedZero_ok h
  obtain ⟨high, h⟩ := reservedZero_ok h
  obtain ⟨src, code, h⟩ := orReserved_ok h
  obtain ⟨ops, rfl⟩ := operands0_ok h
  exact ⟨low, high, ops, src, code, rfl⟩

theorem decodePllConfig_ok (h : decodePllConfig c = .ok i) :
    field c.cw 9 3 = 0#3 ∧ field c.cw 29 3 = 0#3 ∧ field c.cw 12 6 ≠ 0#6 ∧ c.ops = [] ∧
      i = .clkPllconfig (PllInput.ofCode (field c.cw 8 1)) (field c.cw 12 6) (field c.cw 18 9) (field c.cw 27 2) := by
  obtain ⟨low, h⟩ := reservedZero_ok h
  obtain ⟨high, h⟩ := reservedZero_ok h
  split at h
  · cases h
  · exact ⟨low, high, ‹_›, operands0_ok h⟩

theorem decodeInit_ok (h : decodeInit par c = .ok i) :
    field c.cw 30 2 = 0#2 ∧ ∃ speed mode k freq, Speed.ofCode (field c.cw 12 2) = some speed ∧
      BusMode.ofCode (field c.cw 14 2) = some mode ∧ k = (field c.cw 8 4).toFin ∧ instExists par k = true ∧
      c.ops = [freq] ∧ i = .i2cInit k speed mode (field c.cw 16 7) (field c.cw 23 7) freq := by
  obtain ⟨zero, h⟩ := reservedZero_ok h
  obtain ⟨speed, hs, h⟩ := orReserved_ok h
  obtain ⟨mode, hm, h⟩ := orReserved_ok h
  obtain ⟨k, code, h⟩ := orBadInst_ok h
  obtain ⟨freq, ops, rfl⟩ := operands1_ok h
  obtain ⟨code, known⟩ := instOfCode_some code
  exact ⟨zero, speed, mode, k, freq, hs, hm, code, known, ops, rfl⟩

theorem decodeWrite_ok (h : decodeWrite par c = .ok i) :
    field c.cw 19 1 = 0#1 ∧ c.ops.length = writeOperandCount (field c.cw 20 12) ∧
      ∃ k, k = (field c.cw 8 4).toFin ∧ instExists par k = true ∧
        i = .i2cWrite k (field c.cw 12 7) (field c.cw 20 12) c.ops := by
  obtain ⟨zero, h⟩ := reservedZero_ok h
  obtain ⟨k, code, h⟩ := orBadInst_ok h
  obtain ⟨code, known⟩ := instOfCode_some code
  split at h
  · exact ⟨zero, ‹_›, k, code, known, by cases h; rfl⟩
  · cases h

/-- Every command the decoder answers is well formed: `M ≥ 1`, the peripheral or the bus controller exists, and
`I2C_WRITE` has its operand words (30_encoding.md R84 (d), (e), (f)). -/
theorem decode_wellFormed (h : decode par c = .ok i) : i.wellFormed par = true := by
  unfold decode at h
  split at h
  · obtain ⟨-, rfl⟩ := operands0_ok (formatZ_ok h).2; rfl
  · obtain ⟨-, rfl⟩ := operands0_ok (formatZ_ok h).2; rfl
  · obtain ⟨-, rfl⟩ := operands0_ok (formatZ_ok h).2; rfl
  · obtain ⟨-, rfl⟩ := operands0_ok (formatZ_ok h).2; rfl
  · obtain ⟨-, -, -, src, -, rfl⟩ := decodeClkConfig_ok h; rfl
  · obtain ⟨-, -, pos, -, rfl⟩ := decodePllConfig_ok h; simpa [Instr.wellFormed] using pos
  · obtain ⟨_, _, _, -, rfl⟩ := operands3_ok (reservedZero_ok h).2; rfl
  · obtain ⟨_, -, rfl⟩ := operands1_ok (formatZ_ok h).2; rfl
  · obtain ⟨_, _, -, rfl⟩ := operands2_ok (formatZ_ok h).2; rfl
  · obtain ⟨_, _, -, rfl⟩ := operands2_ok (formatZ_ok h).2; rfl
  · obtain ⟨_, -, rfl⟩ := operands1_ok (formatZ_ok h).2; rfl
  · obtain ⟨_, _, -, rfl⟩ := operands2_ok (formatZ_ok h).2; rfl
  · obtain ⟨-, _, -, rfl⟩ := formatL_ok h; rfl
  · obtain ⟨-, _, -, rfl⟩ := formatL_ok h; rfl
  · obtain ⟨-, _, -, rfl⟩ := formatL_ok h; rfl
  · obtain ⟨-, -, p, -, known, rfl⟩ := formatPer_ok h; exact known
  · obtain ⟨-, -, p, -, known, rfl⟩ := formatPer_ok h; exact known
  · obtain ⟨-, -, p, -, known, rfl⟩ := formatPer_ok h; exact known
  · obtain ⟨-, -, p, -, known, rfl⟩ := formatPer_ok h; exact known
  · obtain ⟨-, speed, mode, k, freq, -, -, -, known, -, rfl⟩ := decodeInit_ok h; exact known
  · obtain ⟨-, -, k, -, known, rfl⟩ := formatBus_ok h; exact known
  · obtain ⟨k, code, h⟩ := orBadInst_ok (reservedZero_ok h).2
    obtain ⟨-, rfl⟩ := operands0_ok h
    exact (instOfCode_some code).2
  · obtain ⟨k, code, h⟩ := orBadInst_ok (reservedZero_ok h).2
    obtain ⟨-, rfl⟩ := operands0_ok h
    exact (instOfCode_some code).2
  · obtain ⟨-, -, k, -, known, rfl⟩ := formatBus_ok h; exact known
  · obtain ⟨-, -, k, -, known, rfl⟩ := formatBus_ok h; exact known
  · obtain ⟨-, count, k, -, known, rfl⟩ := decodeWrite_ok h; simp [Instr.wellFormed, known, count]
  · obtain ⟨k, code, h⟩ := orBadInst_ok (reservedZero_ok h).2
    obtain ⟨-, rfl⟩ := operands0_ok h
    exact (instOfCode_some code).2
  · cases h

/-- `CLK_PLLCONFIG` decodes with `M ≥ 1` only (30_encoding.md R84 (d)). -/
theorem decode_pllconfig_pos {src : PllInput} {m : BitVec 6} {n : BitVec 9} {pcode : BitVec 2}
    (h : decode par c = .ok (.clkPllconfig src m n pcode)) : m ≠ 0#6 := by
  simpa [Instr.wellFormed] using decode_wellFormed h

end Sys2Proof
end

section
/-! PROOF. Every step keeps the clock registers off the reserved codes (10_state.md R28, 40_clocktree.md R96, R104). -/

namespace Sys2Proof.Machine

variable {s t : State}

/-- The legality of the clock registers asks only for CFGR and PLLCFGR. -/
theorem ClockLegal.congr (legal : ClockLegal s) (cfgr : t.cc.cfgr = s.cc.cfgr) (pllcfgr : t.cc.pllcfgr = s.cc.pllcfgr) :
    ClockLegal t := by
  unfold ClockLegal at *
  rwa [cfgr, pllcfgr]

/-- No source has the reserved code 3 (30_encoding.md R78, 10_state.md R28). -/
theorem code_ne_reserved (src : Source) : src.code ≠ 3#2 := by cases src <;> decide

/-- A write of an enable or reset bit outside CR, PLLCFGR and CFGR leaves these registers. -/
theorem putBit_other_clock {b : Nat × Nat} (c : ClockControl) (par : Config.Params) (v : Bool)
    (place : b.1 ≠ 0x00 ∧ b.1 ≠ 0x04 ∧ b.1 ≠ 0x08) :
    (c.putBit par b v).cr = c.cr ∧ (c.putBit par b v).pllcfgr = c.pllcfgr ∧ (c.putBit par b v).cfgr = c.cfgr := by
  rw [ClockControl.putBit_other c par v place.1 place.2.1 place.2.2]
  exact ⟨rfl, rfl, rfl⟩

/-- The clock-control writes of a command keep the clock registers legal, where the command decoded and the rows of
`PERIPH` name no bit of CFGR or PLLCFGR (42_peripheral_access.md R142). -/
theorem ClockWrite.keeps_legal {i : Instr} {c : Command} {cc : ClockControl} (board : BoardOk s.par)
    (decoded : decode s.par c = .ok i) (legal : ClockLegal s) (write : ClockWrite i s cc) :
    cc.cfgr.sw ≠ 3#2 ∧ cc.cfgr.sws ≠ 3#2 ∧ cc.pllcfgr.pllm ≠ 0#6 := by
  obtain ⟨sw, sws, pllm⟩ := id legal
  cases write with
  | none => exact legal
  | enable => exact legal
  | prescale => exact legal
  | switch src => exact ⟨code_ne_reserved src, sws, pllm⟩
  | pll src m n pcode cmd => subst cmd; exact ⟨sw, sws, decode_pllconfig_pos decoded⟩
  | enableBit p r v row =>
    obtain ⟨-, pllcfgr, cfgr⟩ := putBit_other_clock s.cc s.par v (board.enable_place row)
    rw [pllcfgr, cfgr]
    exact legal
  | resetBit p r v row =>
    obtain ⟨-, pllcfgr, cfgr⟩ := putBit_other_clock s.cc s.par v (board.reset_place row)
    rw [pllcfgr, cfgr]
    exact legal

/-- Every SEQ turn of a coherent block keeps the clock registers legal. -/
theorem SeqMove.keeps_clockLegal (board : BoardOk s.par) (coherent : SeqCoherent s) (legal : ClockLegal s)
    (move : SeqMove s t) : ClockLegal t := by
  cases move.coherent coherent with
  | micro c i fetched decoded line move =>
    cases move with
    | goesOn par commands cptr results clock goes => exact clock.keeps_legal board decoded legal
    | ends r par commands cptr results clock idle => exact clock.keeps_legal board decoded legal
    | faults f eq => subst eq; exact legal
  | undecoded c fetched ends => subst ends; exact legal
  | same eq => exact eq ▸ legal

/-- An oscillator turn leaves SW and PLLCFGR, and SWS becomes SW or stays (40_clocktree.md R109, R110). -/
theorem oscStep_switch (a : Config.OscStep) (s : State) :
    (oscStep a s).cc.cfgr.sw = s.cc.cfgr.sw ∧ (oscStep a s).cc.pllcfgr = s.cc.pllcfgr ∧
    ((oscStep a s).cc.cfgr.sws = s.cc.cfgr.sws ∨ (oscStep a s).cc.cfgr.sws = s.cc.cfgr.sw) := by
  unfold oscStep
  split
  · cases a with
    | confirmSwitch => exact ⟨rfl, rfl, .inr rfl⟩
    | _ => exact ⟨rfl, rfl, .inl rfl⟩
  · exact ⟨rfl, rfl, .inl rfl⟩

theorem oscStep_keeps_clockLegal (a : Config.OscStep) (legal : ClockLegal s) : ClockLegal (oscStep a s) := by
  obtain ⟨sw, pllcfgr, sws⟩ := oscStep_switch a s
  obtain ⟨swLegal, swsLegal, pllm⟩ := legal
  refine ⟨sw ▸ swLegal, ?_, pllcfgr ▸ pllm⟩
  rcases sws with sws | sws
  · exact sws ▸ swsLegal
  · exact sws ▸ swLegal

theorem step_keeps_clockLegal (board : BoardOk s.par) (coherent : SeqCoherent s) (legal : ClockLegal s)
    (h : step s = .next t) : ClockLegal t := by
  have taken := SeqSide.takeTurn s
  have legalTaken : ClockLegal s.takeTurn := legal.congr (by simp) (by simp)
  cases step_cases h with
  | seq clear turn move =>
    exact move.keeps_clockLegal (taken.par.symm ▸ board) (taken.coherent coherent) legalTaken
  | osc clear a turn eq => exact eq ▸ oscStep_keeps_clockLegal a legalTaken
  | bus clear k a turn eq =>
    have same := busStep_eq k a s.takeTurn
    rw [eq, same]
    exact legalTaken

/-- Legal clock registers have a frequency (40_clocktree.md R96). -/
theorem sysclk_of_clockLegal (legal : ClockLegal s) : ∃ f, sysclk s = .ok f := by
  obtain ⟨-, sws, pllm⟩ := legal
  have code : s.cc.cfgr.sws = 0#2 ∨ s.cc.cfgr.sws = 1#2 ∨ s.cc.cfgr.sws = 2#2 := by
    generalize s.cc.cfgr.sws = c at sws
    revert c
    decide
  unfold sysclk
  rcases code with code | code | code <;> rw [code]
  · exact ⟨_, rfl⟩
  · exact ⟨_, rfl⟩
  · exact ⟨_, by rw [show srcFreq s 2#2 = pllOut s from rfl, pllOut, if_neg pllm]⟩

/-- Settles O54: a command's clock-control writes (`ClockWrite`) carry a source's code and a decoded M, OSC copies SW
to SWS, and legal registers have a frequency. -/
theorem stepKeepsClockLegal : Obligations.StepKeepsClockLegal :=
  ⟨fun _ _ => step_keeps_clockLegal, fun _ => sysclk_of_clockLegal⟩

end Sys2Proof.Machine
end

section
/-! PROOF. The SEQ turn, the reset state and the invariants of a loaded state (10_state.md R22, R23, R49, R50). -/

namespace Sys2Proof.Machine

variable {s : State}

/-- A SEQ turn of a clear block is a turn of the sequencer. -/
theorem step_of_seq (clear : s.fault = none) (turn : s.nextTurn = .seq) : step s = seqTurn s.takeTurn := by
  rw [step_of_clear clear, turn]
  rfl

/-- Inside a command SEQ performs it. -/
theorem seqTurn_running {i : Instr} (cmd : s.seq.cmd = some i) : seqTurn s = exec i s := by
  rw [seqTurn, cmd]

/-- Between commands SEQ starts the one under CPTR. -/
theorem seqTurn_between (cmd : s.seq.cmd = none) : seqTurn s = startCommand s := by
  rw [seqTurn, cmd]

theorem startCommand_of_decode {c : Command} {i : Instr} (fetched : s.fetch = some c)
    (decoded : decode s.par c = .ok i) :
    startCommand s = exec i s := by
  simp [startCommand, fetched, decoded]

theorem startCommand_past_end (fetched : s.fetch = none) : startCommand s = .next s := by
  simp [startCommand, fetched]

/-- Settles O6: a SEQ turn of a clear block is `seqTurn`, and taking the turn leaves what it fetches and decodes. -/
theorem eachSeqTurnRunsItsCommand : Obligations.EachSeqTurnRunsItsCommand := by
  refine ⟨fun s i clear turn cmd => ?_, fun s c i clear turn cmd fetched decoded => ?_,
    fun s clear turn cmd fetched => ?_, fun s st v l => rfl⟩
  · rw [step_of_seq clear turn, seqTurn_running (by simpa using cmd)]
  · have fetched : s.takeTurn.fetch = some c := s.takeTurn_fetch.trans fetched
    rw [step_of_seq clear turn, seqTurn_between (by simpa using cmd),
      startCommand_of_decode fetched (by simpa using decoded)]
  · have fetched : s.takeTurn.fetch = none := s.takeTurn_fetch.trans fetched
    rw [step_of_seq clear turn, seqTurn_between (by simpa using cmd), startCommand_past_end fetched]

/-! Reset -/

section Reset

variable (par : Config.Params) (rs : ResetState)

@[simp] theorem afterBlockReset_isTaken (p : PeriphId) : (State.afterBlockReset par rs).isTaken p = false := by
  simp [State.afterBlockReset, State.isTaken]

@[simp] theorem afterBlockReset_hidden (k : InstId) : (State.afterBlockReset par rs).hidden k = BusLine.reset := by
  simp [State.afterBlockReset, State.hidden]

@[simp] theorem afterBlockReset_regs (k : InstId) : (State.afterBlockReset par .default).regs k = BusRegs.reset := by
  simp [State.afterBlockReset, State.regs, ResetState.default]

end Reset

/-- At the default reset every enable and reset bit is clear, wherever a right `PERIPH` puts it (10_state.md R49). -/
theorem enabled_of_reset_bits (board : BoardOk s.par) (bits : s.cc.enr = Vector.replicate Config.ids false)
    (p : PeriphId) : s.enabled p = false := by
  simp [board.enabled_eq, bits]

theorem inReset_of_reset_bits (board : BoardOk s.par) (bits : s.cc.rstr = Vector.replicate Config.ids false)
    (p : PeriphId) : s.inReset p = false := by
  simp [board.inReset_eq, bits]

/-- A row of the default `PERIPH` table (10_state.md R33). -/
theorem defaultPeriph_row {p : PeriphId} {r : Config.PeriphRow} (h : Config.Params.default.row p = some r) :
    p.val < 3 ∧ r = ⟨(0x40, 21 + p.val), (0x20, 21 + p.val), some p⟩ := by
  have rows : ∀ q : PeriphId, ∀ r ∈ Config.Params.default.row q,
      q.val < 3 ∧ r = ⟨(0x40, 21 + q.val), (0x20, 21 + q.val), some q⟩ := by decide
  exact rows p r h

/-- The bits of the default table are bits of their own (10_state.md R33, 42_peripheral_access.md R142). -/
theorem defaultPeriph_boardOk : BoardOk .default := by
  refine ⟨fun p r row => ?_, fun p q a b rowA rowB => ?_, fun k known => ⟨k, ?_⟩⟩
  · obtain ⟨small, rfl⟩ := defaultPeriph_row row
    simp only
    omega
  · obtain ⟨-, rfl⟩ := defaultPeriph_row rowA
    obtain ⟨-, rfl⟩ := defaultPeriph_row rowB
    simp only [ne_eq, Prod.mk.injEq, Option.some.injEq, Fin.ext_iff]
    exact ⟨by omega, fun _ => ⟨by omega, by omega, fun k _ => by omega⟩⟩
  · revert k
    decide

/-- Settles O8: the words of `BusRegs.reset` and `ClockControl.reset`, and clear enable and reset bits on the default
`PERIPH` table. -/
theorem resetHoldsTheStatedValues : Obligations.ResetHoldsTheStatedValues := by
  have regs (k : InstId) : State.reset.regs k = BusRegs.reset := afterBlockReset_regs _ k
  refine ⟨by decide, rfl, by decide, fun p => ⟨?_, ?_, afterBlockReset_isTaken _ _ p⟩, fun k r mem => ?_, fun k => ?_,
    rfl, rfl, rfl, rfl, rfl, rfl, rfl, rfl, fun k => ⟨afterBlockReset_hidden _ _ k, by rw [regs]; rfl⟩,
    fun par rs => rfl⟩
  · exact enabled_of_reset_bits defaultPeriph_boardOk rfl p
  · exact inReset_of_reset_bits defaultPeriph_boardOk rfl p
  · rw [regWord, regs]
    revert r
    decide
  · rw [regWord, regs]
    decide

/-- Between commands nothing is owned by a command, so ownership asks only for clear enable bits. -/
theorem OwnershipHeld.of_clear (cmd : s.seq.cmd = none) (clear : ∀ p, s.enabled p = false) : OwnershipHeld s :=
  ⟨fun p on => absurd on (by simp [clear p]), fun i p running => by simp [cmd] at running,
    fun i k running => by simp [cmd] at running⟩

theorem ResetPulse.of_clear (clear : ∀ p, s.inReset p = false) : ResetPulse s :=
  fun p set => absurd set (by simp [clear p])

/-- Between commands SW = SWS is all that `SwitchSettled` asks for (40_clocktree.md R103). -/
theorem SwitchSettled.of_between (cmd : s.seq.cmd = none) (settled : s.cc.cfgr.sw = s.cc.cfgr.sws) :
    SwitchSettled s := by
  unfold SwitchSettled
  rw [cmd]
  exact settled

/-- The default clock registers are legal (10_state.md R49). -/
theorem reset_clock_legal :
    ClockControl.reset.cfgr.sw ≠ 3#2 ∧ ClockControl.reset.cfgr.sws ≠ 3#2 ∧ ClockControl.reset.pllcfgr.pllm ≠ 0#6 := by
  decide

/-- Settles O51: right after reset no command is in progress, so each invariant asks only for what
`RESET_STATE` holds. -/
theorem loadedStatesMeetTheInvariants : Obligations.LoadedStatesMeetTheInvariants := by
  refine ⟨fun par rs commands agenda => ?_, fun par commands agenda => ?_, defaultPeriph_boardOk⟩
  · exact ⟨.of_idle rfl, ⟨rfl, Nat.zero_le _⟩, fun sw sws pllm => ⟨sw, sws, pllm⟩,
      fun settled => .of_between rfl settled, fun clear => .of_clear rfl clear, fun clear => .of_clear clear⟩
  · refine ⟨reset_clock_legal, .of_between rfl rfl, fun board => ⟨.of_clear rfl fun p => ?_, .of_clear fun p => ?_⟩⟩
    · exact enabled_of_reset_bits board rfl p
    · exact inReset_of_reset_bits board rfl p

end Sys2Proof.Machine
end

section
/-! PROOF. What a whole-word write leaves in the named bits and the reserved bits of every register
(10_state.md R25 to R27, R36 to R42, R52; 20_memory.md R62). -/

namespace Sys2Proof.Machine

/-! Words bit by bit -/

/-- Two words with the same 32 bits. -/
theorem word_ext {v w : Word} (h : ∀ j, j < 32 → v.getLsbD j = w.getLsbD j) : v = w := BitVec.eq_of_getLsbD_eq h

/-- CC.CR after a word write: the enables from the word, the ready flags as they were (10_state.md R25). -/
theorem Cr.toWord_put (r : Cr) (v : Word) :
    (r.put v).toWord = (v &&& 0x01010001#32) ||| (r.toWord &&& 0x02020002#32) := by
  refine word_ext fun j hj => ?_
  simp only [Cr.toWord, Cr.put, BitVec.getLsbD_or, BitVec.getLsbD_and, bitAt_getLsbD _ _ _ hj, bitOf]
  interval_cases j <;> simp

theorem PllInput.code_ofCode (c : BitVec 1) : (PllInput.ofCode c).code = c := by
  revert c
  decide

theorem Pllcfgr.toWord_ofWord (v : Word) : (Pllcfgr.ofWord v).toWord = v &&& 0x00437FFF#32 := by
  refine word_ext fun j hj => ?_
  simp only [Pllcfgr.toWord, Pllcfgr.ofWord, PllInput.code_ofCode, BitVec.getLsbD_append, BitVec.getLsbD_and,
    BitVec.getLsbD_extractLsb']
  interval_cases j <;> simp

theorem Cfgr.toWord_put (r : Cfgr) (v : Word) :
    (r.put v).toWord = (v &&& 0x0000FCF3#32) ||| (r.toWord &&& 0x0000000C#32) := by
  refine word_ext fun j hj => ?_
  simp only [Cfgr.toWord, Cfgr.put, BitVec.getLsbD_append, BitVec.getLsbD_and, BitVec.getLsbD_or,
    BitVec.getLsbD_extractLsb']
  interval_cases j <;> simp

theorem Cr1.toWord_ofWord (v : Word) : (Cr1.ofWord v).toWord = v &&& 0x00000701#32 := by
  refine word_ext fun j hj => ?_
  simp only [Cr1.toWord, Cr1.ofWord, BitVec.getLsbD_or, BitVec.getLsbD_and, bitAt_getLsbD _ _ _ hj, bitOf]
  interval_cases j <;> simp

theorem oar1Word_field (v : Word) : oar1Word (v.extractLsb' 1 7) = v &&& 0x000000FE#32 := by
  refine word_ext fun j hj => ?_
  simp only [oar1Word, BitVec.getLsbD_append, BitVec.getLsbD_and, BitVec.getLsbD_extractLsb']
  interval_cases j <;> simp

theorem Oar2.toWord_ofWord (v : Word) : (Oar2.ofWord v).toWord = v &&& 0x000000FF#32 := by
  refine word_ext fun j hj => ?_
  simp only [Oar2.toWord, Oar2.ofWord, BitVec.getLsbD_append, BitVec.getLsbD_and, BitVec.getLsbD_extractLsb', bitOf]
  interval_cases j <;> simp

theorem Ccr.toWord_ofWord (v : Word) : (Ccr.ofWord v).toWord = v &&& 0x0000CFFF#32 := by
  refine word_ext fun j hj => ?_
  simp only [Ccr.toWord, Ccr.ofWord, BitVec.getLsbD_append, BitVec.getLsbD_and, BitVec.getLsbD_extractLsb', bitOf]
  interval_cases j <;> simp

theorem triseWord_field (v : Word) : (v.setWidth 6).setWidth 32 = v &&& 0x0000003F#32 := by
  refine word_ext fun j hj => ?_
  simp only [BitVec.getLsbD_setWidth, BitVec.getLsbD_and]
  interval_cases j <;> simp

theorem byteWord_reserved (b : Byte) : b.setWidth 32 &&& ~~~0x000000FF#32 = 0#32 := by
  refine word_ext fun j hj => ?_
  simp only [BitVec.getLsbD_setWidth, BitVec.getLsbD_and, BitVec.getLsbD_not, BitVec.getLsbD_zero]
  interval_cases j <;> simp

theorem Sr1.toWord_reserved (r : Sr1) : r.toWord &&& ~~~0x000007C7#32 = 0#32 := by
  refine word_ext fun j hj => ?_
  simp only [Sr1.toWord, BitVec.getLsbD_or, BitVec.getLsbD_and, bitAt_getLsbD _ _ _ hj]
  interval_cases j <;> simp

theorem Sr2.toWord_reserved (r : Sr2) : r.toWord &&& ~~~0x00000007#32 = 0#32 := by
  refine word_ext fun j hj => ?_
  simp only [Sr2.toWord, BitVec.getLsbD_or, BitVec.getLsbD_and, bitAt_getLsbD _ _ _ hj]
  interval_cases j <;> simp

/-! Enable and reset words -/

/-- A write of the word at `off` writes one bit of the list after another (log 18). -/
def writeBits (off : Nat) (v : Word) (l : List (Nat × Nat)) (s : State) : State :=
  l.foldl (fun t b => if b.1 = off then t.putBit b (bitOf v b.2) else t) s

theorem writeGate_eq (s : State) (off : Nat) (v : Word) : writeGate s off v = writeBits off v (gateBits s.par) s := rfl

variable {off : Nat} {s : State} {v : Word} {l : List (Nat × Nat)}

theorem writeBits_cons (b : Nat × Nat) : writeBits off v (b :: l) s =
    writeBits off v l (if b.1 = off then s.putBit b (bitOf v b.2) else s) := rfl

@[simp] theorem writeBits_par : (writeBits off v l s).par = s.par := by
  induction l generalizing s with
  | nil => rfl
  | cons b l ih =>
    rw [writeBits_cons, ih]
    split <;> rfl

/-- An enable bit outside CR, PLLCFGR and CFGR after a write of the bits `l` of the word at `off`. -/
theorem enabled_writeBits {p : PeriphId} {r : Config.PeriphRow} (apart : off ≠ 0x00 ∧ off ≠ 0x04 ∧ off ≠ 0x08)
    (row : s.par.row p = some r) :
    (writeBits off v l s).enabled p = if r.enable.1 = off ∧ r.enable ∈ l then bitOf v r.enable.2 else s.enabled p := by
  induction l generalizing s with
  | nil => simp [writeBits]
  | cons b l ih =>
    rw [writeBits_cons]
    by_cases place : b.1 = off
    · subst place
      obtain ⟨h0, h4, h8⟩ := apart
      rw [if_pos rfl, ih (s := s.putBit b _) row, State.enabled_putBit s _ p h0 h4 h8]
      by_cases same : r.enable = b <;> simp_all
    · rw [if_neg place, ih row]
      by_cases same : r.enable = b <;> simp_all

/-- A reset bit outside CR, PLLCFGR and CFGR after a write of the bits `l` of the word at `off`. -/
theorem inReset_writeBits {p : PeriphId} {r : Config.PeriphRow} (apart : off ≠ 0x00 ∧ off ≠ 0x04 ∧ off ≠ 0x08)
    (row : s.par.row p = some r) :
    (writeBits off v l s).inReset p = if r.reset.1 = off ∧ r.reset ∈ l then bitOf v r.reset.2 else s.inReset p := by
  induction l generalizing s with
  | nil => simp [writeBits]
  | cons b l ih =>
    rw [writeBits_cons]
    by_cases place : b.1 = off
    · subst place
      obtain ⟨h0, h4, h8⟩ := apart
      rw [if_pos rfl, ih (s := s.putBit b _) row, State.inReset_putBit s _ p h0 h4 h8]
      by_cases same : r.reset = b <;> simp_all
    · rw [if_neg place, ih row]
      by_cases same : r.reset = b <;> simp_all

/-- The bits that `PERIPH` names are those of its rows. -/
theorem mem_gateBits {par : Config.Params} {b : Nat × Nat} :
    b ∈ gateBits par ↔ ∃ p r, par.row p = some r ∧ (r.enable = b ∨ r.reset = b) := by
  simp only [gateBits, List.mem_append, List.mem_map]
  constructor
  · rintro (⟨r, mem, eq⟩ | ⟨r, mem, eq⟩)
    · obtain ⟨p, row⟩ := row_of_mem mem
      exact ⟨p, r, row, .inr eq⟩
    · obtain ⟨p, row⟩ := row_of_mem mem
      exact ⟨p, r, row, .inl eq⟩
  · rintro ⟨p, r, row, eq | eq⟩
    · exact .inr ⟨r, mem_rows row, eq⟩
    · exact .inl ⟨r, mem_rows row, eq⟩

/-- After a word write of an enable or reset word the bits that `PERIPH` names there read back, and no other bit is set
(10_state.md R32, R52; log 18). -/
theorem gateWord_writeGate (s : State) (v : Word) (apart : off ≠ 0x00 ∧ off ≠ 0x04 ∧ off ≠ 0x08) {j : Nat}
    (hj : j < 32) :
    (gateWord (writeGate s off v) off).getLsbD j = (v.getLsbD j && decide ((off, j) ∈ gateBits s.par)) := by
  refine Bool.eq_iff_iff.mpr ?_
  rw [writeGate_eq, gateWord_getLsbD _ _ _ hj, writeBits_par, Bool.and_eq_true, decide_eq_true_eq]
  constructor
  · rintro ⟨p, r, row, ⟨place, set⟩ | ⟨place, set⟩⟩
    · have named : (off, j) ∈ gateBits s.par := mem_gateBits.mpr ⟨p, r, row, .inl place⟩
      rw [enabled_writeBits apart row, place, if_pos ⟨rfl, named⟩] at set
      exact ⟨set, named⟩
    · have named : (off, j) ∈ gateBits s.par := mem_gateBits.mpr ⟨p, r, row, .inr place⟩
      rw [inReset_writeBits apart row, place, if_pos ⟨rfl, named⟩] at set
      exact ⟨set, named⟩
  · rintro ⟨set, named⟩
    obtain ⟨p, r, row, place | place⟩ := mem_gateBits.mp named
    · exact ⟨p, r, row, .inl ⟨place, by rw [enabled_writeBits apart row, place, if_pos ⟨rfl, named⟩]; exact set⟩⟩
    · exact ⟨p, r, row, .inr ⟨place, by rw [inReset_writeBits apart row, place, if_pos ⟨rfl, named⟩]; exact set⟩⟩

/-- A bit that no row of `PERIPH` names reads 0 (10_state.md R52). -/
theorem gateWord_unnamed {i : Nat} (hi : i < 32)
    (unnamed : ∀ p r, s.par.row p = some r → r.enable ≠ (off, i) ∧ r.reset ≠ (off, i)) :
    (gateWord s off).getLsbD i = false := by
  refine Bool.eq_false_iff.mpr fun set => ?_
  obtain ⟨p, r, row, ⟨place, -⟩ | ⟨place, -⟩⟩ := (gateWord_getLsbD s off i hi).mp set
  · exact (unnamed p r row).1 place
  · exact (unnamed p r row).2 place

/-- The bits of the default `PERIPH` table: 21 to 23 of the words at 0x20 and 0x40 (10_state.md R33). -/
theorem gateBits_default {par : Config.Params} (table : par.periph = Config.defaultPeriph) :
    gateBits par = [(0x20, 21), (0x20, 22), (0x20, 23), (0x40, 21), (0x40, 22), (0x40, 23)] := by
  unfold gateBits Config.Params.rows
  rw [table]
  decide

theorem gateWord_default (s : State) (v : Word) (table : s.par.periph = Config.defaultPeriph)
    (place : off = 0x20 ∨ off = 0x40) : gateWord (writeGate s off v) off = v &&& 0x00E00000#32 := by
  refine word_ext fun j hj => ?_
  rw [gateWord_writeGate s v (by omega) hj, gateBits_default table, BitVec.getLsbD_and]
  congr 1
  rcases place with rfl | rfl <;> revert j <;> decide

/-- Settles O58: each register's word after a write, bit by bit, and the enable and reset words from the bits that
`PERIPH` names. -/
theorem reservedBitsReadZero : Obligations.ReservedBitsReadZero := by
  intro s k v
  refine ⟨s.cc.cr.toWord_put v, Pllcfgr.toWord_ofWord v, s.cc.cfgr.toWord_put v, ?_, rfl, rfl, ?_, ?_, ?_, ?_,
    byteWord_reserved _, ?_, ?_, Sr1.toWord_reserved _, Sr2.toWord_reserved _,
    fun table => ⟨gateWord_default s v table (.inr rfl), gateWord_default s v table (.inl rfl)⟩,
    fun off i hi unnamed => gateWord_unnamed hi unnamed⟩
  · simp [regWord, regPut, writeBusReg, busWord, Cr1.toWord_ofWord]
  · simp [regWord, regPut, writeBusReg, busWord, oar1Word_field]
  · simp [regWord, regPut, writeBusReg, busWord, Oar2.toWord_ofWord]
  · simp [regPut, writeBusReg, BitVec.setWidth_eq_extractLsb']
  · simp [regWord, regPut, writeBusReg, busWord]
  · simp [regWord, regPut, writeBusReg, busWord, Ccr.toWord_ofWord]
  · simp [regWord, regPut, writeBusReg, busWord, triseWord_field]

end Sys2Proof.Machine
end

section
/-! PROOF. Every step leaves the parameters and the command space, and CPTR advances only with one result
(10_state.md R22, R23; 20_memory.md R71; 70_reset_and_hazards.md R211). -/

namespace Sys2Proof.Machine

variable {s t u : State}

/-- What every turn of every agent keeps of the command side: nothing writes the parameters or the command list, and a
result is appended exactly where CPTR advances. -/
structure LogStep (s t : State) : Prop where
  par : t.par = s.par
  commands : t.commands = s.commands
  pointer : t.cptr = s.cptr ∧ t.results = s.results ∨ t.cptr = s.cptr + 1 ∧ ∃ r, t.results = s.results ++ [r]

theorem LogStep.refl (s : State) : LogStep s s := ⟨rfl, rfl, .inl ⟨rfl, rfl⟩⟩

/-- A command that ends, however it does (10_state.md R23). -/
theorem LogStep.finish (s : State) (st : Status) (v : Word) (l : List Byte) : LogStep s (s.finish st v l) :=
  ⟨rfl, rfl, .inr ⟨rfl, _, rfl⟩⟩

/-- The agents beside SEQ touch nothing of the command side. -/
theorem SeqSide.logStep (h : SeqSide s t) : LogStep s t := ⟨h.par, h.commands, .inl ⟨h.cptr, h.results⟩⟩

theorem LogStep.after (side : SeqSide s u) (h : LogStep u t) : LogStep s t := by
  obtain ⟨par, commands, pointer⟩ := h
  rw [side.cptr, side.results] at pointer
  exact ⟨par.trans side.par, commands.trans side.commands, pointer⟩

/-- A micro-step goes on or faults with CPTR as it was, or ends its command with one result. -/
theorem MicroStep.logStep {i : Instr} (move : MicroStep i s t) : LogStep s t := by
  cases move with
  | goesOn par commands cptr results clock line => exact ⟨par, commands, .inl ⟨cptr, results⟩⟩
  | ends r par commands cptr results clock idle => exact ⟨par, commands, .inr ⟨cptr, r, results⟩⟩
  | faults f eq => exact eq ▸ ⟨rfl, rfl, .inl ⟨rfl, rfl⟩⟩

theorem SeqMove.logStep (move : SeqMove s t) : LogStep s t := by
  cases move with
  | resume i running runs => exact (exec_microStep runs).logStep
  | begins c i idle fetched decoded runs => exact (exec_microStep runs).logStep
  | undecoded c e idle fetched refused ends => exact ends ▸ .finish s _ _ _
  | ended idle empty same => exact same ▸ .refl s

theorem step_logStep (h : step s = .next t) : LogStep s t := by
  have taken := SeqSide.takeTurn s
  cases step_cases h with
  | seq clear turn move => exact move.logStep.after taken
  | osc clear a turn eq => exact eq ▸ (oscStep_seqSide a _).logStep.after taken
  | bus clear k a turn eq => exact eq ▸ (busStep_seqSide k a _).logStep.after taken

/-- Settles O47: a SEQ turn is a `MicroStep`, the end of a command that does not decode, or nothing; the other agents
leave the sequencer's side. -/
theorem commandSpaceAndPointer : Obligations.CommandSpaceAndPointer := by
  intro s t h
  obtain ⟨par, commands, pointer⟩ := step_logStep h
  exact ⟨par, commands, pointer⟩

end Sys2Proof.Machine
end

section
/-! PROOF. The register space: where each register stands, which addresses are accesses, and what an access does
(20_memory.md R54 to R64). -/

namespace Sys2Proof.Machine

open Sys2Proof.Claims

variable {s : State} {r : Reg}

/-- On a platform with right addresses a register stands at its address (20_memory.md R55). -/
theorem regAt_of_mem {par : Config.Params} (addresses : AddressesOk par) (mem : r ∈ allRegs par) :
    regAt par (r.addr par) = some r :=
  regAt_addr addresses.1 mem (addresses.2 r mem).1 (addresses.2 r mem).2

/-- On a platform with right addresses the addresses of the registers are those at which one stands. -/
theorem exists_regAt_iff {par : Config.Params} (addresses : AddressesOk par) {a : Nat} :
    (∃ r, regAt par a = some r) ↔ ∃ r ∈ allRegs par, r.addr par = a := by
  constructor
  · rintro ⟨r, at_⟩
    by_contra absent
    simp [regAt_none (.inr (.inr fun q mem eq => absent ⟨q, mem, eq⟩))] at at_
  · rintro ⟨r, mem, rfl⟩
    exact ⟨r, regAt_of_mem addresses mem⟩

theorem regRead_of_regAt {a : Nat} (at_ : regAt s.par a = some r) :
    regRead a s = .ok (regWord s r, afterRegRead s r) := by
  simp [regRead, at_]

theorem regWrite_of_regAt {a : Nat} (v : Word) (at_ : regAt s.par a = some r) :
    regWrite a v s = .ok (regPut s r v) := by
  simp [regWrite, at_]

/-- A read is an access exactly where a register stands (20_memory.md R61). -/
theorem exists_regRead_iff {a : Nat} : (∃ w t, regRead a s = .ok (w, t)) ↔ ∃ r, regAt s.par a = some r := by
  constructor
  · rintro ⟨w, t, read⟩
    obtain ⟨r, at_, -⟩ := regRead_ok read
    exact ⟨r, at_⟩
  · rintro ⟨r, at_⟩
    exact ⟨_, _, regRead_of_regAt at_⟩

/-- Where no register stands every access is refused (20_memory.md R60, R61). -/
theorem access_refused {a : Nat} (v : Word) (nowhere : regAt s.par a = none) :
    regRead a s = .error .unmodelledAddress ∧ regWrite a v s = .error .unmodelledAddress := by
  simp [regRead, regWrite, nowhere]

/-- Only DR's read has a side effect (20_memory.md R64). -/
theorem afterRegRead_of_ne_dr (other : ∀ k, r ≠ .bus k .dr) : afterRegRead s r = s := by
  cases r with
  | bus k b =>
    cases b with
    | dr => exact absurd rfl (other k)
    | _ => rfl
  | _ => rfl

/-- Byte `i` of an aligned word (20_memory.md R57). -/
theorem readByte_of_regAt {a i : Nat} (at_ : regAt s.par a = some r) (aligned : a % 4 = 0) (hi : i < 4) :
    s.readByte (a + i) = some ((regWord s r).extractLsb' (8 * i) 8) := by
  have word : (a + i) / 4 * 4 = a := by omega
  have byte : (a + i) % 4 = i := by omega
  simp [State.readByte, word, byte, at_]

/-- The default bases and table put the registers at different aligned addresses of 32 bits (20_memory.md R65). -/
theorem default_addressesOk : AddressesOk .default := by decide

/-- The registers of the default platform: five words of clock control and nine of each of
three bus controllers. -/
theorem default_addresses : (allRegs .default).map (fun r => r.addr .default) =
    [0x40023800, 0x40023804, 0x40023808, 0x40023820, 0x40023840] ++
      (List.range 3).flatMap fun k => (List.range 9).map fun o => 0x40005400 + k * 0x400 + 4 * o := by
  decide

/-- Which addresses are registers with the default parameters (20_memory.md R55, R65). -/
theorem default_address_iff {a : Nat} : (∃ r ∈ allRegs .default, r.addr .default = a) ↔
    a ∈ [0x40023800, 0x40023804, 0x40023808, 0x40023820, 0x40023840] ∨
      ∃ k o, k < 3 ∧ o < 9 ∧ a = 0x40005400 + k * 0x400 + 4 * o := by
  rw [← List.mem_map, default_addresses, List.mem_append]
  refine or_congr_right ?_
  simp only [List.mem_flatMap, List.mem_map, List.mem_range]
  constructor
  · rintro ⟨k, hk, o, ho, rfl⟩
    exact ⟨k, o, hk, ho, rfl⟩
  · rintro ⟨k, o, hk, ho, rfl⟩
    exact ⟨k, hk, o, ho, rfl⟩

/-- Settles O60: an access finds its register by `regAt`, which answers each register at its address where the addresses
are right, and none anywhere else. -/
theorem registerSpaceAccess : Obligations.RegisterSpaceAccess := by
  refine ⟨fun par k off => ⟨rfl, rfl, rfl, rfl, rfl⟩, ⟨default_addressesOk, fun s a par => ?_⟩,
    fun a s v nowhere => ?_, fun s r v addresses mem => ?_, fun s r addresses mem => ?_,
    fun s r i addresses mem hi => ?_⟩
  · rw [exists_regRead_iff, par, exists_regAt_iff default_addressesOk, default_address_iff]
  · exact access_refused v (regAt_none (nowhere.imp_right .inr))
  · exact regWrite_of_regAt v (regAt_of_mem addresses mem)
  · exact ⟨_, regRead_of_regAt (regAt_of_mem addresses mem), afterRegRead_of_ne_dr, fun k dr => by rw [dr]; rfl⟩
  · exact readByte_of_regAt (regAt_of_mem addresses mem) (addresses.2 r mem).1 hi

end Sys2Proof.Machine
end

section
/-! PROOF. A register's word carries its fields back, so the write of a field is the write of the word (20_memory.md
R63). -/

namespace Sys2Proof.Machine

open Sys2Proof.Claims

theorem bitOf_bitAt (b : Bool) (n i : Nat) (hi : i < 32) : bitOf (bitAt b n) i = (b && decide (n = i)) :=
  bitAt_getLsbD b n i hi

theorem bitOf_or (v w : Word) (i : Nat) : bitOf (v ||| w) i = (bitOf v i || bitOf w i) := BitVec.getLsbD_or

theorem bitOf_and (v w : Word) (i : Nat) : bitOf (v &&& w) i = (bitOf v i && bitOf w i) := BitVec.getLsbD_and

theorem Cr1.ofWord_toWord (r : Cr1) : Cr1.ofWord r.toWord = r := by
  simp [Cr1.ofWord, Cr1.toWord, bitOf_or, bitOf_bitAt]

theorem Ccr.ofWord_toWord (r : Ccr) : Ccr.ofWord r.toWord = r := by
  simp only [Ccr.ofWord, Ccr.toWord, bitOf, BitVec.getLsbD_append, BitVec.extractLsb'_append_eq_ite]
  simp

theorem Oar2.ofWord_toWord (r : Oar2) : Oar2.ofWord r.toWord = r := by
  simp only [Oar2.ofWord, Oar2.toWord, bitOf, BitVec.getLsbD_append, BitVec.extractLsb'_append_eq_ite]
  simp

theorem oar1Field_word (a : BitVec 7) : (oar1Word a).extractLsb' 1 7 = a := by
  simp only [oar1Word, BitVec.extractLsb'_append_eq_ite]
  simp

theorem PllInput.ofCode_code (i : PllInput) : PllInput.ofCode i.code = i := by
  cases i <;> rfl

theorem Pllcfgr.ofWord_toWord (r : Pllcfgr) : Pllcfgr.ofWord r.toWord = r := by
  simp only [Pllcfgr.ofWord, Pllcfgr.toWord, BitVec.extractLsb'_append_eq_ite]
  simp [PllInput.ofCode_code]

/-- SWS is not written, so it has to be the one that stands there (10_state.md R27). -/
theorem Cfgr.put_toWord {r w : Cfgr} (sws : w.sws = r.sws) : r.put w.toWord = w := by
  simp only [Cfgr.put, Cfgr.toWord, ← sws, BitVec.extractLsb'_append_eq_ite]
  simp

/-- The enables of CR are carried back by its word; the ready flags have to be those that stand there (10_state.md
R25). -/
theorem Cr.put_toWord {r w : Cr} (hsirdy : w.hsirdy = r.hsirdy) (hserdy : w.hserdy = r.hserdy)
    (pllrdy : w.pllrdy = r.pllrdy) : r.put w.toWord = w := by
  simp [Cr.put, Cr.toWord, bitOf_or, bitOf_bitAt, ← hsirdy, ← hserdy, ← pllrdy]

theorem Cr.put_withEnable (src : Source) (r : Cr) : r.put (withEnable src r).toWord = withEnable src r := by
  cases src <;> exact Cr.put_toWord rfl rfl rfl

/-- The bits of SR1 that SEQ may clear (10_state.md R39). -/
theorem Sr1.bitOf_sb (r : Sr1) : bitOf r.toWord 0 = r.sb := by
  simp [Sr1.toWord, bitOf_or, bitOf_bitAt]

theorem Sr1.bitOf_addr (r : Sr1) : bitOf r.toWord 1 = r.addr := by
  simp [Sr1.toWord, bitOf_or, bitOf_bitAt]

theorem consumeSb_eq_regPut (s : State) (k : InstId) :
    s.consumeSb k = regPut s (.bus k .sr1) (regWord s (.bus k .sr1) &&& ~~~1#32) := by
  have bits : bitOf 0xFFFFFFFE#32 0 = false ∧ bitOf 0xFFFFFFFE#32 1 = true := by decide
  simp [State.consumeSb, Sr1.consumeSb, regPut, writeBusReg, regWord, busWord, bitOf_and, Sr1.bitOf_addr, bits]

theorem consumeAddr_eq_regPut (s : State) (k : InstId) :
    s.consumeAddr k = regPut s (.bus k .sr1) (regWord s (.bus k .sr1) &&& ~~~2#32) := by
  have bits : bitOf 0xFFFFFFFD#32 0 = true ∧ bitOf 0xFFFFFFFD#32 1 = false := by decide
  simp [State.consumeAddr, Sr1.consumeAddr, regPut, writeBusReg, regWord, busWord, bitOf_and, Sr1.bitOf_sb, bits]

end Sys2Proof.Machine
end

section
/-! PROOF. The write of an enable or reset word that replaces one bit writes that bit alone, on a platform whose
`PERIPH` rows name bits of their own (20_memory.md R63; 42_peripheral_access.md R137 to R139, R142). -/

namespace Sys2Proof.Machine

open Sys2Proof.Claims

/-! Writes that change nothing -/

variable {s : State} {b c : Nat × Nat} {v x : Bool}

theorem BusLine.afterReset_afterReset (h : BusLine) : h.afterReset.afterReset = h.afterReset := by
  obtain ⟨line, pending, expect, written, seen⟩ := h
  cases line <;> rfl

/-- A write that leaves clock control, the registers and the hidden state leaves the state. -/
theorem putBit_eq_self (cc : (s.putBit b v).cc = s.cc) (regs : ∀ k, (s.putBit b v).regs k = s.regs k)
    (hidden : ∀ k, (s.putBit b v).hidden k = s.hidden k) : s.putBit b v = s := by
  have i2c : (s.putBit b v).i2c = s.i2c := Vector.ext fun k hk => regs ⟨k, hk⟩
  have bus : (s.putBit b v).bus = s.bus := Vector.ext fun k hk => hidden ⟨k, hk⟩
  calc s.putBit b v
      _ = { s with cc := (s.putBit b v).cc, i2c := (s.putBit b v).i2c, bus := (s.putBit b v).bus } := rfl
      _ = s := by rw [cc, i2c, bus]

/-- A second write of the same value at a place beside CR, PLLCFGR and CFGR changes nothing. -/
theorem putBit_putBit_same (s : State) (v : Bool) (apart : b.1 ≠ 0x00 ∧ b.1 ≠ 0x04 ∧ b.1 ≠ 0x08) :
    (s.putBit b v).putBit b v = s.putBit b v := by
  obtain ⟨h0, h4, h8⟩ := apart
  refine putBit_eq_self ?_ (fun k => ?_) fun k => ?_
  · simp only [State.putBit_cc, State.putBit_par, ClockControl.putBit_other _ _ _ h0 h4 h8, ClockControl.mk.injEq,
      true_and]
    refine ⟨Vector.ext fun q hq => ?_, Vector.ext fun q hq => ?_⟩
    · simp +contextual
    · simp +contextual
  · simp only [State.regs_putBit, State.putBit_par, ClockControl.asserts_other _ _ _ h0 h4 h8]
    split <;> rfl
  · simp only [State.hidden_putBit, State.putBit_par, ClockControl.asserts_other _ _ _ h0 h4 h8]
    split
    · exact BusLine.afterReset_afterReset _
    · rfl

/-- A write of `x` at `b` writes what stands there: the enable bits there are `x`, and a reset bit there is clear and
written 0. (A reset bit that is set and written 1 again resets its bus controller once more.) -/
def Settled (s : State) (b : Nat × Nat) (x : Bool) : Prop :=
  ∀ q r, s.par.row q = some r → (r.enable = b → s.enabled q = x) ∧ (r.reset = b → s.inReset q = false ∧ x = false)

/-- Writing what stands there leaves the state. -/
theorem Settled.putBit_eq (settled : Settled s b x) (board : BoardOk s.par) (named : b ∈ gateBits s.par) :
    s.putBit b x = s := by
  obtain ⟨q, r, row, rfl | rfl⟩ := mem_gateBits.mp named
  · have held : s.cc.enr[q.val] = x := (board.enabled_eq q).symm.trans ((settled q r row).1 rfl)
    rw [putBit_enable board row, ← held, Vector.set_getElem_self]
  · obtain ⟨clear, rfl⟩ := (settled q r row).2 rfl
    have held : s.cc.rstr[q.val] = false := (board.inReset_eq q).symm.trans clear
    refine putBit_eq_self ?_ (State.regs_putBit_false s _) (State.hidden_putBit_false s _)
    rw [(putBit_reset board row false).1, ← held, Vector.set_getElem_self]

/-- A write of another bit leaves a settled one settled. -/
theorem Settled.putBit (settled : Settled s b x) (apart : c.1 ≠ 0x00 ∧ c.1 ≠ 0x04 ∧ c.1 ≠ 0x08) (other : b ≠ c)
    (v : Bool) : Settled (s.putBit c v) b x := by
  obtain ⟨h0, h4, h8⟩ := apart
  intro q r row
  rw [State.putBit_par] at row
  obtain ⟨enable, reset⟩ := settled q r row
  rw [State.enabled_putBit s v q h0 h4 h8, State.inReset_putBit s v q h0 h4 h8, row]
  constructor
  · rintro rfl
    simpa [other] using enable rfl
  · rintro rfl
    simpa [other] using reset rfl

/-- On a right platform the bit of the composed word at an enable bit is that enable bit (10_state.md R32). -/
theorem gateWord_enable {p : PeriphId} {r : Config.PeriphRow} (board : BoardOk s.par) (row : s.par.row p = some r) :
    bitOf (gateWord s r.enable.1) r.enable.2 = s.enabled p := by
  refine Bool.eq_iff_iff.mpr ((gateWord_getLsbD s _ _ (board.1 p r row).1).trans ⟨?_, fun set => ?_⟩)
  · rintro ⟨q, a, rowA, ⟨place, set⟩ | ⟨place, -⟩⟩
    · exact board.enable_unique rowA row place ▸ set
    · exact absurd place.symm (board.2.1 p q r a row rowA).1
  · exact ⟨p, r, row, .inl ⟨rfl, set⟩⟩

/-- On a right platform the bit of the composed word at a reset bit is that reset bit (10_state.md R32). -/
theorem gateWord_reset {p : PeriphId} {r : Config.PeriphRow} (board : BoardOk s.par) (row : s.par.row p = some r) :
    bitOf (gateWord s r.reset.1) r.reset.2 = s.inReset p := by
  refine Bool.eq_iff_iff.mpr ((gateWord_getLsbD s _ _ (board.1 p r row).2.1).trans ⟨?_, fun set => ?_⟩)
  · rintro ⟨q, a, rowA, ⟨place, -⟩ | ⟨place, set⟩⟩
    · exact absurd place (board.2.1 q p a r rowA row).1
    · exact board.reset_unique rowA row place ▸ set
  · exact ⟨p, r, row, .inr ⟨rfl, set⟩⟩

/-- A bit of the composed word is settled, where the reset bits at its place are clear. -/
theorem settled_gateWord (board : BoardOk s.par)
    (clear : ∀ q r, s.par.row q = some r → r.reset = b → s.inReset q = false) :
    Settled s b (bitOf (gateWord s b.1) b.2) := by
  refine fun q r row => ⟨?_, ?_⟩
  · rintro rfl
    exact (gateWord_enable board row).symm
  · rintro rfl
    exact ⟨clear q r row rfl, (gateWord_reset board row).trans (clear q r row rfl)⟩

/-! The write of one bit of a word -/

/-- A word with one bit replaced, bit by bit. -/
theorem bitOf_withBit (w : Word) {i j : Nat} (v : Bool) (hj : j < 32) :
    bitOf (withBit w i v) j = if j = i then v else bitOf w j := by
  have bit : bitOf (bitAt true i) j = decide (i = j) := by simp [bitOf_bitAt _ _ _ hj]
  have clear : bitOf (~~~bitAt true i) j = !decide (i = j) := by simp [bitOf, hj, ← bit]
  by_cases same : j = i
  · subst same
    cases v <;> simp [withBit, bitOf_or, bitOf_and, bit, clear]
  · cases v <;> simp [withBit, bitOf_or, bitOf_and, bit, clear, same, Ne.symm same]

/-- A word write of which every bit but the one at `c` is settled writes that bit alone; where `c` is written already
it changes nothing. -/
theorem writeBits_eq_putBit {w : Word} {l : List (Nat × Nat)} (apart : c.1 ≠ 0x00 ∧ c.1 ≠ 0x04 ∧ c.1 ≠ 0x08)
    (board : BoardOk s.par) (named : ∀ b ∈ l, b ∈ gateBits s.par)
    (settled : ∀ b ∈ l, b.1 = c.1 → b ≠ c → Settled s b (bitOf w b.2)) :
    writeBits c.1 w l (s.putBit c (bitOf w c.2)) = s.putBit c (bitOf w c.2) ∧
    (c ∈ l → writeBits c.1 w l s = s.putBit c (bitOf w c.2)) := by
  induction l with
  | nil => simp [writeBits]
  | cons b l ih =>
    obtain ⟨done, todo⟩ := ih (fun d mem => named d (.tail _ mem)) fun d mem => settled d (.tail _ mem)
    simp only [writeBits_cons, List.mem_cons]
    by_cases target : b = c
    · subst target
      simp only [↓reduceIte, putBit_putBit_same s _ apart]
      exact ⟨done, fun _ => done⟩
    · have later : c = b ∨ c ∈ l → c ∈ l := fun mem => mem.resolve_left (Ne.symm target)
      by_cases place : b.1 = c.1
      · have here := settled b (.head _) place target
        have mem := named b (.head _)
        rw [if_pos place, if_pos place, (here.putBit apart target _).putBit_eq board mem, here.putBit_eq board mem]
        exact ⟨done, fun mem => todo (later mem)⟩
      · rw [if_neg place, if_neg place]
        exact ⟨done, fun mem => todo (later mem)⟩

/-- The write of an enable or reset word with one named bit replaced is the write of that bit, where the other reset
bits of the word are clear. -/
theorem writeGate_withBit (board : BoardOk s.par) (named : c ∈ gateBits s.par)
    (clear : ∀ q r, s.par.row q = some r → r.reset.1 = c.1 → r.reset ≠ c → s.inReset q = false) (v : Bool) :
    writeGate s c.1 (withBit (gateWord s c.1) c.2 v) = s.putBit c v := by
  have place (b) (mem : b ∈ gateBits s.par) : b.2 < 32 ∧ b.1 ≠ 0x00 ∧ b.1 ≠ 0x04 ∧ b.1 ≠ 0x08 := by
    obtain ⟨q, r, row, rfl | rfl⟩ := mem_gateBits.mp mem
    · exact ⟨(board.1 q r row).1, board.enable_place row⟩
    · exact ⟨(board.1 q r row).2.1, board.reset_place row⟩
  obtain ⟨within, apart⟩ := place c named
  have settled : ∀ b ∈ gateBits s.par, b.1 = c.1 → b ≠ c →
      Settled s b (bitOf (withBit (gateWord s c.1) c.2 v) b.2) := by
    intro b mem word other
    have bit : b.2 ≠ c.2 := fun e => other (Prod.ext word e)
    rw [bitOf_withBit _ _ (place b mem).1, if_neg bit, ← word]
    exact settled_gateWord board fun q r row eq => clear q r row (eq ▸ word) (eq ▸ other)
  have target : bitOf (withBit (gateWord s c.1) c.2 v) c.2 = v := by rw [bitOf_withBit _ _ within, if_pos rfl]
  rw [writeGate_eq, (writeBits_eq_putBit apart board (fun _ mem => mem) settled).2 named, target]

variable {p : PeriphId} {r : Config.PeriphRow}

/-- `PER_ENCLK` and `PER_DISCLK` write the word of the enable bit (42_peripheral_access.md R137, R138). -/
theorem setEnabled_eq_writeGate (board : BoardOk s.par) (row : s.par.row p = some r)
    (others : OtherResetsClear s r.enable.1 p) (own : r.reset.1 = r.enable.1 → s.inReset p = false) (v : Bool) :
    s.setEnabled p v = writeGate s r.enable.1 (withBit (gateWord s r.enable.1) r.enable.2 v) := by
  rw [State.setEnabled_row _ row]
  refine (writeGate_withBit board (mem_gateBits.mpr ⟨p, r, row, .inl rfl⟩) (fun q a rowA word _ => ?_) v).symm
  by_cases same : q = p
  · subst same
    obtain rfl : r = a := Option.some.inj (row.symm.trans rowA)
    exact own word
  · exact others q a same rowA word

/-- The two writes of `PER_RESET` write the word of the reset bit (42_peripheral_access.md R139). -/
theorem putBit_reset_eq_writeGate (board : BoardOk s.par) (row : s.par.row p = some r)
    (others : OtherResetsClear s r.reset.1 p) (v : Bool) :
    s.putBit r.reset v = writeGate s r.reset.1 (withBit (gateWord s r.reset.1) r.reset.2 v) := by
  refine (writeGate_withBit board (mem_gateBits.mpr ⟨p, r, row, .inr rfl⟩) (fun q a rowA word other => ?_) v).symm
  refine others q a (fun same => other ?_) rowA word
  subst same
  exact congrArg _ (Option.some.inj (rowA.symm.trans row))

/-- Settles O59: a register's word carries its fields back, and a write of an enable or reset word writes every bit but
the named one as it stands. -/
theorem fieldWritesAreWordWrites : Obligations.FieldWritesAreWordWrites := by
  refine ⟨fun s k => ⟨fun w => ?_, fun w => ?_, fun w => ?_, fun w => ?_, fun w => ?_, fun b => ?_,
    consumeSb_eq_regPut s k, consumeAddr_eq_regPut s k, fun src => ?_, fun w => ?_, fun w sws => ?_⟩,
    fun s p r board row => ⟨fun others own => ?_, fun others => ?_⟩⟩
  · simp [regPut, writeBusReg, Cr1.ofWord_toWord]
  · simp [regPut, writeBusReg, Ccr.ofWord_toWord]
  · simp [regPut, writeBusReg]
  · simp [regPut, writeBusReg, oar1Field_word]
  · simp [regPut, writeBusReg, Oar2.ofWord_toWord]
  · simp [regPut, writeBusReg]
  · simp [regPut, Cr.put_withEnable]
  · simp [regPut, Pllcfgr.ofWord_toWord]
  · simp [regPut, Cfgr.put_toWord sws]
  · have write := setEnabled_eq_writeGate board row others own
    exact ⟨(write true).trans (by rw [withBit_eq]; rfl), (write false).trans (by rw [withBit_eq]; rfl)⟩
  · have write := putBit_reset_eq_writeGate board row others
    rw [State.assertReset_row _ row, State.deassertReset_row _ row]
    exact ⟨(write true).trans (by rw [withBit_eq]; rfl), (write false).trans (by rw [withBit_eq]; rfl)⟩

end Sys2Proof.Machine
end

section
/-! PROOF. Fields and words: a word is a concatenation exactly when each of its fields is the part that stands there.
One lemma for each format of 30_encoding.md R76 to R83, read one way by the decoder and the other way by the encoder. -/

namespace Sys2Proof

open Sys2Proof.Claims

variable {w : Word}

theorem append_eq_append_iff {a b : Nat} {x y : BitVec a} {u v : BitVec b} : x ++ u = y ++ v ↔ x = y ∧ u = v := by
  refine ⟨fun same => ⟨?_, ?_⟩, fun ⟨high, low⟩ => by rw [high, low]⟩
  · simpa [BitVec.extractLsb'_append_eq_left] using congrArg (BitVec.extractLsb' b a) same
  · simpa [BitVec.extractLsb'_append_eq_right] using congrArg (BitVec.extractLsb' 0 b) same

/-- A field that is a concatenation is cut into the two fields of its parts. -/
theorem field_eq_append {a b lo : Nat} {x : BitVec a} {u : BitVec b} :
    field w lo (a + b) = x ++ u ↔ field w (lo + b) a = x ∧ field w lo b = u := by
  have cut : field w lo (a + b) = field w (lo + b) a ++ field w lo b :=
    (BitVec.extractLsb'_append_extractLsb'_eq_extractLsb' rfl).symm
  rw [cut, append_eq_append_iff]

/-- A word is its own field of 32 bits. -/
theorem eq_iff_field {v : Word} : w = v ↔ field w 0 32 = v := by
  rw [field, BitVec.extractLsb'_eq_self]

/-- The opcode is the field of the low 8 bits (30_encoding.md R75). -/
theorem field_opcode_iff {opc : Byte} : field w 0 8 = opc ↔ opcode w = opc.toNat := BitVec.toNat_inj.symm

/-- Format Z (30_encoding.md R76). -/
theorem eq_wordZ_iff {opc : Byte} : w = wordZ opc ↔ field w 8 24 = 0#24 ∧ opcode w = opc.toNat := by
  have whole : w = wordZ opc ↔ field w 0 (24 + 8) = 0#24 ++ opc := eq_iff_field
  rw [whole, field_eq_append, field_opcode_iff]

/-- Formats I and L (30_encoding.md R77, R81). -/
theorem eq_wordI_iff {f : BitVec 4} {opc : Byte} :
    w = wordI f opc ↔ field w 12 20 = 0#20 ∧ field w 8 4 = f ∧ opcode w = opc.toNat := by
  have whole : w = wordI f opc ↔ field w 0 (20 + 4 + 8) = 0#20 ++ f ++ opc := eq_iff_field
  rw [whole, field_eq_append, field_eq_append, and_assoc, field_opcode_iff]

/-- Format T (30_encoding.md R83). -/
theorem eq_wordT_iff {k : InstId} {addr : BitVec 7} {n : BitVec 12} {opc : Byte} :
    w = wordT k addr n opc ↔
      field w 20 12 = n ∧ field w 19 1 = 0#1 ∧ field w 12 7 = addr ∧ field w 8 4 = instCode k ∧
        opcode w = opc.toNat := by
  have whole : w = wordT k addr n opc ↔ field w 0 (12 + 1 + 7 + 4 + 8) = n ++ 0#1 ++ addr ++ instCode k ++ opc :=
    eq_iff_field
  rw [whole, field_eq_append, field_eq_append, field_eq_append, field_eq_append]
  simp only [field_opcode_iff, and_assoc, Nat.zero_add, Nat.reduceAdd]

/-- Format CC (30_encoding.md R78). -/
theorem eq_clkConfigWord_iff {src : Source} {hpre : BitVec 4} {ppre1 ppre2 : BitVec 3} :
    w = (encode (.clkConfig src hpre ppre1 ppre2)).cw ↔
      field w 22 10 = 0#10 ∧ field w 19 3 = ppre2 ∧ field w 16 3 = ppre1 ∧ field w 12 4 = hpre ∧ field w 10 2 = 0#2 ∧
        field w 8 2 = src.code ∧ opcode w = 0x05 := by
  have whole : w = (encode (.clkConfig src hpre ppre1 ppre2)).cw ↔ field w 0 (10 + 3 + 3 + 4 + 2 + 2 + 8) =
      0#10 ++ ppre2 ++ ppre1 ++ hpre ++ 0#2 ++ src.code ++ 0x05#8 := eq_iff_field
  rw [whole, field_eq_append, field_eq_append, field_eq_append, field_eq_append, field_eq_append, field_eq_append]
  simp only [field_opcode_iff, and_assoc, Nat.zero_add, Nat.reduceAdd, BitVec.reduceToNat]

/-- Format PL (30_encoding.md R79). -/
theorem eq_clkPllconfigWord_iff {src : PllInput} {m : BitVec 6} {n : BitVec 9} {pcode : BitVec 2} :
    w = (encode (.clkPllconfig src m n pcode)).cw ↔
      field w 29 3 = 0#3 ∧ field w 27 2 = pcode ∧ field w 18 9 = n ∧ field w 12 6 = m ∧ field w 9 3 = 0#3 ∧
        field w 8 1 = src.code ∧ opcode w = 0x06 := by
  have whole : w = (encode (.clkPllconfig src m n pcode)).cw ↔ field w 0 (3 + 2 + 9 + 6 + 3 + 1 + 8) =
      0#3 ++ pcode ++ n ++ m ++ 0#3 ++ src.code ++ 0x06#8 := eq_iff_field
  rw [whole, field_eq_append, field_eq_append, field_eq_append, field_eq_append, field_eq_append, field_eq_append]
  simp only [field_opcode_iff, and_assoc, Nat.zero_add, Nat.reduceAdd, BitVec.reduceToNat]

/-- Format K (30_encoding.md R80). -/
theorem eq_packWord_iff {width : BitVec 6} {existing value laneMask : Word} :
    w = (encode (.pack width existing value laneMask)).cw ↔
      field w 14 18 = 0#18 ∧ field w 8 6 = width ∧ opcode w = 0x10 := by
  have whole : w = (encode (.pack width existing value laneMask)).cw ↔
      field w 0 (18 + 6 + 8) = 0#18 ++ width ++ 0x10#8 := eq_iff_field
  rw [whole, field_eq_append, field_eq_append, and_assoc, field_opcode_iff]
  rfl

/-- Format IN (30_encoding.md R82). -/
theorem eq_i2cInitWord_iff {k : InstId} {speed : Speed} {mode : BusMode} {own1 own2 : BitVec 7} {freq : Word} :
    w = (encode (.i2cInit k speed mode own1 own2 freq)).cw ↔
      field w 30 2 = 0#2 ∧ field w 23 7 = own2 ∧ field w 16 7 = own1 ∧ field w 14 2 = mode.code ∧
        field w 12 2 = speed.code ∧ field w 8 4 = instCode k ∧ opcode w = 0x30 := by
  have whole : w = (encode (.i2cInit k speed mode own1 own2 freq)).cw ↔ field w 0 (2 + 7 + 7 + 2 + 2 + 4 + 8) =
      0#2 ++ own2 ++ own1 ++ mode.code ++ speed.code ++ instCode k ++ 0x30#8 := eq_iff_field
  rw [whole, field_eq_append, field_eq_append, field_eq_append, field_eq_append, field_eq_append, field_eq_append]
  simp only [field_opcode_iff, and_assoc, Nat.zero_add, Nat.reduceAdd, BitVec.reduceToNat]

/-- Format A (30_encoding.md R83). -/
theorem eq_i2cAddrWord_iff {k : InstId} {addr : BitVec 7} {rw : Dir} :
    w = (encode (.i2cAddr k addr rw)).cw ↔
      field w 20 12 = 0#12 ∧ field w 19 1 = rw.code ∧ field w 12 7 = addr ∧ field w 8 4 = instCode k ∧
        opcode w = 0x32 := by
  have whole : w = (encode (.i2cAddr k addr rw)).cw ↔ field w 0 (12 + 1 + 7 + 4 + 8) =
      0#12 ++ rw.code ++ addr ++ instCode k ++ 0x32#8 := eq_iff_field
  rw [whole, field_eq_append, field_eq_append, field_eq_append, field_eq_append]
  simp only [field_opcode_iff, and_assoc, Nat.zero_add, Nat.reduceAdd, BitVec.reduceToNat]

/-- Format B (30_encoding.md R83). -/
theorem eq_i2cWrbyteWord_iff {k : InstId} {data : Byte} :
    w = (encode (.i2cWrbyte k data)).cw ↔
      field w 20 12 = 0#12 ∧ field w 12 8 = data ∧ field w 8 4 = instCode k ∧ opcode w = 0x33 := by
  have whole : w = (encode (.i2cWrbyte k data)).cw ↔ field w 0 (12 + 8 + 4 + 8) =
      0#12 ++ data ++ instCode k ++ 0x33#8 := eq_iff_field
  rw [whole, field_eq_append, field_eq_append, field_eq_append]
  simp only [field_opcode_iff, and_assoc, Nat.zero_add, Nat.reduceAdd, BitVec.reduceToNat]

end Sys2Proof
end

section
/-! PROOF. The decoder opcode by opcode, and the round trip between commands and their words (30_encoding.md R76 to
R88). -/

namespace Sys2Proof

open Sys2Proof.Claims

variable {par : Config.Params} {c : Command} {w : Word}

/-! What the decoder reads at each opcode (30_encoding.md R86) -/

theorem field_opcode : (field w 0 8).toNat = opcode w := rfl

theorem decode_clkSysfreq (h : opcode c.cw = 0x01) : decode par c = formatZ c.cw (operands0 c.ops .clkSysfreq) := by
  rw [decode, field_opcode, h]
  rfl

theorem decode_clkAhbfreq (h : opcode c.cw = 0x02) : decode par c = formatZ c.cw (operands0 c.ops .clkAhbfreq) := by
  rw [decode, field_opcode, h]
  rfl

theorem decode_clkApb1freq (h : opcode c.cw = 0x03) : decode par c = formatZ c.cw (operands0 c.ops .clkApb1freq) := by
  rw [decode, field_opcode, h]
  rfl

theorem decode_clkApb2freq (h : opcode c.cw = 0x04) : decode par c = formatZ c.cw (operands0 c.ops .clkApb2freq) := by
  rw [decode, field_opcode, h]
  rfl

theorem decode_clkConfig (h : opcode c.cw = 0x05) : decode par c = decodeClkConfig c := by
  rw [decode, field_opcode, h]
  rfl

theorem decode_clkPllconfig (h : opcode c.cw = 0x06) : decode par c = decodePllConfig c := by
  rw [decode, field_opcode, h]
  rfl

theorem decode_pack (h : opcode c.cw = 0x10) :
    decode par c = reservedZero (field c.cw 14 18) (operands3 c.ops (.pack (field c.cw 8 6))) := by
  rw [decode, field_opcode, h]
  rfl

theorem decode_maskNew (h : opcode c.cw = 0x11) : decode par c = formatZ c.cw (operands1 c.ops .maskNew) := by
  rw [decode, field_opcode, h]
  rfl

theorem decode_maskUnion (h : opcode c.cw = 0x12) : decode par c = formatZ c.cw (operands2 c.ops .maskUnion) := by
  rw [decode, field_opcode, h]
  rfl

theorem decode_maskIntersect (h : opcode c.cw = 0x13) :
    decode par c = formatZ c.cw (operands2 c.ops .maskIntersect) := by
  rw [decode, field_opcode, h]
  rfl

theorem decode_maskComplement (h : opcode c.cw = 0x14) :
    decode par c = formatZ c.cw (operands1 c.ops .maskComplement) := by
  rw [decode, field_opcode, h]
  rfl

theorem decode_maskXor (h : opcode c.cw = 0x15) : decode par c = formatZ c.cw (operands2 c.ops .maskXor) := by
  rw [decode, field_opcode, h]
  rfl

theorem decode_maskSet (h : opcode c.cw = 0x16) : decode par c = formatL c .maskSet := by
  rw [decode, field_opcode, h]
  rfl

theorem decode_maskReset (h : opcode c.cw = 0x17) : decode par c = formatL c .maskReset := by
  rw [decode, field_opcode, h]
  rfl

theorem decode_maskIsset (h : opcode c.cw = 0x18) : decode par c = formatL c .maskIsset := by
  rw [decode, field_opcode, h]
  rfl

theorem decode_perTake (h : opcode c.cw = 0x20) : decode par c = formatPer par c .perTake := by
  rw [decode, field_opcode, h]
  rfl

theorem decode_perEnclk (h : opcode c.cw = 0x21) : decode par c = formatPer par c .perEnclk := by
  rw [decode, field_opcode, h]
  rfl

theorem decode_perDisclk (h : opcode c.cw = 0x22) : decode par c = formatPer par c .perDisclk := by
  rw [decode, field_opcode, h]
  rfl

theorem decode_perReset (h : opcode c.cw = 0x23) : decode par c = formatPer par c .perReset := by
  rw [decode, field_opcode, h]
  rfl

theorem decode_i2cInit (h : opcode c.cw = 0x30) : decode par c = decodeInit par c := by
  rw [decode, field_opcode, h]
  rfl

theorem decode_i2cStart (h : opcode c.cw = 0x31) : decode par c = formatBus par c .i2cStart := by
  rw [decode, field_opcode, h]
  rfl

theorem decode_i2cAddr (h : opcode c.cw = 0x32) :
    decode par c = reservedZero (field c.cw 20 12) (orBadInst (instOfCode par (field c.cw 8 4)) fun k =>
      operands0 c.ops (.i2cAddr k (field c.cw 12 7) (Dir.ofCode (field c.cw 19 1)))) := by
  rw [decode, field_opcode, h]
  rfl

theorem decode_i2cWrbyte (h : opcode c.cw = 0x33) :
    decode par c = reservedZero (field c.cw 20 12) (orBadInst (instOfCode par (field c.cw 8 4)) fun k =>
      operands0 c.ops (.i2cWrbyte k (field c.cw 12 8))) := by
  rw [decode, field_opcode, h]
  rfl

theorem decode_i2cRdbyte (h : opcode c.cw = 0x34) : decode par c = formatBus par c .i2cRdbyte := by
  rw [decode, field_opcode, h]
  rfl

theorem decode_i2cStop (h : opcode c.cw = 0x35) : decode par c = formatBus par c .i2cStop := by
  rw [decode, field_opcode, h]
  rfl

theorem decode_i2cWrite (h : opcode c.cw = 0x36) : decode par c = decodeWrite par c := by
  rw [decode, field_opcode, h]
  rfl

theorem decode_i2cRead (h : opcode c.cw = 0x37) :
    decode par c = reservedZero (field c.cw 19 1) (orBadInst (instOfCode par (field c.cw 8 4)) fun k =>
      operands0 c.ops (.i2cRead k (field c.cw 12 7) (field c.cw 20 12))) := by
  rw [decode, field_opcode, h]
  rfl

/-! The opcode of each format -/

@[simp] theorem opcode_wordZ (opc : Byte) : opcode (wordZ opc) = opc.toNat :=
  (eq_wordZ_iff.mp rfl).2

@[simp] theorem opcode_wordI (f : BitVec 4) (opc : Byte) : opcode (wordI f opc) = opc.toNat :=
  (eq_wordI_iff.mp rfl).2.2

@[simp] theorem opcode_wordT (k : InstId) (addr : BitVec 7) (n : BitVec 12) (opc : Byte) :
    opcode (wordT k addr n opc) = opc.toNat :=
  (eq_wordT_iff.mp rfl).2.2.2.2

theorem opcode_clkConfig (src : Source) (hpre : BitVec 4) (ppre1 ppre2 : BitVec 3) :
    opcode (encode (.clkConfig src hpre ppre1 ppre2)).cw = 0x05 :=
  (eq_clkConfigWord_iff.mp rfl).2.2.2.2.2.2

theorem opcode_clkPllconfig (src : PllInput) (m : BitVec 6) (n : BitVec 9) (pcode : BitVec 2) :
    opcode (encode (.clkPllconfig src m n pcode)).cw = 0x06 :=
  (eq_clkPllconfigWord_iff.mp rfl).2.2.2.2.2.2

theorem opcode_pack (width : BitVec 6) (existing value laneMask : Word) :
    opcode (encode (.pack width existing value laneMask)).cw = 0x10 :=
  (eq_packWord_iff.mp rfl).2.2

theorem opcode_i2cInit (k : InstId) (speed : Speed) (mode : BusMode) (own1 own2 : BitVec 7) (freq : Word) :
    opcode (encode (.i2cInit k speed mode own1 own2 freq)).cw = 0x30 :=
  (eq_i2cInitWord_iff.mp rfl).2.2.2.2.2.2

theorem opcode_i2cAddr (k : InstId) (addr : BitVec 7) (dir : Dir) : opcode (encode (.i2cAddr k addr dir)).cw = 0x32 :=
  (eq_i2cAddrWord_iff.mp rfl).2.2.2.2

theorem opcode_i2cWrbyte (k : InstId) (data : Byte) : opcode (encode (.i2cWrbyte k data)).cw = 0x33 :=
  (eq_i2cWrbyteWord_iff.mp rfl).2.2.2

/-! The codes of the fields -/

theorem Source.ofCode_eq_some {code : BitVec 2} {s : Source} : Source.ofCode code = some s ↔ s.code = code := by
  revert code
  cases s <;> decide

theorem Speed.ofCode_eq_some {code : BitVec 2} {s : Speed} : Speed.ofCode code = some s ↔ s.code = code := by
  revert code
  cases s <;> decide

theorem BusMode.ofCode_eq_some {code : BitVec 2} {m : BusMode} : BusMode.ofCode code = some m ↔ m.code = code := by
  revert code
  cases m <;> decide

theorem Dir.ofCode_code (d : Dir) : Dir.ofCode d.code = d := by cases d <;> rfl

theorem Dir.code_ofCode (code : BitVec 1) : (Dir.ofCode code).code = code := by
  revert code
  decide

theorem instCode_toFin (f : BitVec 4) : instCode f.toFin = f := BitVec.ofNat_toNat ..

theorem instOfCode_instCode {k : InstId} (known : instExists par k = true) : instOfCode par (instCode k) = some k := by
  have back : (instCode k).toFin = k := Fin.ext (Nat.mod_eq_of_lt k.isLt)
  rw [instOfCode, back, if_pos known]

theorem periphOfCode_periphCode {p : PeriphId} (known : periphExists par p = true) :
    periphOfCode par (periphCode p) = some p := by
  have back : (periphCode p).toFin = p := Fin.ext (Nat.mod_eq_of_lt p.isLt)
  rw [periphOfCode, back, if_pos known]

/-! Decoding an encoding -/

theorem reservedZero_zero {n : Nat} {f : BitVec n} {rest : Except DecodeError Instr} (zero : f = 0#n) :
    reservedZero f rest = rest := if_pos zero

theorem formatZ_wordZ (opc : Byte) (rest : Except DecodeError Instr) : formatZ (wordZ opc) rest = rest :=
  reservedZero_zero (eq_wordZ_iff.mp rfl).1

theorem formatL_wordI (f : BitVec 4 → Word → Instr) (lane : BitVec 4) (opc : Byte) (a : Word) :
    formatL ⟨wordI lane opc, [a]⟩ f = .ok (f lane a) := by
  obtain ⟨zero, lane, -⟩ := eq_wordI_iff.mp (Eq.refl (wordI lane opc))
  rw [formatL, reservedZero_zero zero, lane]
  rfl

theorem formatPer_wordI {p : PeriphId} (known : periphExists par p = true) (f : PeriphId → Instr) (opc : Byte) :
    formatPer par ⟨wordI (periphCode p) opc, []⟩ f = .ok (f p) := by
  obtain ⟨zero, inst, -⟩ := eq_wordI_iff.mp (Eq.refl (wordI (periphCode p) opc))
  rw [formatPer, reservedZero_zero zero, inst, periphOfCode_periphCode known]
  rfl

theorem formatBus_wordI {k : InstId} (known : instExists par k = true) (f : InstId → Instr) (opc : Byte) :
    formatBus par ⟨wordI (instCode k) opc, []⟩ f = .ok (f k) := by
  obtain ⟨zero, inst, -⟩ := eq_wordI_iff.mp (Eq.refl (wordI (instCode k) opc))
  rw [formatBus, reservedZero_zero zero, inst, instOfCode_instCode known]
  rfl

theorem decode_encode_clkConfig (src : Source) (hpre : BitVec 4) (ppre1 ppre2 : BitVec 3) :
    decode par (encode (.clkConfig src hpre ppre1 ppre2)) = .ok (.clkConfig src hpre ppre1 ppre2) := by
  obtain ⟨high, ppre2, ppre1, hpre, low, code, opc⟩ :=
    eq_clkConfigWord_iff.mp (Eq.refl (encode (.clkConfig src hpre ppre1 ppre2)).cw)
  rw [decode_clkConfig opc, decodeClkConfig, reservedZero_zero low, reservedZero_zero high,
    Source.ofCode_eq_some.mpr code.symm, ppre2, ppre1, hpre]
  rfl

theorem decode_encode_clkPllconfig {m : BitVec 6} (pos : m ≠ 0#6) (src : PllInput) (n : BitVec 9) (pcode : BitVec 2) :
    decode par (encode (.clkPllconfig src m n pcode)) = .ok (.clkPllconfig src m n pcode) := by
  obtain ⟨high, pcode, n, m, low, code, opc⟩ :=
    eq_clkPllconfigWord_iff.mp (Eq.refl (encode (.clkPllconfig src m n pcode)).cw)
  rw [decode_clkPllconfig opc, decodePllConfig, reservedZero_zero low, reservedZero_zero high,
    m, if_neg pos, code, Machine.PllInput.ofCode_code, n, pcode]
  rfl

theorem decode_encode_pack (width : BitVec 6) (existing value laneMask : Word) :
    decode par (encode (.pack width existing value laneMask)) = .ok (.pack width existing value laneMask) := by
  obtain ⟨zero, width, opc⟩ := eq_packWord_iff.mp (Eq.refl (encode (.pack width existing value laneMask)).cw)
  rw [decode_pack opc, reservedZero_zero zero, width]
  rfl

theorem decode_encode_i2cInit {k : InstId} (known : instExists par k = true) (speed : Speed) (mode : BusMode)
    (own1 own2 : BitVec 7) (freq : Word) :
    decode par (encode (.i2cInit k speed mode own1 own2 freq)) = .ok (.i2cInit k speed mode own1 own2 freq) := by
  obtain ⟨zero, own2, own1, modeCode, speedCode, inst, opc⟩ :=
    eq_i2cInitWord_iff.mp (Eq.refl (encode (.i2cInit k speed mode own1 own2 freq)).cw)
  rw [decode_i2cInit opc, decodeInit, reservedZero_zero zero,
    Speed.ofCode_eq_some.mpr speedCode.symm, BusMode.ofCode_eq_some.mpr modeCode.symm, inst, instOfCode_instCode known,
    own1, own2]
  rfl

theorem decode_encode_i2cAddr {k : InstId} (known : instExists par k = true) (addr : BitVec 7) (dir : Dir) :
    decode par (encode (.i2cAddr k addr dir)) = .ok (.i2cAddr k addr dir) := by
  obtain ⟨zero, dirCode, addr, inst, opc⟩ := eq_i2cAddrWord_iff.mp (Eq.refl (encode (.i2cAddr k addr dir)).cw)
  rw [decode_i2cAddr opc, reservedZero_zero zero, inst, instOfCode_instCode known, addr, dirCode,
    Dir.ofCode_code]
  rfl

theorem decode_encode_i2cWrbyte {k : InstId} (known : instExists par k = true) (data : Byte) :
    decode par (encode (.i2cWrbyte k data)) = .ok (.i2cWrbyte k data) := by
  obtain ⟨zero, data, inst, opc⟩ := eq_i2cWrbyteWord_iff.mp (Eq.refl (encode (.i2cWrbyte k data)).cw)
  rw [decode_i2cWrbyte opc, reservedZero_zero zero, inst, instOfCode_instCode known, data]
  rfl

theorem decode_encode_i2cWrite {k : InstId} (known : instExists par k = true) (addr : BitVec 7) {n : BitVec 12}
    {ops : List Word} (count : ops.length = writeOperandCount n) :
    decode par (encode (.i2cWrite k addr n ops)) = .ok (.i2cWrite k addr n ops) := by
  obtain ⟨len, zero, addr, inst, opc⟩ := eq_wordT_iff.mp (Eq.refl (encode (.i2cWrite k addr n ops)).cw)
  rw [decode_i2cWrite opc, decodeWrite, reservedZero_zero zero, inst, instOfCode_instCode known,
    addr, len]
  exact if_pos count

theorem decode_encode_i2cRead {k : InstId} (known : instExists par k = true) (addr : BitVec 7) (n : BitVec 12) :
    decode par (encode (.i2cRead k addr n)) = .ok (.i2cRead k addr n) := by
  obtain ⟨len, zero, addr, inst, opc⟩ := eq_wordT_iff.mp (Eq.refl (encode (.i2cRead k addr n)).cw)
  rw [decode_i2cRead opc, reservedZero_zero zero, inst, instOfCode_instCode known, addr, len]
  rfl

theorem decode_encode {i : Instr} (wf : i.wellFormed par = true) : decode par (encode i) = .ok i := by
  cases i with
  | clkSysfreq =>
    exact (decode_clkSysfreq (c := encode (.clkSysfreq)) (opcode_wordZ _)).trans (formatZ_wordZ _ _)
  | clkAhbfreq =>
    exact (decode_clkAhbfreq (c := encode (.clkAhbfreq)) (opcode_wordZ _)).trans (formatZ_wordZ _ _)
  | clkApb1freq =>
    exact (decode_clkApb1freq (c := encode (.clkApb1freq)) (opcode_wordZ _)).trans (formatZ_wordZ _ _)
  | clkApb2freq =>
    exact (decode_clkApb2freq (c := encode (.clkApb2freq)) (opcode_wordZ _)).trans (formatZ_wordZ _ _)
  | clkConfig src hpre ppre1 ppre2 => exact decode_encode_clkConfig src hpre ppre1 ppre2
  | clkPllconfig src m n pcode => exact decode_encode_clkPllconfig (by simpa [Instr.wellFormed] using wf) src n pcode
  | pack width existing value laneMask => exact decode_encode_pack width existing value laneMask
  | maskNew a =>
    exact (decode_maskNew (c := encode (.maskNew a)) (opcode_wordZ _)).trans (formatZ_wordZ _ _)
  | maskUnion a b =>
    exact (decode_maskUnion (c := encode (.maskUnion a b)) (opcode_wordZ _)).trans (formatZ_wordZ _ _)
  | maskIntersect a b =>
    exact (decode_maskIntersect (c := encode (.maskIntersect a b)) (opcode_wordZ _)).trans (formatZ_wordZ _ _)
  | maskComplement a =>
    exact (decode_maskComplement (c := encode (.maskComplement a)) (opcode_wordZ _)).trans (formatZ_wordZ _ _)
  | maskXor a b =>
    exact (decode_maskXor (c := encode (.maskXor a b)) (opcode_wordZ _)).trans (formatZ_wordZ _ _)
  | maskSet lane a =>
    exact (decode_maskSet (c := encode (.maskSet lane a)) (opcode_wordI _ _)).trans (formatL_wordI _ _ _ _)
  | maskReset lane a =>
    exact (decode_maskReset (c := encode (.maskReset lane a)) (opcode_wordI _ _)).trans (formatL_wordI _ _ _ _)
  | maskIsset lane a =>
    exact (decode_maskIsset (c := encode (.maskIsset lane a)) (opcode_wordI _ _)).trans (formatL_wordI _ _ _ _)
  | perTake p =>
    exact (decode_perTake (c := encode (.perTake p)) (opcode_wordI _ _)).trans (formatPer_wordI wf _ _)
  | perEnclk p =>
    exact (decode_perEnclk (c := encode (.perEnclk p)) (opcode_wordI _ _)).trans (formatPer_wordI wf _ _)
  | perDisclk p =>
    exact (decode_perDisclk (c := encode (.perDisclk p)) (opcode_wordI _ _)).trans (formatPer_wordI wf _ _)
  | perReset p =>
    exact (decode_perReset (c := encode (.perReset p)) (opcode_wordI _ _)).trans (formatPer_wordI wf _ _)
  | i2cInit k speed mode own1 own2 freq => exact decode_encode_i2cInit wf speed mode own1 own2 freq
  | i2cStart k =>
    exact (decode_i2cStart (c := encode (.i2cStart k)) (opcode_wordI _ _)).trans (formatBus_wordI wf _ _)
  | i2cAddr k addr dir => exact decode_encode_i2cAddr wf addr dir
  | i2cWrbyte k data => exact decode_encode_i2cWrbyte wf data
  | i2cRdbyte k =>
    exact (decode_i2cRdbyte (c := encode (.i2cRdbyte k)) (opcode_wordI _ _)).trans (formatBus_wordI wf _ _)
  | i2cStop k =>
    exact (decode_i2cStop (c := encode (.i2cStop k)) (opcode_wordI _ _)).trans (formatBus_wordI wf _ _)
  | i2cWrite k addr n ops =>
    obtain ⟨known, count⟩ : instExists par k = true ∧ ops.length = writeOperandCount n := by
      simpa [Instr.wellFormed] using wf
    exact decode_encode_i2cWrite known addr count
  | i2cRead k addr n => exact decode_encode_i2cRead wf addr n

/-- Settles O1: the word of each format is read back field by field. -/
theorem decodeOfEncodeIsTheCommand : Obligations.DecodeOfEncodeIsTheCommand := fun _ _ => decode_encode

/-! Encoding what was decoded -/

theorem command_eq {ops : List Word} (word : c.cw = w) (operands : c.ops = ops) : ⟨w, ops⟩ = c := by
  subst word operands
  rfl

/-- The code of the controller a field names is the field. -/
theorem field_of_toFin {f : BitVec 4} {k : InstId} (code : k = f.toFin) : f = instCode k := by
  rw [code, instCode_toFin]

theorem wordI_of_toFin {k : InstId} {opc : Byte} (zero : field c.cw 12 20 = 0#20) (code : k = (field c.cw 8 4).toFin)
    (read : opcode c.cw = opc.toNat) :
    c.cw = wordI (instCode k) opc :=
  eq_wordI_iff.mpr ⟨zero, field_of_toFin code, read⟩

/-- `I2C_ADDR`, `I2C_WRBYTE` and `I2C_READ` decode in the order of format I, with their own reserved field. -/
theorem busField_ok {n : Nat} {reserved : BitVec n} {f : BitVec 4} {make : InstId → Instr} {i : Instr}
    (h : reservedZero reserved (orBadInst (instOfCode par f) fun k => operands0 c.ops (make k)) = .ok i) :
    reserved = 0#n ∧ ∃ k, k = f.toFin ∧ instExists par k = true ∧ c.ops = [] ∧ i = make k := by
  obtain ⟨zero, h⟩ := reservedZero_ok h
  obtain ⟨k, code, h⟩ := orBadInst_ok h
  obtain ⟨ops, rfl⟩ := operands0_ok h
  obtain ⟨code, known⟩ := instOfCode_some code
  exact ⟨zero, k, code, known, ops, rfl⟩

/-- A command that decodes is the encoding of what it decodes to: the fields of each format make up the whole word.
The cases stand in the order of the opcode map (30_encoding.md R86). -/
theorem encode_of_decode {i : Instr} (h : decode par c = .ok i) : encode i = c := by
  unfold decode at h
  split at h <;> rename_i opc
  case h_1 | h_2 | h_3 | h_4 =>
    obtain ⟨zero, h⟩ := formatZ_ok h
    obtain ⟨ops, rfl⟩ := operands0_ok h
    exact command_eq (eq_wordZ_iff.mpr ⟨zero, opc⟩) ops
  case h_5 =>
    obtain ⟨low, high, ops, src, code, rfl⟩ := decodeClkConfig_ok h
    exact command_eq (eq_clkConfigWord_iff.mpr
      ⟨high, rfl, rfl, rfl, low, (Source.ofCode_eq_some.mp code).symm, opc⟩) ops
  case h_6 =>
    obtain ⟨low, high, -, ops, rfl⟩ := decodePllConfig_ok h
    exact command_eq (eq_clkPllconfigWord_iff.mpr
      ⟨high, rfl, rfl, rfl, low, (Machine.PllInput.code_ofCode _).symm, opc⟩) ops
  case h_7 =>
    obtain ⟨zero, h⟩ := reservedZero_ok h
    obtain ⟨existing, value, laneMask, ops, rfl⟩ := operands3_ok h
    exact command_eq
      (eq_packWord_iff (existing := existing) (value := value) (laneMask := laneMask) |>.mpr ⟨zero, rfl, opc⟩) ops
  case h_8 | h_11 =>
    obtain ⟨zero, h⟩ := formatZ_ok h
    obtain ⟨a, ops, rfl⟩ := operands1_ok h
    exact command_eq (eq_wordZ_iff.mpr ⟨zero, opc⟩) ops
  case h_9 | h_10 | h_12 =>
    obtain ⟨zero, h⟩ := formatZ_ok h
    obtain ⟨a, b, ops, rfl⟩ := operands2_ok h
    exact command_eq (eq_wordZ_iff.mpr ⟨zero, opc⟩) ops
  case h_13 | h_14 | h_15 =>
    obtain ⟨zero, a, ops, rfl⟩ := formatL_ok h
    exact command_eq (eq_wordI_iff.mpr ⟨zero, rfl, opc⟩) ops
  case h_16 | h_17 | h_18 | h_19 =>
    obtain ⟨zero, ops, p, inst, -, rfl⟩ := formatPer_ok h
    exact command_eq (wordI_of_toFin zero inst opc) ops
  case h_20 =>
    obtain ⟨zero, speed, mode, k, freq, speedCode, modeCode, inst, -, ops, rfl⟩ := decodeInit_ok h
    exact command_eq (eq_i2cInitWord_iff (freq := freq) |>.mpr
      ⟨zero, rfl, rfl, (BusMode.ofCode_eq_some.mp modeCode).symm, (Speed.ofCode_eq_some.mp speedCode).symm,
        field_of_toFin inst, opc⟩) ops
  case h_21 | h_24 | h_25 =>
    obtain ⟨zero, ops, k, inst, -, rfl⟩ := formatBus_ok h
    exact command_eq (wordI_of_toFin zero inst opc) ops
  case h_22 =>
    obtain ⟨zero, k, inst, -, ops, rfl⟩ := busField_ok h
    exact command_eq (eq_i2cAddrWord_iff.mpr ⟨zero, (Dir.code_ofCode _).symm, rfl, field_of_toFin inst, opc⟩) ops
  case h_23 =>
    obtain ⟨zero, k, inst, -, ops, rfl⟩ := busField_ok h
    exact command_eq (eq_i2cWrbyteWord_iff.mpr ⟨zero, rfl, field_of_toFin inst, opc⟩) ops
  case h_26 =>
    obtain ⟨zero, -, k, inst, -, rfl⟩ := decodeWrite_ok h
    exact command_eq (eq_wordT_iff.mpr ⟨rfl, zero, rfl, field_of_toFin inst, opc⟩) rfl
  case h_27 =>
    obtain ⟨zero, k, inst, -, ops, rfl⟩ := busField_ok h
    exact command_eq (eq_wordT_iff.mpr ⟨rfl, zero, rfl, field_of_toFin inst, opc⟩) ops
  case h_28 => cases h

/-- Settles O2: what decodes is encoded back into its own words, and the decoder answers well-formed commands only. -/
theorem encodeOfDecodeIsTheWords : Obligations.EncodeOfDecodeIsTheWords :=
  fun _ _ _ h => ⟨encode_of_decode h, decode_wellFormed h⟩

/-! Words written out (30_encoding.md R75 to R83) -/

theorem decode_of_encode_eq {i : Instr} (word : encode i = c) (wf : i.wellFormed par = true) :
    decode par c = .ok i :=
  word ▸ decode_encode wf

/-- Settles O5: each sample is the encoding of its command. -/
theorem sampleWordsDecode : Obligations.SampleWordsDecode :=
  ⟨decode_of_encode_eq rfl rfl, decode_of_encode_eq rfl rfl, decode_of_encode_eq rfl rfl, decode_of_encode_eq rfl rfl,
    decode_of_encode_eq rfl rfl, decode_of_encode_eq rfl rfl, decode_of_encode_eq rfl rfl, decode_of_encode_eq rfl rfl⟩

end Sys2Proof
end

section
/-! PROOF. Decoding is total and unambiguous, and its errors are those of 30_encoding.md R84. A command that decodes
meets none of the conditions of R84, read off the decoder at the opcode each condition names; a command that meets none
of them matches a row of the opcode table, and at each row the conditions are all the decoder checks. -/

namespace Sys2Proof

open Sys2Proof.Claims

variable {par : Config.Params} {c : Command} {w : Word} {r : OpcodeRow}

/-! The rows of the opcode table (30_encoding.md R86, R92) -/

/-- A word that matches a row has the row's fixed bits in every field the row fixes. -/
theorem field_of_row {mask bits : Word} {lo len : Nat} (row : w &&& mask = bits)
    (fixed : field mask lo len = BitVec.allOnes len) : field w lo len = field bits lo len := by
  have cut : field (w &&& mask) lo len = field w lo len &&& field mask lo len := BitVec.extractLsb'_and
  rw [← row, cut, fixed, BitVec.and_allOnes]

/-- Every row fixes the opcode. -/
theorem opcode_of_row (mem : r ∈ opcodeRows) (row : w &&& r.mask = r.bits) : opcode w = opcode r.bits := by
  have fixed : ∀ r ∈ opcodeRows, field r.mask 0 8 = BitVec.allOnes 8 := by decide
  exact congrArg BitVec.toNat (field_of_row row (fixed r mem))

/-- No two rows have one opcode. -/
theorem opcodeRows_opcode_inj {r r' : OpcodeRow} (mem : r ∈ opcodeRows) (mem' : r' ∈ opcodeRows)
    (same : opcode r.bits = opcode r'.bits) : r = r' := by
  have distinct : (opcodeRows.map fun r => opcode r.bits).Nodup := by decide
  exact List.inj_on_of_nodup_map distinct mem mem' same

/-- Settles O3: the opcode tells the row. -/
theorem decodingIsTotalAndUnambiguous : Obligations.DecodingIsTotalAndUnambiguous := by
  refine ⟨fun par c => ?_, fun w r r' mem mem' row row' => ?_⟩
  · cases answer : decode par c with
    | ok i => exact .inl ⟨i, rfl, fun j same => (Except.ok.inj same).symm⟩
    | error e => exact .inr ⟨e, rfl⟩
  · exact opcodeRows_opcode_inj mem mem' ((opcode_of_row mem row).symm.trans (opcode_of_row mem' row'))

/-- The command word of every command is in the table. -/
theorem tableRow (i : Instr) : Laws.TableRow.Statement i := by
  cases i with
  | clkSysfreq => exact Laws.TableRow.clkSysfreq
  | clkAhbfreq => exact Laws.TableRow.clkAhbfreq
  | clkApb1freq => exact Laws.TableRow.clkApb1freq
  | clkApb2freq => exact Laws.TableRow.clkApb2freq
  | clkConfig src hpre ppre1 ppre2 => exact Laws.TableRow.clkConfig src hpre ppre1 ppre2
  | clkPllconfig src m n pcode => exact Laws.TableRow.clkPllconfig src m n pcode
  | pack width existing value laneMask => exact Laws.TableRow.pack width existing value laneMask
  | maskNew a => exact Laws.TableRow.maskNew a
  | maskUnion a b => exact Laws.TableRow.maskUnion a b
  | maskIntersect a b => exact Laws.TableRow.maskIntersect a b
  | maskComplement a => exact Laws.TableRow.maskComplement a
  | maskXor a b => exact Laws.TableRow.maskXor a b
  | maskSet lane a => exact Laws.TableRow.maskSet lane a
  | maskReset lane a => exact Laws.TableRow.maskReset lane a
  | maskIsset lane a => exact Laws.TableRow.maskIsset lane a
  | perTake p => exact Laws.TableRow.perTake p
  | perEnclk p => exact Laws.TableRow.perEnclk p
  | perDisclk p => exact Laws.TableRow.perDisclk p
  | perReset p => exact Laws.TableRow.perReset p
  | i2cInit k speed mode own1 own2 freq => exact Laws.TableRow.i2cInit k speed mode own1 own2 freq
  | i2cStart k => exact Laws.TableRow.i2cStart k
  | i2cAddr k addr dir => exact Laws.TableRow.i2cAddr k addr dir
  | i2cWrbyte k data => exact Laws.TableRow.i2cWrbyte k data
  | i2cRdbyte k => exact Laws.TableRow.i2cRdbyte k
  | i2cStop k => exact Laws.TableRow.i2cStop k
  | i2cWrite k addr n ops => exact Laws.TableRow.i2cWrite k addr n ops
  | i2cRead k addr n => exact Laws.TableRow.i2cRead k addr n

/-! What a command that decodes does not have (30_encoding.md R84) -/

/-- R84 (a), (b): its word matches a row. -/
theorem exists_row_of_decode {i : Instr} (h : decode par c = .ok i) : ∃ r ∈ opcodeRows, c.cw &&& r.mask = r.bits := by
  obtain ⟨r, named, row⟩ := tableRow i
  rw [encode_of_decode h] at row
  exact ⟨r, List.mem_of_find?_eq_some named, row⟩

theorem Source.ofCode_eq_none {code : BitVec 2} : Source.ofCode code = none ↔ code = 3#2 := by
  revert code
  decide

theorem Speed.ofCode_eq_none {code : BitVec 2} : Speed.ofCode code = none ↔ code = 3#2 := by
  revert code
  decide

theorem BusMode.ofCode_eq_none {code : BitVec 2} : BusMode.ofCode code = none ↔ code = 3#2 := by
  revert code
  decide

/-- An id without a row in `PERIPH` is one that does not exist. -/
theorem periphExists_toFin {f : BitVec 4} : periphExists par f.toFin = true ↔ par.periph[f.toNat]? ≠ some none := by
  have inside : f.toNat < Config.ids := f.isLt
  rw [Vector.getElem?_eq_getElem inside, ne_eq, Option.some.injEq, ← ne_eq, Option.ne_none_iff_isSome]
  rfl

theorem instExists_toFin {f : BitVec 4} : instExists par f.toFin = true ↔ ¬ par.ni2c ≤ f.toNat := by
  rw [not_le]
  exact decide_eq_true_iff

/-- R84 (e), the PER_ commands. -/
theorem periphExists_of_decode {i : Instr} (h : decode par c = .ok i) (per : opcode c.cw ∈ [0x20, 0x21, 0x22, 0x23]) :
    periphExists par (field c.cw 8 4).toFin = true := by
  have of_format {f : PeriphId → Instr} (same : decode par c = formatPer par c f) :
      periphExists par (field c.cw 8 4).toFin = true := by
    obtain ⟨-, -, p, rfl, known, -⟩ := formatPer_ok (same.symm.trans h)
    exact known
  simp only [List.mem_cons, List.not_mem_nil, or_false] at per
  rcases per with opc | opc | opc | opc
  · exact of_format (decode_perTake opc)
  · exact of_format (decode_perEnclk opc)
  · exact of_format (decode_perDisclk opc)
  · exact of_format (decode_perReset opc)

/-- R84 (e), the I2C_ commands. -/
theorem instExists_of_decode {i : Instr} (h : decode par c = .ok i)
    (bus : opcode c.cw ∈ [0x30, 0x31, 0x32, 0x33, 0x34, 0x35, 0x36, 0x37]) :
    instExists par (field c.cw 8 4).toFin = true := by
  have of_format {f : InstId → Instr} (same : decode par c = formatBus par c f) :
      instExists par (field c.cw 8 4).toFin = true := by
    obtain ⟨-, -, k, rfl, known, -⟩ := formatBus_ok (same.symm.trans h)
    exact known
  have of_field {n : Nat} {reserved : BitVec n} {make : InstId → Instr} (same : decode par c =
      reservedZero reserved (orBadInst (instOfCode par (field c.cw 8 4)) fun k => operands0 c.ops (make k))) :
      instExists par (field c.cw 8 4).toFin = true := by
    obtain ⟨-, k, rfl, known, -⟩ := busField_ok (same.symm.trans h)
    exact known
  simp only [List.mem_cons, List.not_mem_nil, or_false] at bus
  rcases bus with opc | opc | opc | opc | opc | opc | opc | opc
  · obtain ⟨-, _, _, k, _, -, -, rfl, known, -⟩ := decodeInit_ok ((decode_i2cInit opc).symm.trans h)
    exact known
  · exact of_format (decode_i2cStart opc)
  · exact of_field (decode_i2cAddr opc)
  · exact of_field (decode_i2cWrbyte opc)
  · exact of_format (decode_i2cRdbyte opc)
  · exact of_format (decode_i2cStop opc)
  · obtain ⟨-, -, k, rfl, known, -⟩ := decodeWrite_ok ((decode_i2cWrite opc).symm.trans h)
    exact known
  · exact of_field (decode_i2cRead opc)

/-- R84 (f): its operand list has the length R87 gives its opcode. -/
theorem encode_operandWords {i : Instr} (wf : i.wellFormed par = true) :
    (encode i).ops.length = operandWords (encode i).cw := by
  cases i with
  | clkConfig src hpre ppre1 ppre2 => rw [operandWords, opcode_clkConfig]; rfl
  | clkPllconfig src m n pcode => rw [operandWords, opcode_clkPllconfig]; rfl
  | pack width existing value laneMask => rw [operandWords, opcode_pack]; rfl
  | i2cInit k speed mode own1 own2 freq => rw [operandWords, opcode_i2cInit]; rfl
  | i2cAddr k addr dir => rw [operandWords, opcode_i2cAddr]; rfl
  | i2cWrbyte k data => rw [operandWords, opcode_i2cWrbyte]; rfl
  | i2cWrite k addr n ops =>
    obtain ⟨-, count⟩ : instExists par k = true ∧ ops.length = writeOperandCount n := by
      simpa [Instr.wellFormed] using wf
    have len : (wordT k addr n 0x36#8).extractLsb' 20 12 = n := (eq_wordT_iff.mp rfl).1
    simpa [operandWords, encode, len, writeOperandCount] using count
  | _ => simp [operandWords, encode]

/-- A command that decodes meets none of the conditions of 30_encoding.md R84. -/
theorem not_isDecodeError_of_decode {i : Instr} (h : decode par c = .ok i) : ¬ IsDecodeError par c := by
  rintro (noRow | ⟨opc, src⟩ | ⟨opc, code⟩ | ⟨opc, zero⟩ | ⟨per, unknown⟩ | ⟨bus, unknown⟩ | count)
  · obtain ⟨r, mem, row⟩ := exists_row_of_decode h
    exact noRow r mem row
  · obtain ⟨-, -, -, s, known, -⟩ := decodeClkConfig_ok ((decode_clkConfig opc).symm.trans h)
    cases (Source.ofCode_eq_none.mpr src).symm.trans known
  · obtain ⟨-, s, m, -, -, speed, mode, -⟩ := decodeInit_ok ((decode_i2cInit opc).symm.trans h)
    rcases code with code | code
    · cases (Speed.ofCode_eq_none.mpr code).symm.trans speed
    · cases (BusMode.ofCode_eq_none.mpr code).symm.trans mode
  · obtain ⟨-, -, pos, -⟩ := decodePllConfig_ok ((decode_clkPllconfig opc).symm.trans h)
    exact pos zero
  · exact periphExists_toFin.mp (periphExists_of_decode h per) unknown
  · exact instExists_toFin.mp (instExists_of_decode h bus) unknown
  · have length := encode_operandWords (decode_wellFormed h)
    rw [encode_of_decode h] at length
    exact count length

/-! What a command that meets none of the conditions of 30_encoding.md R84 passes -/

/-- What the decoder finds where none of R84 (c) to (f) holds. -/
structure PassesChecks (par : Config.Params) (c : Command) : Prop where
  source : opcode c.cw = 0x05 → ∃ s, Source.ofCode (field c.cw 8 2) = some s
  speed : opcode c.cw = 0x30 → ∃ s, Speed.ofCode (field c.cw 12 2) = some s
  mode : opcode c.cw = 0x30 → ∃ m, BusMode.ofCode (field c.cw 14 2) = some m
  pllM : opcode c.cw = 0x06 → field c.cw 12 6 ≠ 0#6
  periph : opcode c.cw ∈ [0x20, 0x21, 0x22, 0x23] → ∃ p, periphOfCode par (field c.cw 8 4) = some p
  inst : opcode c.cw ∈ [0x30, 0x31, 0x32, 0x33, 0x34, 0x35, 0x36, 0x37] → ∃ k, instOfCode par (field c.cw 8 4) = some k
  count : c.ops.length = operandWords c.cw

/-- A command without a decode error matches a row and passes the checks. -/
theorem row_and_checks_of_not_isDecodeError (valid : ¬ IsDecodeError par c) :
    (∃ r ∈ opcodeRows, c.cw &&& r.mask = r.bits) ∧ PassesChecks par c := by
  simp only [IsDecodeError, not_or, not_and, not_forall, not_not, exists_prop] at valid
  obtain ⟨row, source, code, pllM, periph, inst, count⟩ := valid
  refine ⟨row, fun opc => ?_, fun opc => ?_, fun opc => ?_, pllM, fun per => ?_, fun bus => ?_, count⟩
  · exact Option.ne_none_iff_exists'.mp fun none => source opc (Source.ofCode_eq_none.mp none)
  · exact Option.ne_none_iff_exists'.mp fun none => (code opc).1 (Speed.ofCode_eq_none.mp none)
  · exact Option.ne_none_iff_exists'.mp fun none => (code opc).2 (BusMode.ofCode_eq_none.mp none)
  · exact ⟨_, if_pos (periphExists_toFin.mpr (periph per))⟩
  · exact ⟨_, if_pos (instExists_toFin.mpr (inst bus))⟩

/-- The decoder answers a command. -/
def Accepted (answer : Except DecodeError Instr) : Prop := ∃ i, answer = .ok i

section Accepted

variable {ops : List Word} {i : Instr} {rest : Except DecodeError Instr}

theorem Accepted.reservedZero {n : Nat} {f : BitVec n} (zero : f = 0#n) (h : Accepted rest) :
    Accepted (reservedZero f rest) := by rwa [reservedZero_zero zero]

theorem Accepted.operands0 (count : ops.length = 0) : Accepted (operands0 ops i) := by
  obtain rfl := List.length_eq_zero_iff.mp count
  exact ⟨i, rfl⟩

theorem Accepted.operands1 {f : Word → Instr} (count : ops.length = 1) : Accepted (operands1 ops f) := by
  obtain ⟨a, rfl⟩ := List.length_eq_one_iff.mp count
  exact ⟨f a, rfl⟩

theorem Accepted.operands2 {f : Word → Word → Instr} (count : ops.length = 2) : Accepted (operands2 ops f) := by
  obtain ⟨a, b, rfl⟩ := List.length_eq_two.mp count
  exact ⟨f a b, rfl⟩

theorem Accepted.operands3 {f : Word → Word → Word → Instr} (count : ops.length = 3) :
    Accepted (operands3 ops f) := by
  obtain ⟨a, b, d, rfl⟩ := List.length_eq_three.mp count
  exact ⟨f a b d, rfl⟩

theorem Accepted.orReserved {α : Type} {x : Option α} {f : α → Except DecodeError Instr} (known : ∃ a, x = some a)
    (h : ∀ a, Accepted (f a)) : Accepted (orReserved x f) := by
  obtain ⟨a, rfl⟩ := known
  exact h a

theorem Accepted.orBadInst {α : Type} {x : Option α} {f : α → Except DecodeError Instr} (known : ∃ a, x = some a)
    (h : ∀ a, Accepted (f a)) : Accepted (orBadInst x f) := by
  obtain ⟨a, rfl⟩ := known
  exact h a

end Accepted

/-- At the row a word matches, the reserved fields are 0 and the checks are all the decoder asks for. The cases stand in
the order of the opcode map (30_encoding.md R86). -/
theorem accepted_of_row (mem : r ∈ opcodeRows) (row : c.cw &&& r.mask = r.bits) (checks : PassesChecks par c) :
    Accepted (decode par c) := by
  have opc := opcode_of_row mem row
  have count := checks.count
  have periph := checks.periph
  have inst := checks.inst
  rw [operandWords, opc] at count
  rw [opc] at periph inst
  simp only [opcodeRows, List.cons_append, List.nil_append, List.mem_cons, List.not_mem_nil, or_false] at mem
  rcases mem with rfl | rfl | rfl | rfl | rfl | rfl | rfl | rfl | rfl | rfl | rfl | rfl | rfl | rfl | rfl | rfl | rfl |
    rfl | rfl | rfl | rfl | rfl | rfl | rfl | rfl | rfl | rfl
  · rw [decode_clkSysfreq opc]
    exact .reservedZero (field_of_row row (by decide)) (.operands0 count)
  · rw [decode_clkAhbfreq opc]
    exact .reservedZero (field_of_row row (by decide)) (.operands0 count)
  · rw [decode_clkApb1freq opc]
    exact .reservedZero (field_of_row row (by decide)) (.operands0 count)
  · rw [decode_clkApb2freq opc]
    exact .reservedZero (field_of_row row (by decide)) (.operands0 count)
  · rw [decode_clkConfig opc]
    exact .reservedZero (field_of_row row (by decide)) (.reservedZero (field_of_row row (by decide))
      (.orReserved (checks.source opc) fun _ => .operands0 count))
  · rw [decode_clkPllconfig opc]
    refine .reservedZero (field_of_row row (by decide)) (.reservedZero (field_of_row row (by decide)) ?_)
    rw [if_neg (checks.pllM opc)]
    exact .operands0 count
  · rw [decode_pack opc]
    exact .reservedZero (field_of_row row (by decide)) (.operands3 count)
  · rw [decode_maskNew opc]
    exact .reservedZero (field_of_row row (by decide)) (.operands1 count)
  · rw [decode_maskUnion opc]
    exact .reservedZero (field_of_row row (by decide)) (.operands2 count)
  · rw [decode_maskIntersect opc]
    exact .reservedZero (field_of_row row (by decide)) (.operands2 count)
  · rw [decode_maskComplement opc]
    exact .reservedZero (field_of_row row (by decide)) (.operands1 count)
  · rw [decode_maskXor opc]
    exact .reservedZero (field_of_row row (by decide)) (.operands2 count)
  · rw [decode_maskSet opc]
    exact .reservedZero (field_of_row row (by decide)) (.operands1 count)
  · rw [decode_maskReset opc]
    exact .reservedZero (field_of_row row (by decide)) (.operands1 count)
  · rw [decode_maskIsset opc]
    exact .reservedZero (field_of_row row (by decide)) (.operands1 count)
  · rw [decode_perTake opc]
    exact .reservedZero (field_of_row row (by decide)) (.orBadInst (periph (by decide)) fun _ => .operands0 count)
  · rw [decode_perEnclk opc]
    exact .reservedZero (field_of_row row (by decide)) (.orBadInst (periph (by decide)) fun _ => .operands0 count)
  · rw [decode_perDisclk opc]
    exact .reservedZero (field_of_row row (by decide)) (.orBadInst (periph (by decide)) fun _ => .operands0 count)
  · rw [decode_perReset opc]
    exact .reservedZero (field_of_row row (by decide)) (.orBadInst (periph (by decide)) fun _ => .operands0 count)
  · rw [decode_i2cInit opc]
    exact .reservedZero (field_of_row row (by decide)) (.orReserved (checks.speed opc) fun _ =>
      .orReserved (checks.mode opc) fun _ => .orBadInst (inst (by decide)) fun _ => .operands1 count)
  · rw [decode_i2cStart opc]
    exact .reservedZero (field_of_row row (by decide)) (.orBadInst (inst (by decide)) fun _ => .operands0 count)
  · rw [decode_i2cAddr opc]
    exact .reservedZero (field_of_row row (by decide)) (.orBadInst (inst (by decide)) fun _ => .operands0 count)
  · rw [decode_i2cWrbyte opc]
    exact .reservedZero (field_of_row row (by decide)) (.orBadInst (inst (by decide)) fun _ => .operands0 count)
  · rw [decode_i2cRdbyte opc]
    exact .reservedZero (field_of_row row (by decide)) (.orBadInst (inst (by decide)) fun _ => .operands0 count)
  · rw [decode_i2cStop opc]
    exact .reservedZero (field_of_row row (by decide)) (.orBadInst (inst (by decide)) fun _ => .operands0 count)
  · rw [decode_i2cWrite opc]
    exact .reservedZero (field_of_row row (by decide)) (.orBadInst (inst (by decide)) fun _ => ⟨_, if_pos count⟩)
  · rw [decode_i2cRead opc]
    exact .reservedZero (field_of_row row (by decide)) (.orBadInst (inst (by decide)) fun _ => .operands0 count)

/-- Exactly the commands R84 names do not decode. -/
theorem exists_error_iff : (∃ e, decode par c = .error e) ↔ IsDecodeError par c := by
  constructor
  · rintro ⟨e, refused⟩
    by_contra valid
    obtain ⟨⟨r, mem, row⟩, checks⟩ := row_and_checks_of_not_isDecodeError valid
    obtain ⟨i, accepted⟩ := accepted_of_row mem row checks
    cases refused.symm.trans accepted
  · intro invalid
    cases answer : decode par c with
    | ok i => exact absurd invalid (not_isDecodeError_of_decode answer)
    | error e => exact ⟨e, rfl⟩

/-! The step of a command that does not decode -/

theorem startCommand_of_error {s : Machine.State} {e : DecodeError} (fetched : s.fetch = some c)
    (refused : decode s.par c = .error e) : Machine.startCommand s = .next (s.finish .decodeError 0#32 []) := by
  simp [Machine.startCommand, fetched, refused, Machine.raiseStatus]

/-- A command that ends in its first micro-step leaves the sequencer as it was. -/
theorem finish_of_between {s : Machine.State} (idle : s.between) (e : Machine.Status) (v : Word) (bytes : List Byte) :
    s.finish e v bytes = { s with results := s.results ++ [⟨e, v, bytes⟩], cptr := s.cptr + 1 } := by
  rw [Machine.State.finish, ← show s.seq = _ from idle]

/-- Settles O4: the decoder refuses what R84 names, and the SEQ turn of a refused command is `finish`. -/
theorem decodeErrorsAreThoseOfRule84 : Obligations.DecodeErrorsAreThoseOfRule84 := by
  refine ⟨fun par c => exists_error_iff, fun s c clear turn idle fetched invalid => ?_⟩
  have idle : s.takeTurn.between := s.takeTurn_seq.trans idle
  have fetched : s.takeTurn.fetch = some c := s.takeTurn_fetch.trans fetched
  obtain ⟨e, refused⟩ : ∃ e, decode s.takeTurn.par c = .error e := by
    rw [s.takeTurn_par]
    exact exists_error_iff.mpr invalid
  rw [Machine.step_of_seq clear turn, Machine.seqTurn_between (congrArg Machine.Sequencer.cmd idle),
    startCommand_of_error fetched refused, finish_of_between idle, s.takeTurn_results, s.takeTurn_cptr]

end Sys2Proof
end

section
/-! PROOF. The frequency derivation and the four queries (40_clocktree.md R96 to R101, R105; 10_state.md R28 to R31). -/

namespace Sys2Proof.Machine

open Sys2Proof.Claims

variable {s : State} {f : Nat} {e : Fault}

/-! The divisors -/

/-- The prescaler and post-divider codes are those of the tables (10_state.md R29, R30, R31). -/
theorem hpreDiv_eq_ahbDivisors (c : BitVec 4) : hpreDiv c = ahbDivisors.getD c.toNat 0 := by
  revert c
  decide

theorem ppreDiv_eq_apbDivisors (c : BitVec 3) : ppreDiv c = apbDivisors.getD c.toNat 0 := by
  revert c
  decide

theorem pllpDiv_eq_pllDivisors (c : BitVec 2) : pllpDiv c = pllDivisors.getD c.toNat 0 := by
  revert c
  decide

/-! The system clock -/

/-- The PLL output is at most half of the clamp, since no post-divider is below 2 (40_clocktree.md R96). -/
theorem pllOut_le {q : Nat} (h : pllOut s = .ok q) : q ≤ (2 ^ 32 - 1) / 2 := by
  unfold pllOut at h
  split at h
  · cases h
  · cases h
    have divisor : 2 ≤ pllpDiv s.cc.pllcfgr.pllp := by
      unfold pllpDiv
      omega
    exact Nat.div_le_div (Nat.min_le_right _ _) divisor (by decide)

/-- The system clock fits 32 bits: the oscillators' frequencies are words, and the PLL output is clamped
(40_clocktree.md R105 (d)). -/
theorem sysclk_lt (h : sysclk s = .ok f) : f < 2 ^ 32 := by
  unfold sysclk srcFreq at h
  split at h
  · cases h; exact s.par.hsiHz.isLt
  · cases h; exact s.par.hseHz.isLt
  · have := pllOut_le h
    omega
  · cases h

theorem pllIn_eq_pllInputHz (s : State) : pllIn s = pllInputHz s := by
  unfold pllIn pllInputHz
  cases s.cc.pllcfgr.pllsrc <;> rfl

theorem sysclk_of_pll (sws : s.cc.cfgr.sws = 2#2) : sysclk s = pllOut s := by
  rw [sysclk, sws]
  rfl

/-- The derivation of 40_clocktree.md R96, source by source. -/
theorem sysclk_of_sysclkIs (h : SysclkIs s f) : sysclk s = .ok f := by
  rcases h with ⟨sws, rfl⟩ | ⟨sws, rfl⟩ | ⟨sws, pllm, rfl⟩
  · rw [sysclk, sws]; rfl
  · rw [sysclk, sws]; rfl
  · rw [sysclk_of_pll sws, pllOut, if_neg pllm, pllIn_eq_pllInputHz, pllpDiv_eq_pllDivisors]
    rfl

/-- SWS holds the reserved code (10_state.md R28). -/
theorem sysclk_reserved (sws : s.cc.cfgr.sws = 3#2) : sysclk s = .error .swsReserved := by
  rw [sysclk, sws]
  rfl

/-- The PLL is in use with a pre-divider of 0 (40_clocktree.md R96). -/
theorem sysclk_zero_pllm (sws : s.cc.cfgr.sws = 2#2) (pllm : s.cc.pllcfgr.pllm = 0#6) :
    sysclk s = .error .divZero := by
  rw [sysclk_of_pll sws, pllOut, if_pos pllm]

/-! The bus clocks: the system clock through the prescalers, or its fault -/

theorem hclk_ok (h : sysclk s = .ok f) : hclk s = .ok (f / hpreDiv s.cc.cfgr.hpre) := by
  rw [hclk, h]
  rfl

theorem pclk1_ok (h : sysclk s = .ok f) :
    pclk1 s = .ok (f / hpreDiv s.cc.cfgr.hpre / ppreDiv s.cc.cfgr.ppre1) := by
  rw [pclk1, hclk_ok h]
  rfl

theorem pclk2_ok (h : sysclk s = .ok f) :
    pclk2 s = .ok (f / hpreDiv s.cc.cfgr.hpre / ppreDiv s.cc.cfgr.ppre2) := by
  rw [pclk2, hclk_ok h]
  rfl

theorem hclk_error (h : sysclk s = .error e) : hclk s = .error e := by
  rw [hclk, h]
  rfl

theorem pclk1_error (h : sysclk s = .error e) : pclk1 s = .error e := by
  rw [pclk1, hclk_error h]
  rfl

theorem pclk2_error (h : sysclk s = .error e) : pclk2 s = .error e := by
  rw [pclk2, hclk_error h]
  rfl

/-- Settles O10: each bus clock is the system clock divided along its path, the PLL output and the oscillators fit
32 bits, and the divisors are read off the code tables. -/
theorem frequencyLaws : Obligations.FrequencyLaws := by
  refine ⟨fun s f h => ⟨sysclk_lt h, _, _, _, hclk_ok h, pclk1_ok h, pclk2_ok h, Nat.div_le_self .., Nat.div_le_self ..,
      Nat.div_le_self .., rfl, Nat.div_div_eq_div_mul .., Nat.div_div_eq_div_mul ..⟩,
    fun s q => pllOut_le, fun c => ⟨hpreDiv_eq_ahbDivisors c, (hpreDiv_pos c).ne'⟩,
    fun c => ⟨ppreDiv_eq_apbDivisors c, (ppreDiv_pos c).ne'⟩, fun c => ⟨pllpDiv_eq_pllDivisors c, (pllpDiv_pos c).ne'⟩⟩

/-! The queries -/

theorem exec_clkSysfreq (start : s.seq.point = .start) : exec .clkSysfreq s = returnFreq (sysclk s) s := by
  simp only [exec, execClkSysfreq, start]

theorem exec_clkAhbfreq (start : s.seq.point = .start) : exec .clkAhbfreq s = returnFreq (hclk s) s := by
  simp only [exec, execClkAhbfreq, start]

theorem exec_clkApb1freq (start : s.seq.point = .start) : exec .clkApb1freq s = returnFreq (pclk1 s) s := by
  simp only [exec, execClkApb1freq, start]

theorem exec_clkApb2freq (start : s.seq.point = .start) : exec .clkApb2freq s = returnFreq (pclk2 s) s := by
  simp only [exec, execClkApb2freq, start]

theorem returnFreq_ok (f : Nat) (s : State) :
    returnFreq (.ok f) s = .next (s.finish .ok (BitVec.ofNat 32 f) []) := rfl

theorem returnFreq_error (e : Fault) (s : State) : returnFreq (.error e) s = .next { s with fault := some e } := rfl

/-- A system clock without a frequency faults every query, since each derives its own from it. -/
theorem exec_query_fault {i : Instr} (start : s.seq.point = .start)
    (query : i ∈ [Instr.clkSysfreq, .clkAhbfreq, .clkApb1freq, .clkApb2freq]) (h : sysclk s = .error e) :
    exec i s = .next { s with fault := some e } := by
  simp only [List.mem_cons, List.not_mem_nil, or_false] at query
  rcases query with rfl | rfl | rfl | rfl
  · rw [exec_clkSysfreq start, h, returnFreq_error]
  · rw [exec_clkAhbfreq start, hclk_error h, returnFreq_error]
  · rw [exec_clkApb1freq start, pclk1_error h, returnFreq_error]
  · rw [exec_clkApb2freq start, pclk2_error h, returnFreq_error]

/-- Settles O9: each query returns its derived clock, whose divisors are those of the code tables, or the fault of the
system clock. -/
theorem frequencyQueriesFollowTheDerivation : Obligations.FrequencyQueriesFollowTheDerivation := by
  refine ⟨fun s f start is => ?_, fun s i start query sws => exec_query_fault start query (sysclk_reserved sws),
    fun s i start query sws pllm => exec_query_fault start query (sysclk_zero_pllm sws pllm)⟩
  have h := sysclk_of_sysclkIs is
  simp only [← hpreDiv_eq_ahbDivisors, ← ppreDiv_eq_apbDivisors]
  refine ⟨?_, ?_, ?_, ?_⟩
  · rw [exec_clkSysfreq start, h, returnFreq_ok]
  · rw [exec_clkAhbfreq start, hclk_ok h, returnFreq_ok]
  · rw [exec_clkApb1freq start, pclk1_ok h, returnFreq_ok]
  · rw [exec_clkApb2freq start, pclk2_ok h, returnFreq_ok]

end Sys2Proof.Machine
end

section
/-! PROOF. The micro-steps of `CLK_CONFIG` and `CLK_PLLCONFIG` (40_clocktree.md R102, R104). -/

namespace Sys2Proof.Machine

open Sys2Proof.Claims

theorem Cr.enable_eq_withEnable (r : Cr) (src : Source) : r.enable src = withEnable src r := by cases src <;> rfl

theorem Cr.ready_eq_readyFlag (r : Cr) (src : Source) : r.ready src = readyFlag src r := by cases src <;> rfl

section ClkConfig

variable {s : State} (src : Source) (hpre : BitVec 4) (ppre1 ppre2 : BitVec 3)

/-- The no-op of 40_clocktree.md R102 (a). -/
theorem exec_clkConfig_noop (start : s.seq.point = .start) (inUse : s.cc.cfgr.sws = src.code) :
    exec (.clkConfig src hpre ppre1 ppre2) s = .next (s.finish .ok 0#32 []) := by
  simp only [exec, execClkConfig, start, if_pos inUse]
  rfl

theorem exec_clkConfig_enter (start : s.seq.point = .start) (other : s.cc.cfgr.sws ≠ src.code) :
    exec (.clkConfig src hpre ppre1 ppre2) s =
      .next (s.enter (.clkConfig src hpre ppre1 ppre2) (.config .enable)) := by
  simp only [exec, execClkConfig, start, if_neg other]

theorem exec_clkConfig_enable (at_ : s.seq.point = .config .enable) :
    exec (.clkConfig src hpre ppre1 ppre2) s =
      .next ((s.setCr (withEnable src s.cc.cr)).goto (.config .ready)) := by
  simp only [exec, execClkConfig, at_, Cr.enable_eq_withEnable]

theorem exec_clkConfig_await (at_ : s.seq.point = .config .ready) (waits : readyFlag src s.cc.cr = false) :
    exec (.clkConfig src hpre ppre1 ppre2) s = .next s := by
  simp only [exec, execClkConfig, at_, Cr.ready_eq_readyFlag, waits, Bool.false_eq_true, if_false]

theorem exec_clkConfig_ready (at_ : s.seq.point = .config .ready) (ready : readyFlag src s.cc.cr = true) :
    exec (.clkConfig src hpre ppre1 ppre2) s = .next (s.goto (.config .prescale)) := by
  simp only [exec, execClkConfig, at_, Cr.ready_eq_readyFlag, ready, if_true]

theorem exec_clkConfig_prescale (at_ : s.seq.point = .config .prescale) :
    exec (.clkConfig src hpre ppre1 ppre2) s =
      .next ((s.setCfgr ⟨s.cc.cfgr.sw, s.cc.cfgr.sws, hpre, ppre1, ppre2⟩).goto (.config .switch)) := by
  simp only [exec, execClkConfig, at_]

theorem exec_clkConfig_switch (at_ : s.seq.point = .config .switch) :
    exec (.clkConfig src hpre ppre1 ppre2) s =
      .next ((s.setCfgr { s.cc.cfgr with sw := src.code }).goto (.config .confirm)) := by
  simp only [exec, execClkConfig, at_]

theorem exec_clkConfig_unconfirmed (at_ : s.seq.point = .config .confirm) (other : s.cc.cfgr.sws ≠ src.code) :
    exec (.clkConfig src hpre ppre1 ppre2) s = .next s := by
  simp only [exec, execClkConfig, at_, if_neg other]

theorem exec_clkConfig_confirmed (at_ : s.seq.point = .config .confirm) (inUse : s.cc.cfgr.sws = src.code) :
    exec (.clkConfig src hpre ppre1 ppre2) s = .next (s.finish .ok 0#32 []) := by
  simp only [exec, execClkConfig, at_, if_pos inUse]
  rfl

end ClkConfig

/-- Settles O11: one lemma for each line of `CLK_CONFIG` and each outcome of its checks. -/
theorem clkConfigMicroSteps : Obligations.ClkConfigMicroSteps := fun _ src hpre ppre1 ppre2 =>
  ⟨exec_clkConfig_noop src hpre ppre1 ppre2, exec_clkConfig_enter src hpre ppre1 ppre2,
    exec_clkConfig_enable src hpre ppre1 ppre2, exec_clkConfig_await src hpre ppre1 ppre2,
    exec_clkConfig_ready src hpre ppre1 ppre2, exec_clkConfig_prescale src hpre ppre1 ppre2,
    exec_clkConfig_switch src hpre ppre1 ppre2, exec_clkConfig_unconfirmed src hpre ppre1 ppre2,
    exec_clkConfig_confirmed src hpre ppre1 ppre2⟩

/-- Settles O13: the first line of `CLK_PLLCONFIG` checks PLLON, its second writes PLLCFGR and ends the command. -/
theorem clkPllConfigMicroSteps : Obligations.ClkPllConfigMicroSteps := by
  refine fun s src m n pcode => ⟨fun start on => ?_, fun start off => ?_, fun at_ => ?_⟩
  · simp only [exec, execClkPllconfig, start, if_pos on]
    rfl
  · simp only [exec, execClkPllconfig, start, off, Bool.false_eq_true, if_false]
  · simp only [exec, execClkPllconfig, at_]
    rfl

end Sys2Proof.Machine
end

section
/-! PROOF. The oscillator agent: which of its steps are allowed, and that nothing else writes the ready flags and SWS
(40_clocktree.md R108 to R110). -/

namespace Sys2Proof.Machine

open Sys2Proof.Claims

variable {s t : State}

/-! What an OSC turn does -/

/-- An OSC turn under a condition `P` that says when its rule allows it. -/
theorem oscStep_eq_ite {a : Config.OscStep} {P : Prop} [Decidable P] (allowed : oscEnabled a s = true ↔ P) :
    oscStep a s = if P then oscEffect a s else s := by
  simp only [oscStep, allowed]

/-- When R108 (c) lets PLLRDY rise: the PLL is on and its input is ready. -/
theorem oscEnabled_pllReady (s : State) : oscEnabled .pllReady s = true ↔
    s.cc.cr.pllon = true ∧ s.cc.cr.pllrdy = false ∧ pllInputReady s = true := by
  unfold oscEnabled pllInputReady
  cases s.cc.pllcfgr.pllsrc <;> simp [and_assoc]

/-- When R110 lets SWS follow SW: they differ, and SW selects a source that is ready. -/
theorem oscEnabled_confirmSwitch (s : State) : oscEnabled .confirmSwitch s = true ↔
    s.cc.cfgr.sws ≠ s.cc.cfgr.sw ∧ ∃ src : Source, s.cc.cfgr.sw = src.code ∧ readyFlag src s.cc.cr = true := by
  have cases_code : ∀ c : BitVec 2, c = 0#2 ∨ c = 1#2 ∨ c = 2#2 ∨ c = 3#2 := by decide
  unfold oscEnabled
  rw [Bool.and_eq_true, bne_iff_ne]
  refine and_congr_right fun _ => ⟨fun ready => ?_, ?_⟩
  · rcases cases_code s.cc.cfgr.sw with sw | sw | sw | sw <;> rw [sw] at ready
    · exact ⟨.hsi, sw, ready⟩
    · exact ⟨.hse, sw, ready⟩
    · exact ⟨.pll, sw, ready⟩
    · cases ready
  · rintro ⟨src, sw, ready⟩
    rw [sw]
    cases src <;> exact ready

/-- Settles O40: each turn is its effect under the condition of R108, read off `oscEnabled`. -/
theorem oscReadySteps : Obligations.OscReadySteps := by
  refine fun s => ⟨oscStep_eq_ite ?_, oscStep_eq_ite ?_, oscStep_eq_ite (oscEnabled_pllReady s), oscStep_eq_ite ?_,
    oscStep_eq_ite ?_, oscStep_eq_ite ?_⟩ <;> simp [oscEnabled]

/-- The turn that confirms a switch copies SW to SWS (40_clocktree.md R110). -/
theorem oscStep_confirmSwitch {src : Source} (sw : s.cc.cfgr.sw = src.code) (differs : s.cc.cfgr.sws ≠ s.cc.cfgr.sw)
    (ready : readyFlag src s.cc.cr = true) :
    oscStep .confirmSwitch s = s.setCfgr { s.cc.cfgr with sws := s.cc.cfgr.sw } := by
  rw [oscStep, if_pos ((oscEnabled_confirmSwitch s).mpr ⟨differs, src, sw, ready⟩)]
  rfl

/-- An OSC turn that changes SWS is the confirmation of a switch, and R110 allowed it. -/
theorem oscStep_changes_sws {a : Config.OscStep} (changed : (oscStep a s).cc.cfgr.sws ≠ s.cc.cfgr.sws) :
    a = .confirmSwitch ∧ oscEnabled a s = true ∧ (oscStep a s).cc.cfgr.sws = s.cc.cfgr.sw := by
  unfold oscStep at changed ⊢
  split
  next allowed =>
    rw [if_pos allowed] at changed
    cases a with
    | confirmSwitch => exact ⟨rfl, allowed, rfl⟩
    | _ => exact absurd rfl changed
  next refused => exact absurd (by rw [if_neg refused]) changed

/-! What the other agents leave to OSC -/

/-- What only OSC writes: the ready flags and SWS (40_clocktree.md R109). -/
structure OscKept (c d : ClockControl) : Prop where
  hsirdy : d.cr.hsirdy = c.cr.hsirdy
  hserdy : d.cr.hserdy = c.cr.hserdy
  pllrdy : d.cr.pllrdy = c.cr.pllrdy
  sws : d.cfgr.sws = c.cfgr.sws

theorem OscKept.refl (c : ClockControl) : OscKept c c := ⟨rfl, rfl, rfl, rfl⟩

theorem OscKept.putBit (c : ClockControl) (par : Config.Params) (b : Nat × Nat) (v : Bool) :
    OscKept c (c.putBit par b v) := by
  obtain ⟨hsirdy, hserdy, pllrdy, sws⟩ := c.putBit_osc par b v
  exact ⟨hsirdy, hserdy, pllrdy, sws⟩

/-- No clock-control write of a command is one of OSC's. -/
theorem ClockWrite.oscKept {i : Instr} {cc : ClockControl} (write : ClockWrite i s cc) : OscKept s.cc cc := by
  cases write with
  | none => exact .refl _
  | enable src => cases src <;> exact ⟨rfl, rfl, rfl, rfl⟩
  | prescale | switch | pll => exact ⟨rfl, rfl, rfl, rfl⟩
  | enableBit p r v | resetBit p r v => exact .putBit ..

/-- A micro-step makes a clock-control write of its command, or none. -/
theorem MicroStep.clockWrite {i : Instr} (move : MicroStep i s t) : ClockWrite i s t.cc := by
  cases move with
  | goesOn par commands cptr results clock line => exact clock
  | ends r par commands cptr results clock idle => exact clock
  | faults f eq => exact eq ▸ .none

theorem SeqMove.oscKept (move : SeqMove s t) : OscKept s.cc t.cc := by
  cases move with
  | resume i running runs => exact (exec_microStep runs).clockWrite.oscKept
  | begins c i idle fetched decoded runs => exact (exec_microStep runs).clockWrite.oscKept
  | undecoded c e idle fetched refused ends => exact ends ▸ .refl _
  | ended idle empty same => exact same ▸ .refl _

/-- A bus turn leaves clock control alone. -/
theorem busStep_cc (k : InstId) (a : Config.BusStep) (s : State) : (busStep k a s).cc = s.cc := by rw [busStep_eq]

/-- A step that changes SWS is the turn of OSC that confirms a switch (40_clocktree.md R110). -/
theorem step_changes_sws (h : step s = .next t) (changed : t.cc.cfgr.sws ≠ s.cc.cfgr.sws) :
    s.nextTurn = .osc .confirmSwitch ∧ oscEnabled .confirmSwitch s.takeTurn = true ∧
      t.cc.cfgr.sws = s.cc.cfgr.sw := by
  rw [← s.takeTurn_cc] at changed ⊢
  cases step_cases h with
  | seq clear turn move => exact absurd move.oscKept.sws changed
  | osc clear a turn eq =>
    subst eq
    obtain ⟨rfl, allowed, copied⟩ := oscStep_changes_sws changed
    exact ⟨turn, allowed, copied⟩
  | bus clear k a turn eq => exact absurd (by rw [eq, busStep_cc]) changed

/-- Settles O39: an OSC turn writes the four fields, no other agent does, and the turn that changes SWS is the allowed
confirmation. -/
theorem oscWritesOnlyReadyFlagsAndSws : Obligations.OscWritesOnlyReadyFlagsAndSws := by
  refine ⟨fun a s => ⟨_, _, _, _, oscStep_eq a s⟩, fun s t h changed => ?_, fun s src => oscStep_confirmSwitch⟩
  obtain ⟨turn, allowed, copied⟩ := step_changes_sws h changed
  obtain ⟨-, selected⟩ := (oscEnabled_confirmSwitch _).mp allowed
  rw [s.takeTurn_cc] at selected
  exact ⟨turn, copied, selected⟩

end Sys2Proof.Machine
end

section
/-! PROOF. Every step keeps SW = SWS, but while `CLK_CONFIG` awaits the confirmation of its own switch
(40_clocktree.md R103). -/

namespace Sys2Proof.Machine

variable {s t : State}

/-! What `SwitchSettled` asks for -/

/-- At the confirmation of a switch SW holds its code. -/
theorem switchSettled_at_confirm {src : Source} {hpre : BitVec 4} {ppre1 ppre2 : BitVec 3}
    (cmd : s.seq.cmd = some (.clkConfig src hpre ppre1 ppre2)) (at_ : s.seq.point = .config .confirm) :
    SwitchSettled s ↔ s.cc.cfgr.sw = src.code := by
  unfold SwitchSettled
  rw [cmd, at_]

theorem SwitchSettled.of_confirm {src : Source} {hpre : BitVec 4} {ppre1 ppre2 : BitVec 3}
    (cmd : s.seq.cmd = some (.clkConfig src hpre ppre1 ppre2)) (at_ : s.seq.point = .config .confirm)
    (sw : s.cc.cfgr.sw = src.code) : SwitchSettled s := (switchSettled_at_confirm cmd at_).mpr sw

/-- At every other line SW = SWS. -/
theorem switchSettled_of_point (at_ : s.seq.point ≠ .config .confirm) :
    SwitchSettled s ↔ s.cc.cfgr.sw = s.cc.cfgr.sws := by
  unfold SwitchSettled
  split
  next confirm => exact absurd confirm at_
  next => rfl

theorem SwitchSettled.of_line {p : Point} (eq : s.cc.cfgr.sw = s.cc.cfgr.sws) (at_ : s.seq.point = p)
    (other : p ≠ .config .confirm) : SwitchSettled s := (switchSettled_of_point (at_ ▸ other)).mpr eq

/-- Outside `CLK_CONFIG` SW = SWS. -/
theorem switchSettled_of_cmd (cmd : ∀ src hpre ppre1 ppre2, s.seq.cmd ≠ some (.clkConfig src hpre ppre1 ppre2)) :
    SwitchSettled s ↔ s.cc.cfgr.sw = s.cc.cfgr.sws := by
  unfold SwitchSettled
  split
  next running _ => exact absurd running (cmd _ _ _ _)
  next => rfl

/-- Between commands SW = SWS. -/
theorem switchSettled_of_idle (idle : s.seq = Sequencer.idle) : SwitchSettled s ↔ s.cc.cfgr.sw = s.cc.cfgr.sws :=
  switchSettled_of_point (by rw [idle]; nofun)

/-- `SwitchSettled` asks only for the sequencer and CFGR. -/
theorem SwitchSettled.congr (settled : SwitchSettled s) (seq : t.seq = s.seq) (cfgr : t.cc.cfgr = s.cc.cfgr) :
    SwitchSettled t := by
  unfold SwitchSettled at *
  rwa [seq, cfgr]

/-! The sequencer -/

/-- `CLK_CONFIG` line by line: it writes SW only on its way to the confirmation, and leaves it only with SWS at the code
that it wrote. -/
theorem execClkConfig_keeps_switchSettled {src : Source} {hpre : BitVec 4} {ppre1 ppre2 : BitVec 3}
    (line : AtLine (.clkConfig src hpre ppre1 ppre2) s) (settled : SwitchSettled s)
    (h : execClkConfig src hpre ppre1 ppre2 s = .next t) : SwitchSettled t := by
  have at_line {p : Point} (at_ : s.seq.point = p) (other : p ≠ .config .confirm) : s.cc.cfgr.sw = s.cc.cfgr.sws :=
    (switchSettled_of_point (at_ ▸ other)).mp settled
  unfold execClkConfig at h
  split at h
  next at_ =>
    have eq := at_line at_ nofun
    split at h
    · cases h; exact (switchSettled_of_idle rfl).mpr eq
    · cases h; exact .of_line eq rfl nofun
  next at_ => cases h; exact .of_line (at_line at_ nofun) rfl nofun
  next at_ =>
    cases h
    split
    · exact .of_line (at_line at_ nofun) rfl nofun
    · exact settled
  next at_ => cases h; exact .of_line (at_line at_ nofun) rfl nofun
  next at_ =>
    obtain ⟨cmd, -⟩ := line.inside (by rw [at_]; nofun)
    cases h
    exact .of_confirm cmd rfl rfl
  next at_ =>
    obtain ⟨cmd, -⟩ := line.inside (by rw [at_]; nofun)
    split at h
    next confirmed =>
      cases h
      exact (switchSettled_of_idle rfl).mpr (((switchSettled_at_confirm cmd at_).mp settled).trans confirmed.symm)
    next => cases h; exact settled
  next => exact absurd h strayPoint_ne_next

/-- No other command writes CFGR, where the rows of `PERIPH` name no bit of it (42_peripheral_access.md R142). -/
theorem ClockWrite.keeps_cfgr {i : Instr} {cc : ClockControl} (board : BoardOk s.par)
    (other : ∀ src hpre ppre1 ppre2, i ≠ .clkConfig src hpre ppre1 ppre2) (write : ClockWrite i s cc) :
    cc.cfgr = s.cc.cfgr := by
  cases write with
  | none => rfl
  | enable src hpre ppre1 ppre2 cmd => exact absurd cmd (other src hpre ppre1 ppre2)
  | prescale src hpre ppre1 ppre2 cmd => exact absurd cmd (other src hpre ppre1 ppre2)
  | switch src hpre ppre1 ppre2 cmd => exact absurd cmd (other src hpre ppre1 ppre2)
  | pll => rfl
  | enableBit p r v row =>
    obtain ⟨-, -, cfgr⟩ := putBit_other_clock s.cc s.par v (board.enable_place row)
    exact cfgr
  | resetBit p r v row =>
    obtain ⟨-, -, cfgr⟩ := putBit_other_clock s.cc s.par v (board.reset_place row)
    exact cfgr

/-- SEQ stands between commands or in a command other than `CLK_CONFIG`. -/
theorem AtLine.switchSettled_iff {i : Instr} (line : AtLine i s)
    (other : ∀ src hpre ppre1 ppre2, i ≠ .clkConfig src hpre ppre1 ppre2) :
    SwitchSettled s ↔ s.cc.cfgr.sw = s.cc.cfgr.sws := by
  rcases line with idle | ⟨cmd, -⟩
  · exact switchSettled_of_idle idle
  · exact switchSettled_of_cmd fun _ _ _ _ running => other _ _ _ _ (Option.some.inj (cmd.symm.trans running))

theorem MicroStep.keeps_switchSettled {i : Instr} (board : BoardOk s.par) (line : AtLine i s)
    (other : ∀ src hpre ppre1 ppre2, i ≠ .clkConfig src hpre ppre1 ppre2) (settled : SwitchSettled s)
    (move : MicroStep i s t) : SwitchSettled t := by
  have eq : t.cc.cfgr.sw = t.cc.cfgr.sws := by
    rw [move.clockWrite.keeps_cfgr board other]
    exact (line.switchSettled_iff other).mp settled
  cases move with
  | goesOn par commands cptr results clock goes => exact (AtLine.switchSettled_iff (.inr (goes line)) other).mpr eq
  | ends r par commands cptr results clock idle => exact (switchSettled_of_idle idle).mpr eq
  | faults f same => exact same ▸ settled

theorem exec_keeps_switchSettled {i : Instr} (board : BoardOk s.par) (line : AtLine i s) (settled : SwitchSettled s)
    (h : exec i s = .next t) : SwitchSettled t := by
  by_cases config : ∃ src hpre ppre1 ppre2, i = .clkConfig src hpre ppre1 ppre2
  · obtain ⟨src, hpre, ppre1, ppre2, rfl⟩ := config
    exact execClkConfig_keeps_switchSettled line settled h
  · exact (exec_microStep h).keeps_switchSettled board line (by simpa using config) settled

theorem SeqMove.keeps_switchSettled (board : BoardOk s.par) (coherent : SeqCoherent s) (settled : SwitchSettled s)
    (move : SeqMove s t) : SwitchSettled t := by
  cases move with
  | resume i running runs => exact exec_keeps_switchSettled board (coherent.running running).2 settled runs
  | begins c i idle fetched decoded runs =>
    exact exec_keeps_switchSettled board (.inl (coherent.between idle)) settled runs
  | undecoded c e idle fetched refused ends =>
    subst ends
    exact (switchSettled_of_idle rfl).mpr ((switchSettled_of_idle (coherent.between idle)).mp settled)
  | ended idle empty same => exact same ▸ settled

/-! The other agents -/

/-- OSC leaves SW, and where SW = SWS it leaves SWS too, whatever it copies. -/
theorem oscStep_keeps_switchSettled (a : Config.OscStep) (settled : SwitchSettled s) : SwitchSettled (oscStep a s) := by
  obtain ⟨sw, -, sws⟩ := oscStep_switch a s
  have seq := (oscStep_seqSide a s).seq
  unfold SwitchSettled at *
  rw [seq, sw]
  split at settled
  · exact settled
  · rcases sws with same | copied
    · exact settled.trans same.symm
    · exact copied.symm

theorem step_keeps_switchSettled (board : BoardOk s.par) (coherent : SeqCoherent s) (settled : SwitchSettled s)
    (h : step s = .next t) : SwitchSettled t := by
  have taken := SeqSide.takeTurn s
  have settledTaken : SwitchSettled s.takeTurn := settled.congr (by simp) (by simp)
  cases step_cases h with
  | seq clear turn move =>
    exact move.keeps_switchSettled (taken.par.symm ▸ board) (taken.coherent coherent) settledTaken
  | osc clear a turn eq => exact eq ▸ oscStep_keeps_switchSettled a settledTaken
  | bus clear k a turn eq =>
    exact eq ▸ settledTaken.congr (busStep_seqSide k a _).seq (by rw [busStep_cc])

/-- Settles O55: only `CLK_CONFIG` writes SW, and it awaits SWS before it ends; OSC copies SW to SWS. -/
theorem stepKeepsSwitchSettled : Obligations.StepKeepsSwitchSettled := fun _ _ => step_keeps_switchSettled

end Sys2Proof.Machine
end

section
/-! PROOF. Two runs of `CLK_CONFIG`: one that OSC serves at once, and one that hangs (40_clocktree.md R102, R108, R110,
R112; 70_reset_and_hazards.md R213, R220). -/

namespace Sys2Proof.Machine

open Sys2Proof.Claims

variable {s t : State}

/-! Turns of a run -/

theorem runs_succ (n : Nat) (h : step s = .next t) : runs (n + 1) s = runs n t := by
  simp only [runs, Host.Core.run, show core.step s = .next t from h]
  rfl

/-- The SEQ turn on the agenda performs a micro-step of the command in progress. -/
theorem step_seq_running {i : Instr} {l : List Config.Turn} (clear : s.fault = none) (agenda : s.agenda = .seq :: l)
    (cmd : s.seq.cmd = some i) : step s = exec i { s with agenda := l } := by
  rw [step_of_seq clear (nextTurn_cons agenda), takeTurn_cons agenda]
  exact seqTurn_running cmd

/-- The OSC turn on the agenda. -/
theorem step_osc {a : Config.OscStep} {l : List Config.Turn} (clear : s.fault = none)
    (agenda : s.agenda = .osc a :: l) : step s = .next (oscStep a { s with agenda := l }) := by
  rw [step_of_clear clear, nextTurn_cons agenda, takeTurn_cons agenda]
  rfl

/-! A switch that OSC serves at once -/

/-- `s` with the command `i` in progress at line `p` of `CLK_CONFIG`, clock control `cc` and the turns `l` to come. -/
def State.configAt (s : State) (i : Instr) (p : ConfigPoint) (cc : ClockControl) (l : List Config.Turn) : State :=
  { s with cc := cc, seq := { Sequencer.idle with cmd := some i, point := .config p }, agenda := l }

/-- Clock control once the source is enabled, and once its ready flag is up too (40_clocktree.md R102, R108). -/
def enabledCc (src : Source) (c : ClockControl) : ClockControl := { c with cr := withEnable src c.cr }

def raisedCc (src : Source) (c : ClockControl) : ClockControl :=
  { c with cr := withReady src (withEnable src c.cr) }

section ConfigAt

variable {i : Instr} {p : ConfigPoint} {cc : ClockControl} {l : List Config.Turn}

theorem step_configAt_seq (clear : s.fault = none) :
    step (s.configAt i p cc (.seq :: l)) = exec i (s.configAt i p cc l) :=
  step_seq_running clear rfl rfl

theorem step_configAt_osc (clear : s.fault = none) (a : Config.OscStep) :
    step (s.configAt i p cc (.osc a :: l)) = .next (oscStep a (s.configAt i p cc l)) :=
  step_osc clear rfl

/-- OSC raises the ready flag of a source that is enabled and not ready, the PLL's where its input is ready
(40_clocktree.md R108). -/
theorem oscStep_readyStep_configAt {src : Source} (off : readyFlag src cc.cr = false)
    (input : src = .pll → pllInputReady (s.configAt i p cc l) = true) :
    oscStep (readyStep src) (s.configAt i p (enabledCc src cc) l) = s.configAt i p (raisedCc src cc) l := by
  have allowed : oscEnabled (readyStep src) (s.configAt i p (enabledCc src cc) l) = true := by
    cases src with
    | hsi | hse => simpa [readyStep, oscEnabled, State.configAt, enabledCc, withEnable, readyFlag] using off
    | pll => exact (oscEnabled_pllReady (s.configAt i p (enabledCc .pll cc) l)).mpr ⟨rfl, off, input rfl⟩
  rw [oscStep, if_pos allowed]
  cases src <;> rfl

end ConfigAt

theorem readyFlag_withReady (src : Source) (r : Cr) : readyFlag src (withReady src r) = true := by cases src <;> rfl

/-- The first micro-step of a command that is under CPTR. -/
theorem step_seq_ready {i : Instr} {l : List Config.Turn} (ready : ReadyToRun s i) (agenda : s.agenda = .seq :: l) :
    step s = exec i { s with agenda := l } := by
  obtain ⟨clear, between, c, fetched, decoded⟩ := ready
  rw [step_of_seq clear (nextTurn_cons agenda), takeTurn_cons agenda]
  have idle : ({ s with agenda := l } : State).seq.cmd = none := congrArg Sequencer.cmd between
  exact (seqTurn_between idle).trans (startCommand_of_decode fetched decoded)

/-- The first turn of a `CLK_CONFIG` to a source that is not in use: the command is in progress. -/
theorem step_clkConfig_enter {src : Source} {hpre : BitVec 4} {ppre1 ppre2 : BitVec 3} {l : List Config.Turn}
    (ready : ReadyToRun s (.clkConfig src hpre ppre1 ppre2)) (other : s.cc.cfgr.sws ≠ src.code)
    (agenda : s.agenda = .seq :: l) :
    step s = .next (s.configAt (.clkConfig src hpre ppre1 ppre2) .enable s.cc l) := by
  obtain ⟨-, idle, -⟩ := id ready
  have idle : s.seq = Sequencer.idle := idle
  have start : ({ s with agenda := l } : State).seq.point = .start := congrArg Sequencer.point idle
  rw [step_seq_ready ready agenda, exec_clkConfig_enter src hpre ppre1 ppre2 start other, State.configAt, ← idle]
  rfl

/-- Settles O12: the eight turns one by one, each by the lemma of its line or of its OSC step. -/
theorem clkConfigRunsToItsEnd : Obligations.ClkConfigRunsToItsEnd := by
  intro s src hpre ppre1 ppre2 rest ready other off input agenda
  obtain ⟨clear, between, -⟩ := id ready
  have idle : s.seq = Sequencer.idle := between
  calc runs 8 s
    _ = runs 7 (s.configAt (.clkConfig src hpre ppre1 ppre2) .enable s.cc
          (.seq :: .osc (readyStep src) :: .seq :: .seq :: .seq :: .osc .confirmSwitch :: .seq :: rest)) :=
        runs_succ 7 (step_clkConfig_enter ready other agenda)
    _ = runs 6 (s.configAt (.clkConfig src hpre ppre1 ppre2) .ready (enabledCc src s.cc)
          (.osc (readyStep src) :: .seq :: .seq :: .seq :: .osc .confirmSwitch :: .seq :: rest)) :=
        runs_succ 6 ((step_configAt_seq clear).trans (exec_clkConfig_enable src hpre ppre1 ppre2 rfl))
    _ = runs 5 (s.configAt (.clkConfig src hpre ppre1 ppre2) .ready (raisedCc src s.cc)
          (.seq :: .seq :: .seq :: .osc .confirmSwitch :: .seq :: rest)) :=
        runs_succ 5 ((step_configAt_osc clear _).trans (congrArg _ (oscStep_readyStep_configAt off input)))
    _ = runs 4 (s.configAt (.clkConfig src hpre ppre1 ppre2) .prescale (raisedCc src s.cc)
          (.seq :: .seq :: .osc .confirmSwitch :: .seq :: rest)) :=
        runs_succ 4 ((step_configAt_seq clear).trans
          (exec_clkConfig_ready src hpre ppre1 ppre2 rfl (readyFlag_withReady src _)))
    _ = runs 3 (s.configAt (.clkConfig src hpre ppre1 ppre2) .switch
          { raisedCc src s.cc with cfgr := ⟨s.cc.cfgr.sw, s.cc.cfgr.sws, hpre, ppre1, ppre2⟩ }
          (.seq :: .osc .confirmSwitch :: .seq :: rest)) :=
        runs_succ 3 ((step_configAt_seq clear).trans (exec_clkConfig_prescale src hpre ppre1 ppre2 rfl))
    _ = runs 2 (s.configAt (.clkConfig src hpre ppre1 ppre2) .confirm
          { raisedCc src s.cc with cfgr := ⟨src.code, s.cc.cfgr.sws, hpre, ppre1, ppre2⟩ }
          (.osc .confirmSwitch :: .seq :: rest)) :=
        runs_succ 2 ((step_configAt_seq clear).trans (exec_clkConfig_switch src hpre ppre1 ppre2 rfl))
    _ = runs 1 (s.configAt (.clkConfig src hpre ppre1 ppre2) .confirm
          { raisedCc src s.cc with cfgr := ⟨src.code, src.code, hpre, ppre1, ppre2⟩ } (.seq :: rest)) :=
        runs_succ 1 ((step_configAt_osc clear _).trans
          (congrArg _ (oscStep_confirmSwitch rfl other (readyFlag_withReady src _))))
    _ = runs 0 ((s.configAt (.clkConfig src hpre ppre1 ppre2) .confirm
          { raisedCc src s.cc with cfgr := ⟨src.code, src.code, hpre, ppre1, ppre2⟩ } rest).finish .ok 0#32 []) :=
        runs_succ 0 ((step_configAt_seq clear).trans (exec_clkConfig_confirmed src hpre ppre1 ppre2 rfl rfl))
    _ = _ := by
        show Host.Outcome.next _ = _
        rw [State.finish, ← idle]
        rfl

/-! A switch to the PLL that nothing can serve -/

/-- A state hangs when it meets a property that every step keeps, with the command and CPTR as they were. -/
theorem hangs_of_invariant {P : State → Prop} (running : s.seq.cmd ≠ none) (holds : P s)
    (keeps : ∀ u, P u → ∃ t, step u = .next t ∧ P t ∧ t.seq.cmd = u.seq.cmd ∧ t.cptr = u.cptr) : Hangs s := by
  refine ⟨running, fun n => ?_⟩
  clear running
  induction n generalizing s with
  | zero => exact ⟨s, rfl, rfl, rfl⟩
  | succ n ih =>
    obtain ⟨u, steps, holds, cmd, cptr⟩ := keeps s holds
    obtain ⟨t, reached, cmd', cptr'⟩ := ih holds
    exact ⟨t, (runs_succ n steps).trans reached, cmd'.trans cmd, cptr'.trans cptr⟩

/-- The PLL is not ready, and the external oscillator that feeds it is off and not ready (40_clocktree.md R112 (b)). -/
structure PllStarved (c : ClockControl) : Prop where
  input : c.pllcfgr.pllsrc = .hse
  off : c.cr.hseon = false
  notReady : c.cr.hserdy = false
  unlocked : c.cr.pllrdy = false

/-- No OSC turn gives the PLL its input: R108 (b) asks for HSEON, R108 (c) for HSERDY. -/
theorem oscStep_keeps_starved (a : Config.OscStep) (starved : PllStarved s.cc) : PllStarved (oscStep a s).cc := by
  obtain ⟨input, off, notReady, unlocked⟩ := id starved
  unfold oscStep
  split
  next allowed =>
    cases a with
    | hseReady => simp [oscEnabled, off] at allowed
    | pllReady => simp [oscEnabled, input, notReady] at allowed
    | hseLost => exact ⟨input, off, rfl, unlocked⟩
    | pllLost => exact ⟨input, off, notReady, rfl⟩
    | hsiReady | hsiLost | confirmSwitch => exact ⟨input, off, notReady, unlocked⟩
  next => exact starved

/-- `CLK_CONFIG PLL` awaits PLLRDY of a starved PLL. -/
structure AwaitsStarvedPll (s : State) : Prop where
  clear : s.fault = none
  cmd : ∃ hpre ppre1 ppre2, s.seq.cmd = some (.clkConfig .pll hpre ppre1 ppre2)
  point : s.seq.point = .config .ready
  starved : PllStarved s.cc

theorem AwaitsStarvedPll.congr (h : AwaitsStarvedPll s) (fault : t.fault = s.fault) (seq : t.seq = s.seq)
    (starved : PllStarved t.cc) : AwaitsStarvedPll t :=
  ⟨fault.trans h.clear, seq ▸ h.cmd, seq ▸ h.point, starved⟩

theorem oscStep_fault (a : Config.OscStep) (s : State) : (oscStep a s).fault = s.fault := by rw [oscStep_eq]

theorem busStep_fault (k : InstId) (a : Config.BusStep) (s : State) : (busStep k a s).fault = s.fault := by
  rw [busStep_eq]

/-- The poll of PLLRDY sees nothing, and no agent lets it see more. -/
theorem runTurn_of_awaitsStarvedPll (turn : Config.Turn) (h : AwaitsStarvedPll s) :
    ∃ t, runTurn turn s = .next t ∧ AwaitsStarvedPll t ∧ t.seq.cmd = s.seq.cmd ∧ t.cptr = s.cptr := by
  cases turn with
  | seq =>
    obtain ⟨hpre, ppre1, ppre2, cmd⟩ := h.cmd
    exact ⟨s, (seqTurn_running cmd).trans (exec_clkConfig_await _ _ _ _ h.point h.starved.unlocked), h, rfl, rfl⟩
  | osc a =>
    have side := oscStep_seqSide a s
    exact ⟨_, rfl, h.congr (oscStep_fault a s) side.seq (oscStep_keeps_starved a h.starved),
      congrArg Sequencer.cmd side.seq, side.cptr⟩
  | bus k a =>
    have side := busStep_seqSide k a s
    exact ⟨_, rfl, h.congr (busStep_fault k a s) side.seq ((busStep_cc k a s).symm ▸ h.starved),
      congrArg Sequencer.cmd side.seq, side.cptr⟩

theorem step_of_awaitsStarvedPll (h : AwaitsStarvedPll s) :
    ∃ t, step s = .next t ∧ AwaitsStarvedPll t ∧ t.seq.cmd = s.seq.cmd ∧ t.cptr = s.cptr := by
  have taken : AwaitsStarvedPll s.takeTurn := h.congr (by simp) (by simp) (s.takeTurn_cc.symm ▸ h.starved)
  obtain ⟨t, runs, awaits, cmd, cptr⟩ := runTurn_of_awaitsStarvedPll s.nextTurn taken
  exact ⟨t, (step_of_clear h.clear).trans runs, awaits, by simpa using cmd, by simpa using cptr⟩

/-- Settles O49: the await of a starved PLL is an invariant of every turn of every agent. -/
theorem pllSwitchHangsWithoutItsInput : Obligations.PllSwitchHangsWithoutItsInput := by
  intro s hpre ppre1 ppre2 clear cmd point input off notReady unlocked
  exact hangs_of_invariant (P := AwaitsStarvedPll) (by simp [cmd])
    ⟨clear, ⟨hpre, ppre1, ppre2, cmd⟩, point, ⟨input, off, notReady, unlocked⟩⟩ fun _ => step_of_awaitsStarvedPll

end Sys2Proof.Machine
end

section
/-! PROOF. The lane loop of `PACK`: the bits of its image, its faults, and its laws (41_bitfield_packer.md R116, R126,
R127; 60_exceptions.md R195). -/

namespace Sys2Proof.Machine

open Sys2Proof.Claims

/-! The outcome of a packer command -/

theorem returnPure_ok {s : State} (start : s.seq.point = .start) (v : Word) :
    returnPure (.ok v) s = .next (s.finish .ok v []) := by
  rw [returnPure, start]
  rfl

theorem returnPure_error {s : State} (start : s.seq.point = .start) (f : Fault) :
    returnPure (.error f) s = .next { s with fault := some f } := by
  rw [returnPure, start]
  rfl

theorem exec_pack (w : BitVec 6) (r v laneMask : Word) (s : State) :
    exec (.pack w r v laneMask) s = returnPure (pack w.toNat r v (maskOf laneMask)) s := rfl

/-- A mask operand is bits 15 to 0 of its word (R117). -/
theorem getLsbD_maskOf (a : Word) (i : Nat) : (maskOf a).getLsbD i = (decide (i < 16) && a.getLsbD i) :=
  BitVec.getLsbD_setWidth ..

section Lanes

variable {w : Nat} {v r : Word} {m : BitVec 16}

/-! The slot of a lane -/

/-- The slot of lane i is the bits whose quotient by the width is i. -/
theorem getLsbD_slotMask (pos : 0 < w) {i b : Nat} (hb : b < 32) : (slotMask w i).getLsbD b = decide (b / w = i) := by
  have slot : b / w = i ↔ i * w ≤ b ∧ b - i * w < w := by
    rw [Nat.div_eq_iff pos]
    omega
  rw [slotMask, BitVec.getLsbD_ofNat, Nat.testBit_mul_two_pow, Nat.testBit_two_pow_sub_one]
  simp [hb, slot]

theorem getLsbD_writeSlot (pos : 0 < w) {i b : Nat} (hb : b < 32) :
    (writeSlot w v i r).getLsbD b = if b / w = i then v.getLsbD (b % w) else r.getLsbD b := by
  simp only [writeSlot, BitVec.getLsbD_or, BitVec.getLsbD_and, BitVec.getLsbD_not, BitVec.getLsbD_shiftLeft,
    getLsbD_slotMask pos hb, hb]
  split
  next here =>
    have start : i * w ≤ b := here ▸ Nat.div_mul_le_self b w
    have offset : b - i * w = b % w := by rw [← here, Nat.mod_eq_sub_div_mul]
    simp [here, start, offset]
  next elsewhere => simp [elsewhere]

/-! The lane loop -/

/-- Every selected slot ends at or below bit 31 (R116). -/
def LanesFit (w : Nat) (m : BitVec 16) : Prop := ∀ i, m.getLsbD i = true → (i + 1) * w ≤ 32

/-- Where the lanes fit, the loop from lane i on ends with v in the slots of the selected lanes from i on. -/
theorem packLanes_of_lanesFit (pos : 0 < w) (fit : LanesFit w m) {fuel i : Nat} (lanes : i + fuel = 16) :
    ∃ q, packLanes w v m fuel i r = .ok q ∧ ∀ b < 32,
      q.getLsbD b = if i ≤ b / w ∧ m.getLsbD (b / w) = true then v.getLsbD (b % w) else r.getLsbD b := by
  induction fuel generalizing i r with
  | zero =>
    refine ⟨r, rfl, fun b _ => (if_neg ?_).symm⟩
    rintro ⟨past, selected⟩
    have := BitVec.lt_of_getLsbD selected
    omega
  | succ n ih =>
    have next : i + 1 + n = 16 := by omega
    have later : ∀ b, b / w ≠ i → (i + 1 ≤ b / w ↔ i ≤ b / w) := by omega
    unfold packLanes
    split
    next selected =>
      rw [if_neg (Nat.not_lt.mpr (fit i selected))]
      obtain ⟨q, loop, bits⟩ := ih (r := writeSlot w v i r) next
      refine ⟨q, loop, fun b hb => (bits b hb).trans ?_⟩
      rw [getLsbD_writeSlot pos hb]
      by_cases here : b / w = i
      · simp [here, selected]
      · simp [here, later b here]
    next unselected =>
      obtain ⟨q, loop, bits⟩ := ih (r := r) next
      refine ⟨q, loop, fun b hb => (bits b hb).trans ?_⟩
      by_cases here : b / w = i
      · simp [here, unselected]
      · simp [later b here]

/-- A selected lane past bit 31 stops the loop. -/
theorem packLanes_of_lane_past {fuel i j : Nat} (reached : i ≤ j) (below : j < i + fuel)
    (selected : m.getLsbD j = true) (past : 32 < (j + 1) * w) : packLanes w v m fuel i r = .error .packRange := by
  induction fuel generalizing i r with
  | zero => omega
  | succ n ih =>
    unfold packLanes
    by_cases here : i = j
    · rw [here, if_pos selected, if_pos past]
    · have rest := fun r => ih (r := r) (i := i + 1) (by omega) (by omega)
      simp only [rest, ite_self]

/-! The command -/

/-- The image with v in the slots of the lanes of m and r elsewhere: bit b belongs to lane `b / w` (R126). -/
def packImage (w : Nat) (v : Word) (m : BitVec 16) (r : Word) : Word :=
  BitVec.ofFnLE fun b : Fin 32 => if m.getLsbD (b / w) then v.getLsbD (b % w) else r.getLsbD b

theorem getLsbD_packImage {b : Nat} (hb : b < 32) :
    (packImage w v m r).getLsbD b = if m.getLsbD (b / w) then v.getLsbD (b % w) else r.getLsbD b := by
  simp [packImage, hb]

/-- The arguments for which `PACK` does not fault (R116). -/
structure Packable (w : Nat) (v : Word) (m : BitVec 16) : Prop where
  pos : 0 < w
  width : w ≤ 32
  value : v.toNat < 2 ^ w
  lanes : LanesFit w m

theorem pack_of_width (width : w = 0 ∨ 32 < w) : pack w r v m = .error .packRange := if_pos width

theorem pack_of_value (pos : 0 < w) (width : w ≤ 32) (value : 2 ^ w ≤ v.toNat) :
    pack w r v m = .error .packValue := by
  rw [pack, if_neg (by omega), if_pos value]

theorem pack_eq_packLanes (pos : 0 < w) (width : w ≤ 32) (value : v.toNat < 2 ^ w) :
    pack w r v m = packLanes w v m 16 0 r := by
  rw [pack, if_neg (by omega), if_neg (by omega)]

theorem pack_of_not_lanesFit (pos : 0 < w) (width : w ≤ 32) (value : v.toNat < 2 ^ w) (past : ¬ LanesFit w m) :
    pack w r v m = .error .packRange := by
  obtain ⟨j, selected, past⟩ : ∃ j, m.getLsbD j = true ∧ 32 < (j + 1) * w := by simpa [LanesFit] using past
  rw [pack_eq_packLanes pos width value]
  exact packLanes_of_lane_past j.zero_le (by simpa using BitVec.lt_of_getLsbD selected) selected past

theorem pack_of_packable (ok : Packable w v m) : pack w r v m = .ok (packImage w v m r) := by
  obtain ⟨pos, width, value, lanes⟩ := ok
  obtain ⟨q, loop, bits⟩ := packLanes_of_lanesFit (v := v) (r := r) pos lanes (Nat.zero_add 16)
  have image : q = packImage w v m r :=
    BitVec.eq_of_getLsbD_eq fun b hb => by rw [bits b hb, getLsbD_packImage hb]; simp
  rw [pack_eq_packLanes pos width value, loop, image]

/-- `PACK` succeeds exactly on the arguments that fit, and then with the image. -/
theorem pack_eq_ok_iff {q : Word} : pack w r v m = .ok q ↔ Packable w v m ∧ packImage w v m r = q := by
  constructor
  · intro h
    obtain ⟨pos, width, value, -⟩ := pack_ok h
    have lanes : LanesFit w m := by
      by_contra past
      rw [pack_of_not_lanesFit pos width value past] at h
      cases h
    have ok : Packable w v m := ⟨pos, width, value, lanes⟩
    exact ⟨ok, Except.ok.inj ((pack_of_packable ok).symm.trans h)⟩
  · rintro ⟨ok, rfl⟩
    exact pack_of_packable ok

/-! The laws of images -/

theorem packImage_idem (w : Nat) (v r : Word) (m : BitVec 16) :
    packImage w v m (packImage w v m r) = packImage w v m r := by
  refine BitVec.eq_of_getLsbD_eq fun b hb => ?_
  rw [getLsbD_packImage hb, getLsbD_packImage hb]
  split <;> rfl

theorem packImage_zero (w : Nat) (v r : Word) : packImage w v 0#16 r = r :=
  BitVec.eq_of_getLsbD_eq fun b hb => by simp [getLsbD_packImage hb]

theorem packImage_or (w : Nat) (v r : Word) (m1 m2 : BitVec 16) :
    packImage w v (m1 ||| m2) r = packImage w v m2 (packImage w v m1 r) := by
  refine BitVec.eq_of_getLsbD_eq fun b hb => ?_
  simp only [getLsbD_packImage hb, BitVec.getLsbD_or]
  cases m1.getLsbD (b / w) <;> cases m2.getLsbD (b / w) <;> rfl

/-- Images of disjoint masks commute: no bit belongs to a lane of both. -/
theorem packImage_comm (w : Nat) (v1 v2 r : Word) {m1 m2 : BitVec 16} (disjoint : m1 &&& m2 = 0#16) :
    packImage w v2 m2 (packImage w v1 m1 r) = packImage w v1 m1 (packImage w v2 m2 r) := by
  refine BitVec.eq_of_getLsbD_eq fun b hb => ?_
  have apart : (m1.getLsbD (b / w) && m2.getLsbD (b / w)) = false := by rw [← BitVec.getLsbD_and, disjoint]; simp
  simp only [getLsbD_packImage hb]
  split
  next in2 => rw [if_neg (by simpa [in2] using apart)]
  next => rfl

theorem lanesFit_or {m1 m2 : BitVec 16} : LanesFit w (m1 ||| m2) ↔ LanesFit w m1 ∧ LanesFit w m2 := by
  simp only [LanesFit, BitVec.getLsbD_or, Bool.or_eq_true, or_imp, forall_and]

/-- A mask splits, faults included: a lane of m2 past bit 31 faults on both sides. -/
theorem pack_or {r1 : Word} {m1 m2 : BitVec 16} (first : pack w r v m1 = .ok r1) :
    pack w r v (m1 ||| m2) = pack w r1 v m2 := by
  obtain ⟨⟨pos, width, value, lanes1⟩, rfl⟩ := pack_eq_ok_iff.mp first
  by_cases lanes2 : LanesFit w m2
  · rw [pack_of_packable ⟨pos, width, value, lanesFit_or.mpr ⟨lanes1, lanes2⟩⟩,
      pack_of_packable ⟨pos, width, value, lanes2⟩, packImage_or]
  · rw [pack_of_not_lanesFit pos width value fun both => lanes2 (lanesFit_or.mp both).2,
      pack_of_not_lanesFit pos width value lanes2]

end Lanes

/-- Settles O16: each law of `PACK` is the law of its images. -/
theorem packLaws : Obligations.PackLaws := by
  refine ⟨fun w r v r1 m once => ?_, fun w r v1 v2 ra rb m1 m2 disjoint a b => ?_,
    fun w r v r1 m1 m2 first => pack_or first, fun w r v r1 empty => ?_⟩
  · obtain ⟨ok, rfl⟩ := pack_eq_ok_iff.mp once
    rw [pack_of_packable ok, packImage_idem]
  · obtain ⟨ok1, rfl⟩ := pack_eq_ok_iff.mp a
    obtain ⟨ok2, rfl⟩ := pack_eq_ok_iff.mp b
    rw [pack_of_packable ok2, pack_of_packable ok1, packImage_comm w v1 v2 r disjoint]
  · obtain ⟨-, rfl⟩ := pack_eq_ok_iff.mp empty
    exact packImage_zero w v r

/-- The lanes of an operand word fit when those of its bits 15 to 0 do (R116, R117). -/
theorem lanesFit_maskOf {w : Nat} {laneMask : Word} :
    LanesFit w (maskOf laneMask) ↔ ∀ i < 16, laneMask.getLsbD i = true → (i + 1) * w ≤ 32 := by
  simp [LanesFit, getLsbD_maskOf]

/-- Settles O14: bit b of the image belongs to lane `b / w`. -/
theorem packChangesExactlyTheSelectedLanes : Obligations.PackChangesExactlyTheSelectedLanes := by
  intro s w r0 v laneMask start pos width value fit
  have ok : Packable w.toNat v (maskOf laneMask) := ⟨pos, width, value, lanesFit_maskOf.mpr fit⟩
  refine ⟨packImage w.toNat v (maskOf laneMask) r0, ?_, ?_, ?_⟩
  · rw [exec_pack, pack_of_packable ok, returnPure_ok start]
  · intro i hi selected b hb
    have lane : (i * w.toNat + b) / w.toNat = i := Nat.div_eq_of_lt_le (by omega) (by rw [Nat.add_one_mul]; omega)
    have offset : (i * w.toNat + b) % w.toNat = b := by rw [Nat.mul_add_mod_of_lt hb]
    have inside : i * w.toNat + b < 32 := by
      have := fit i hi selected
      rw [Nat.add_one_mul] at this
      omega
    rw [getLsbD_packImage inside, lane, offset, getLsbD_maskOf]
    simp [hi, selected]
  · intro b hb outside
    rw [getLsbD_packImage hb, if_neg]
    intro selected
    obtain ⟨hi, selected⟩ : b / w.toNat < 16 ∧ laneMask.getLsbD (b / w.toNat) = true := by
      simpa [getLsbD_maskOf] using selected
    have start := Nat.div_mul_le_self b w.toNat
    have stop : b < (b / w.toNat + 1) * w.toNat := Nat.mul_comm .. ▸ Nat.lt_mul_div_succ b pos
    have := outside _ hi selected
    omega

/-- Settles O15: the checks one after the other, each behind those before it. -/
theorem packFaultsInOrder : Obligations.PackFaultsInOrder := by
  intro s w r0 v laneMask start
  simp only [exec_pack]
  refine ⟨fun width => ?_, fun pos width value => ?_, fun pos width value past => ?_⟩
  · rw [pack_of_width width, returnPure_error start]
  · rw [pack_of_value pos width value, returnPure_error start]
  · obtain ⟨i, hi, selected, past⟩ := past
    rw [pack_of_not_lanesFit pos width value fun fit => Nat.not_le.mpr past (lanesFit_maskOf.mp fit i hi selected),
      returnPure_error start]

end Sys2Proof.Machine
end

section
/-! PROOF. The mask commands, and that the packer is pure (41_bitfield_packer.md R115, R117 to R125, R130). -/

namespace Sys2Proof.Machine

open Sys2Proof.Claims

/-! The micro-step of each mask command -/

section MaskCommands

variable {s : State} (a b : Word) (lane : BitVec 4)

theorem exec_maskNew (start : s.seq.point = .start) :
    exec (.maskNew a) s = .next (s.finish .ok (ofMask (maskOf a)) []) := returnPure_ok start _

theorem exec_maskUnion (start : s.seq.point = .start) :
    exec (.maskUnion a b) s = .next (s.finish .ok (ofMask (maskOf a ||| maskOf b)) []) := returnPure_ok start _

theorem exec_maskIntersect (start : s.seq.point = .start) :
    exec (.maskIntersect a b) s = .next (s.finish .ok (ofMask (maskOf a &&& maskOf b)) []) := returnPure_ok start _

theorem exec_maskComplement (start : s.seq.point = .start) :
    exec (.maskComplement a) s = .next (s.finish .ok (ofMask (~~~maskOf a)) []) := returnPure_ok start _

theorem exec_maskXor (start : s.seq.point = .start) :
    exec (.maskXor a b) s = .next (s.finish .ok (ofMask (maskOf a ^^^ maskOf b)) []) := returnPure_ok start _

theorem exec_maskSet (start : s.seq.point = .start) :
    exec (.maskSet lane a) s = .next (s.finish .ok (ofMask (maskOf a ||| laneBit lane)) []) := returnPure_ok start _

theorem exec_maskReset (start : s.seq.point = .start) :
    exec (.maskReset lane a) s = .next (s.finish .ok (ofMask (maskOf a &&& ~~~laneBit lane)) []) :=
  returnPure_ok start _

theorem exec_maskIsset (start : s.seq.point = .start) :
    exec (.maskIsset lane a) s =
      .next (s.finish .ok (if (maskOf a).getLsbD lane.toNat then 1#32 else 0#32) []) := returnPure_ok start _

end MaskCommands

/-! A mask as a result value (R117) -/

/-- Bits 31 to 16 of an operand do not reach the result. -/
theorem ofMask_maskOf (a : Word) : ofMask (maskOf a) = a &&& 0xFFFF#32 := by
  refine BitVec.eq_of_getLsbD_eq fun b hb => ?_
  have low : (0xFFFF#32).getLsbD b = decide (b < 16) := by
    rw [BitVec.getLsbD_ofNat, show 0xFFFF = 2 ^ 16 - 1 from rfl, Nat.testBit_two_pow_sub_one, decide_eq_true hb,
      Bool.true_and]
  rw [ofMask, BitVec.getLsbD_setWidth, getLsbD_maskOf, BitVec.getLsbD_and, low, decide_eq_true hb, Bool.true_and,
    Bool.and_comm]

theorem ofMask_laneBit (lane : BitVec 4) : ofMask (laneBit lane) = 1#32 <<< lane.toNat := by
  revert lane
  decide

/-- Within 16 bits the complement of a lane's mask clears that lane alone. -/
theorem ofMask_and_not_laneBit (m : BitVec 16) (lane : BitVec 4) :
    ofMask (m &&& ~~~laneBit lane) = ofMask m &&& ~~~(1#32 <<< lane.toNat) := by
  rw [← ofMask_laneBit]
  refine BitVec.eq_of_getLsbD_eq fun b hb => ?_
  simp only [ofMask, BitVec.getLsbD_setWidth, BitVec.getLsbD_and, BitVec.getLsbD_not, hb]
  by_cases low : b < 16
  · simp [low]
  · simp [BitVec.getLsbD_of_ge m b (Nat.not_lt.mp low)]

/-- Settles O17: an operation on the low halves is the operation on the words, cut to 16 bits. -/
theorem maskCommandValues : Obligations.MaskCommandValues := by
  intro s a b lane start
  refine ⟨?_, ?_, ?_, ?_, ?_, ?_, ?_, ?_⟩
  · rw [exec_maskNew a start, ofMask_maskOf]
  · rw [exec_maskUnion a b start, ← ofMask_maskOf, maskOf, maskOf, maskOf, BitVec.setWidth_or]
  · rw [exec_maskIntersect a b start, ← ofMask_maskOf, maskOf, maskOf, maskOf, BitVec.setWidth_and]
  · rw [exec_maskComplement a start, ← ofMask_maskOf, maskOf, maskOf, BitVec.setWidth_not (by decide)]
  · rw [exec_maskXor a b start, ← ofMask_maskOf, maskOf, maskOf, maskOf, BitVec.setWidth_xor]
  · rw [exec_maskSet a lane start, ← ofMask_maskOf, ← ofMask_laneBit, ofMask, ofMask, ofMask, BitVec.setWidth_or]
  · rw [exec_maskReset a lane start, ofMask_and_not_laneBit, ofMask_maskOf]
  · rw [exec_maskIsset a lane start, getLsbD_maskOf, decide_eq_true lane.isLt, Bool.true_and]

/-! One lane -/

theorem maskOf_ofMask (m : BitVec 16) : maskOf (ofMask m) = m := BitVec.setWidth_setWidth_of_le m (by decide)

theorem getLsbD_laneBit (i j : BitVec 4) : (laneBit i).getLsbD j.toNat = decide (j = i) := by
  revert i j
  decide

/-- A command that ends with two values ends with one: RESULTS records it. -/
theorem State.finish_value_inj {s : State} {st : Status} {u v : Word} {l : List Byte}
    (h : (Host.Outcome.next (s.finish st u l) : Res) = .next (s.finish st v l)) : u = v := by
  have results := congrArg State.results (Host.Outcome.next.inj h)
  simpa using results

/-- Settles O18: the mask that `MASK_SET` and `MASK_RESET` answer differs from the operand's in the one lane. -/
theorem setAndResetActOnOneLane : Obligations.SetAndResetActOnOneLane := by
  intro s t a v i j start start'
  rw [exec_maskSet a i start, exec_maskReset a i start, exec_maskIsset v j start', exec_maskIsset a j start']
  refine ⟨fun set => ?_, fun reset => ?_⟩
  · rw [← State.finish_value_inj set, maskOf_ofMask, BitVec.getLsbD_or, getLsbD_laneBit]
    by_cases here : j = i <;> simp [here]
  · rw [← State.finish_value_inj reset, maskOf_ofMask, BitVec.getLsbD_and, BitVec.getLsbD_not, getLsbD_laneBit,
      decide_eq_true j.isLt, Bool.true_and]
    by_cases here : j = i <;> simp [here]

/-! Purity -/

/-- Settles O19: each command hands `returnPure` a result that its operands alone give. -/
theorem packerIsPure : Obligations.PackerIsPure := by
  intro i packer
  cases i with
  | pack w r v laneMask =>
    cases result : pack w.toNat r v (maskOf laneMask) with
    | ok q => exact .inl ⟨q, fun s start => by rw [exec_pack, result, returnPure_ok start]⟩
    | error f => exact .inr ⟨f, fun s start => by rw [exec_pack, result, returnPure_error start]⟩
  | maskNew a => exact .inl ⟨_, fun _ => exec_maskNew a⟩
  | maskUnion a b => exact .inl ⟨_, fun _ => exec_maskUnion a b⟩
  | maskIntersect a b => exact .inl ⟨_, fun _ => exec_maskIntersect a b⟩
  | maskComplement a => exact .inl ⟨_, fun _ => exec_maskComplement a⟩
  | maskXor a b => exact .inl ⟨_, fun _ => exec_maskXor a b⟩
  | maskSet lane a => exact .inl ⟨_, fun _ => exec_maskSet a lane⟩
  | maskReset lane a => exact .inl ⟨_, fun _ => exec_maskReset a lane⟩
  | maskIsset lane a => exact .inl ⟨_, fun _ => exec_maskIsset a lane⟩
  | _ => cases packer

end Sys2Proof.Machine
end

section
/-! PROOF. The ownership and clock-gate checks of the first line of a PER_ and of an I2C_ command
(42_peripheral_access.md R136, R140), and what `BUS[k]` may do without its clock and under its reset bit
(R139 (b), R141). -/

namespace Sys2Proof.Machine

variable {i : Instr} {s t : State} {p : PeriphId} {k : InstId}

/-! The checks -/

/-- A PER_ command that asks for ownership checks it before all else (42_peripheral_access.md R136). -/
theorem exec_start_per (start : s.seq.point = .start) (id : perIdOf i = some p) :
    ∃ rest, exec i s = requireOwned p s rest := by
  cases i with
  | perEnclk q | perDisclk q | perReset q =>
    cases id
    simp only [exec, execPerEnclk, execPerDisclk, execPerReset, start]
    exact ⟨_, rfl⟩
  | _ => cases id

/-- An I2C_ command performs its prelude before all else (43_bus_engine.md R146). -/
theorem exec_start_bus (start : s.seq.point = .start) (inst : busInstOf i = some k) :
    ∃ rest, exec i s = prelude k s rest := by
  cases i with
  | i2cInit | i2cStart | i2cAddr | i2cWrbyte | i2cRdbyte | i2cStop | i2cWrite | i2cRead =>
    cases inst
    simp only [exec, execI2cInit, execI2cStart, execI2cAddr, execI2cWrbyte, execI2cRdbyte, execI2cStop, execI2cWrite,
      execI2cRead, start]
    exact ⟨_, rfl⟩
  | _ => cases inst

theorem requireOwned_of_taken {rest : Res} (taken : s.isTaken p = true) : requireOwned p s rest = rest := by
  simp [requireOwned, taken]

theorem requireOwned_of_not_taken {rest : Res} (taken : s.isTaken p = false) :
    requireOwned p s rest = .next { s with fault := some .notOwned } := by
  simp [requireOwned, raiseFault, taken]

theorem prelude_of_not_taken {rest : Res} (taken : s.instTaken k = false) :
    prelude k s rest = .next { s with fault := some .notOwned } := by
  simp [prelude, raiseFault, taken]

theorem prelude_of_gated {rest : Res} (taken : s.instTaken k = true) (gated : s.clocked k = false) :
    prelude k s rest = .next { s with fault := some .clockGated } := by
  simp [prelude, raiseFault, taken, gated]

/-! The peripheral id of a bus controller -/

theorem BoardOk.instTaken_eq (board : BoardOk s.par) (inst : instOf s.par p = some k) :
    s.instTaken k = s.isTaken p := by
  simp [State.instTaken, board.periphOf_eq inst]

theorem BoardOk.clocked_eq (board : BoardOk s.par) (inst : instOf s.par p = some k) : s.clocked k = s.enabled p := by
  simp [State.clocked, board.periphOf_eq inst]

theorem BoardOk.heldInReset_eq (board : BoardOk s.par) (inst : instOf s.par p = some k) :
    s.heldInReset k = s.inReset p := by
  simp [State.heldInReset, board.periphOf_eq inst]

/-- Settles O21: at its first line each command is its check followed by the rest, and a failed check is a fault
alone. -/
theorem ownershipThenClockGate : Obligations.OwnershipThenClockGate := by
  refine ⟨fun s i p start id taken => ?_, fun s i k start inst taken => ?_, fun s i k start inst taken gated => ?_,
    fun s k p board inst => ⟨board.instTaken_eq inst, board.clocked_eq inst, board.heldInReset_eq inst⟩⟩
  · obtain ⟨rest, eq⟩ := exec_start_per start id
    exact eq.trans (requireOwned_of_not_taken taken)
  · obtain ⟨rest, eq⟩ := exec_start_bus start inst
    exact eq.trans (prelude_of_not_taken taken)
  · obtain ⟨rest, eq⟩ := exec_start_bus start inst
    exact eq.trans (prelude_of_gated taken gated)

/-! The bus agent -/

/-- While the reset bit is set the bus agent takes no step (42_peripheral_access.md R139 (b)). -/
theorem busStep_of_heldInReset (a : Config.BusStep) (held : s.heldInReset k = true) : busStep k a s = s := by
  simp [busStep, busAllowed, held]

/-- Without its clock the bus agent may only let the hidden line drift (42_peripheral_access.md R141). -/
theorem busRegsEffect_of_gated {env : Config.Env} {a : Config.BusStep} {r : BusRegs} {h : BusLine}
    (enabled : busEnabled env false a r h = true) : busRegsEffect a r h = r := by
  cases a with
  | drift busy => rfl
  | _ => simp [busEnabled] at enabled

/-- Writing back the registers of a bus controller changes nothing. -/
theorem setRegs_self_i2c (s : State) (k : InstId) : (s.setRegs k (s.regs k)).i2c = s.i2c := by
  simp [State.setRegs, State.regs]

theorem busStep_i2c_of_gated (a : Config.BusStep) (gated : s.clocked k = false) : (busStep k a s).i2c = s.i2c := by
  unfold busStep
  split
  next allowed =>
    rw [busAllowed, gated, Bool.and_eq_true] at allowed
    rw [busRegsEffect_of_gated allowed.2]
    exact setRegs_self_i2c s k
  next => rfl

/-- The default block with a lawful bus, every clock still off. -/
def lawfulReset : State := { State.reset with par := { Config.Params.default with env := .lawful } }

/-- Settles O43: without the clock only the drift of the hidden line is allowed, and it is taken right after reset. -/
theorem gatedBusWritesNoRegister : Obligations.GatedBusWritesNoRegister :=
  ⟨fun _ _ a gated => busStep_i2c_of_gated a gated, lawfulReset, 0, .drift true, by decide, by decide⟩

end Sys2Proof.Machine
end

section
/-! PROOF. What a micro-step leaves of ownership and of the enable and reset bits: only a PER_ command writes them
(42_peripheral_access.md R135 to R139, 10_state.md R34). -/

namespace Sys2Proof.Machine

variable {i : Instr} {s t u : State}

/-- `t` has the parameters, the ownership and the enable and reset bits of `s`. -/
structure GatesKept (s t : State) : Prop where
  par : t.par = s.par
  taken : t.taken = s.taken
  enr : t.cc.enr = s.cc.enr
  rstr : t.cc.rstr = s.cc.rstr

theorem GatesKept.refl (s : State) : GatesKept s s := ⟨rfl, rfl, rfl, rfl⟩

theorem GatesKept.trans (h : GatesKept s t) (g : GatesKept t u) : GatesKept s u :=
  ⟨g.par.trans h.par, g.taken.trans h.taken, g.enr.trans h.enr, g.rstr.trans h.rstr⟩

theorem GatesKept.takeTurn (s : State) : GatesKept s s.takeTurn := by constructor <;> simp

theorem GatesKept.oscStep (a : Config.OscStep) (s : State) : GatesKept s (oscStep a s) := by
  rw [oscStep_eq]
  exact ⟨rfl, rfl, rfl, rfl⟩

theorem GatesKept.busStep (k : InstId) (a : Config.BusStep) (s : State) : GatesKept s (busStep k a s) := by
  rw [busStep_eq]
  exact ⟨rfl, rfl, rfl, rfl⟩

/-! What it keeps -/

theorem GatesKept.enabled_eq (h : GatesKept s t) (board : BoardOk s.par) (p : PeriphId) :
    t.enabled p = s.enabled p := by
  rw [board.enabled_eq, BoardOk.enabled_eq (h.par.symm ▸ board), h.enr]

theorem GatesKept.inReset_eq (h : GatesKept s t) (board : BoardOk s.par) (p : PeriphId) :
    t.inReset p = s.inReset p := by
  rw [board.inReset_eq, BoardOk.inReset_eq (h.par.symm ▸ board), h.rstr]

/-! The operations of the other commands -/

/-- Every next state that `r` may answer has the gates of `s`. -/
def KeepsGates (s : State) (r : Res) : Prop := ∀ t, r = .next t → GatesKept s t

theorem KeepsGates.next (h : GatesKept s t) : KeepsGates s (.next t) := fun _ eq => by cases eq; exact h

theorem KeepsGates.stray : KeepsGates s strayPoint := fun _ eq => absurd eq strayPoint_ne_next

theorem KeepsGates.fault (f : Fault) : KeepsGates s (raiseFault f s) := .next ⟨rfl, rfl, rfl, rfl⟩

theorem KeepsGates.status (h : GatesKept s u) (e : Status) : KeepsGates s (raiseStatus e u) :=
  .next (h.trans ⟨rfl, rfl, rfl, rfl⟩)

theorem KeepsGates.value (h : GatesKept s u) (v : Word) : KeepsGates s (returnValue v u) :=
  .next (h.trans ⟨rfl, rfl, rfl, rfl⟩)

theorem KeepsGates.goto (h : GatesKept s u) (p : Point) : KeepsGates s (.next (u.goto p)) :=
  .next (h.trans ⟨rfl, rfl, rfl, rfl⟩)

theorem KeepsGates.enter (i : Instr) (p : Point) : KeepsGates s (.next (s.enter i p)) := .next ⟨rfl, rfl, rfl, rfl⟩

theorem KeepsGates.prelude {k : InstId} {rest : Res} (h : KeepsGates s rest) : KeepsGates s (prelude k s rest) := by
  unfold Machine.prelude
  split
  · split
    · exact h
    · exact .fault _
  · exact .fault _

theorem KeepsGates.returnFreq (f : Except Fault Nat) : KeepsGates s (returnFreq f s) := by
  unfold Machine.returnFreq
  split
  · exact .value (.refl s) _
  · exact .fault _

theorem KeepsGates.returnPure (r : Except Fault Word) : KeepsGates s (returnPure r s) := by
  unfold Machine.returnPure
  split
  · split
    · exact .value (.refl s) _
    · exact .fault _
  · exact .stray

section Bodies

variable {k : InstId} {done : State → Res}

theorem KeepsGates.cr1Write {f : Cr1 → Cr1} {at_ : Rmw → Point} {r : Rmw}
    (h : ∀ u, GatesKept s u → KeepsGates s (done u)) : KeepsGates s (cr1Write k f at_ r s done) := by
  cases r with
  | read => exact .goto (.refl s) _
  | write w => exact h _ ⟨rfl, rfl, rfl, rfl⟩

theorem KeepsGates.pollFlags {err : Option Status} {flag : Bool} (h : KeepsGates s (done s)) :
    KeepsGates s (pollFlags err flag s done) := by
  unfold Machine.pollFlags
  split
  · exact .status (.refl s) _
  · exact h
  · exact .next (.refl s)

theorem KeepsGates.startBody {p : StartPoint} (h : ∀ u, GatesKept s u → KeepsGates s (done u)) :
    KeepsGates s (startBody k p s done) := by
  cases p with
  | busFree =>
    simp only [Machine.startBody]
    split
    · exact .next (.refl s)
    · exact .goto (.refl s) _
  | request r =>
    simp only [Machine.startBody]
    exact .cr1Write fun u kept => .goto kept _
  | wait =>
    simp only [Machine.startBody]
    exact .pollFlags (h _ ⟨rfl, rfl, rfl, rfl⟩)

theorem KeepsGates.addressBody {addr : BitVec 7} {d : Dir} {p : PutPoint}
    (h : ∀ u, GatesKept s u → KeepsGates s (done u)) : KeepsGates s (addressBody k addr d p s done) := by
  cases p with
  | put => exact .next ⟨rfl, rfl, rfl, rfl⟩
  | wait =>
    simp only [Machine.addressBody]
    exact .pollFlags (h _ ⟨rfl, rfl, rfl, rfl⟩)

theorem KeepsGates.writeByteBody {b : Byte} {p : PutPoint} (h : ∀ u, GatesKept s u → KeepsGates s (done u)) :
    KeepsGates s (writeByteBody k b p s done) := by
  cases p with
  | put => exact .next ⟨rfl, rfl, rfl, rfl⟩
  | wait =>
    simp only [Machine.writeByteBody]
    exact .pollFlags (h _ ⟨rfl, rfl, rfl, rfl⟩)

theorem KeepsGates.readByteBody {at_ : TakePoint → Point} {p : TakePoint} {done : Byte → State → Res}
    (h : ∀ b u, GatesKept s u → KeepsGates s (done b u)) : KeepsGates s (readByteBody k at_ p s done) := by
  cases p with
  | wait =>
    simp only [Machine.readByteBody]
    split
    · exact .goto (.refl s) _
    · exact .next (.refl s)
  | take => exact h _ _ ⟨rfl, rfl, rfl, rfl⟩

theorem KeepsGates.stopBody {r : Rmw} (h : ∀ u, GatesKept s u → KeepsGates s (done u)) :
    KeepsGates s (stopBody k r s done) := .cr1Write fun _ kept => h _ (kept.trans ⟨rfl, rfl, rfl, rfl⟩)

end Bodies

end Sys2Proof.Machine
end

section
/-! PROOF. No command but the PER_ ones writes ownership or an enable or reset bit (10_state.md R34,
42_peripheral_access.md R135 to R139). -/

namespace Sys2Proof.Machine

variable {s : State}

theorem execClkConfig_keepsGates (src : Source) (hpre : BitVec 4) (ppre1 ppre2 : BitVec 3) :
    KeepsGates s (execClkConfig src hpre ppre1 ppre2 s) := by
  unfold execClkConfig
  split
  next =>
    split
    · exact .value (.refl s) _
    · exact .enter _ _
  next => exact .next ⟨rfl, rfl, rfl, rfl⟩
  next =>
    split
    · exact .goto (.refl s) _
    · exact .next (.refl s)
  next => exact .next ⟨rfl, rfl, rfl, rfl⟩
  next => exact .next ⟨rfl, rfl, rfl, rfl⟩
  next =>
    split
    · exact .value (.refl s) _
    · exact .next (.refl s)
  next => exact .stray

theorem execClkPllconfig_keepsGates (src : PllInput) (m : BitVec 6) (n : BitVec 9) (pcode : BitVec 2) :
    KeepsGates s (execClkPllconfig src m n pcode s) := by
  unfold execClkPllconfig
  split
  next =>
    split
    · exact .fault _
    · exact .enter _ _
  next => exact .next ⟨rfl, rfl, rfl, rfl⟩
  next => exact .stray

section Commands

variable (k : InstId)

theorem initStep_keepsGates (speed : Speed) (mode : BusMode) (own1 own2 : BitVec 7) (freq : Word) (p : InitPoint) :
    KeepsGates s (initStep k speed mode own1 own2 freq p s) := by
  cases p with
  | clock =>
    simp only [initStep]
    split
    · exact .fault _
    · split
      · exact .goto (.refl s) _
      · exact .fault _
  | divider | riseTime | own1 | own2 => exact .next ⟨rfl, rfl, rfl, rfl⟩
  | enable r =>
    simp only [initStep]
    exact .cr1Write fun u kept => .goto kept _
  | ack r =>
    simp only [initStep, ackWrite]
    exact .cr1Write fun u kept => .value kept _

theorem execI2cInit_keepsGates (speed : Speed) (mode : BusMode) (own1 own2 : BitVec 7) (freq : Word) :
    KeepsGates s (execI2cInit k speed mode own1 own2 freq s) := by
  unfold execI2cInit
  split
  next =>
    refine .prelude ?_
    split
    · split
      · exact .fault _
      · split
        · exact .fault _
        · exact .enter _ _
    · exact .status (.refl s) _
  next p at_ => exact initStep_keepsGates k speed mode own1 own2 freq p
  next => exact .stray

theorem execI2cStart_keepsGates : KeepsGates s (execI2cStart k s) := by
  unfold execI2cStart
  split
  · exact .prelude (.enter _ _)
  · exact .startBody fun u kept => .value kept _
  · exact .stray

theorem execI2cAddr_keepsGates (addr : BitVec 7) (rw : Dir) : KeepsGates s (execI2cAddr k addr rw s) := by
  unfold execI2cAddr
  split
  · exact .prelude (.enter _ _)
  · exact .addressBody fun u kept => .value kept _
  · exact .stray

theorem execI2cWrbyte_keepsGates (data : Byte) : KeepsGates s (execI2cWrbyte k data s) := by
  unfold execI2cWrbyte
  split
  · exact .prelude (.enter _ _)
  · exact .writeByteBody fun u kept => .value kept _
  · exact .stray

theorem execI2cRdbyte_keepsGates : KeepsGates s (execI2cRdbyte k s) := by
  unfold execI2cRdbyte
  split
  · exact .prelude (.enter _ _)
  · exact .readByteBody fun b u kept => .value kept _
  · exact .stray

theorem execI2cStop_keepsGates : KeepsGates s (execI2cStop k s) := by
  unfold execI2cStop
  split
  · exact .prelude (.enter _ _)
  · exact .stopBody fun u kept => .value kept _
  · exact .stray

theorem execI2cWrite_keepsGates (addr : BitVec 7) (n : BitVec 12) (ops : List Word) :
    KeepsGates s (execI2cWrite k addr n ops s) := by
  unfold execI2cWrite
  split
  next =>
    refine .prelude ?_
    split
    · exact .fault _
    · exact .enter _ _
  next => exact .startBody fun u kept => .goto kept _
  next => exact .addressBody fun u kept => .next (kept.trans ⟨rfl, rfl, rfl, rfl⟩)
  next =>
    refine .writeByteBody fun u kept => ?_
    unfold afterByteWritten
    split
    · exact .next (kept.trans ⟨rfl, rfl, rfl, rfl⟩)
    · exact .goto kept _
  next => exact .pollFlags (.goto (.refl s) _)
  next => exact .stopBody fun u kept => .value kept _
  next => exact .stray

theorem execI2cRead_keepsGates (addr : BitVec 7) (n : BitVec 12) : KeepsGates s (execI2cRead k addr n s) := by
  unfold execI2cRead
  split
  next =>
    refine .prelude ?_
    split
    · exact .fault _
    · exact .enter _ _
  next => exact .next ⟨rfl, rfl, rfl, rfl⟩
  next => exact .startBody fun u kept => .goto kept _
  next =>
    refine .addressBody fun u kept => ?_
    unfold afterReadAddress
    split <;> exact .next (kept.trans ⟨rfl, rfl, rfl, rfl⟩)
  next => exact .cr1Write fun u kept => .goto kept _
  next =>
    refine .readByteBody fun b u kept => ?_
    unfold afterByteRead
    split <;> exact .next (kept.trans ⟨rfl, rfl, rfl, rfl⟩)
  next => exact .cr1Write fun u kept => .goto kept _
  next => exact .stopBody fun u kept => .goto kept _
  next => exact .readByteBody fun b u kept => .next (kept.trans ⟨rfl, rfl, rfl, rfl⟩)
  next => exact .cr1Write fun u kept => .next (kept.trans ⟨rfl, rfl, rfl, rfl⟩)
  next => exact .stray

end Commands

/-- The PER_ commands. -/
def isPer : Instr → Bool
  | .perTake _ => true
  | .perEnclk _ => true
  | .perDisclk _ => true
  | .perReset _ => true
  | _ => false

/-- No other command writes ownership or an enable or reset bit. -/
theorem exec_keepsGates {i : Instr} (other : isPer i = false) : KeepsGates s (exec i s) := by
  cases i with
  | clkSysfreq | clkAhbfreq | clkApb1freq | clkApb2freq =>
    simp only [exec, execClkSysfreq, execClkAhbfreq, execClkApb1freq, execClkApb2freq]
    split
    · exact .returnFreq _
    · exact .stray
  | clkConfig src hpre ppre1 ppre2 => exact execClkConfig_keepsGates src hpre ppre1 ppre2
  | clkPllconfig src m n pcode => exact execClkPllconfig_keepsGates src m n pcode
  | pack | maskNew | maskUnion | maskIntersect | maskComplement | maskXor | maskSet | maskReset | maskIsset =>
    simp only [exec, execPack, execMaskNew, execMaskUnion, execMaskIntersect, execMaskComplement, execMaskXor,
      execMaskSet, execMaskReset, execMaskIsset]
    exact .returnPure _
  | perTake | perEnclk | perDisclk | perReset => cases other
  | i2cInit k speed mode own1 own2 freq => exact execI2cInit_keepsGates k speed mode own1 own2 freq
  | i2cStart k => exact execI2cStart_keepsGates k
  | i2cAddr k addr rw => exact execI2cAddr_keepsGates k addr rw
  | i2cWrbyte k data => exact execI2cWrbyte_keepsGates k data
  | i2cRdbyte k => exact execI2cRdbyte_keepsGates k
  | i2cStop k => exact execI2cStop_keepsGates k
  | i2cWrite k addr n ops => exact execI2cWrite_keepsGates k addr n ops
  | i2cRead k addr n => exact execI2cRead_keepsGates k addr n

end Sys2Proof.Machine
end

section
/-! PROOF. Every step keeps ownership, the clock of the peripheral in use, and the reset pulse (10_state.md R34;
42_peripheral_access.md R136, R139, R140; 44_bus_transactions.md R188). -/

namespace Sys2Proof.Machine

variable {i : Instr} {s t : State} {p q : PeriphId}

/-! The bits of the PER_ commands on a platform whose rows name bits of their own (42_peripheral_access.md R137 to
R139) -/

/-- A write of the enable bit of `p` sets no other. -/
theorem enabled_of_setEnabled (board : BoardOk s.par) {v : Bool} (on : (s.setEnabled p v).enabled q = true) :
    q = p ∨ s.enabled q = true := by
  unfold State.setEnabled at on
  split at on
  next r row =>
    obtain ⟨h0, h4, h8⟩ := board.enable_place row
    rw [State.enabled_putBit _ _ _ h0 h4 h8, board.enable_any row] at on
    by_cases same : q = p
    · exact .inl same
    · exact .inr (by simpa [same] using on)
  next => exact .inr on

theorem inReset_setEnabled (board : BoardOk s.par) (v : Bool) : (s.setEnabled p v).inReset q = s.inReset q := by
  unfold State.setEnabled
  split
  next r row =>
    obtain ⟨h0, h4, h8⟩ := board.enable_place row
    rw [State.inReset_putBit _ _ _ h0 h4 h8, board.enable_ne_reset row, if_neg Bool.false_ne_true]
  next => rfl

section Reset

variable {r : Config.PeriphRow}

theorem enabled_putBit_reset (board : BoardOk s.par) (row : s.par.row p = some r) (v : Bool) (q : PeriphId) :
    (s.putBit r.reset v).enabled q = s.enabled q := by
  obtain ⟨h0, h4, h8⟩ := board.reset_place row
  rw [State.enabled_putBit _ _ _ h0 h4 h8, board.reset_ne_enable row, if_neg Bool.false_ne_true]

theorem inReset_putBit_reset (board : BoardOk s.par) (row : s.par.row p = some r) (v : Bool) (q : PeriphId) :
    (s.putBit r.reset v).inReset q = if q = p then v else s.inReset q := by
  obtain ⟨h0, h4, h8⟩ := board.reset_place row
  simp [State.inReset_putBit _ _ _ h0 h4 h8, board.reset_any row]

end Reset

theorem enabled_assertReset (board : BoardOk s.par) : (s.assertReset p).enabled q = s.enabled q := by
  unfold State.assertReset
  split
  next r row => exact enabled_putBit_reset board row true q
  next => rfl

theorem enabled_deassertReset (board : BoardOk s.par) : (s.deassertReset p).enabled q = s.enabled q := by
  unfold State.deassertReset
  split
  next r row => exact enabled_putBit_reset board row false q
  next => rfl

/-- The first write of `PER_RESET` sets no other reset bit. -/
theorem inReset_of_assertReset (board : BoardOk s.par) (on : (s.assertReset p).inReset q = true) :
    q = p ∨ s.inReset q = true := by
  unfold State.assertReset at on
  split at on
  next r row =>
    rw [inReset_putBit_reset board row] at on
    by_cases same : q = p
    · exact .inl same
    · exact .inr (by simpa [same] using on)
  next => exact .inr on

/-- The first write of `PER_RESET` puts the registers of its bus controller at reset. -/
theorem regs_assertReset (board : BoardOk s.par) {k : InstId} (inst : instOf s.par p = some k) :
    (s.assertReset p).regs k = BusRegs.reset := by
  obtain ⟨r, row, inst⟩ := instOf_eq_some.mp inst
  obtain ⟨-, regs, -⟩ := putBit_reset board row true
  rw [State.assertReset_row s row, regs, if_pos ⟨rfl, inst⟩]

/-- The second write of `PER_RESET` sets no reset bit and clears that of an assigned id. -/
theorem inReset_of_deassertReset (board : BoardOk s.par) (on : (s.deassertReset p).inReset q = true) :
    s.inReset q = true ∧ (periphExists s.par p = true → q ≠ p) := by
  unfold State.deassertReset at on
  split at on
  next r row =>
    rw [inReset_putBit_reset board row] at on
    by_cases same : q = p
    · simp [same] at on
    · exact ⟨by simpa [same] using on, fun _ => same⟩
  next row => exact ⟨on, fun known => by simp [periphExists, row] at known⟩

/-! What a micro-step does to ownership and the bits -/

/-- `TAKEN[p]` is a bit of TAKEN (10_state.md R34). -/
theorem isTaken_congr (same : t.taken = s.taken) (p : PeriphId) : t.isTaken p = s.isTaken p := by
  simp only [State.isTaken, same]

/-- What a micro-step of command `i` that answers `t` did to ownership and to the enable and reset bits. -/
inductive GateMove (i : Instr) (s t : State) : Prop where
  /-- it wrote none of them -/
  | keeps (kept : GatesKept s t)
  /-- `PER_TAKE` (42_peripheral_access.md R135) -/
  | takes (p : PeriphId) (cmd : i = .perTake p) (point : s.seq.point = .commit)
      (eq : t = (s.setTaken p).finish .ok 0#32 [])
  /-- `PER_ENCLK` and `PER_DISCLK` (42_peripheral_access.md R137, R138) -/
  | clocks (p : PeriphId) (v : Bool) (owns : perIdOf i = some p) (point : s.seq.point = .commit)
      (eq : t = (s.setEnabled p v).finish .ok 0#32 [])
  /-- the first write of `PER_RESET` (42_peripheral_access.md R139) -/
  | asserts (p : PeriphId) (cmd : i = .perReset p) (point : s.seq.point = .assertReset)
      (eq : t = (s.assertReset p).goto .deassertReset)
  /-- the second write of `PER_RESET` -/
  | deasserts (p : PeriphId) (cmd : i = .perReset p) (point : s.seq.point = .deassertReset)
      (eq : t = (s.deassertReset p).finish .ok 0#32 [])

theorem GateMove.of_requireOwned {j : Instr} {q : Point} (h : requireOwned p s (.next (s.enter j q)) = .next t) :
    GateMove i s t := by
  rcases requireOwned_next h with ⟨-, eq⟩ | ⟨-, rfl⟩
  · cases eq; exact .keeps ⟨rfl, rfl, rfl, rfl⟩
  · exact .keeps ⟨rfl, rfl, rfl, rfl⟩

/-- Every micro-step of every command is a `GateMove`. -/
theorem exec_gateMove (h : exec i s = .next t) : GateMove i s t := by
  by_cases other : isPer i = false
  · exact .keeps (exec_keepsGates other t h)
  cases i with
  | perTake p =>
    simp only [exec, execPerTake] at h
    split at h
    next =>
      split at h
      · cases h; exact .keeps ⟨rfl, rfl, rfl, rfl⟩
      · cases h; exact .keeps ⟨rfl, rfl, rfl, rfl⟩
    next point => cases h; exact .takes p rfl point rfl
    next => exact absurd h strayPoint_ne_next
  | perEnclk p =>
    simp only [exec, execPerEnclk] at h
    split at h
    next => exact .of_requireOwned h
    next point => cases h; exact .clocks p true rfl point rfl
    next => exact absurd h strayPoint_ne_next
  | perDisclk p =>
    simp only [exec, execPerDisclk] at h
    split at h
    next => exact .of_requireOwned h
    next point => cases h; exact .clocks p false rfl point rfl
    next => exact absurd h strayPoint_ne_next
  | perReset p =>
    simp only [exec, execPerReset] at h
    split at h
    next => exact .of_requireOwned h
    next point => cases h; exact .asserts p rfl point rfl
    next point => cases h; exact .deasserts p rfl point rfl
    next => exact absurd h strayPoint_ne_next
  | _ => exact absurd rfl other

/-! Ownership -/

/-- Command `i` owns what it uses (42_peripheral_access.md R136, R140). -/
def Owns (i : Instr) (s : State) : Prop :=
  (∀ p, perIdOf i = some p → s.isTaken p = true) ∧
  (∀ k, busInstOf i = some k → s.instTaken k = true ∧ s.clocked k = true)

theorem ownershipHeld_iff : OwnershipHeld s ↔
    (∀ p, s.enabled p = true → s.isTaken p = true) ∧ ∀ i, s.seq.cmd = some i → Owns i s :=
  ⟨fun ⟨on, per, bus⟩ => ⟨on, fun i cmd => ⟨fun p => per i p cmd, fun k => bus i k cmd⟩⟩,
    fun ⟨on, owns⟩ => ⟨on, fun i p cmd => (owns i cmd).1 p, fun i k cmd => (owns i cmd).2 k⟩⟩

/-- Ownership asks only for TAKEN, the enable bits, and which command is in progress. -/
theorem OwnershipHeld.congr (held : OwnershipHeld s) (par : t.par = s.par) (taken : t.taken = s.taken)
    (enabled : ∀ p, t.enabled p = s.enabled p) (owns : ∀ i, t.seq.cmd = some i → Owns i s) : OwnershipHeld t := by
  have isTaken := isTaken_congr taken
  refine ⟨fun p on => ?_, fun i p cmd per => ?_, fun i k cmd bus => ?_⟩
  · rw [isTaken]
    exact held.1 p (enabled p ▸ on)
  · rw [isTaken]
    exact (owns i cmd).1 p per
  · simp only [State.instTaken, State.clocked, par, funext isTaken, funext enabled]
    exact (owns i cmd).2 k bus

/-- The first micro-step of a command goes on only where the command owns what it uses. -/
theorem exec_start_checked (start : s.seq.point = .start) (h : exec i s = .next t) :
    Owns i s ∨ t.seq = s.seq := by
  by_cases failed : t.seq = s.seq
  · exact .inr failed
  refine .inl ⟨fun p per => ?_, fun k bus => ?_⟩
  · obtain ⟨rest, eq⟩ := exec_start_per start per
    rcases requireOwned_next (eq.symm.trans h) with ⟨taken, -⟩ | ⟨-, rfl⟩
    · exact taken
    · exact absurd rfl failed
  · obtain ⟨rest, eq⟩ := exec_start_bus start bus
    rcases prelude_next (eq.symm.trans h) with ⟨taken, clocked, -⟩ | ⟨-, rfl⟩ | ⟨-, -, rfl⟩
    · exact ⟨taken, clocked⟩
    · exact absurd rfl failed
    · exact absurd rfl failed

/-- After a micro-step of `i` the command in progress is `i`, or there is none, or the sequencer stands where it was. -/
theorem MicroStep.cmd_cases (line : AtLine i s) (move : MicroStep i s t) :
    t.seq.cmd = some i ∨ t.seq.cmd = none ∨ t.seq = s.seq := by
  cases move with
  | goesOn par commands cptr results clock goes => exact .inl (goes line).1
  | ends r par commands cptr results clock idle => exact .inr (.inl (congrArg Sequencer.cmd idle))
  | faults f eq => exact .inr (.inr (eq ▸ rfl))

/-- The command in progress after a micro-step owns what it uses: at its first line it was checked, later it is the one
that the invariant speaks of. -/
theorem exec_owns (line : AtLine i s) (held : OwnershipHeld s) (h : exec i s = .next t) :
    ∀ j, t.seq.cmd = some j → Owns j s := by
  intro j running
  obtain ⟨-, owns⟩ := ownershipHeld_iff.mp held
  rcases (exec_microStep h).cmd_cases line with cmd | cmd | same
  · obtain rfl := Option.some.inj (cmd.symm.trans running)
    rcases line with idle | ⟨cmd, -⟩
    · rcases exec_start_checked (congrArg Sequencer.point idle) h with checked | same
      · exact checked
      · exact owns i (same ▸ running)
    · exact owns i cmd
  · simp [cmd] at running
  · exact owns j (same ▸ running)

/-- Every micro-step keeps ownership and the clock of the peripheral in use. -/
theorem exec_keeps_ownershipHeld (board : BoardOk s.par) (line : AtLine i s) (held : OwnershipHeld s)
    (h : exec i s = .next t) : OwnershipHeld t := by
  have owns := exec_owns line held h
  have inside {q : Point} (point : s.seq.point = q) (ne : q ≠ .start) : s.seq.cmd = some i :=
    (line.inside (point ▸ ne)).1
  cases exec_gateMove h with
  | keeps kept => exact held.congr kept.par kept.taken (kept.enabled_eq board) owns
  | takes p cmd point eq =>
    subst eq
    refine ownershipHeld_iff.mpr ⟨fun q on => ?_, nofun⟩
    rw [State.finish_isTaken, State.isTaken_setTaken, held.1 q on, ite_self]
  | clocks p v owner point eq =>
    subst eq
    refine ownershipHeld_iff.mpr ⟨fun q on => ?_, nofun⟩
    rw [State.finish_isTaken, State.setEnabled_isTaken]
    rcases enabled_of_setEnabled board on with rfl | on
    · exact held.2.1 i q (inside point nofun) owner
    · exact held.1 q on
  | asserts p cmd point eq =>
    subst eq
    exact held.congr (by simp) (by simp) (fun q => enabled_assertReset board) owns
  | deasserts p cmd point eq =>
    subst eq
    exact held.congr (by simp) (by simp) (fun q => enabled_deassertReset board) nofun

theorem SeqMove.keeps_ownershipHeld (board : BoardOk s.par) (coherent : SeqCoherent s) (held : OwnershipHeld s)
    (move : SeqMove s t) : OwnershipHeld t := by
  cases move with
  | resume i running runs => exact exec_keeps_ownershipHeld board (coherent.running running).2 held runs
  | begins c i idle fetched decoded runs =>
    exact exec_keeps_ownershipHeld board (.inl (coherent.between idle)) held runs
  | undecoded c e idle fetched refused ends => exact ends ▸ held.congr rfl rfl (fun _ => rfl) nofun
  | ended idle empty same => exact same ▸ held

/-- Another agent leaves the command in progress and all that ownership asks for. -/
theorem GatesKept.keeps_ownershipHeld (kept : GatesKept s t) (seq : t.seq = s.seq) (board : BoardOk s.par)
    (held : OwnershipHeld s) : OwnershipHeld t :=
  held.congr kept.par kept.taken (kept.enabled_eq board) fun i cmd => (ownershipHeld_iff.mp held).2 i (seq ▸ cmd)

theorem step_keeps_ownershipHeld (board : BoardOk s.par) (coherent : SeqCoherent s) (held : OwnershipHeld s)
    (h : step s = .next t) : OwnershipHeld t := by
  have taken := SeqSide.takeTurn s
  have kept := GatesKept.takeTurn s
  have heldTaken := kept.keeps_ownershipHeld taken.seq board held
  cases step_cases h with
  | seq clear turn move =>
    exact move.keeps_ownershipHeld (taken.par.symm ▸ board) (taken.coherent coherent) heldTaken
  | osc clear a turn eq =>
    subst eq
    exact (kept.trans (.oscStep a _)).keeps_ownershipHeld (taken.trans (oscStep_seqSide a _)).seq board held
  | bus clear k a turn eq =>
    subst eq
    exact (kept.trans (.busStep k a _)).keeps_ownershipHeld (taken.trans (busStep_seqSide k a _)).seq board held

/-! TAKEN -/

/-- A micro-step writes TAKEN only where `PER_TAKE` commits (42_peripheral_access.md R135). -/
theorem exec_taken_cases (h : exec i s = .next t) :
    t.taken = s.taken ∨ ∃ p, i = .perTake p ∧ s.seq.point = .commit ∧ t.taken = (s.setTaken p).taken := by
  cases exec_gateMove h with
  | keeps kept => exact .inl kept.taken
  | takes p cmd point eq => exact .inr ⟨p, cmd, point, eq ▸ rfl⟩
  | clocks | asserts | deasserts => subst_vars; exact .inl (by simp)

/-- A SEQ turn writes TAKEN only where it performs the commit of a `PER_TAKE`. -/
theorem SeqMove.taken_cases (move : SeqMove s t) :
    t.taken = s.taken ∨ ∃ p, (s.seq.cmd = none ∨ s.seq.cmd = some (.perTake p)) ∧ s.seq.point = .commit ∧
      t.taken = (s.setTaken p).taken := by
  cases move with
  | resume i running runs =>
    exact (exec_taken_cases runs).imp_right fun ⟨p, cmd, rest⟩ => ⟨p, .inr (cmd ▸ running), rest⟩
  | begins c i idle fetched decoded runs =>
    exact (exec_taken_cases runs).imp_right fun ⟨p, _, rest⟩ => ⟨p, .inl idle, rest⟩
  | undecoded c e idle fetched refused ends => exact .inl (ends ▸ rfl)
  | ended idle empty same => exact .inl (same ▸ rfl)

/-- A step writes TAKEN only in a turn of SEQ that performs the commit of a `PER_TAKE`. -/
theorem step_taken_cases (h : step s = .next t) :
    t.taken = s.taken ∨ ∃ p, s.nextTurn = .seq ∧ (s.seq.cmd = none ∨ s.seq.cmd = some (.perTake p)) ∧
      s.seq.point = .commit ∧ t.taken = (s.setTaken p).taken := by
  have kept := GatesKept.takeTurn s
  cases step_cases h with
  | seq clear turn move =>
    refine move.taken_cases.imp (·.trans kept.taken) fun ⟨p, cmd, point, eq⟩ => ⟨p, turn, ?_, ?_, ?_⟩
    · simpa using cmd
    · simpa using point
    · simpa [State.setTaken] using eq
  | osc clear a turn eq => exact .inl (eq ▸ (kept.trans (.oscStep a _)).taken)
  | bus clear k a turn eq => exact .inl (eq ▸ (kept.trans (.busStep k a _)).taken)

theorem step_keeps_isTaken (h : step s = .next t) (taken : s.isTaken p = true) : t.isTaken p = true := by
  rcases step_taken_cases h with same | ⟨q, -, -, -, set⟩
  · rwa [isTaken_congr same]
  · rw [isTaken_congr set, State.isTaken_setTaken, taken, ite_self]

theorem step_takes (coherent : SeqCoherent s) (h : step s = .next t) (free : s.isTaken p = false)
    (taken : t.isTaken p = true) : s.nextTurn = .seq ∧ s.seq.cmd = some (.perTake p) ∧ s.seq.point = .commit := by
  rcases step_taken_cases h with same | ⟨q, turn, cmd, point, set⟩
  · rw [isTaken_congr same, free] at taken
    cases taken
  · rw [isTaken_congr set] at taken
    obtain rfl : p = q := by
      by_contra other
      rw [State.isTaken_setTaken_other _ _ _ other, free] at taken
      cases taken
    rcases cmd with between | cmd
    · rw [coherent.between between] at point
      cases point
    · exact ⟨turn, cmd, point⟩

/-- Settles O56: a micro-step is a `GateMove`, a command is checked at its first line, and the other agents leave
ownership and the enable bits. -/
theorem stepKeepsOwnershipHeld : Obligations.StepKeepsOwnershipHeld :=
  ⟨fun _ _ => step_keeps_ownershipHeld, fun _ _ _ => step_keeps_isTaken, fun _ _ _ => step_takes⟩

/-! The reset pulse -/

/-- Between the writes of `PER_RESET` a micro-step of SEQ is the second of them. -/
theorem SeqMove.of_deassert {t : State} (cmd : s.seq.cmd = some (.perReset p)) (point : s.seq.point = .deassertReset)
    (move : SeqMove s t) : t = (s.deassertReset p).finish .ok 0#32 [] := by
  cases move with
  | resume i running runs =>
    obtain rfl := Option.some.inj (cmd.symm.trans running)
    simp only [exec, execPerReset, point] at runs
    cases runs
    rfl
  | begins c i idle | undecoded c e idle | ended idle => simp [cmd] at idle

/-- Where no reset bit is set, a micro-step sets one only as the first write of `PER_RESET`. -/
theorem exec_resetPulse_of_clear (board : BoardOk s.par) (line : AtLine i s) (clear : ∀ p, s.inReset p = false)
    (h : exec i s = .next t) : ResetPulse t := by
  cases exec_gateMove h with
  | keeps kept => exact .of_clear fun p => (kept.inReset_eq board p).trans (clear p)
  | takes p cmd point eq => exact eq ▸ .of_clear clear
  | clocks p v owner point eq => exact eq ▸ .of_clear fun q => (inReset_setEnabled board v).trans (clear q)
  | asserts p cmd point eq =>
    subst eq
    intro q set
    obtain rfl : q = p := (inReset_of_assertReset board set).resolve_right (by simp [clear q])
    refine ⟨?_, rfl, fun k inst => regs_assertReset board (by simpa using inst)⟩
    simpa [cmd] using (line.inside (by rw [point]; nofun)).1
  | deasserts p cmd point eq =>
    subst eq
    exact .of_clear fun q => Bool.eq_false_iff.mpr fun set => by
      simpa [clear q] using (inReset_of_deassertReset board set).1

theorem SeqMove.keeps_resetPulse (board : BoardOk s.par) (coherent : SeqCoherent s) (pulse : ResetPulse s)
    (move : SeqMove s t) : ResetPulse t := by
  by_cases set : ∃ p, s.inReset p = true
  · obtain ⟨p, set⟩ := set
    obtain ⟨cmd, point, -⟩ := pulse p set
    obtain ⟨⟨c, -, decoded⟩, -⟩ := coherent.running cmd
    have known : periphExists s.par p = true := decode_wellFormed decoded
    rw [move.of_deassert cmd point]
    refine .of_clear fun q => Bool.eq_false_iff.mpr fun on => ?_
    obtain ⟨on, other⟩ := inReset_of_deassertReset board on
    have same : some (Instr.perReset p) = some (.perReset q) := cmd.symm.trans (pulse q on).1
    cases same
    exact other known rfl
  · have clear (p : PeriphId) : s.inReset p = false := Bool.eq_false_iff.mpr fun on => set ⟨p, on⟩
    cases move with
    | resume i running runs => exact exec_resetPulse_of_clear board (coherent.running running).2 clear runs
    | begins c i idle fetched decoded runs =>
      exact exec_resetPulse_of_clear board (.inl (coherent.between idle)) clear runs
    | undecoded c e idle fetched refused ends => exact ends ▸ .of_clear clear
    | ended idle empty same => exact same ▸ pulse

/-- Another agent that leaves the registers of a bus controller in reset keeps the pulse. -/
theorem ResetPulse.congr (pulse : ResetPulse s) (board : BoardOk s.par) (kept : GatesKept s t) (seq : t.seq = s.seq)
    (regs : ∀ p k, s.inReset p = true → instOf s.par p = some k → t.regs k = s.regs k) : ResetPulse t := by
  intro p set
  rw [kept.inReset_eq board] at set
  obtain ⟨cmd, point, reset⟩ := pulse p set
  rw [seq, kept.par]
  exact ⟨cmd, point, fun k inst => (regs p k set inst).trans (reset k inst)⟩

/-- The bus agent of a bus controller in reset takes no step, and that of another does not write its registers
(42_peripheral_access.md R139 (b)). -/
theorem busStep_keeps_resetPulse (k : InstId) (a : Config.BusStep) (board : BoardOk s.par) (pulse : ResetPulse s) :
    ResetPulse (busStep k a s) := by
  refine pulse.congr board (.busStep k a s) (busStep_seqSide k a s).seq fun p j set inst => ?_
  by_cases same : j = k
  · subst same
    rw [busStep_of_heldInReset a ((board.heldInReset_eq inst).trans set)]
  · exact busStep_regs_other k j a s same

theorem step_keeps_resetPulse (board : BoardOk s.par) (coherent : SeqCoherent s) (pulse : ResetPulse s)
    (h : step s = .next t) : ResetPulse t := by
  have taken := SeqSide.takeTurn s
  have boardTaken : BoardOk s.takeTurn.par := taken.par.symm ▸ board
  have pulseTaken : ResetPulse s.takeTurn := pulse.congr board (.takeTurn s) taken.seq fun _ _ _ _ => s.takeTurn_regs _
  cases step_cases h with
  | seq clear turn move => exact move.keeps_resetPulse boardTaken (taken.coherent coherent) pulseTaken
  | osc clear a turn eq =>
    subst eq
    exact pulseTaken.congr boardTaken (.oscStep a _) (oscStep_seqSide a _).seq fun _ _ _ _ => by rw [oscStep_eq]; rfl
  | bus clear k a turn eq => exact eq ▸ busStep_keeps_resetPulse k a boardTaken pulseTaken

/-- Settles O57: a set reset bit makes the next micro-step of SEQ the one that clears it, only `PER_RESET` sets one, and
the bus agent in reset takes no step. -/
theorem stepKeepsResetPulse : Obligations.StepKeepsResetPulse := fun _ _ => step_keeps_resetPulse

end Sys2Proof.Machine
end

section
/-! PROOF. The lines of `PER_TAKE`, `PER_ENCLK` and `PER_DISCLK`, and all that the write of one bit of the clock-control
words does, wherever `PERIPH` puts the bit (42_peripheral_access.md R135, R137, R138, R139, R142). -/

namespace Sys2Proof.Machine

open Sys2Proof.Claims

variable {s : State} {p q : PeriphId} {k : InstId} {r : Config.PeriphRow} {b : Nat × Nat} {v : Bool} {x : Nat × Reg}

/-! The lines -/

theorem exec_perTake_double (start : s.seq.point = .start) (taken : s.isTaken p = true) :
    exec (.perTake p) s = .next { s with fault := some .doubleTake } := by
  simp [exec, execPerTake, raiseFault, start, taken]

theorem exec_perTake_enter (start : s.seq.point = .start) (free : s.isTaken p = false) :
    exec (.perTake p) s = .next (s.enter (.perTake p) .commit) := by
  simp [exec, execPerTake, start, free]

theorem exec_perTake_commit (at_ : s.seq.point = .commit) :
    exec (.perTake p) s = .next ((s.setTaken p).finish .ok 0#32 []) := by
  simp [exec, execPerTake, returnValue, at_]

theorem exec_perEnclk_enter (start : s.seq.point = .start) (taken : s.isTaken p = true) :
    exec (.perEnclk p) s = .next (s.enter (.perEnclk p) .commit) := by
  simp [exec, execPerEnclk, requireOwned_of_taken taken, start]

theorem exec_perEnclk_commit (at_ : s.seq.point = .commit) (row : s.par.row p = some r) :
    exec (.perEnclk p) s = .next ((s.putBit r.enable true).finish .ok 0#32 []) := by
  simp [exec, execPerEnclk, returnValue, at_, State.setEnabled_row s row]

theorem exec_perDisclk_enter (start : s.seq.point = .start) (taken : s.isTaken p = true) :
    exec (.perDisclk p) s = .next (s.enter (.perDisclk p) .commit) := by
  simp [exec, execPerDisclk, requireOwned_of_taken taken, start]

theorem exec_perDisclk_commit (at_ : s.seq.point = .commit) (row : s.par.row p = some r) :
    exec (.perDisclk p) s = .next ((s.putBit r.enable false).finish .ok 0#32 []) := by
  simp [exec, execPerDisclk, returnValue, at_, State.setEnabled_row s row]

/-! The bits of CR, PLLCFGR and CFGR -/

theorem apartFromClockWords_iff : ApartFromClockWords b ↔ b.1 ≠ 0x00 ∧ b.1 ≠ 0x04 ∧ b.1 ≠ 0x08 := by
  simp [ApartFromClockWords, clockWords]

theorem mem_clockWords : x ∈ clockWords ↔ x = (0x00, .cr) ∨ x = (0x04, .pllcfgr) ∨ x = (0x08, .cfgr) := by
  simp [clockWords]

/-- The word at the offset of CR, PLLCFGR or CFGR is that register's. -/
theorem wordAt_clockWord (mem : x ∈ clockWords) (s : State) : s.cc.wordAt x.1 = some (regWord s x.2) := by
  rcases mem_clockWords.mp mem with rfl | rfl | rfl <;> rfl

theorem putWord_clockWord (mem : x ∈ clockWords) (s : State) (w : Word) :
    s.cc.putWord x.1 w = (regPut s x.2 w).cc := by
  rcases mem_clockWords.mp mem with rfl | rfl | rfl <;> rfl

/-- A bit placed there is the bit that the word shows (10_state.md R32, 42_peripheral_access.md R142). -/
theorem bitAtPlace_clockWord (mem : x ∈ clockWords) (place : b.1 = x.1) (held : Bool) :
    s.cc.bitAtPlace b held = (regWord s x.2).getLsbD b.2 := by
  simp only [ClockControl.bitAtPlace, place, wordAt_clockWord mem s, bitOf]

theorem enabled_of_row (row : s.par.row q = some r) : s.enabled q = s.cc.bitAtPlace r.enable s.cc.enr[q.val] := by
  simp [State.enabled, row]

theorem inReset_of_row (row : s.par.row q = some r) : s.inReset q = s.cc.bitAtPlace r.reset s.cc.rstr[q.val] := by
  simp [State.inReset, row]

theorem putBit_clockWord (mem : x ∈ clockWords) (place : b.1 = x.1) (s : State) (v : Bool) :
    (s.putBit b v).cc = (regPut s x.2
      (if v then regWord s x.2 ||| (1#32 <<< b.2) else regWord s x.2 &&& ~~~(1#32 <<< b.2))).cc := by
  rw [State.putBit_cc, ClockControl.putBit_word _ _ (place ▸ wordAt_clockWord mem s), withBit_eq, place,
    putWord_clockWord mem]

/-! The reset of the bus controllers that the bit names -/

/-- The bus controllers that a reset bit resets are those of the rows that name it. -/
theorem resetsInst_iff {par : Config.Params} :
    resetsInst par b k = true ↔ ∃ q r, par.row q = some r ∧ r.reset = b ∧ r.inst = some k := by
  simp only [resetsInst, List.any_eq_true, Bool.and_eq_true, beq_iff_eq]
  constructor
  · rintro ⟨r, mem, names, inst⟩
    obtain ⟨q, row⟩ := row_of_mem mem
    exact ⟨q, r, row, names, inst⟩
  · rintro ⟨q, r, row, names, inst⟩
    exact ⟨r, mem_rows row, names, inst⟩

theorem resetsInst_eq_false {par : Config.Params}
    (unnamed : ∀ q r, par.row q = some r → r.reset = b → r.inst ≠ some k) :
    resetsInst par b k = false := by
  refine Bool.eq_false_iff.mpr fun names => ?_
  obtain ⟨q, r, row, reset, inst⟩ := resetsInst_iff.mp names
  exact unnamed q r row reset inst

theorem asserts_eq (s : State) (b : Nat × Nat) (v : Bool) :
    s.cc.asserts s.par b v = (v && (s.putBit b v).cc.bitAtPlace b true) := rfl

/-- A bit written 1 asserts the resets of its rows, unless it stands in CR, PLLCFGR or CFGR and reads 0 there. -/
theorem asserts_of_reads
    (reads : ∀ x ∈ clockWords, b.1 = x.1 → (regWord (s.putBit b true) x.2).getLsbD b.2 = true) :
    s.cc.asserts s.par b true = true := by
  by_cases apart : ApartFromClockWords b
  · obtain ⟨h0, h4, h8⟩ := apartFromClockWords_iff.mp apart
    exact ClockControl.asserts_other _ _ _ h0 h4 h8
  · simp only [ApartFromClockWords, not_forall, not_not] at apart
    obtain ⟨x, mem, place⟩ := apart
    rw [asserts_eq, bitAtPlace_clockWord mem place, reads x mem place]
    rfl

theorem asserts_of_reads_zero (mem : x ∈ clockWords) (place : b.1 = x.1)
    (reads : (regWord (s.putBit b v) x.2).getLsbD b.2 = false) : s.cc.asserts s.par b v = false := by
  rw [asserts_eq, bitAtPlace_clockWord mem place, reads, Bool.and_false]

/-- What a reset does to the hidden state (43_bus_engine.md R173). -/
theorem BusLine.afterReset_eq (h : BusLine) : h.afterReset =
    { h with line := if h.line = .ours then .idle else h.line, pending := .none, expectAddr := false } := by
  obtain ⟨line, pending, expect, written, seen⟩ := h
  cases line <;> rfl

theorem putBit_resets (asserts : s.cc.asserts s.par b v = true) (names : resetsInst s.par b k = true) :
    (s.putBit b v).regs k = BusRegs.reset ∧ (s.putBit b v).hidden k = (s.hidden k).afterReset := by
  simp [State.regs_putBit, State.hidden_putBit, asserts, names]

theorem putBit_leaves (other : s.cc.asserts s.par b v = false ∨ resetsInst s.par b k = false) :
    (s.putBit b v).regs k = s.regs k ∧ (s.putBit b v).hidden k = s.hidden k := by
  rcases other with other | other <;> simp [State.regs_putBit, State.hidden_putBit, other]

/-- A bit that is no reset bit, beside CR, PLLCFGR and CFGR, is written in the enable bits alone. -/
theorem putBit_no_reset (apart : ApartFromClockWords b) (unnamed : ∀ q r, s.par.row q = some r → r.reset ≠ b) :
    s.putBit b v = { s with cc := { s.cc with enr := (s.putBit b v).cc.enr } } := by
  have leaves (k : InstId) := putBit_leaves (k := k) (v := v)
    (.inr (resetsInst_eq_false fun q r row reset => absurd reset (unnamed q r row)))
  have i2c : (s.putBit b v).i2c = s.i2c := Vector.ext fun k hk => (leaves ⟨k, hk⟩).1
  have bus : (s.putBit b v).bus = s.bus := Vector.ext fun k hk => (leaves ⟨k, hk⟩).2
  have cc : (s.putBit b v).cc = { s.cc with enr := (s.putBit b v).cc.enr } := by
    obtain ⟨h0, h4, h8⟩ := apartFromClockWords_iff.mp apart
    have notReset (q : PeriphId) : ((s.par.row q).any fun r => r.reset == b) = false := by
      cases row : s.par.row q with
      | none => rfl
      | some r => simpa using unnamed q r row
    simp [State.putBit_cc, ClockControl.putBit_other _ _ _ h0 h4 h8, notReset]
  calc s.putBit b v
      _ = { s with cc := (s.putBit b v).cc, i2c := (s.putBit b v).i2c, bus := (s.putBit b v).bus } := rfl
      _ = { s with cc := (s.putBit b v).cc } := by rw [i2c, bus]
      _ = _ := congrArg (fun c => { s with cc := c }) cc

/-- Beside CR, PLLCFGR and CFGR a bit is CC.ENR and CC.RSTR of every id whose row names it (10_state.md R32; log 7). -/
theorem putBit_apart (apart : ApartFromClockWords b) (s : State) (v : Bool) :
    (∃ e r, (s.putBit b v).cc = { s.cc with enr := e, rstr := r }) ∧
    (∀ q, s.par.row q = none →
      (s.putBit b v).enabled q = s.enabled q ∧ (s.putBit b v).inReset q = s.inReset q) ∧
    (∀ q r, s.par.row q = some r → (s.putBit b v).enabled q = (if r.enable = b then v else s.enabled q) ∧
      (s.putBit b v).inReset q = (if r.reset = b then v else s.inReset q)) := by
  obtain ⟨h0, h4, h8⟩ := apartFromClockWords_iff.mp apart
  refine ⟨⟨_, _, ClockControl.putBit_other s.cc s.par v h0 h4 h8⟩, fun q row => ?_, fun q r row => ?_⟩
  · simp [State.enabled_putBit s v q h0 h4 h8, State.inReset_putBit s v q h0 h4 h8, row]
  · simp [State.enabled_putBit s v q h0 h4 h8, State.inReset_putBit s v q h0 h4 h8, row]

/-- Settles O20: the lines, and the write of a bit by where it stands and which rows name it. -/
theorem takeAndClockMicroSteps : Obligations.TakeAndClockMicroSteps := by
  refine ⟨fun s p => ⟨exec_perTake_double, exec_perTake_enter, exec_perTake_commit, exec_perEnclk_enter,
      fun r => exec_perEnclk_commit, exec_perDisclk_enter, fun r => exec_perDisclk_commit⟩,
    fun s b v => putBit_no_reset, fun s b v => ⟨⟨_, _, _, rfl⟩, fun apart => putBit_apart apart s v,
      fun x mem place => putBit_clockWord mem place s v, fun q r k set row names inst reads => ?_, fun k other => ?_⟩,
    fun s q r row x mem => ⟨fun place => ?_, fun place => ?_⟩⟩
  · subst set
    rw [← BusLine.afterReset_eq]
    exact putBit_resets (asserts_of_reads reads) (resetsInst_iff.mpr ⟨q, r, row, names, inst⟩)
  · refine putBit_leaves ?_
    rcases other with rfl | ⟨x, mem, place, reads⟩ | unnamed
    · exact .inl (ClockControl.asserts_false _ _ _)
    · exact .inl (asserts_of_reads_zero mem place reads)
    · exact .inr (resetsInst_eq_false unnamed)
  · rw [enabled_of_row row, bitAtPlace_clockWord mem place]
  · rw [inReset_of_row row, bitAtPlace_clockWord mem place]

end Sys2Proof.Machine
end

section
/-! PROOF. The lines of `PER_RESET` and its run by SEQ alone (42_peripheral_access.md R139, 43_bus_engine.md R173). -/

namespace Sys2Proof.Machine

open Sys2Proof.Claims

variable {s : State} {p : PeriphId} {r : Config.PeriphRow}

/-! The lines -/

theorem exec_perReset_enter (start : s.seq.point = .start) (taken : s.isTaken p = true) :
    exec (.perReset p) s = .next (s.enter (.perReset p) .assertReset) := by
  simp [exec, execPerReset, requireOwned_of_taken taken, start]

theorem exec_perReset_assert (at_ : s.seq.point = .assertReset) (row : s.par.row p = some r) :
    exec (.perReset p) s = .next ((s.putBit r.reset true).goto .deassertReset) := by
  simp [exec, execPerReset, at_, State.assertReset_row s row]

theorem exec_perReset_deassert (at_ : s.seq.point = .deassertReset) (row : s.par.row p = some r) :
    exec (.perReset p) s = .next ((s.putBit r.reset false).finish .ok 0#32 []) := by
  simp [exec, execPerReset, returnValue, at_, State.deassertReset_row s row]

/-- Beside CR, PLLCFGR and CFGR the reset bit of an id reads what was written (10_state.md R32). -/
theorem inReset_putBit_own (apart : ApartFromClockWords r.reset) (row : s.par.row p = some r) (v : Bool) :
    (s.putBit r.reset v).inReset p = v := by
  obtain ⟨-, -, assigned⟩ := putBit_apart apart s v
  rw [(assigned p r row).2, if_pos rfl]

theorem regs_putBit_own (apart : ApartFromClockWords r.reset) (row : s.par.row p = some r) {k : InstId}
    (inst : r.inst = some k) : (s.putBit r.reset true).regs k = BusRegs.reset :=
  (putBit_resets (asserts_of_reads fun x mem place => absurd place (apart x mem))
    (resetsInst_iff.mpr ⟨p, r, row, rfl, inst⟩)).1

/-! The run -/

/-- `s` with its reset bit pulsed: written 1, then 0. -/
def State.pulsed (s : State) (r : Config.PeriphRow) : State := (s.putBit r.reset true).putBit r.reset false

section Pulsed

variable (board : BoardOk s.par) (row : s.par.row p = some r)

include board row

theorem pulsed_cc : (s.pulsed r).cc = { s.cc with rstr := (s.pulsed r).cc.rstr } := by
  obtain ⟨first, -, -⟩ := putBit_reset board row true
  obtain ⟨second, -, -⟩ := putBit_reset (s := s.putBit r.reset true) board row false
  rw [State.pulsed, second, first]

theorem pulsed_inReset (q : PeriphId) : (s.pulsed r).inReset q = if q = p then false else s.inReset q := by
  rw [State.pulsed, inReset_putBit_reset (s := s.putBit r.reset true) board row, inReset_putBit_reset board row]
  split <;> rfl

theorem pulsed_regs (k : InstId) : (s.pulsed r).regs k = if r.inst = some k then BusRegs.reset else s.regs k := by
  obtain ⟨-, regs, -⟩ := putBit_reset board row true
  simp [State.pulsed, regs]

theorem pulsed_hidden (k : InstId) :
    (s.pulsed r).hidden k = if r.inst = some k then (s.hidden k).afterReset else s.hidden k := by
  obtain ⟨-, -, hidden⟩ := putBit_reset board row true
  simp [State.pulsed, hidden]

end Pulsed

/-- The words of a bus controller's registers at reset (10_state.md R49). -/
theorem busWord_reset {x : BusReg} : busWord BusRegs.reset x = if x = .trise then 2#32 else 0#32 := by
  cases x <;> decide

/-- `s` inside `PER_RESET` at line `q`, with the turns `l` to come. -/
def State.resetAt (s : State) (p : PeriphId) (q : Point) (l : List Config.Turn) : State :=
  { s with seq := { Sequencer.idle with cmd := some (.perReset p), point := q }, agenda := l }

/-- `s` after `PER_RESET`, with the turns `l` to come. -/
def State.resetDone (s : State) (r : Config.PeriphRow) (l : List Config.Turn) : State :=
  ({ s.pulsed r with agenda := l } : State).finish .ok 0#32 []

section Run

variable {l : List Config.Turn}

theorem step_perReset_enter (ready : ReadyToRun s (.perReset p)) (taken : s.isTaken p = true)
    (agenda : s.agenda = .seq :: l) : step s = .next (s.resetAt p .assertReset l) := by
  obtain ⟨-, between, -⟩ := id ready
  have idle : s.seq = Sequencer.idle := between
  have start : ({ s with agenda := l } : State).seq.point = .start := congrArg Sequencer.point idle
  rw [step_seq_ready ready agenda, exec_perReset_enter start taken, State.resetAt, ← idle]
  rfl

theorem step_resetAt_seq {q : Point} (clear : s.fault = none) :
    step (s.resetAt p q (.seq :: l)) = exec (.perReset p) (s.resetAt p q l) :=
  step_seq_running clear rfl rfl

theorem step_perReset_assert (clear : s.fault = none) (row : s.par.row p = some r) :
    step (s.resetAt p .assertReset (.seq :: l)) = .next ((s.putBit r.reset true).resetAt p .deassertReset l) :=
  (step_resetAt_seq clear).trans (exec_perReset_assert (s := s.resetAt p .assertReset l) rfl row)

theorem step_perReset_deassert (clear : s.fault = none) (row : s.par.row p = some r) :
    step (s.resetAt p .deassertReset (.seq :: l)) =
      .next (({ s.putBit r.reset false with agenda := l } : State).finish .ok 0#32 []) :=
  (step_resetAt_seq clear).trans (exec_perReset_deassert (s := s.resetAt p .deassertReset l) rfl row)

theorem resetDone_inReset (q : PeriphId) : (s.resetDone r l).inReset q = (s.pulsed r).inReset q := rfl

theorem resetDone_regs (k : InstId) : (s.resetDone r l).regs k = (s.pulsed r).regs k := rfl

theorem resetDone_hidden (k : InstId) : (s.resetDone r l).hidden k = (s.pulsed r).hidden k := rfl

/-- Between commands `PER_RESET` leaves all but the reset bits, the registers, the hidden state and the log. -/
theorem resetDone_frame (board : BoardOk s.par) (row : s.par.row p = some r) (idle : s.seq = Sequencer.idle) :
    s.resetDone r l = { s with
      cc := { s.cc with rstr := (s.resetDone r l).cc.rstr }
      i2c := (s.resetDone r l).i2c
      bus := (s.resetDone r l).bus
      agenda := l
      results := s.results ++ [⟨.ok, 0#32, []⟩]
      cptr := s.cptr + 1 } := by
  have cc : { s.cc with rstr := (s.resetDone r l).cc.rstr } = (s.pulsed r).cc := (pulsed_cc board row).symm
  rw [cc, State.resetDone, State.finish, ← idle]
  rfl

/-- `PER_RESET` run by SEQ alone pulses its bit and ends OK. -/
theorem runs_perReset (ready : ReadyToRun s (.perReset p)) (taken : s.isTaken p = true) (row : s.par.row p = some r)
    (agenda : s.agenda = [.seq, .seq, .seq] ++ l) :
    runs 3 s = .next (s.resetDone r l) := by
  obtain ⟨clear, -⟩ := id ready
  exact (runs_succ 2 (step_perReset_enter ready taken agenda)).trans
    ((runs_succ 1 (step_perReset_assert clear row)).trans (runs_succ 0 (step_perReset_deassert clear row)))

end Run

/-- Settles O22: the lines, the bus agent in reset, and the run, which pulses the bit. -/
theorem perResetFollowsItsRule : Obligations.PerResetFollowsItsRule := by
  refine ⟨fun s p => exec_perReset_enter, fun s p r at_ row => ⟨exec_perReset_assert at_ row, fun apart =>
      ⟨inReset_putBit_own apart row true, fun k => regs_putBit_own apart row⟩⟩,
    fun s p r at_ row => ⟨exec_perReset_deassert at_ row, fun apart => inReset_putBit_own apart row false⟩,
    fun s k a => busStep_of_heldInReset a, fun s p r rest board ready taken row agenda =>
      ⟨s.resetDone r rest, runs_perReset ready taken row agenda, ?_, fun q => ?_, fun k inst => ?_,
        fun j other => ?_⟩⟩
  · obtain ⟨-, between, -⟩ := ready
    exact resetDone_frame board row between
  · rw [resetDone_inReset, pulsed_inReset board row]
  · have regs : (s.resetDone r rest).regs k = BusRegs.reset := by
      rw [resetDone_regs, pulsed_regs board row, if_pos inst]
    refine ⟨regs, fun x _ => ?_, ?_⟩
    · rw [regWord, regs, busWord_reset]
    · rw [resetDone_hidden, pulsed_hidden board row, if_pos inst, BusLine.afterReset_eq]
  · rw [resetDone_regs, resetDone_hidden, pulsed_regs board row, pulsed_hidden board row, if_neg other, if_neg other]
    exact ⟨rfl, rfl⟩

end Sys2Proof.Machine
end

section
/-! PROOF. The lines of the five protocol phases: the poll, `I2C_START`, `I2C_ADDR`, `I2C_WRBYTE`, `I2C_RDBYTE` and
`I2C_STOP` (43_bus_engine.md R158 to R167; 10_state.md R38). -/

namespace Sys2Proof.Machine

open Sys2Proof.Claims

variable {s t : State} {k : InstId}

/-! One poll iteration -/

theorem Sr1.errs_eq_some_iff {r : Sr1} {e : Status} : r.errs = some e ↔ FirstError r e := by
  unfold Sr1.errs FirstError
  cases r.af <;> cases r.arlo <;> cases r.berr <;> simp [eq_comm]

theorem Sr1.errs_eq_none_iff {r : Sr1} : r.errs = none ↔ NoError r := by
  unfold Sr1.errs NoError
  cases r.af <;> cases r.arlo <;> cases r.berr <;> simp

/-- Settles O27: the error check by the three flags, and each order by what it looks at first. -/
theorem pollOrder : Obligations.PollOrder :=
  ⟨fun _ _ => Sr1.errs_eq_some_iff, fun _ => Sr1.errs_eq_none_iff,
    fun err flag => by cases err <;> cases flag <;> rfl, fun err flag => by cases flag <;> cases err <;> rfl, rfl⟩

section Poll

variable {err : Option Status} {flag : Bool} {e : Status} {done : State → Res}

/-- A poll that sees its flag and no error that comes before it goes on. -/
theorem pollFlags_success (seen : flag = true) (first : err = none ∨ s.par.checkOrder = .successFirst) :
    pollFlags err flag s done = done s := by
  subst seen
  unfold pollFlags
  rcases first with rfl | order
  · cases s.par.checkOrder <;> rfl
  · rw [order]; rfl

/-- A poll that sees an error and no flag that comes before it ends the command. -/
theorem pollFlags_error (seen : err = some e) (first : flag = false ∨ s.par.checkOrder = .errorsFirst) :
    pollFlags err flag s done = .next (s.finish e 0#32 []) := by
  subst seen
  unfold pollFlags
  rcases first with rfl | order
  · cases s.par.checkOrder <;> rfl
  · rw [order]; rfl

/-- A poll that sees neither polls again. -/
theorem pollFlags_again (unset : flag = false) (clear : err = none) : pollFlags err flag s done = .next s := by
  subst unset clear
  unfold pollFlags
  cases s.par.checkOrder <;> rfl

theorem pollFlags_of_waitSucceeds (h : WaitSucceeds s k flag) :
    pollFlags (s.regs k).sr1.errs flag s done = done s :=
  pollFlags_success h.1 (h.2.imp_left Sr1.errs_eq_none_iff.mpr)

theorem pollFlags_of_waitFails (h : WaitFails s k flag e) :
    pollFlags (s.regs k).sr1.errs flag s done = .next (s.finish e 0#32 []) :=
  pollFlags_error (Sr1.errs_eq_some_iff.mpr h.1) h.2

theorem pollFlags_of_waitGoesOn (h : WaitGoesOn s k flag) : pollFlags (s.regs k).sr1.errs flag s done = .next s :=
  pollFlags_again h.1 (Sr1.errs_eq_none_iff.mpr h.2)

end Poll

/-! The first line -/

theorem prelude_of_usable {rest : Res} (usable : Usable s k) : prelude k s rest = rest := by
  rw [prelude, if_pos usable.1, if_pos usable.2]

/-! `I2C_START` -/

theorem exec_i2cStart_enter (start : s.seq.point = .start) (usable : Usable s k) :
    exec (.i2cStart k) s = .next (s.enter (.i2cStart k) (.startBody .busFree)) := by
  simp only [exec, execI2cStart, start, prelude_of_usable usable]

theorem exec_i2cStart_body {p : StartPoint} (at_ : s.seq.point = .startBody p) :
    exec (.i2cStart k) s = startBody k p s (returnValue 0#32) := by
  simp only [exec, execI2cStart, at_]

theorem exec_i2cStart_busy (at_ : s.seq.point = .startBody .busFree) (busy : (s.regs k).sr2.busy = true) :
    exec (.i2cStart k) s = .next s := by
  rw [exec_i2cStart_body at_, startBody, if_pos busy]

theorem exec_i2cStart_free (at_ : s.seq.point = .startBody .busFree) (free : (s.regs k).sr2.busy = false) :
    exec (.i2cStart k) s = .next (s.goto (.startBody (.request .read))) := by
  rw [exec_i2cStart_body at_, startBody, free, if_neg Bool.false_ne_true]

/-- The start wait checks BERR alone (43_bus_engine.md R159). -/
theorem Sr1.startErrs_of_berr {r : Sr1} (set : r.berr = true) : r.startErrs = some .busError := if_pos set

theorem Sr1.startErrs_of_clear {r : Sr1} (clear : r.berr = false) : r.startErrs = none :=
  if_neg (by rw [clear]; exact Bool.false_ne_true)

/-- Settles O28: one case for each line of the start body and each outcome of its polls. -/
theorem startMicroSteps : Obligations.StartMicroSteps := by
  refine fun s k => ⟨exec_i2cStart_enter, exec_i2cStart_busy, exec_i2cStart_free, exec_i2cStart_body,
    fun w => exec_i2cStart_body, fun at_ sb first => ?_, fun at_ berr first => ?_, fun at_ sb berr => ?_⟩
  · rw [exec_i2cStart_body at_, startBody, pollFlags_success sb (first.imp_left Sr1.startErrs_of_clear)]
    rfl
  · rw [exec_i2cStart_body at_, startBody, pollFlags_error (Sr1.startErrs_of_berr berr) first]
  · rw [exec_i2cStart_body at_, startBody, pollFlags_again sb (Sr1.startErrs_of_clear berr)]

/-! `I2C_ADDR` and `I2C_WRBYTE` -/

theorem writeDr_eq (s : State) (k : InstId) (b : Byte) : s.writeDr k b = dataRegisterWritten s k b := rfl

/-- The address byte is the address above the direction bit (43_bus_engine.md R161). -/
theorem addressByte_eq (addr : BitVec 7) (rw : Dir) :
    addressByte addr rw = BitVec.ofNat 8 (addr.toNat * 2 + if rw = .read then 1 else 0) := by
  have bound := addr.isLt
  have value : (addressByte addr rw).toNat = addr.toNat <<< 1 + (dirBit rw).toNat := by
    rw [Nat.shiftLeft_add_eq_or_of_lt (by cases dirBit rw <;> decide), ← BitVec.toNat_ofBool]
    exact BitVec.toNat_append addr (BitVec.ofBool (dirBit rw))
  refine BitVec.eq_of_toNat_eq ?_
  cases rw <;> simp [value, dirBit, Nat.shiftLeft_eq] <;> omega

theorem exec_i2cAddr_body {addr : BitVec 7} {rw : Dir} {p : PutPoint} (at_ : s.seq.point = .addressBody p) :
    exec (.i2cAddr k addr rw) s = addressBody k addr rw p s (returnValue 0#32) := by
  simp only [exec, execI2cAddr, at_]

theorem exec_i2cWrbyte_body {data : Byte} {p : PutPoint} (at_ : s.seq.point = .writeBody p) :
    exec (.i2cWrbyte k data) s = writeByteBody k data p s (returnValue 0#32) := by
  simp only [exec, execI2cWrbyte, at_]

/-- Settles O29: for each command its first line, the write of DR, and the three outcomes of its wait. -/
theorem addressAndWriteByteMicroSteps : Obligations.AddressAndWriteByteMicroSteps := by
  refine fun s k addr rw data => ⟨fun start usable => ?_, fun at_ => ?_, fun at_ seen => ?_, fun e at_ fails => ?_,
    fun at_ unseen => ?_, fun start usable => ?_, exec_i2cWrbyte_body, fun at_ seen => ?_, fun e at_ fails => ?_,
    fun at_ unseen => ?_⟩
  · simp only [exec, execI2cAddr, start, prelude_of_usable usable]
  · rw [exec_i2cAddr_body at_, addressBody, addressByte_eq, writeDr_eq]
  · rw [exec_i2cAddr_body at_, addressBody, pollFlags_of_waitSucceeds seen]
    rfl
  · rw [exec_i2cAddr_body at_, addressBody, pollFlags_of_waitFails fails]
  · rw [exec_i2cAddr_body at_, addressBody, pollFlags_of_waitGoesOn unseen]
  · simp only [exec, execI2cWrbyte, start, prelude_of_usable usable]
  · rw [exec_i2cWrbyte_body at_, writeByteBody, pollFlags_of_waitSucceeds seen]
    rfl
  · rw [exec_i2cWrbyte_body at_, writeByteBody, pollFlags_of_waitFails fails]
  · rw [exec_i2cWrbyte_body at_, writeByteBody, pollFlags_of_waitGoesOn unseen]

/-! `I2C_RDBYTE` -/

theorem exec_i2cRdbyte_body {p : TakePoint} (at_ : s.seq.point = .readBody p) :
    exec (.i2cRdbyte k) s = readByteBody k .readBody p s fun b t => returnValue (b.setWidth 32) t := by
  simp only [exec, execI2cRdbyte, at_]

/-- Settles O30: the wait looks at RXNE alone, and the read is that of DR. -/
theorem readByteMicroSteps : Obligations.ReadByteMicroSteps := by
  refine fun s k => ⟨fun start usable => ?_, fun at_ empty => ?_, fun at_ full => ?_, exec_i2cRdbyte_body⟩
  · simp only [exec, execI2cRdbyte, start, prelude_of_usable usable]
  · rw [exec_i2cRdbyte_body at_, readByteBody, empty, if_neg Bool.false_ne_true]
  · rw [exec_i2cRdbyte_body at_, readByteBody, if_pos full]

/-! `I2C_STOP` -/

theorem exec_i2cStop_enter (start : s.seq.point = .start) (usable : Usable s k) :
    exec (.i2cStop k) s = .next (s.enter (.i2cStop k) (.stopBody .read)) := by
  simp only [exec, execI2cStop, start, prelude_of_usable usable]

theorem exec_i2cStop_body {r : Rmw} (at_ : s.seq.point = .stopBody r) :
    exec (.i2cStop k) s = stopBody k r s (returnValue 0#32) := by
  simp only [exec, execI2cStop, at_]

/-! A run of SEQ alone -/

/-- `s` inside the command `i` at the line `p`, with the turns `l` to come. -/
def State.inside (s : State) (i : Instr) (p : Point) (l : List Config.Turn) : State :=
  { s with seq := { Sequencer.idle with cmd := some i, point := p }, agenda := l }

section Run

variable {i : Instr} {p : Point} {l : List Config.Turn}

theorem step_inside (clear : s.fault = none) : step (s.inside i p (.seq :: l)) = exec i (s.inside i p l) :=
  step_seq_running clear rfl rfl

/-- The first turn of a command that its first line enters. -/
theorem step_enters (ready : ReadyToRun s i) (agenda : s.agenda = .seq :: l)
    (enters : ({ s with agenda := l } : State).seq.point = .start →
      exec i { s with agenda := l } = .next (({ s with agenda := l } : State).enter i p)) :
    step s = .next (s.inside i p l) := by
  obtain ⟨-, between, -⟩ := id ready
  have idle : s.seq = Sequencer.idle := between
  rw [step_seq_ready ready agenda, enters (congrArg Sequencer.point idle), State.inside, ← idle]
  rfl

/-- Ended, a command leaves SEQ between commands, as it was before. -/
theorem finish_inside (idle : s.seq = Sequencer.idle) (st : Status) (v : Word) (bytes : List Byte) :
    (s.inside i p l).finish st v bytes =
      { s with agenda := l, results := s.results ++ [⟨st, v, bytes⟩], cptr := s.cptr + 1 } := by
  rw [State.finish, ← idle]
  rfl

end Run

/-- Settles O31: the lines of the stop body, and the three turns one by one. -/
theorem stopRun : Obligations.StopRun := by
  refine fun s k rest => ⟨exec_i2cStop_enter, exec_i2cStop_body, fun w => exec_i2cStop_body,
    fun ready usable agenda => ?_⟩
  obtain ⟨clear, between, -⟩ := id ready
  have idle : s.seq = Sequencer.idle := between
  calc runs 3 s
    _ = runs 2 (s.inside (.i2cStop k) (.stopBody .read) (.seq :: .seq :: rest)) :=
        runs_succ 2 (step_enters ready agenda fun start => exec_i2cStop_enter start usable)
    _ = runs 1 (s.inside (.i2cStop k) (.stopBody (.write (s.regs k).cr1)) (.seq :: rest)) :=
        runs_succ 1 ((step_inside clear).trans (exec_i2cStop_body (r := .read) rfl))
    _ = runs 0 (((s.setRegs k { s.regs k with cr1 := { (s.regs k).cr1 with stop := true } }).inside (.i2cStop k)
          (.stopBody .read) rest).finish .ok 0#32 []) :=
        runs_succ 0 ((step_inside clear).trans (exec_i2cStop_body (r := .write _) rfl))
    _ = _ := by exact congrArg Host.Outcome.next (finish_inside (s := s.setRegs k _) idle .ok 0#32 [])

end Sys2Proof.Machine
end

section
/-! PROOF. `I2C_INIT`: its checks, its timing, its writing lines, and its run by SEQ alone (43_bus_engine.md R148 to
R157; 60_exceptions.md R195; 70_reset_and_hazards.md R229). -/

namespace Sys2Proof.Machine

open Sys2Proof.Claims

variable {s : State} {k : InstId} {speed : Speed} {mode : BusMode} {own1 own2 : BitVec 7} {freq : Word} {pclk : Nat}

/-! The checks -/

theorem freqValid_iff {par : Config.Params} : freqValid par speed freq.toNat = true ↔ FreqAllowed par speed freq := by
  cases speed <;> simp [freqValid, FreqAllowed]

/-- The first line of a usable bus controller: the three checks in their order. -/
theorem exec_i2cInit_start (start : s.seq.point = .start) (usable : Usable s k) :
    exec (.i2cInit k speed mode own1 own2 freq) s =
      if freqValid s.par speed freq.toNat then
        if freq = 0#32 then .next { s with fault := some .divZero }
        else if (s.regs k).cr1.pe then .next { s with fault := some .reinit }
        else .next (s.enter (.i2cInit k speed mode own1 own2 freq) (.init .clock))
      else .next (s.finish .initError 0#32 []) := by
  simp only [exec, execI2cInit, start, prelude_of_usable usable]
  rfl

theorem exec_i2cInit_refused (start : s.seq.point = .start) (usable : Usable s k)
    (refused : ¬ FreqAllowed s.par speed freq) :
    exec (.i2cInit k speed mode own1 own2 freq) s = .next (s.finish .initError 0#32 []) := by
  rw [exec_i2cInit_start start usable, if_neg (freqValid_iff.not.mpr refused)]

/-- Once the frequency is allowed the check of f = 0 and then that of PE follow. -/
theorem exec_i2cInit_allowed (start : s.seq.point = .start) (usable : Usable s k)
    (allowed : FreqAllowed s.par speed freq) :
    exec (.i2cInit k speed mode own1 own2 freq) s =
      if freq = 0#32 then .next { s with fault := some .divZero }
      else if (s.regs k).cr1.pe then .next { s with fault := some .reinit }
      else .next (s.enter (.i2cInit k speed mode own1 own2 freq) (.init .clock)) := by
  rw [exec_i2cInit_start start usable, if_pos (freqValid_iff.mpr allowed)]

theorem exec_i2cInit_enter (start : s.seq.point = .start) (usable : Usable s k)
    (allowed : FreqAllowed s.par speed freq) (nonzero : freq ≠ 0#32) (off : (s.regs k).cr1.pe = false) :
    exec (.i2cInit k speed mode own1 own2 freq) s =
      .next (s.enter (.i2cInit k speed mode own1 own2 freq) (.init .clock)) := by
  rw [exec_i2cInit_allowed start usable allowed, if_neg nonzero, off, if_neg Bool.false_ne_true]

/-- Settles O23: the first line is the three checks one inside the other. -/
theorem initChecksInOrder : Obligations.InitChecksInOrder := by
  refine ⟨rfl, fun s k speed mode own1 own2 f start usable => ⟨fun standard above => ?_, fun fast below => ?_,
    fun standard zero => ?_, fun allowed nonzero on => ?_, exec_i2cInit_enter start usable⟩⟩
  · refine exec_i2cInit_refused start usable ?_
    rintro (⟨-, below⟩ | ⟨fast, -⟩)
    · omega
    · exact fast standard
  · refine exec_i2cInit_refused start usable ?_
    rintro (⟨standard, -⟩ | ⟨-, above⟩)
    · exact fast standard
    · omega
  · rw [exec_i2cInit_allowed start usable (.inl ⟨standard, by simp [zero]⟩), if_pos zero]
  · rw [exec_i2cInit_allowed start usable allowed, if_neg nonzero, if_pos on]

/-! The timing -/

theorem dividerOf_eq (speed : Speed) (pclk f : Nat) : dividerOf speed pclk f = divider speed pclk f := by
  cases speed <;> rfl

theorem riseOf_eq (speed : Speed) (pclk : Nat) : riseOf speed pclk = riseTime speed pclk := by cases speed <;> rfl

theorem timingFits_iff {par : Config.Params} {f : Nat} :
    timingFits par (divider speed pclk f) (riseTime speed pclk) = true ↔ TimingInRange par speed pclk f := by
  simp [timingFits, TimingInRange, and_assoc, Nat.one_le_iff_ne_zero]

theorem exec_i2cInit_init {p : InitPoint} (at_ : s.seq.point = .init p) :
    exec (.i2cInit k speed mode own1 own2 freq) s = initStep k speed mode own1 own2 freq p s := by
  simp only [exec, execI2cInit, at_]

/-- The line that reads the clock goes on with the timing, if it is in range. -/
theorem exec_i2cInit_clock (at_ : s.seq.point = .init .clock) (clock : pclkOf s = .ok pclk) :
    exec (.i2cInit k speed mode own1 own2 freq) s =
      if timingFits s.par (divider speed pclk freq.toNat) (riseTime speed pclk) then
        .next (s.goto (.init (.divider (BitVec.ofNat 12 (divider speed pclk freq.toNat))
          (BitVec.ofNat 6 (riseTime speed pclk)))))
      else .next { s with fault := some .timingRange } := by
  simp only [exec_i2cInit_init at_, initStep, clock, dividerOf_eq, riseOf_eq]
  rfl

/-- A timing in range fits its register fields (10_state.md R41, R42). -/
theorem toNat_divider {par : Config.Params} {f : Nat} (fits : TimingInRange par speed pclk f) :
    (BitVec.ofNat 12 (divider speed pclk f)).toNat = divider speed pclk f :=
  (BitVec.toNat_ofNat _ _).trans (Nat.mod_eq_of_lt (fits.2.1.trans_lt par.divMax.isLt))

theorem toNat_riseTime {par : Config.Params} {f : Nat} (fits : TimingInRange par speed pclk f) :
    (BitVec.ofNat 6 (riseTime speed pclk)).toNat = riseTime speed pclk :=
  (BitVec.toNat_ofNat _ _).trans (Nat.mod_eq_of_lt (fits.2.2.trans_lt par.riseMax.isLt))

theorem exec_i2cInit_inRange (at_ : s.seq.point = .init .clock) (clock : pclkOf s = .ok pclk)
    (fits : TimingInRange s.par speed pclk freq.toNat) :
    exec (.i2cInit k speed mode own1 own2 freq) s =
      .next (s.goto (.init (.divider (BitVec.ofNat 12 (divider speed pclk freq.toNat))
        (BitVec.ofNat 6 (riseTime speed pclk))))) := by
  rw [exec_i2cInit_clock at_ clock, if_pos (timingFits_iff.mpr fits)]

/-- `PCLK_SRC` selects the clock (43_bus_engine.md R149). -/
theorem pclkOf_selected (apb1 : s.par.pclkSrc = .apb1 → pclk1 s = .ok pclk)
    (apb2 : s.par.pclkSrc = .apb2 → pclk2 s = .ok pclk) : pclkOf s = .ok pclk := by
  unfold pclkOf
  cases selected : s.par.pclkSrc with
  | apb1 => exact apb1 selected
  | apb2 => exact apb2 selected

/-- Settles O24: the line computes the timing of the selected clock, which in range fits its fields. -/
theorem initDerivesTheTiming : Obligations.InitDerivesTheTiming := by
  refine fun s k speed mode own1 own2 f pclk at_ _ apb1 apb2 => ?_
  have clock := pclkOf_selected apb1 apb2
  refine ⟨fun fits => ⟨_, _, toNat_divider fits, toNat_riseTime fits, exec_i2cInit_inRange at_ clock fits⟩,
    fun misfit => ?_⟩
  rw [exec_i2cInit_clock at_ clock, if_neg (timingFits_iff.not.mpr misfit)]

/-! The writes -/

/-- CCR of a speed mode (43_bus_engine.md R154). -/
theorem ccr_of_speed (div : BitVec 12) (speed : Speed) : (⟨div, dutyOf speed, fsOf speed⟩ : Ccr) =
    ⟨div, decide (speed = .fast169), decide (speed ≠ .standard)⟩ := by
  cases speed <;> rfl

theorem afterRise_eq (mode : BusMode) : afterRise mode = if mode = .master then .enable .read else .own1 := by
  cases mode <;> rfl

theorem afterOwn1_eq (mode : BusMode) : afterOwn1 mode = if mode = .slave2 then .own2 else .enable .read := by
  cases mode <;> rfl

theorem exec_i2cInit_divider {div : BitVec 12} {rise : BitVec 6} (at_ : s.seq.point = .init (.divider div rise)) :
    exec (.i2cInit k speed mode own1 own2 freq) s = .next ((s.setRegs k { s.regs k with
      ccr := ⟨div, decide (speed = .fast169), decide (speed ≠ .standard)⟩ }).goto (.init (.riseTime rise))) := by
  rw [exec_i2cInit_init at_, ← ccr_of_speed]
  rfl

theorem exec_i2cInit_riseTime {rise : BitVec 6} (at_ : s.seq.point = .init (.riseTime rise)) :
    exec (.i2cInit k speed mode own1 own2 freq) s = .next ((s.setRegs k { s.regs k with trise := rise }).goto
      (.init (if mode = .master then .enable .read else .own1))) := by
  rw [exec_i2cInit_init at_, ← afterRise_eq]
  rfl

theorem exec_i2cInit_own1 (at_ : s.seq.point = .init .own1) :
    exec (.i2cInit k speed mode own1 own2 freq) s = .next ((s.setRegs k { s.regs k with oar1 := own1 }).goto
      (.init (if mode = .slave2 then .own2 else .enable .read))) := by
  rw [exec_i2cInit_init at_, ← afterOwn1_eq]
  rfl

/-- Settles O25: one case for each line, PE and ACK each with its read and its write. -/
theorem initWriteMicroSteps : Obligations.InitWriteMicroSteps := fun _ _ _ _ _ _ _ =>
  ⟨fun _ _ => exec_i2cInit_divider, fun _ => exec_i2cInit_riseTime, exec_i2cInit_own1, exec_i2cInit_init,
    exec_i2cInit_init, fun _ => exec_i2cInit_init, exec_i2cInit_init, fun _ => exec_i2cInit_init⟩

/-! The run -/

/-- A second write of the registers of a bus controller replaces the first. -/
theorem setRegs_setRegs (s : State) (k : InstId) (a b : BusRegs) : (s.setRegs k a).setRegs k b = s.setRegs k b := by
  simp [State.setRegs]

theorem setRegs_self (s : State) (k : InstId) : s.setRegs k (s.regs k) = s := by
  simp [State.setRegs, State.regs]

/-- `s` inside `I2C_INIT` at the line `p`, with the registers `r` of its bus controller and the
turns `l` to come. -/
def State.initAt (s : State) (k : InstId) (i : Instr) (p : InitPoint) (r : BusRegs) (l : List Config.Turn) : State :=
  (s.setRegs k r).inside i (.init p) l

section Run

variable {i : Instr} {p q : InitPoint} {r r' : BusRegs} {l rest : List Config.Turn}

theorem initAt_regs : (s.initAt k i p r l).regs k = r := State.regs_setRegs_same s k r

/-- A line that writes `r'` to the registers and goes on at the line `q`. -/
theorem initAt_write : ((s.initAt k i p r l).setRegs k r').goto (.init q) = s.initAt k i q r' l := by
  show ((s.setRegs k r).setRegs k r').inside i (.init q) l = _
  rw [setRegs_setRegs]
  rfl

theorem step_initAt (clear : s.fault = none) : step (s.initAt k i p r (.seq :: l)) = exec i (s.initAt k i p r l) :=
  step_inside (s := s.setRegs k r) clear

/-- A turn whose line writes the registers and goes on. -/
theorem step_initAt_write (clear : s.fault = none)
    (line : exec i (s.initAt k i p r l) = .next (((s.initAt k i p r l).setRegs k r').goto (.init q))) :
    step (s.initAt k i p r (.seq :: l)) = .next (s.initAt k i q r' l) := by
  rw [step_initAt clear, line, initAt_write]

/-- A turn whose line only goes on. -/
theorem step_initAt_goto (clear : s.fault = none)
    (line : exec i (s.initAt k i p r l) = .next ((s.initAt k i p r l).goto (.init q))) :
    step (s.initAt k i p r (.seq :: l)) = .next (s.initAt k i q r l) :=
  (step_initAt clear).trans line

/-- The last turn ends the command with its write of CR1. -/
theorem step_initAt_ends (clear : s.fault = none) (idle : s.seq = Sequencer.idle)
    (line : exec i (s.initAt k i p r l) = .next (((s.initAt k i p r l).setRegs k r').finish .ok 0#32 [])) :
    step (s.initAt k i p r (.seq :: l)) = .next (State.setRegs { s with
      agenda := l, results := s.results ++ [⟨.ok, 0#32, []⟩], cptr := s.cptr + 1 } k r') := by
  have ended := finish_inside (s := (s.setRegs k r).setRegs k r') (i := i) (p := .init p) (l := l) idle .ok 0#32 []
  rw [step_initAt clear, line]
  refine congrArg Host.Outcome.next (Eq.trans ended ?_)
  rw [setRegs_setRegs]
  rfl

end Run

section InitRun

variable {r : BusRegs} {rest : List Config.Turn}

/-- The registers with PE and ACK set, which `I2C_INIT` does last (43_bus_engine.md R156). -/
def BusRegs.switchedOn (r : BusRegs) : BusRegs := { r with cr1 := { r.cr1 with pe := true, ack := true } }

/-- The registers with the own addresses of a mode (43_bus_engine.md R155). -/
def BusRegs.addressed (r : BusRegs) (mode : BusMode) (own1 own2 : BitVec 7) : BusRegs :=
  { r with
    oar1 := if mode = .master then r.oar1 else own1
    oar2 := if mode = .slave2 then ⟨true, own2⟩ else r.oar2 }

/-- The state in which `I2C_INIT` has ended with the registers `r`. -/
def State.initDone (s : State) (k : InstId) (r : BusRegs) (l : List Config.Turn) : State :=
  State.setRegs { s with agenda := l, results := s.results ++ [⟨.ok, 0#32, []⟩], cptr := s.cptr + 1 } k r

/-- The turns after TRISE: those of the own addresses, then the four of PE and ACK. -/
def turnsAfterRise (mode : BusMode) : Nat := initMicroSteps mode - 4

/-- The first turn, with every check passed. -/
theorem step_initAt_enter {l : List Config.Turn} (ready : ReadyToRun s (.i2cInit k speed mode own1 own2 freq))
    (usable : Usable s k) (allowed : FreqAllowed s.par speed freq) (nonzero : freq ≠ 0#32)
    (off : (s.regs k).cr1.pe = false) (agenda : s.agenda = .seq :: l) :
    step s = .next (s.initAt k (.i2cInit k speed mode own1 own2 freq) .clock (s.regs k) l) := by
  rw [State.initAt, setRegs_self]
  exact step_enters ready agenda fun start => exec_i2cInit_enter start usable allowed nonzero off

/-- PE and ACK: two writes of CR1, each after its read. -/
theorem runs_initAt_enable (clear : s.fault = none) (idle : s.seq = Sequencer.idle) :
    runs 4 (s.initAt k (.i2cInit k speed mode own1 own2 freq) (.enable .read) r
      (.seq :: .seq :: .seq :: .seq :: rest)) = .next (s.initDone k r.switchedOn rest) := by
  calc runs 4 (s.initAt k (.i2cInit k speed mode own1 own2 freq) (.enable .read) r
          (.seq :: .seq :: .seq :: .seq :: rest))
    _ = runs 3 (s.initAt k (.i2cInit k speed mode own1 own2 freq) (.enable (.write r.cr1)) r
          (.seq :: .seq :: .seq :: rest)) :=
        runs_succ 3 (step_initAt_goto clear (by rw [exec_i2cInit_init rfl, initStep, cr1Write, initAt_regs]))
    _ = runs 2 (s.initAt k (.i2cInit k speed mode own1 own2 freq) (.ack .read)
          { r with cr1 := { r.cr1 with pe := true } } (.seq :: .seq :: rest)) :=
        runs_succ 2 (step_initAt_write clear
          (by rw [exec_i2cInit_init rfl, initStep, cr1Write, State.writeCr1, initAt_regs]))
    _ = runs 1 (s.initAt k (.i2cInit k speed mode own1 own2 freq) (.ack (.write { r.cr1 with pe := true }))
          { r with cr1 := { r.cr1 with pe := true } } (.seq :: rest)) :=
        runs_succ 1 (step_initAt_goto clear (by rw [exec_i2cInit_init rfl, initStep, ackWrite, cr1Write, initAt_regs]))
    _ = .next (s.initDone k r.switchedOn rest) :=
        runs_succ 0 (step_initAt_ends clear idle
          (by rw [exec_i2cInit_init rfl, initStep, ackWrite, cr1Write, State.writeCr1, initAt_regs]; rfl))

/-- The own addresses of each mode, then PE and ACK. -/
theorem runs_initAt_afterRise (clear : s.fault = none) (idle : s.seq = Sequencer.idle) :
    runs (turnsAfterRise mode) (s.initAt k (.i2cInit k speed mode own1 own2 freq)
      (if mode = .master then .enable .read else .own1) r (List.replicate (turnsAfterRise mode) .seq ++ rest)) =
      .next (s.initDone k (r.addressed mode own1 own2).switchedOn rest) := by
  have own1_line (q : InitPoint) (l : List Config.Turn) (next : (if mode = .slave2 then .own2 else .enable .read) = q) :
      step (s.initAt k (.i2cInit k speed mode own1 own2 freq) .own1 r (.seq :: l)) =
        .next (s.initAt k (.i2cInit k speed mode own1 own2 freq) q { r with oar1 := own1 } l) :=
    step_initAt_write clear (by rw [exec_i2cInit_own1 rfl, initAt_regs, next])
  cases mode with
  | master => exact runs_initAt_enable clear idle
  | slave1 => exact (runs_succ 4 (own1_line _ _ rfl)).trans (runs_initAt_enable clear idle)
  | slave2 =>
    have own2_line (l : List Config.Turn) :
        step (s.initAt k (.i2cInit k speed .slave2 own1 own2 freq) .own2 { r with oar1 := own1 } (.seq :: l)) =
          .next (s.initAt k (.i2cInit k speed .slave2 own1 own2 freq) (.enable .read)
            { r with oar1 := own1, oar2 := ⟨true, own2⟩ } l) :=
      step_initAt_write clear (by rw [exec_i2cInit_init rfl, initStep, State.writeOar2, initAt_regs])
    exact (runs_succ 5 (own1_line _ _ rfl)).trans ((runs_succ 4 (own2_line _)).trans (runs_initAt_enable clear idle))

/-- Settles O26: the first four turns, up to TRISE, then the turns that the mode asks for. -/
theorem initRun : Obligations.InitRun := by
  intro s k speed mode own1 own2 f pclk rest ready usable allowed nonzero off clock fits agenda
  obtain ⟨clear, between, -⟩ := id ready
  have idle : s.seq = Sequencer.idle := between
  have turns : List.replicate (initMicroSteps mode) .seq ++ rest =
      .seq :: .seq :: .seq :: .seq :: (List.replicate (turnsAfterRise mode) .seq ++ rest) := by cases mode <;> rfl
  have count : initMicroSteps mode = turnsAfterRise mode + 4 := by cases mode <;> rfl
  rw [turns] at agenda
  rw [count]
  refine ⟨_, _, toNat_divider fits, toNat_riseTime fits, ?_⟩
  rw [runs_succ _ (step_initAt_enter ready usable allowed nonzero off agenda),
    runs_succ _ (step_initAt_goto clear (exec_i2cInit_inRange rfl clock fits)),
    runs_succ _ (step_initAt_write clear (exec_i2cInit_divider rfl)),
    runs_succ _ (step_initAt_write clear (exec_i2cInit_riseTime rfl)), initAt_regs, initAt_regs,
    runs_initAt_afterRise clear idle]
  rfl

end InitRun

end Sys2Proof.Machine
end

section
/-! PROOF. The bus agent: what its turns write in both environments, the FREE step, and the lawful steps
(43_bus_engine.md R171 to R173; 10_state.md R43). -/

namespace Sys2Proof.Machine

open Sys2Proof.Claims

variable {s t : State} {k : InstId} {a : Config.BusStep} {r : BusRegs} {h : BusLine}

/-! What a turn may write -/

/-- What a bus agent leaves of the registers `r` of its bus controller when it makes them `r'` (43_bus_engine.md R171,
R172; 10_state.md R43). -/
structure BusWrites (r r' : BusRegs) : Prop where
  pe : r'.cr1.pe = r.cr1.pe
  ack : r'.cr1.ack = r.cr1.ack
  oar1 : r'.oar1 = r.oar1
  oar2 : r'.oar2 = r.oar2
  ccr : r'.ccr = r.ccr
  trise : r'.trise = r.trise
  drTx : r'.drTx = r.drTx
  start : r'.cr1.start = true → r.cr1.start = true
  stop : r'.cr1.stop = true → r.cr1.stop = true
  sb : r.cr1.start = true → r'.cr1.start = false → r'.sr1.sb = true

/-- A write that leaves CR1. -/
theorem BusWrites.of_cr1 {r' : BusRegs} (cr1 : r'.cr1 = r.cr1) (oar1 : r'.oar1 = r.oar1) (oar2 : r'.oar2 = r.oar2)
    (ccr : r'.ccr = r.ccr) (trise : r'.trise = r.trise) (drTx : r'.drTx = r.drTx) : BusWrites r r' :=
  ⟨by rw [cr1], by rw [cr1], oar1, oar2, ccr, trise, drTx, fun h => cr1 ▸ h, fun h => cr1 ▸ h,
    fun set cleared => by simp [cr1, set] at cleared⟩

/-- The FREE step, L2 and L9 write CR1; the others leave it. -/
theorem busRegsEffect_busWrites (a : Config.BusStep) (r : BusRegs) (h : BusLine) :
    BusWrites r (busRegsEffect a r h) := by
  cases a with
  | any sr1 sr2 dr clearStart clearStop =>
    refine ⟨rfl, rfl, rfl, rfl, rfl, rfl, rfl, fun set => ?_, fun set => ?_, fun set cleared => ?_⟩
    · exact (Bool.and_eq_true_iff.mp set).1
    · exact (Bool.and_eq_true_iff.mp set).1
    · have clearStart : clearStart = true := by simpa [busRegsEffect, set] using cleared
      simp [busRegsEffect, clearStart]
  | startDone => exact ⟨rfl, rfl, rfl, rfl, rfl, rfl, rfl, nofun, id, fun _ _ => rfl⟩
  | stopDone =>
    refine ⟨rfl, rfl, rfl, rfl, rfl, rfl, rfl, id, nofun, fun set cleared => ?_⟩
    exact absurd (set.symm.trans cleared) Bool.true_eq_false.mp
  | addrAck =>
    obtain ⟨line, pending, expectAddr, dataWritten, stopSeenRx⟩ := h
    cases pending <;> exact .of_cr1 rfl rfl rfl rfl rfl rfl
  | trafficBusy | trafficIdle | addrNack | shiftOut | byteDone | dataNack | receive | busError | arbLost | drift =>
    exact .of_cr1 rfl rfl rfl rfl rfl rfl

theorem busStep_of_allowed (allowed : busAllowed k a s = true) : busStep k a s =
    (s.setRegs k (busRegsEffect a (s.regs k) (s.hidden k))).setHidden k (busLineEffect a (s.regs k) (s.hidden k)) :=
  if_pos allowed

theorem busStep_of_refused (refused : ¬ busAllowed k a s = true) : busStep k a s = s := if_neg refused

theorem busStep_busWrites (k : InstId) (a : Config.BusStep) (s : State) :
    BusWrites (s.regs k) ((busStep k a s).regs k) := by
  by_cases allowed : busAllowed k a s = true
  · rw [busStep_of_allowed allowed, State.setHidden_regs, State.regs_setRegs_same]
    exact busRegsEffect_busWrites a _ _
  · rw [busStep_of_refused allowed]
    exact .of_cr1 rfl rfl rfl rfl rfl rfl

/-- A bus turn is a write of the registers and the hidden state of its bus controller. -/
theorem busStep_is_write (k : InstId) (a : Config.BusStep) (s : State) :
    ∃ x y, busStep k a s = (s.setRegs k x).setHidden k y := by
  by_cases allowed : busAllowed k a s = true
  · exact ⟨_, _, busStep_of_allowed allowed⟩
  · refine ⟨s.regs k, s.hidden k, ?_⟩
    rw [busStep_of_refused allowed, setRegs_setHidden_self rfl, setRegs_self]

/-- Settles O41: the register effect of every turn, of which only the FREE step, L2 and L9 write CR1. -/
theorem busAgentWrites : Obligations.BusAgentWrites := by
  intro s k a
  obtain ⟨pe, ack, oar1, oar2, ccr, trise, drTx, start, stop, sb⟩ := busStep_busWrites k a s
  exact ⟨busStep_is_write k a s, pe, ack, oar1, oar2, ccr, trise, drTx, start, stop, sb⟩

/-! The FREE step -/

theorem Sr1.ofWord_toWord (r : Sr1) : Sr1.ofWord r.toWord = r := by
  simp [Sr1.ofWord, Sr1.toWord, bitOf_or, bitOf_bitAt]

theorem Sr2.ofWord_toWord (r : Sr2) : Sr2.ofWord r.toWord = r := by
  simp [Sr2.ofWord, Sr2.toWord, bitOf_or, bitOf_bitAt]

/-- Which steps the agent of an existing, clocked bus controller out of reset may take. -/
theorem busAllowed_eq (exists_ : instExists s.par k = true) (clocked : s.clocked k = true)
    (released : s.heldInReset k = false) :
    busAllowed k a s = busEnabled s.par.env true a (s.regs k) (s.hidden k) := by
  unfold instExists at exists_
  rw [busAllowed, exists_, clocked, released]
  rfl

/-- Settles O42: the step that writes the words of the flags wanted. -/
theorem freeBusReachesEveryFlagValue : Obligations.FreeBusReachesEveryFlagValue := by
  intro s k sr1 sr2 b clearStart clearStop free exists_ clocked released
  refine ⟨.any sr1.toWord sr2.toWord b clearStart clearStop, ?_⟩
  have allowed : busAllowed k (.any sr1.toWord sr2.toWord b clearStart clearStop) s = true := by
    rw [busAllowed_eq exists_ clocked released, free]
    rfl
  rw [busStep_of_allowed allowed, busLineEffect, setRegs_setHidden_self rfl, busRegsEffect, Sr1.ofWord_toWord,
    Sr2.ofWord_toWord]

/-! The lawful steps -/

/-- Bus controller `k`, with the registers `r` and the hidden state `h`, is served by a lawful bus: it exists, is
clocked and is not in reset. -/
structure LawfulAt (s : State) (k : InstId) (r : BusRegs) (h : BusLine) : Prop where
  regs : s.regs k = r
  hidden : s.hidden k = h
  env : s.par.env = .lawful
  exists_ : instExists s.par k = true
  clocked : s.clocked k = true
  released : s.heldInReset k = false

/-- A lawful turn under a condition `P` that says when its rule allows it, with the state `u` it leads to. -/
theorem LawfulAt.busStep_eq_ite {P : Prop} [Decidable P] {u : State} (lawful : LawfulAt s k r h)
    (allowed : busEnabled .lawful true a r h = true ↔ P)
    (effect : P → (s.setRegs k (busRegsEffect a r h)).setHidden k (busLineEffect a r h) = u) :
    busStep k a s = if P then u else s := by
  obtain ⟨rfl, rfl, env, exists_, clocked, released⟩ := lawful
  have allowed := (busAllowed_eq exists_ clocked released).trans (congrArg (busEnabled · true a _ _) env) ▸ allowed
  split
  next holds => rw [busStep_of_allowed (allowed.mpr holds), effect holds]
  next fails => exact busStep_of_refused (allowed.not.mpr fails)

/-- A turn that no lawful rule allows is no step (log 17). -/
theorem LawfulAt.busStep_refused (lawful : LawfulAt s k r h) (refused : busEnabled .lawful true a r h = false) :
    busStep k a s = s := by
  rw [lawful.busStep_eq_ite (P := False) (u := s) (by simp [refused]) nofun, if_false]

theorem Pending.isAddr_iff (p : Pending) : p.isAddr = true ↔ AddressPending p := by
  unfold AddressPending
  cases p with
  | addr rw => cases rw <;> simp [Pending.isAddr]
  | none | tx | rx => simp [Pending.isAddr]

/-- L9 (43_bus_engine.md R173). -/
theorem stopAllowed_iff : stopAllowed r h = true ↔ r.cr1.stop = true ∧ (r.sr2.msl = false ∨
    h.line = .ours ∧ (h.pending ≠ .rx ∨ h.stopSeenRx = true ∨ r.sr1.rxne = true)) := by
  simp [stopAllowed, or_assoc]

/-- L4: the direction that waits decides what is set. -/
theorem LawfulAt.busStep_addrAck (lawful : LawfulAt s k r h) :
    busStep k .addrAck s = (if r.cr1.pe = true ∧ h.pending = .addr false then
        (s.setRegs k { r with
          sr1 := { r.sr1 with addr := true, txe := true }, sr2 := { r.sr2 with tra := true } }).setHidden k
            { h with pending := .tx, dataWritten := false }
      else if r.cr1.pe = true ∧ h.pending = .addr true then
        (s.setRegs k { r with sr1 := { r.sr1 with addr := true }, sr2 := { r.sr2 with tra := false } }).setHidden k
          { h with pending := .rx, dataWritten := false }
      else s) := by
  obtain ⟨line, pending, expectAddr, dataWritten, stopSeenRx⟩ := h
  cases pending with
  | addr rw =>
    have step := lawful.busStep_eq_ite (a := .addrAck) (P := r.cr1.pe = true) (by simp [busEnabled, Pending.isAddr])
      fun _ => rfl
    rw [step]
    cases rw <;> simp [busRegsEffect, busLineEffect]
  | none | tx | rx =>
    rw [lawful.busStep_refused (by simp [busEnabled, Pending.isAddr])]
    simp

/-- L8: where its guard holds no stop was seen yet, so STOP as it is now decides. -/
theorem LawfulAt.busStep_receive (lawful : LawfulAt s k r h) (b : Byte) :
    busStep k (.receive b) s = (if r.cr1.pe = true ∧ h.pending = .rx ∧ r.sr1.addr = false ∧ r.sr1.rxne = false ∧
        h.stopSeenRx = false then
      (s.setRegs k { r with drRx := b, sr1 := { r.sr1 with rxne := true } }).setHidden k
        { h with stopSeenRx := r.cr1.stop } else s) := by
  refine lawful.busStep_eq_ite (by simp [busEnabled, and_assoc]) fun ⟨_, _, _, _, unseen⟩ => ?_
  simp only [busRegsEffect, busLineEffect, unseen, Bool.false_or]

/-- Settles O44: each turn is its effect under the guard of its step, read off `busEnabled`. -/
theorem lawfulSteps : Obligations.LawfulSteps := by
  intro s k r h regs hidden env exists_ clocked released
  have lawful : LawfulAt s k r h := ⟨regs, hidden, env, exists_, clocked, released⟩
  have keepsHidden (x : BusRegs) : (s.setRegs k x).setHidden k h = s.setRegs k x := setRegs_setHidden_self hidden x
  refine ⟨lawful.busStep_eq_ite ?_ fun _ => rfl, lawful.busStep_eq_ite ?_ fun _ => rfl,
    lawful.busStep_eq_ite ?_ fun _ => rfl, lawful.busStep_addrAck, lawful.busStep_eq_ite ?_ fun _ => rfl,
    lawful.busStep_eq_ite ?_ fun _ => rfl, lawful.busStep_eq_ite ?_ fun _ => keepsHidden _,
    lawful.busStep_eq_ite ?_ fun _ => keepsHidden _, lawful.busStep_receive,
    lawful.busStep_eq_ite ?_ fun _ => rfl, lawful.busStep_eq_ite ?_ fun _ => keepsHidden _,
    lawful.busStep_eq_ite ?_ fun _ => rfl, fun sr1 sr2 b x y => lawful.busStep_refused rfl,
    fun b => lawful.busStep_refused rfl⟩
  all_goals simp [busEnabled, and_assoc, Pending.isAddr_iff, stopAllowed_iff]

/-! A bus that nobody frees -/

/-- The bus controller with the registers `r` and the hidden state `h` holds the bus, with no stop requested and nothing
pending (43_bus_engine.md R174 (b)). -/
structure BusHeld (r : BusRegs) (h : BusLine) : Prop where
  line : h.line = .ours
  pending : h.pending = .none
  stop : r.cr1.stop = false
  busy : r.sr2.busy = true

/-- No lawful step frees a bus that is held so: L1 asks for a line that is not ours, L9 for STOP, L11 for something
pending. -/
theorem BusHeld.busEffect {clocked : Bool} (held : BusHeld r h) (enabled : busEnabled .lawful clocked a r h = true) :
    BusHeld (busRegsEffect a r h) (busLineEffect a r h) := by
  obtain ⟨line, pending, stop, busy⟩ := held
  cases a with
  | startDone => exact ⟨rfl, rfl, stop, rfl⟩
  | busError => exact ⟨line, pending, stop, busy⟩
  | any => exact absurd enabled Bool.false_ne_true
  | stopDone => simp [busEnabled, stopAllowed, stop] at enabled
  | trafficBusy | trafficIdle | drift => simp [busEnabled, line] at enabled
  | addrAck | addrNack | shiftOut | byteDone | dataNack | receive | arbLost =>
    simp [busEnabled, pending, Pending.isAddr] at enabled

/-- `I2C_START` of bus controller `k` waits for a bus that it holds itself. -/
structure AwaitsHeldBus (k : InstId) (s : State) : Prop where
  clear : s.fault = none
  env : s.par.env = .lawful
  cmd : s.seq.cmd = some (.i2cStart k)
  point : s.seq.point = .startBody .busFree
  held : BusHeld (s.regs k) (s.hidden k)

theorem AwaitsHeldBus.congr (awaits : AwaitsHeldBus k s) (fault : t.fault = s.fault) (par : t.par = s.par)
    (seq : t.seq = s.seq) (held : BusHeld (t.regs k) (t.hidden k)) : AwaitsHeldBus k t :=
  ⟨fault.trans awaits.clear, par ▸ awaits.env, seq ▸ awaits.cmd, seq ▸ awaits.point, held⟩

/-- A turn of any bus agent leaves the bus held. -/
theorem AwaitsHeldBus.held_after_busStep (awaits : AwaitsHeldBus k s) (j : InstId) (a : Config.BusStep) :
    BusHeld ((busStep j a s).regs k) ((busStep j a s).hidden k) := by
  by_cases other : k = j
  · subst other
    by_cases allowed : busAllowed k a s = true
    · have enabled : busEnabled .lawful (s.clocked k) a (s.regs k) (s.hidden k) = true :=
        awaits.env ▸ (Bool.and_eq_true_iff.mp allowed).2
      rw [busStep_of_allowed allowed, State.hidden_setHidden_same, State.setHidden_regs, State.regs_setRegs_same]
      exact awaits.held.busEffect enabled
    · rw [busStep_of_refused allowed]
      exact awaits.held
  · rw [busStep_regs_other j k a s other, busStep_hidden_other j k a s other]
    exact awaits.held

/-- The poll of BUSY sees it set, and no agent clears it. -/
theorem AwaitsHeldBus.after_runTurn (awaits : AwaitsHeldBus k s) (turn : Config.Turn) :
    ∃ t, runTurn turn s = .next t ∧ AwaitsHeldBus k t ∧ t.seq.cmd = s.seq.cmd ∧ t.cptr = s.cptr := by
  cases turn with
  | seq =>
    exact ⟨s, (seqTurn_running awaits.cmd).trans (exec_i2cStart_busy awaits.point awaits.held.busy), awaits, rfl, rfl⟩
  | osc a =>
    have side := oscStep_seqSide a s
    have held : BusHeld ((oscStep a s).regs k) ((oscStep a s).hidden k) := by rw [oscStep_eq]; exact awaits.held
    exact ⟨_, rfl, awaits.congr (oscStep_fault a s) side.par side.seq held, congrArg Sequencer.cmd side.seq, side.cptr⟩
  | bus j a =>
    have side := busStep_seqSide j a s
    exact ⟨_, rfl, awaits.congr (busStep_fault j a s) side.par side.seq (awaits.held_after_busStep j a),
      congrArg Sequencer.cmd side.seq, side.cptr⟩

theorem AwaitsHeldBus.after_step (awaits : AwaitsHeldBus k s) :
    ∃ t, step s = .next t ∧ AwaitsHeldBus k t ∧ t.seq.cmd = s.seq.cmd ∧ t.cptr = s.cptr := by
  have taken : AwaitsHeldBus k s.takeTurn := awaits.congr (by simp) (by simp) (by simp) (by simpa using awaits.held)
  obtain ⟨t, runs, next, cmd, cptr⟩ := taken.after_runTurn s.nextTurn
  exact ⟨t, (step_of_clear awaits.clear).trans runs, next, by simpa using cmd, by simpa using cptr⟩

/-- Settles O50: the wait for a bus held so is an invariant of every turn of every agent. -/
theorem startHangsOnAHeldBus : Obligations.StartHangsOnAHeldBus := by
  intro s k clear env cmd point line pending stop busy
  exact hangs_of_invariant (P := AwaitsHeldBus k) (by simp [cmd])
    ⟨clear, env, cmd, point, ⟨line, pending, stop, busy⟩⟩ fun _ awaits => awaits.after_step

end Sys2Proof.Machine
end

section
/-! PROOF. What the commands leave of the registers that the bus agent writes: SR2, the byte received and the error
flags; only `PER_RESET` clears these (43_bus_engine.md R159; 10_state.md R38 to R40, R43). -/

namespace Sys2Proof.Machine

variable {s t u : State} {k : InstId}

/-- What only BUS[k] writes, the reset of the bus controller apart: SR2, the byte received and the error flags. -/
structure AgentKept (r r' : BusRegs) : Prop where
  sr2 : r'.sr2 = r.sr2
  drRx : r'.drRx = r.drRx
  af : r'.sr1.af = r.sr1.af
  arlo : r'.sr1.arlo = r.sr1.arlo
  berr : r'.sr1.berr = r.sr1.berr

theorem AgentKept.refl (r : BusRegs) : AgentKept r r := ⟨rfl, rfl, rfl, rfl, rfl⟩

/-- In every bus controller `t` has what the bus agent wrote in `s`. -/
def AgentSide (s t : State) : Prop := ∀ k, AgentKept (s.regs k) (t.regs k)

theorem AgentSide.of_regs (same : ∀ k, t.regs k = s.regs k) : AgentSide s t := fun k => same k ▸ .refl _

theorem AgentSide.of_i2c (same : t.i2c = s.i2c) : AgentSide s t :=
  .of_regs fun k => by rw [State.regs, State.regs, same]

theorem AgentSide.refl (s : State) : AgentSide s s := .of_i2c rfl

theorem AgentSide.trans (h : AgentSide s t) (g : AgentSide t u) : AgentSide s u := fun k =>
  ⟨(g k).sr2.trans (h k).sr2, (g k).drRx.trans (h k).drRx, (g k).af.trans (h k).af, (g k).arlo.trans (h k).arlo,
    (g k).berr.trans (h k).berr⟩

/-- Every register write of SEQ is a `setRegs` that leaves them. -/
theorem AgentSide.setRegs {r : BusRegs} (kept : AgentKept (s.regs k) r) : AgentSide s (s.setRegs k r) := fun j => by
  by_cases same : j = k
  · subst same
    rwa [State.regs_setRegs_same]
  · rw [State.regs_setRegs_other _ _ _ _ same]
    exact .refl _

theorem AgentSide.writeDr (s : State) (k : InstId) (b : Byte) : AgentSide s (s.writeDr k b) :=
  (AgentSide.setRegs (k := k) (r := { s.regs k with drTx := b, sr1 := (s.regs k).sr1.afterDrWrite })
    ⟨rfl, rfl, rfl, rfl, rfl⟩).trans (.of_i2c rfl)

/-! The shared operations and bodies: each ends or faults the command, goes on, or continues on a state with the same
agent's side -/

/-- Every next state that `r` may answer has the agent's side of `s`. -/
def KeepsAgentSide (s : State) (r : Res) : Prop := ∀ t, r = .next t → AgentSide s t

theorem KeepsAgentSide.next (h : AgentSide s u) (same : t.i2c = u.i2c) : KeepsAgentSide s (.next t) :=
  fun _ eq => by cases eq; exact h.trans (.of_i2c same)

/-- A micro-step that writes no register of a bus controller. -/
theorem KeepsAgentSide.frame (same : t.i2c = s.i2c) : KeepsAgentSide s (.next t) := .next (.refl s) same

theorem KeepsAgentSide.stray : KeepsAgentSide s strayPoint := fun _ eq => absurd eq strayPoint_ne_next

theorem KeepsAgentSide.prelude {rest : Res} (h : KeepsAgentSide s rest) : KeepsAgentSide s (prelude k s rest) := by
  unfold Machine.prelude
  split
  · split
    · exact h
    · exact .frame rfl
  · exact .frame rfl

theorem KeepsAgentSide.returnFreq (f : Except Fault Nat) : KeepsAgentSide s (returnFreq f s) := by
  unfold Machine.returnFreq
  split <;> exact .frame rfl

theorem KeepsAgentSide.returnPure (r : Except Fault Word) : KeepsAgentSide s (returnPure r s) := by
  unfold Machine.returnPure
  split
  · split <;> exact .frame rfl
  · exact .stray

section Bodies

variable {done : State → Res}

theorem KeepsAgentSide.cr1Write {f : Cr1 → Cr1} {at_ : Rmw → Point} {r : Rmw}
    (h : ∀ u, AgentSide s u → KeepsAgentSide s (done u)) : KeepsAgentSide s (cr1Write k f at_ r s done) := by
  cases r with
  | read => exact .frame rfl
  | write w => exact h _ (.setRegs ⟨rfl, rfl, rfl, rfl, rfl⟩)

theorem KeepsAgentSide.pollFlags {err : Option Status} {flag : Bool} (h : KeepsAgentSide s (done s)) :
    KeepsAgentSide s (pollFlags err flag s done) := by
  unfold Machine.pollFlags
  split
  · exact .frame rfl
  · exact h
  · exact .frame rfl

theorem KeepsAgentSide.startBody {p : StartPoint} (h : ∀ u, AgentSide s u → KeepsAgentSide s (done u)) :
    KeepsAgentSide s (startBody k p s done) := by
  cases p with
  | busFree =>
    simp only [Machine.startBody]
    split <;> exact .frame rfl
  | request r =>
    simp only [Machine.startBody]
    exact .cr1Write fun u kept => .next kept rfl
  | wait =>
    simp only [Machine.startBody]
    exact .pollFlags (h _ (.setRegs ⟨rfl, rfl, rfl, rfl, rfl⟩))

theorem KeepsAgentSide.addressBody {addr : BitVec 7} {d : Dir} {p : PutPoint}
    (h : ∀ u, AgentSide s u → KeepsAgentSide s (done u)) : KeepsAgentSide s (addressBody k addr d p s done) := by
  cases p with
  | put => exact .next (.writeDr s k _) rfl
  | wait =>
    simp only [Machine.addressBody]
    exact .pollFlags (h _ (.setRegs ⟨rfl, rfl, rfl, rfl, rfl⟩))

theorem KeepsAgentSide.writeByteBody {b : Byte} {p : PutPoint} (h : ∀ u, AgentSide s u → KeepsAgentSide s (done u)) :
    KeepsAgentSide s (writeByteBody k b p s done) := by
  cases p with
  | put => exact .next (.writeDr s k _) rfl
  | wait =>
    simp only [Machine.writeByteBody]
    exact .pollFlags (h _ (.of_i2c rfl))

theorem KeepsAgentSide.readByteBody {at_ : TakePoint → Point} {p : TakePoint} {done : Byte → State → Res}
    (h : ∀ b u, AgentSide s u → KeepsAgentSide s (done b u)) : KeepsAgentSide s (readByteBody k at_ p s done) := by
  cases p with
  | wait =>
    simp only [Machine.readByteBody]
    split <;> exact .frame rfl
  | take => exact h _ _ (.setRegs ⟨rfl, rfl, rfl, rfl, rfl⟩)

theorem KeepsAgentSide.stopBody {r : Rmw} (h : ∀ u, AgentSide s u → KeepsAgentSide s (done u)) :
    KeepsAgentSide s (stopBody k r s done) := .cr1Write fun _ kept => h _ (kept.trans (.of_i2c rfl))

end Bodies

/-! The commands -/

theorem execClkConfig_keepsAgentSide (src : Source) (hpre : BitVec 4) (ppre1 ppre2 : BitVec 3) :
    KeepsAgentSide s (execClkConfig src hpre ppre1 ppre2 s) := by
  unfold execClkConfig
  split
  next => split <;> exact .frame rfl
  next => exact .frame rfl
  next => split <;> exact .frame rfl
  next => exact .frame rfl
  next => exact .frame rfl
  next => split <;> exact .frame rfl
  next => exact .stray

theorem execClkPllconfig_keepsAgentSide (src : PllInput) (m : BitVec 6) (n : BitVec 9) (pcode : BitVec 2) :
    KeepsAgentSide s (execClkPllconfig src m n pcode s) := by
  unfold execClkPllconfig
  split
  next => split <;> exact .frame rfl
  next => exact .frame rfl
  next => exact .stray

section Commands

variable (k : InstId)

theorem initStep_keepsAgentSide (speed : Speed) (mode : BusMode) (own1 own2 : BitVec 7) (freq : Word) (p : InitPoint) :
    KeepsAgentSide s (initStep k speed mode own1 own2 freq p s) := by
  cases p with
  | clock =>
    simp only [initStep]
    split
    · exact .frame rfl
    · split <;> exact .frame rfl
  | divider div rise =>
    exact .next (u := s.writeCcr k ⟨div, dutyOf speed, fsOf speed⟩) (.setRegs ⟨rfl, rfl, rfl, rfl, rfl⟩) rfl
  | riseTime rise => exact .next (u := s.writeTrise k rise) (.setRegs ⟨rfl, rfl, rfl, rfl, rfl⟩) rfl
  | own1 => exact .next (u := s.writeOar1 k own1) (.setRegs ⟨rfl, rfl, rfl, rfl, rfl⟩) rfl
  | own2 => exact .next (u := s.writeOar2 k ⟨true, own2⟩) (.setRegs ⟨rfl, rfl, rfl, rfl, rfl⟩) rfl
  | enable r =>
    simp only [initStep]
    exact .cr1Write fun u kept => .next kept rfl
  | ack r =>
    simp only [initStep, ackWrite]
    exact .cr1Write fun u kept => .next kept rfl

theorem execI2cInit_keepsAgentSide (speed : Speed) (mode : BusMode) (own1 own2 : BitVec 7) (freq : Word) :
    KeepsAgentSide s (execI2cInit k speed mode own1 own2 freq s) := by
  unfold execI2cInit
  split
  next =>
    refine .prelude ?_
    split
    · split
      · exact .frame rfl
      · split <;> exact .frame rfl
    · exact .frame rfl
  next p at_ => exact initStep_keepsAgentSide k speed mode own1 own2 freq p
  next => exact .stray

theorem execI2cStart_keepsAgentSide : KeepsAgentSide s (execI2cStart k s) := by
  unfold execI2cStart
  split
  · exact .prelude (.frame rfl)
  · exact .startBody fun u kept => .next kept rfl
  · exact .stray

theorem execI2cAddr_keepsAgentSide (addr : BitVec 7) (rw : Dir) : KeepsAgentSide s (execI2cAddr k addr rw s) := by
  unfold execI2cAddr
  split
  · exact .prelude (.frame rfl)
  · exact .addressBody fun u kept => .next kept rfl
  · exact .stray

theorem execI2cWrbyte_keepsAgentSide (data : Byte) : KeepsAgentSide s (execI2cWrbyte k data s) := by
  unfold execI2cWrbyte
  split
  · exact .prelude (.frame rfl)
  · exact .writeByteBody fun u kept => .next kept rfl
  · exact .stray

theorem execI2cRdbyte_keepsAgentSide : KeepsAgentSide s (execI2cRdbyte k s) := by
  unfold execI2cRdbyte
  split
  · exact .prelude (.frame rfl)
  · exact .readByteBody fun b u kept => .next kept rfl
  · exact .stray

theorem execI2cStop_keepsAgentSide : KeepsAgentSide s (execI2cStop k s) := by
  unfold execI2cStop
  split
  · exact .prelude (.frame rfl)
  · exact .stopBody fun u kept => .next kept rfl
  · exact .stray

theorem execI2cWrite_keepsAgentSide (addr : BitVec 7) (n : BitVec 12) (ops : List Word) :
    KeepsAgentSide s (execI2cWrite k addr n ops s) := by
  unfold execI2cWrite
  split
  next =>
    refine .prelude ?_
    split <;> exact .frame rfl
  next => exact .startBody fun u kept => .next kept rfl
  next => exact .addressBody fun u kept => .next kept rfl
  next =>
    refine .writeByteBody fun u kept => ?_
    unfold afterByteWritten
    split <;> exact .next kept rfl
  next => exact .pollFlags (.frame rfl)
  next => exact .stopBody fun u kept => .next kept rfl
  next => exact .stray

theorem execI2cRead_keepsAgentSide (addr : BitVec 7) (n : BitVec 12) : KeepsAgentSide s (execI2cRead k addr n s) := by
  unfold execI2cRead
  split
  next =>
    refine .prelude ?_
    split <;> exact .frame rfl
  next => exact .frame rfl
  next => exact .startBody fun u kept => .next kept rfl
  next =>
    refine .addressBody fun u kept => ?_
    unfold afterReadAddress
    split <;> exact .next kept rfl
  next => exact .cr1Write fun u kept => .next kept rfl
  next =>
    refine .readByteBody fun b u kept => ?_
    unfold afterByteRead
    split <;> exact .next kept rfl
  next => exact .cr1Write fun u kept => .next kept rfl
  next => exact .stopBody fun u kept => .next kept rfl
  next => exact .readByteBody fun b u kept => .next kept rfl
  next => exact .cr1Write fun u kept => .next kept rfl
  next => exact .stray

end Commands

/-- No command but the PER_ ones writes what is the bus agent's. -/
theorem exec_keepsAgentSide {i : Instr} (other : isPer i = false) : KeepsAgentSide s (exec i s) := by
  cases i with
  | clkSysfreq | clkAhbfreq | clkApb1freq | clkApb2freq =>
    simp only [exec, execClkSysfreq, execClkAhbfreq, execClkApb1freq, execClkApb2freq]
    split
    · exact .returnFreq _
    · exact .stray
  | clkConfig src hpre ppre1 ppre2 => exact execClkConfig_keepsAgentSide src hpre ppre1 ppre2
  | clkPllconfig src m n pcode => exact execClkPllconfig_keepsAgentSide src m n pcode
  | pack | maskNew | maskUnion | maskIntersect | maskComplement | maskXor | maskSet | maskReset | maskIsset =>
    simp only [exec, execPack, execMaskNew, execMaskUnion, execMaskIntersect, execMaskComplement, execMaskXor,
      execMaskSet, execMaskReset, execMaskIsset]
    exact .returnPure _
  | perTake | perEnclk | perDisclk | perReset => cases other
  | i2cInit k speed mode own1 own2 freq => exact execI2cInit_keepsAgentSide k speed mode own1 own2 freq
  | i2cStart k => exact execI2cStart_keepsAgentSide k
  | i2cAddr k addr rw => exact execI2cAddr_keepsAgentSide k addr rw
  | i2cWrbyte k data => exact execI2cWrbyte_keepsAgentSide k data
  | i2cRdbyte k => exact execI2cRdbyte_keepsAgentSide k
  | i2cStop k => exact execI2cStop_keepsAgentSide k
  | i2cWrite k addr n ops => exact execI2cWrite_keepsAgentSide k addr n ops
  | i2cRead k addr n => exact execI2cRead_keepsAgentSide k addr n

end Sys2Proof.Machine
end

section
/-! PROOF. On a lawful bus the error flags are sticky (43_bus_engine.md R159; 10_state.md R39). -/

namespace Sys2Proof.Machine

variable {i : Instr} {s t : State} {p : PeriphId} {k : InstId}

/-! The PER_ commands -/

/-- A write of an enable bit writes no register of a bus controller. -/
theorem setEnabled_i2c (board : BoardOk s.par) (v : Bool) : (s.setEnabled p v).i2c = s.i2c := by
  unfold State.setEnabled
  split
  next r row => rw [putBit_enable board row]
  next => rfl

/-- The first write of `PER_RESET` leaves the registers of every other bus controller. -/
theorem regs_assertReset_other (board : BoardOk s.par) (other : instOf s.par p ≠ some k) :
    (s.assertReset p).regs k = s.regs k := by
  unfold State.assertReset
  split
  next r row =>
    obtain ⟨-, regs, -⟩ := putBit_reset board row true
    rw [regs, if_neg fun named => other (instOf_eq_some.mpr ⟨r, row, named.2⟩)]
  next => rfl

/-- The first line of a PER_ command enters it, or faults. -/
theorem AgentSide.of_requireOwned {j : Instr} {q : Point} (h : requireOwned p s (.next (s.enter j q)) = .next t) :
    AgentSide s t := by
  rcases requireOwned_next h with ⟨-, eq⟩ | ⟨-, rfl⟩
  · cases eq; exact .of_i2c rfl
  · exact .of_i2c rfl

/-- A micro-step is the first write of `PER_RESET`, or leaves what is the bus agent's. -/
theorem exec_agentSide (board : BoardOk s.par) (h : exec i s = .next t) :
    (∃ p, i = .perReset p ∧ s.seq.point = .assertReset ∧ t = (s.assertReset p).goto .deassertReset) ∨
      AgentSide s t := by
  by_cases other : isPer i = false
  · exact .inr (exec_keepsAgentSide other t h)
  cases i with
  | perTake p =>
    simp only [exec, execPerTake] at h
    split at h
    next => split at h <;> cases h <;> exact .inr (.of_i2c rfl)
    next => cases h; exact .inr (.of_i2c rfl)
    next => exact absurd h strayPoint_ne_next
  | perEnclk p | perDisclk p =>
    simp only [exec, execPerEnclk, execPerDisclk] at h
    split at h
    next => exact .inr (.of_requireOwned h)
    next => cases h; exact .inr (.of_i2c (setEnabled_i2c board _))
    next => exact absurd h strayPoint_ne_next
  | perReset p =>
    simp only [exec, execPerReset] at h
    split at h
    next => exact .inr (.of_requireOwned h)
    next point => cases h; exact .inl ⟨p, rfl, point, rfl⟩
    next => cases h; exact .inr (.of_regs fun k => State.deassertReset_regs s p k)
    next => exact absurd h strayPoint_ne_next
  | _ => exact absurd rfl other

/-! The error flags -/

/-- No error flag that is set in the registers `r` is clear in `r'` (43_bus_engine.md R159). -/
structure ErrorsKept (r r' : BusRegs) : Prop where
  af : r.sr1.af = true → r'.sr1.af = true
  arlo : r.sr1.arlo = true → r'.sr1.arlo = true
  berr : r.sr1.berr = true → r'.sr1.berr = true

theorem ErrorsKept.refl (r : BusRegs) : ErrorsKept r r := ⟨id, id, id⟩

theorem AgentKept.errorsKept {r r' : BusRegs} (kept : AgentKept r r') : ErrorsKept r r' :=
  ⟨fun set => kept.af.trans set, fun set => kept.arlo.trans set, fun set => kept.berr.trans set⟩

/-- A lawful step may set an error flag and clears none. -/
theorem busRegsEffect_errorsKept {clocked : Bool} {a : Config.BusStep} {r : BusRegs} {h : BusLine}
    (enabled : busEnabled .lawful clocked a r h = true) : ErrorsKept r (busRegsEffect a r h) := by
  cases a with
  | any => exact absurd enabled Bool.false_ne_true
  | addrNack | dataNack => exact ⟨fun _ => rfl, id, id⟩
  | arbLost => exact ⟨id, fun _ => rfl, id⟩
  | busError => exact ⟨id, id, fun _ => rfl⟩
  | addrAck =>
    obtain ⟨line, pending, expectAddr, dataWritten, stopSeenRx⟩ := h
    cases pending <;> exact ⟨id, id, id⟩
  | trafficBusy | trafficIdle | startDone | shiftOut | byteDone | receive | stopDone | drift => exact ⟨id, id, id⟩

theorem busStep_errorsKept (lawful : s.par.env = .lawful) (j : InstId) (a : Config.BusStep) :
    ErrorsKept (s.regs k) ((busStep j a s).regs k) := by
  by_cases other : k = j
  · subst other
    by_cases allowed : busAllowed k a s = true
    · rw [busStep_of_allowed allowed, State.setHidden_regs, State.regs_setRegs_same]
      exact busRegsEffect_errorsKept (lawful ▸ (Bool.and_eq_true_iff.mp allowed).2)
    · rw [busStep_of_refused allowed]
      exact .refl _
  · rw [busStep_regs_other j k a s other]
    exact .refl _

/-- A micro-step of SEQ keeps the error flags of a bus controller, or is the first write of its `PER_RESET`. -/
theorem SeqMove.errorsKept (board : BoardOk s.par) (coherent : SeqCoherent s) (move : SeqMove s t) :
    (s.seq.point = .assertReset ∧ ∃ p, s.seq.cmd = some (.perReset p) ∧ instOf s.par p = some k) ∨
      ErrorsKept (s.regs k) (t.regs k) := by
  cases move with
  | resume i running runs =>
    rcases exec_agentSide board runs with ⟨p, rfl, point, rfl⟩ | kept
    · by_cases inst : instOf s.par p = some k
      · exact .inl ⟨point, p, running, inst⟩
      · exact .inr (by rw [State.goto_regs, regs_assertReset_other board inst]; exact .refl _)
    · exact .inr (kept k).errorsKept
  | begins c i idle fetched decoded runs =>
    have start : s.seq.point = .start := congrArg Sequencer.point (coherent.between idle)
    rcases exec_agentSide board runs with ⟨p, -, point, -⟩ | kept
    · simp [start] at point
    · exact .inr (kept k).errorsKept
  | undecoded c e idle fetched refused ends => exact .inr (ends ▸ .refl _)
  | ended idle empty same => exact .inr (same ▸ .refl _)

theorem step_errorsKept (board : BoardOk s.par) (coherent : SeqCoherent s) (lawful : s.par.env = .lawful)
    (h : step s = .next t) :
    (s.nextTurn = .seq ∧ s.seq.point = .assertReset ∧ ∃ p, s.seq.cmd = some (.perReset p) ∧ instOf s.par p = some k) ∨
      ErrorsKept (s.regs k) (t.regs k) := by
  have taken := SeqSide.takeTurn s
  rw [← taken.par] at board lawful
  rw [← s.takeTurn_regs]
  cases step_cases h with
  | seq clear turn move =>
    refine (move.errorsKept board (taken.coherent coherent)).imp_left fun reset => ⟨turn, ?_⟩
    rwa [taken.seq, taken.par] at reset
  | osc clear a turn eq => exact .inr (by rw [eq, oscStep_eq]; exact .refl _)
  | bus clear j a turn eq => exact .inr (eq ▸ busStep_errorsKept lawful j a)

/-- Settles O45: no command but `PER_RESET` writes the error flags, and no lawful step clears one. -/
theorem errorFlagsAreSticky : Obligations.ErrorFlagsAreSticky := fun _ _ _ board coherent lawful h =>
  (step_errorsKept board coherent lawful h).imp_right fun ⟨af, arlo, berr⟩ => ⟨af, arlo, berr⟩

end Sys2Proof.Machine
end

section
/-! PROOF. The lines of the composite transactions `I2C_WRITE` and `I2C_READ` (44_bus_transactions.md R180, R183). -/

namespace Sys2Proof.Machine

open Sys2Proof.Claims

variable {s t : State} {k : InstId} {addr : BitVec 7} {n : BitVec 12} {ops : List Word}

/-! The start body in a composite transaction -/

section StartBody

variable {done done' : State → Res}

/-- Before its wait the start body is the same whatever follows it. -/
theorem startBody_of_ne_wait {p : StartPoint} (before : p ≠ .wait) : startBody k p s done = startBody k p s done' := by
  cases p with
  | busFree => rfl
  | request r => rfl
  | wait => exact absurd rfl before

/-- So `I2C_START` performs those lines of a composite transaction (43_bus_engine.md R160). -/
theorem startBody_of_i2cStart {p : StartPoint} (at_ : s.seq.point = .startBody p) (before : p ≠ .wait)
    (h : exec (.i2cStart k) s = .next t) : startBody k p s done = .next t := by
  rw [startBody_of_ne_wait before, ← exec_i2cStart_body at_, h]

theorem startBody_wait_success (sb : (s.regs k).sr1.sb = true)
    (first : (s.regs k).sr1.berr = false ∨ s.par.checkOrder = .successFirst) :
    startBody k .wait s done = done ((s.consumeSb k).setPhase .started) := by
  rw [startBody, pollFlags_success sb (first.imp_left Sr1.startErrs_of_clear)]

theorem startBody_wait_error (berr : (s.regs k).sr1.berr = true)
    (first : (s.regs k).sr1.sb = false ∨ s.par.checkOrder = .errorsFirst) :
    startBody k .wait s done = .next (s.finish .busError 0#32 []) := by
  rw [startBody, pollFlags_error (Sr1.startErrs_of_berr berr) first]

theorem startBody_wait_again (sb : (s.regs k).sr1.sb = false) (berr : (s.regs k).sr1.berr = false) :
    startBody k .wait s done = .next s := by
  rw [startBody, pollFlags_again sb (Sr1.startErrs_of_clear berr)]

end StartBody

/-! `I2C_WRITE`: the body that each line belongs to -/

section Write

theorem exec_i2cWrite_start (at_ : s.seq.point = .start) (usable : Usable s k) :
    exec (.i2cWrite k addr n ops) s =
      if n = 0#12 then raiseFault .zeroLength s
      else .next (s.enter (.i2cWrite k addr n ops) (.startBody .busFree)) := by
  simp only [exec, execI2cWrite, at_, prelude_of_usable usable]

theorem exec_i2cWrite_startBody {p : StartPoint} (at_ : s.seq.point = .startBody p) :
    exec (.i2cWrite k addr n ops) s = startBody k p s fun t => .next (t.goto (.addressBody .put)) := by
  simp only [exec, execI2cWrite, at_]

theorem exec_i2cWrite_addressBody {p : PutPoint} (at_ : s.seq.point = .addressBody p) :
    exec (.i2cWrite k addr n ops) s =
      addressBody k addr .write p s fun t => .next ((t.setIndex 0).goto (.writeBody .put)) := by
  simp only [exec, execI2cWrite, at_]

theorem exec_i2cWrite_writeBody {p : PutPoint} (at_ : s.seq.point = .writeBody p) :
    exec (.i2cWrite k addr n ops) s =
      writeByteBody k (dataByte ops s.seq.i) p s (afterByteWritten n.toNat) := by
  simp only [exec, execI2cWrite, at_]

theorem exec_i2cWrite_btfWait (at_ : s.seq.point = .btfWait) :
    exec (.i2cWrite k addr n ops) s = waitBtf k s fun t => .next (t.goto (.stopBody .read)) := by
  simp only [exec, execI2cWrite, at_]

theorem exec_i2cWrite_stopBody {r : Rmw} (at_ : s.seq.point = .stopBody r) :
    exec (.i2cWrite k addr n ops) s = stopBody k r s (returnValue 0#32) := by
  simp only [exec, execI2cWrite, at_]

theorem afterByteWritten_more {n : Nat} (more : s.seq.i + 1 < n) :
    afterByteWritten n s = .next ((s.setIndex (s.seq.i + 1)).goto (.writeBody .put)) := if_pos more

theorem afterByteWritten_last {n : Nat} (last : n ≤ s.seq.i + 1) :
    afterByteWritten n s = .next (s.goto .btfWait) := if_neg (Nat.not_lt.mpr last)

/-- Settles O32: each line by the body it belongs to, and each outcome of its poll. -/
theorem writeMicroSteps : Obligations.WriteMicroSteps := by
  refine fun s k addr n ops => ⟨fun at_ usable zero => ?_, fun at_ usable nonzero => ?_,
    fun p t at_ before h => (exec_i2cWrite_startBody at_).trans (startBody_of_i2cStart at_ before h),
    fun at_ sb first => (exec_i2cWrite_startBody at_).trans (startBody_wait_success sb first),
    fun at_ berr first => (exec_i2cWrite_startBody at_).trans (startBody_wait_error berr first),
    fun at_ sb berr => (exec_i2cWrite_startBody at_).trans (startBody_wait_again sb berr),
    fun at_ => ?_, fun at_ seen => ?_, exec_i2cWrite_writeBody, fun at_ seen more => ?_, fun at_ seen last => ?_,
    fun at_ seen => (exec_i2cWrite_btfWait at_).trans (pollFlags_of_waitSucceeds seen), exec_i2cWrite_stopBody,
    fun w => exec_i2cWrite_stopBody, ?_, ?_⟩
  · rw [exec_i2cWrite_start at_ usable, if_pos zero, raiseFault]
  · rw [exec_i2cWrite_start at_ usable, if_neg nonzero]
  · rw [exec_i2cWrite_addressBody at_, addressBody, addressByte_eq, writeDr_eq]
    rfl
  · rw [exec_i2cWrite_addressBody at_, addressBody, pollFlags_of_waitSucceeds seen]
    rfl
  · rw [exec_i2cWrite_writeBody at_, writeByteBody, pollFlags_of_waitSucceeds seen]
    exact afterByteWritten_more (s := s.setPhase .dataPhase) more
  · rw [exec_i2cWrite_writeBody at_, writeByteBody, pollFlags_of_waitSucceeds seen]
    exact afterByteWritten_last (s := s.setPhase .dataPhase) last
  · rintro e (⟨at_, fails⟩ | ⟨at_, fails⟩ | ⟨at_, fails⟩)
    · rw [exec_i2cWrite_addressBody at_, addressBody, pollFlags_of_waitFails fails]
    · rw [exec_i2cWrite_writeBody at_, writeByteBody, pollFlags_of_waitFails fails]
    · rw [exec_i2cWrite_btfWait at_, waitBtf, pollFlags_of_waitFails fails]
  · rintro (⟨at_, unseen⟩ | ⟨at_, unseen⟩ | ⟨at_, unseen⟩)
    · rw [exec_i2cWrite_addressBody at_, addressBody, pollFlags_of_waitGoesOn unseen]
    · rw [exec_i2cWrite_writeBody at_, writeByteBody, pollFlags_of_waitGoesOn unseen]
    · rw [exec_i2cWrite_btfWait at_, waitBtf, pollFlags_of_waitGoesOn unseen]

end Write

/-! `I2C_READ`: the body that each line belongs to -/

section Read

theorem exec_i2cRead_start (at_ : s.seq.point = .start) (usable : Usable s k) :
    exec (.i2cRead k addr n) s =
      if n = 0#12 then raiseFault .zeroLength s else .next (s.enter (.i2cRead k addr n) .saveAck) := by
  simp only [exec, execI2cRead, at_, prelude_of_usable usable]

theorem exec_i2cRead_saveAck (at_ : s.seq.point = .saveAck) :
    exec (.i2cRead k addr n) s = .next ((s.saveAck (s.regs k).cr1.ack).goto (.startBody .busFree)) := by
  simp only [exec, execI2cRead, at_]

theorem exec_i2cRead_startBody {p : StartPoint} (at_ : s.seq.point = .startBody p) :
    exec (.i2cRead k addr n) s = startBody k p s fun t => .next (t.goto (.addressBody .put)) := by
  simp only [exec, execI2cRead, at_]

theorem exec_i2cRead_addressBody {p : PutPoint} (at_ : s.seq.point = .addressBody p) :
    exec (.i2cRead k addr n) s = addressBody k addr .read p s (afterReadAddress n.toNat) := by
  simp only [exec, execI2cRead, at_]

theorem exec_i2cRead_ackOn {r : Rmw} (at_ : s.seq.point = .ackOn r) :
    exec (.i2cRead k addr n) s = ackWrite k true .ackOn r s fun t => .next (t.goto (.readBody .wait)) := by
  simp only [exec, execI2cRead, at_]

theorem exec_i2cRead_readBody {p : TakePoint} (at_ : s.seq.point = .readBody p) :
    exec (.i2cRead k addr n) s =
      readByteBody k .readBody p s fun b t => afterByteRead n.toNat (t.pushByte b) := by
  simp only [exec, execI2cRead, at_]

theorem exec_i2cRead_ackOff {r : Rmw} (at_ : s.seq.point = .ackOff r) :
    exec (.i2cRead k addr n) s = ackWrite k false .ackOff r s fun t => .next (t.goto (.stopBody .read)) := by
  simp only [exec, execI2cRead, at_]

theorem exec_i2cRead_stopBody {r : Rmw} (at_ : s.seq.point = .stopBody r) :
    exec (.i2cRead k addr n) s = stopBody k r s fun t => .next (t.goto (.lastBody .wait)) := by
  simp only [exec, execI2cRead, at_]

theorem exec_i2cRead_lastBody {p : TakePoint} (at_ : s.seq.point = .lastBody p) :
    exec (.i2cRead k addr n) s =
      readByteBody k .lastBody p s fun b t => .next ((t.pushByte b).goto (.restoreAck .read)) := by
  simp only [exec, execI2cRead, at_]

theorem exec_i2cRead_restoreAck {r : Rmw} (at_ : s.seq.point = .restoreAck r) :
    exec (.i2cRead k addr n) s =
      ackWrite k s.seq.savedAck .restoreAck r s fun t => .next (t.finish .ok 0#32 t.seq.buf) := by
  simp only [exec, execI2cRead, at_]

theorem afterReadAddress_eq (n : Nat) (s : State) : afterReadAddress n s =
    .next ((s.setIndex (if 1 < n then 0 else n - 1)).goto (if 1 < n then .ackOn .read else .ackOff .read)) := by
  unfold afterReadAddress
  split <;> rfl

theorem afterReadAddress_one {n : Nat} (one : n ≤ 1) :
    afterReadAddress n s = .next ((s.setIndex (n - 1)).goto (.ackOff .read)) := if_neg (Nat.not_lt.mpr one)

theorem afterReadAddress_more {n : Nat} (more : 1 < n) :
    afterReadAddress n s = .next ((s.setIndex 0).goto (.ackOn .read)) := if_pos more

theorem afterByteRead_eq (n : Nat) (s : State) : afterByteRead n s =
    .next ((s.setIndex (if s.seq.i + 2 < n then s.seq.i + 1 else n - 1)).goto
      (if s.seq.i + 2 < n then .readBody .wait else .ackOff .read)) := by
  unfold afterByteRead
  split <;> rfl

theorem afterByteRead_more {n : Nat} (more : s.seq.i + 2 < n) :
    afterByteRead n s = .next ((s.setIndex (s.seq.i + 1)).goto (.readBody .wait)) := if_pos more

theorem afterByteRead_last {n : Nat} (last : n ≤ s.seq.i + 2) :
    afterByteRead n s = .next ((s.setIndex (n - 1)).goto (.ackOff .read)) := if_neg (Nat.not_lt.mpr last)

/-- Settles O33: each line by the body it belongs to, and each outcome of its poll. -/
theorem readMicroSteps : Obligations.ReadMicroSteps := by
  refine fun s k addr n => ⟨fun at_ usable zero => ?_, fun at_ usable nonzero => ?_, exec_i2cRead_saveAck,
    fun p t at_ before h => (exec_i2cRead_startBody at_).trans (startBody_of_i2cStart at_ before h),
    fun at_ sb first => (exec_i2cRead_startBody at_).trans (startBody_wait_success sb first),
    fun at_ berr first => (exec_i2cRead_startBody at_).trans (startBody_wait_error berr first),
    fun at_ sb berr => (exec_i2cRead_startBody at_).trans (startBody_wait_again sb berr),
    fun at_ => ?_, fun at_ seen => ?_, fun e at_ fails => ?_, fun at_ unseen => ?_, fun w => exec_i2cRead_ackOn, ?_,
    fun at_ => (exec_i2cRead_readBody at_).trans (afterByteRead_eq _ _), fun w => exec_i2cRead_ackOff,
    fun w => exec_i2cRead_stopBody, exec_i2cRead_lastBody, fun w => exec_i2cRead_restoreAck, ?_⟩
  · rw [exec_i2cRead_start at_ usable, if_pos zero, raiseFault]
  · rw [exec_i2cRead_start at_ usable, if_neg nonzero]
  · rw [exec_i2cRead_addressBody at_, addressBody, addressByte_eq, writeDr_eq]
    rfl
  · rw [exec_i2cRead_addressBody at_, addressBody, pollFlags_of_waitSucceeds seen, afterReadAddress_eq]
    rfl
  · rw [exec_i2cRead_addressBody at_, addressBody, pollFlags_of_waitFails fails]
  · rw [exec_i2cRead_addressBody at_, addressBody, pollFlags_of_waitGoesOn unseen]
  · rintro p (⟨at_, rfl⟩ | ⟨at_, rfl⟩)
    · exact exec_i2cRead_readBody at_
    · exact exec_i2cRead_lastBody at_
  · intro p line at_
    simp only [List.mem_cons, List.not_mem_nil, or_false] at line
    rcases line with rfl | rfl | rfl | rfl
    · exact exec_i2cRead_ackOn at_
    · exact exec_i2cRead_ackOff at_
    · exact exec_i2cRead_stopBody at_
    · exact exec_i2cRead_restoreAck at_

end Read

end Sys2Proof.Machine
end

section
/-! PROOF. Past its address phase an `I2C_READ` ends only OK, with exactly N bytes (44_bus_transactions.md R183). -/

namespace Sys2Proof.Machine

open Sys2Proof.Claims

variable {s t u : State} {k : InstId} {addr : BitVec 7} {n : BitVec 12}

/-- `t` has the log of `s`, or one result more: OK, the value 0 and `n` bytes. -/
def AtMostOkWith (n : Nat) (s t : State) : Prop :=
  t.cptr = s.cptr ∧ t.results = s.results ∨
    ∃ l : List Byte, l.length = n ∧ t.results = s.results ++ [⟨.ok, 0#32, l⟩] ∧ t.cptr = s.cptr + 1

theorem AtMostOkWith.same {n : Nat} (cptr : t.cptr = s.cptr) (results : t.results = s.results) :
    AtMostOkWith n s t := .inl ⟨cptr, results⟩

theorem SeqSide.atMostOkWith {n : Nat} (side : SeqSide s t) : AtMostOkWith n s t := .same side.cptr side.results

theorem AtMostOkWith.after {n : Nat} (side : SeqSide s u) (h : AtMostOkWith n u t) : AtMostOkWith n s t := by
  unfold AtMostOkWith at *
  rwa [side.cptr, side.results] at h

/-- The lines after the address phase go on, but the last, at which N bytes are received. -/
theorem exec_i2cRead_afterAddress (after : afterAddress s.seq.point = true)
    (line : hasLine (.i2cRead k addr n) s.seq = true) (h : exec (.i2cRead k addr n) s = .next t) :
    AtMostOkWith n.toNat s t := by
  cases at_ : s.seq.point with
  | ackOn r =>
    rw [exec_i2cRead_ackOn at_] at h
    rcases ackWrite_next h with ⟨-, rfl⟩ | ⟨w, -, h⟩
    · exact .same rfl rfl
    · cases h; exact .same rfl rfl
  | readBody p =>
    rw [exec_i2cRead_readBody at_] at h
    rcases readByteBody_next h with ⟨-, rfl⟩ | ⟨-, h⟩
    · split <;> exact .same rfl rfl
    · rw [afterByteRead_eq] at h; cases h; exact .same rfl rfl
  | ackOff r =>
    rw [exec_i2cRead_ackOff at_] at h
    rcases ackWrite_next h with ⟨-, rfl⟩ | ⟨w, -, h⟩
    · exact .same rfl rfl
    · cases h; exact .same rfl rfl
  | stopBody r =>
    rw [exec_i2cRead_stopBody at_] at h
    rcases stopBody_next h with ⟨-, rfl⟩ | ⟨w, -, h⟩
    · exact .same rfl rfl
    · cases h; exact .same rfl rfl
  | lastBody p =>
    rw [exec_i2cRead_lastBody at_] at h
    rcases readByteBody_next h with ⟨-, rfl⟩ | ⟨-, h⟩
    · split <;> exact .same rfl rfl
    · cases h; exact .same rfl rfl
  | restoreAck r =>
    rw [exec_i2cRead_restoreAck at_] at h
    rcases ackWrite_next h with ⟨-, rfl⟩ | ⟨w, -, h⟩
    · exact .same rfl rfl
    · have received : s.seq.buf.length = n.toNat := by simpa [hasLine, at_] using line
      cases h; exact .inr ⟨s.seq.buf, received, rfl, rfl⟩
  | _ => rw [at_] at after; cases after

/-- What a SEQ turn of a command in progress does is a micro-step of that command. -/
theorem SeqMove.exec_of_running {i : Instr} (running : s.seq.cmd = some i) (move : SeqMove s t) :
    exec i s = .next t := by
  cases move with
  | resume j now runs =>
    obtain rfl : j = i := Option.some.inj (now.symm.trans running)
    exact runs
  | begins c j idle => rw [idle] at running; cases running
  | undecoded c e idle => rw [idle] at running; cases running
  | ended idle => rw [idle] at running; cases running

/-- Inside a command SEQ of a coherent block stands at one of its lines. -/
theorem SeqCoherent.line {i : Instr} (coherent : SeqCoherent s) (cmd : s.seq.cmd = some i) :
    hasLine i s.seq = true := by
  unfold SeqCoherent at coherent
  rw [cmd] at coherent
  exact coherent.2

/-- Settles O36: a SEQ turn is one of these lines; the other agents leave the log. -/
theorem readEndsOkWithNBytes : Obligations.ReadEndsOkWithNBytes := by
  intro s t k addr n coherent cmd after h
  have taken := SeqSide.takeTurn s
  refine AtMostOkWith.after taken ?_
  rw [← taken.seq] at cmd after
  cases step_cases h with
  | seq clear turn move =>
    exact exec_i2cRead_afterAddress after ((taken.coherent coherent).line cmd) (move.exec_of_running cmd)
  | osc clear a turn eq => exact eq ▸ (oscStep_seqSide a _).atMostOkWith
  | bus clear j a turn eq => exact eq ▸ (busStep_seqSide j a _).atMostOkWith

end Sys2Proof.Machine
end

section
/-! PROOF. While a composite transaction runs, no step changes ownership, clocks or timing (44_bus_transactions.md
R188). -/

namespace Sys2Proof.Machine

variable {s t u : State} {k : InstId} {addr : BitVec 7} {n : BitVec 12} {ops : List Word}

/-- `t` has the clock control of `s` and the timing of its bus controllers. -/
structure TimingKept (s t : State) : Prop where
  cc : t.cc = s.cc
  timing : ∀ j, (t.regs j).ccr = (s.regs j).ccr ∧ (t.regs j).trise = (s.regs j).trise

theorem TimingKept.of_eq (cc : t.cc = s.cc) (i2c : t.i2c = s.i2c) : TimingKept s t :=
  ⟨cc, fun j => by rw [State.regs, State.regs, i2c]; exact ⟨rfl, rfl⟩⟩

theorem TimingKept.refl (s : State) : TimingKept s s := .of_eq rfl rfl

theorem TimingKept.trans (h : TimingKept s u) (g : TimingKept u t) : TimingKept s t :=
  ⟨g.cc.trans h.cc, fun j => ⟨(g.timing j).1.trans (h.timing j).1, (g.timing j).2.trans (h.timing j).2⟩⟩

theorem TimingKept.setPhase (h : TimingKept s u) (p : Phase) : TimingKept s (u.setPhase p) := h.trans (.of_eq rfl rfl)

/-- A register write of the transactions, all of which leave CCR and TRISE. -/
theorem TimingKept.setRegs {r : BusRegs} (ccr : r.ccr = (s.regs k).ccr) (trise : r.trise = (s.regs k).trise) :
    TimingKept s (s.setRegs k r) := by
  refine ⟨rfl, fun j => ?_⟩
  by_cases same : j = k
  · subst same
    rw [State.regs_setRegs_same]
    exact ⟨ccr, trise⟩
  · rw [State.regs_setRegs_other _ _ _ _ same]
    exact ⟨rfl, rfl⟩

theorem TimingKept.writeCr1 (s : State) (k : InstId) (w : Cr1) : TimingKept s (s.writeCr1 k w) := .setRegs rfl rfl

theorem TimingKept.consumeSb (s : State) (k : InstId) : TimingKept s (s.consumeSb k) := .setRegs rfl rfl

theorem TimingKept.consumeAddr (s : State) (k : InstId) : TimingKept s (s.consumeAddr k) := .setRegs rfl rfl

theorem TimingKept.afterDrRead (s : State) (k : InstId) : TimingKept s (s.afterDrRead k) := .setRegs rfl rfl

theorem TimingKept.writeDr (s : State) (k : InstId) (b : Byte) : TimingKept s (s.writeDr k b) :=
  (TimingKept.setRegs (k := k) (r := { s.regs k with drTx := b, sr1 := (s.regs k).sr1.afterDrWrite }) rfl rfl).trans
    (.of_eq rfl rfl)

theorem TimingKept.busStep (k : InstId) (a : Config.BusStep) (s : State) : TimingKept s (busStep k a s) := by
  refine ⟨busStep_cc k a s, fun j => ?_⟩
  by_cases same : j = k
  · subst same
    have writes := busStep_busWrites j a s
    exact ⟨writes.ccr, writes.trise⟩
  · rw [busStep_regs_other k j a s same]
    exact ⟨rfl, rfl⟩

/-! The shared bodies -/

/-- Every next state that `r` may answer has the clocks and the timing of `s`. -/
def KeepsTiming (s : State) (r : Res) : Prop := ∀ t, r = .next t → TimingKept s t

theorem KeepsTiming.next (h : TimingKept s u) (cc : t.cc = u.cc) (i2c : t.i2c = u.i2c) : KeepsTiming s (.next t) :=
  fun _ eq => by cases eq; exact h.trans (.of_eq cc i2c)

/-- A micro-step that writes neither clock control nor a register of a bus controller. -/
theorem KeepsTiming.frame (cc : t.cc = s.cc) (i2c : t.i2c = s.i2c) : KeepsTiming s (.next t) := .next (.refl s) cc i2c

theorem KeepsTiming.prelude {rest : Res} (h : KeepsTiming s rest) : KeepsTiming s (prelude k s rest) := by
  intro t eq
  rcases prelude_next eq with ⟨-, -, eq⟩ | ⟨-, rfl⟩ | ⟨-, -, rfl⟩
  · exact h t eq
  · exact .of_eq rfl rfl
  · exact .of_eq rfl rfl

section Bodies

variable {done : State → Res}

theorem KeepsTiming.cr1Write {f : Cr1 → Cr1} {at_ : Rmw → Point} {r : Rmw}
    (h : ∀ u, TimingKept s u → KeepsTiming s (done u)) : KeepsTiming s (cr1Write k f at_ r s done) := by
  intro t eq
  rcases cr1Write_next eq with ⟨-, rfl⟩ | ⟨w, -, eq⟩
  · exact .of_eq rfl rfl
  · exact h _ (.writeCr1 s k _) t eq

theorem KeepsTiming.startBody {p : StartPoint} (h : ∀ u, TimingKept s u → KeepsTiming s (done u)) :
    KeepsTiming s (startBody k p s done) := by
  intro t eq
  rcases startBody_next eq with ⟨-, rfl⟩ | ⟨-, rfl⟩ | ⟨w, -, rfl⟩ | ⟨-, -, rfl⟩ | ⟨-, -, eq⟩ | ⟨-, rfl⟩
  · split <;> exact .of_eq rfl rfl
  · exact .of_eq rfl rfl
  · exact (TimingKept.writeCr1 s k _).trans (.of_eq rfl rfl)
  · exact .of_eq rfl rfl
  · exact h _ ((TimingKept.consumeSb s k).setPhase _) t eq
  · exact .refl _

theorem KeepsTiming.addressBody {d : Dir} {p : PutPoint} (h : ∀ u, TimingKept s u → KeepsTiming s (done u)) :
    KeepsTiming s (addressBody k addr d p s done) := by
  intro t eq
  rcases addressBody_next eq with ⟨-, rfl⟩ | ⟨e, -, -, rfl⟩ | ⟨-, -, eq⟩ | ⟨-, rfl⟩
  · exact (TimingKept.writeDr s k _).trans (.of_eq rfl rfl)
  · exact .of_eq rfl rfl
  · exact h _ ((TimingKept.consumeAddr s k).setPhase _) t eq
  · exact .refl _

theorem KeepsTiming.writeByteBody {b : Byte} {p : PutPoint} (h : ∀ u, TimingKept s u → KeepsTiming s (done u)) :
    KeepsTiming s (writeByteBody k b p s done) := by
  intro t eq
  rcases writeByteBody_next eq with ⟨-, rfl⟩ | ⟨e, -, -, rfl⟩ | ⟨-, -, eq⟩ | ⟨-, rfl⟩
  · exact (TimingKept.writeDr s k _).trans (.of_eq rfl rfl)
  · exact .of_eq rfl rfl
  · exact h _ ((TimingKept.refl s).setPhase _) t eq
  · exact .refl _

theorem KeepsTiming.waitBtf (h : KeepsTiming s (done s)) : KeepsTiming s (waitBtf k s done) := by
  intro t eq
  rcases waitBtf_next eq with ⟨e, -, rfl⟩ | ⟨-, eq⟩ | rfl
  · exact .of_eq rfl rfl
  · exact h t eq
  · exact .refl _

theorem KeepsTiming.readByteBody {at_ : TakePoint → Point} {p : TakePoint} {done : Byte → State → Res}
    (h : ∀ b u, TimingKept s u → KeepsTiming s (done b u)) : KeepsTiming s (readByteBody k at_ p s done) := by
  intro t eq
  rcases readByteBody_next eq with ⟨-, rfl⟩ | ⟨-, eq⟩
  · split <;> exact .of_eq rfl rfl
  · exact h _ _ ((TimingKept.afterDrRead s k).setPhase _) t eq

theorem KeepsTiming.stopBody {r : Rmw} (h : ∀ u, TimingKept s u → KeepsTiming s (done u)) :
    KeepsTiming s (stopBody k r s done) := .cr1Write fun _ kept => h _ (kept.setPhase _)

end Bodies

/-! The two transactions -/

theorem execI2cWrite_keepsTiming : KeepsTiming s (execI2cWrite k addr n ops s) := by
  unfold execI2cWrite
  split
  next => exact .prelude (by split <;> exact .frame rfl rfl)
  next => exact .startBody fun u kept => .next kept rfl rfl
  next => exact .addressBody fun u kept => .next kept rfl rfl
  next =>
    refine .writeByteBody fun u kept => ?_
    unfold afterByteWritten
    split <;> exact .next kept rfl rfl
  next => exact .waitBtf (.frame rfl rfl)
  next => exact .stopBody fun u kept => .next kept rfl rfl
  next => exact fun _ eq => absurd eq strayPoint_ne_next

theorem execI2cRead_keepsTiming : KeepsTiming s (execI2cRead k addr n s) := by
  unfold execI2cRead
  split
  next => exact .prelude (by split <;> exact .frame rfl rfl)
  next => exact .frame rfl rfl
  next => exact .startBody fun u kept => .next kept rfl rfl
  next => exact .addressBody fun u kept => by rw [afterReadAddress_eq]; exact .next kept rfl rfl
  next => exact .cr1Write fun u kept => .next kept rfl rfl
  next => exact .readByteBody fun b u kept => by rw [afterByteRead_eq]; exact .next kept rfl rfl
  next => exact .cr1Write fun u kept => .next kept rfl rfl
  next => exact .stopBody fun u kept => .next kept rfl rfl
  next => exact .readByteBody fun b u kept => .next kept rfl rfl
  next => exact .cr1Write fun u kept => .next kept rfl rfl
  next => exact fun _ eq => absurd eq strayPoint_ne_next

/-- The composite transactions. -/
abbrev IsTransaction (i : Instr) : Prop := (∃ k a n ops, i = .i2cWrite k a n ops) ∨ (∃ k a n, i = .i2cRead k a n)

theorem IsTransaction.keepsTiming {i : Instr} (transaction : IsTransaction i) : KeepsTiming s (exec i s) := by
  rcases transaction with ⟨k, addr, n, ops, rfl⟩ | ⟨k, addr, n, rfl⟩
  · exact execI2cWrite_keepsTiming
  · exact execI2cRead_keepsTiming

theorem IsTransaction.keepsGates {i : Instr} (transaction : IsTransaction i) : KeepsGates s (exec i s) := by
  rcases transaction with ⟨k, addr, n, ops, rfl⟩ | ⟨k, addr, n, rfl⟩
  · exact exec_keepsGates rfl
  · exact exec_keepsGates rfl

/-! Every agent -/

/-- What SEQ writes of the clock tree, and the timing of the bus controllers (44_bus_transactions.md R188). -/
structure TreeKept (s t : State) : Prop where
  pllcfgr : t.cc.pllcfgr = s.cc.pllcfgr
  sw : t.cc.cfgr.sw = s.cc.cfgr.sw
  hpre : t.cc.cfgr.hpre = s.cc.cfgr.hpre
  ppre1 : t.cc.cfgr.ppre1 = s.cc.cfgr.ppre1
  ppre2 : t.cc.cfgr.ppre2 = s.cc.cfgr.ppre2
  hsion : t.cc.cr.hsion = s.cc.cr.hsion
  hseon : t.cc.cr.hseon = s.cc.cr.hseon
  pllon : t.cc.cr.pllon = s.cc.cr.pllon
  timing : ∀ j, (t.regs j).ccr = (s.regs j).ccr ∧ (t.regs j).trise = (s.regs j).trise

theorem TimingKept.treeKept (h : TimingKept s t) : TreeKept s t := by
  obtain ⟨cc, timing⟩ := h
  exact ⟨by rw [cc], by rw [cc], by rw [cc], by rw [cc], by rw [cc], by rw [cc], by rw [cc], by rw [cc], timing⟩

theorem TreeKept.oscStep (a : Config.OscStep) (s : State) : TreeKept s (oscStep a s) := by
  rw [oscStep_eq]
  exact ⟨rfl, rfl, rfl, rfl, rfl, rfl, rfl, rfl, fun _ => ⟨rfl, rfl⟩⟩

/-- What a turn keeps while a composite transaction is in progress. -/
structure ResourcesKept (s t : State) : Prop where
  gates : GatesKept s t
  tree : TreeKept s t

theorem step_resourcesKept {i : Instr} (cmd : s.seq.cmd = some i) (transaction : IsTransaction i)
    (h : step s = .next t) : ResourcesKept s.takeTurn t := by
  cases step_cases h with
  | seq clear turn move =>
    have runs := move.exec_of_running ((congrArg Sequencer.cmd s.takeTurn_seq).trans cmd)
    exact ⟨transaction.keepsGates t runs, (transaction.keepsTiming t runs).treeKept⟩
  | osc clear a turn eq => exact eq ▸ ⟨.oscStep a _, .oscStep a _⟩
  | bus clear k a turn eq => exact eq ▸ ⟨.busStep k a _, (TimingKept.busStep k a _).treeKept⟩

/-- Settles O48: a turn of SEQ is a micro-step of the transaction, which writes neither clocks nor timing, and the other
agents write none either. -/
theorem transactionHoldsItsResources : Obligations.TransactionHoldsItsResources := by
  intro s t i cmd transaction h
  obtain ⟨gates, tree⟩ := step_resourcesKept cmd transaction h
  have gates := (GatesKept.takeTurn s).trans gates
  obtain ⟨pllcfgr, sw, hpre, ppre1, ppre2, hsion, hseon, pllon, timing⟩ := tree
  simp only [State.takeTurn_cc, State.takeTurn_regs] at pllcfgr sw hpre ppre1 ppre2 hsion hseon pllon timing
  exact ⟨gates.taken, gates.enr, gates.enabled_eq, pllcfgr, sw, hpre, ppre1, ppre2, hsion, hseon, pllon, timing⟩

end Sys2Proof.Machine
end

section
/-! PROOF. The turns of a transfer on a lawful bus: what they make of the sequencer and of the registers and the hidden
state of the bus controller; and the start and address phase, which both composite transactions open with
(43_bus_engine.md R160, R161, R173). -/

namespace Sys2Proof.Machine

open Sys2Proof.Claims

variable {s t : State} {k : InstId} {i : Instr}

theorem runs_add {n : Nat} (m : Nat) (h : runs n s = .next t) : runs (n + m) s = runs m t := by
  induction n generalizing s with
  | zero => cases h; rw [Nat.zero_add]
  | succ n ih =>
    cases hstep : step s with
    | next u =>
      rw [runs_succ n hstep] at h
      rw [Nat.succ_add, runs_succ (n + m) hstep, ih h]
    | fault f => simp [runs, Host.Core.run, show core.step s = .fault f from hstep] at h
    | refused r => simp [runs, Host.Core.run, show core.step s = .refused r from hstep] at h

/-- What the turns of a transfer write: the sequencer, and the registers and the hidden state of the bus controller. -/
structure Transfer where
  seq : Sequencer
  regs : BusRegs
  line : BusLine

/-- The transfer at another line of its command. -/
def Transfer.goto (x : Transfer) (p : Point) : Transfer := { x with seq := { x.seq with point := p } }

/-- The transfer in another phase. -/
def Transfer.inPhase (x : Transfer) (p : Phase) : Transfer := { x with seq := { x.seq with phase := p } }

/-- The transfer at another byte. -/
def Transfer.setIndex (x : Transfer) (j : Nat) : Transfer := { x with seq := { x.seq with i := j } }

/-- The transfer with other registers. -/
def Transfer.put (x : Transfer) (r : BusRegs) : Transfer := { x with regs := r }

/-- The transfer with the byte `b` handed to the transmitter (10_state.md R38, 43_bus_engine.md R173 L3). -/
def Transfer.hand (x : Transfer) (b : Byte) : Transfer :=
  { x with regs := { x.regs with drTx := b, sr1 := x.regs.sr1.afterDrWrite }, line := x.line.afterDrWrite b }

/-- `s` in the middle of the transfer `x` of bus controller `k`, with the turns `l` to come. -/
def State.within (s : State) (k : InstId) (x : Transfer) (l : List Config.Turn) : State :=
  { (s.setRegs k x.regs).setHidden k x.line with seq := x.seq, agenda := l }

section Within

variable {x : Transfer} {l : List Config.Turn}

@[simp] theorem State.within_regs : (s.within k x l).regs k = x.regs := State.regs_setRegs_same s k x.regs

@[simp] theorem State.within_hidden : (s.within k x l).hidden k = x.line := State.hidden_setHidden_same _ k x.line

@[simp] theorem State.within_setRegs (r : BusRegs) : (s.within k x l).setRegs k r = s.within k (x.put r) l := by
  simp [State.within, State.setRegs, State.setHidden, Transfer.put]

@[simp] theorem State.within_setHidden (h : BusLine) :
    (s.within k x l).setHidden k h = s.within k { x with line := h } l := by
  simp [State.within, State.setRegs, State.setHidden]

@[simp] theorem State.within_writeDr (b : Byte) : (s.within k x l).writeDr k b = s.within k (x.hand b) l := by
  rw [State.writeDr, State.within_regs, State.within_hidden, State.within_setRegs, State.within_setHidden]
  rfl

/-- A transfer that ended leaves SEQ between commands, as it was before. -/
theorem State.within_finish (idle : s.seq = Sequencer.idle) (st : Status) (v : Word) (bytes : List Byte) :
    (s.within k x l).finish st v bytes =
      (State.setRegs { s with agenda := l, results := s.results ++ [⟨st, v, bytes⟩], cptr := s.cptr + 1 } k
        x.regs).setHidden k x.line := by
  rw [State.finish, ← idle]
  rfl

/-- A command that its first line enters is a transfer with nothing written yet. -/
theorem State.inside_eq_within (p : Point) :
    s.inside i p l = s.within k ⟨{ Sequencer.idle with cmd := some i, point := p }, s.regs k, s.hidden k⟩ l := by
  rw [State.within, setRegs_setHidden_self rfl, setRegs_self]
  rfl

end Within

/-- The bus of bus controller `k` is a lawful one that may step, and the block is not faulted. -/
structure LawfulBus (s : State) (k : InstId) : Prop where
  clear : s.fault = none
  env : s.par.env = .lawful
  exists_ : instExists s.par k = true
  clocked : s.clocked k = true
  released : s.heldInReset k = false

/-- The turns `turns` take the transfer from `x` to `y`. -/
def Takes (s : State) (k : InstId) (turns : List Config.Turn) (x y : Transfer) : Prop :=
  ∀ rest, runs turns.length (s.within k x (turns ++ rest)) = .next (s.within k y rest)

section Takes

variable {x y z : Transfer} {turns turns' : List Config.Turn}

theorem Takes.append (h : Takes s k turns x y) (g : Takes s k turns' y z) : Takes s k (turns ++ turns') x z := by
  intro rest
  rw [List.length_append, List.append_assoc, runs_add _ (h _), g]

/-- A turn of SEQ performs a line of the command. -/
theorem Takes.seq (bus : LawfulBus s k) (cmd : x.seq.cmd = some i)
    (line : ∀ l, exec i (s.within k x l) = .next (s.within k y l)) : Takes s k [.seq] x y := fun rest =>
  runs_succ 0 ((step_seq_running (s := s.within k x (.seq :: rest)) bus.clear rfl cmd).trans (line rest))

/-- A turn of the bus agent that its rule allows. -/
theorem Takes.bus (bus : LawfulBus s k) {a : Config.BusStep}
    (enabled : busEnabled .lawful true a x.regs x.line = true) :
    Takes s k [.bus k a] x ⟨x.seq, busRegsEffect a x.regs x.line, busLineEffect a x.regs x.line⟩ := by
  intro rest
  have allowed : busAllowed k a (s.within k x rest) = true := by
    rw [busAllowed_eq (s := s.within k x rest) bus.exists_ bus.clocked bus.released, State.within_regs,
      State.within_hidden]
    exact bus.env ▸ enabled
  refine runs_succ 0 ((step_of_clear (s := s.within k x (.bus k a :: rest)) bus.clear).trans ?_)
  show Host.Outcome.next (busStep k a (s.within k x rest)) = _
  rw [busStep_of_allowed allowed, State.within_regs, State.within_hidden, State.within_setRegs, State.within_setHidden]
  rfl

/-- A poll that sees its flag and no error. -/
theorem Takes.poll (bus : LawfulBus s k) (cmd : x.seq.cmd = some i) (flag : Sr1 → Bool) {done : State → Res}
    (seen : flag x.regs.sr1 = true) (noError : NoError x.regs.sr1)
    (line : ∀ t : State, t.seq.point = x.seq.point →
      exec i t = pollFlags (t.regs k).sr1.errs (flag (t.regs k).sr1) t done)
    (answers : ∀ l, done (s.within k x l) = .next (s.within k y l)) : Takes s k [.seq] x y :=
  .seq bus cmd fun l => by
    rw [line _ rfl, State.within_regs, pollFlags_success seen (.inl (Sr1.errs_eq_none_iff.mpr noError)), answers]

/-- The two turns of a CR1 field write: SEQ reads the word and writes it back changed (20_memory.md R62). -/
theorem Takes.fieldWrite (bus : LawfulBus s k) (cmd : x.seq.cmd = some i) {f : Cr1 → Cr1} {at_ : Rmw → Point}
    {done : State → Res} (lines : ∀ (t : State) (r : Rmw), t.seq.point = at_ r → exec i t = cr1Write k f at_ r t done)
    (answers : ∀ l, done (s.within k ((x.goto (at_ (.write x.regs.cr1))).put { x.regs with cr1 := f x.regs.cr1 }) l) =
      .next (s.within k y l)) :
    Takes s k [.seq, .seq] (x.goto (at_ .read)) y := by
  have latched : Takes s k [.seq] (x.goto (at_ .read)) (x.goto (at_ (.write x.regs.cr1))) :=
    .seq bus cmd fun l => by rw [lines _ .read rfl, cr1Write, State.within_regs]; rfl
  have written : Takes s k [.seq] (x.goto (at_ (.write x.regs.cr1))) y :=
    .seq bus cmd fun l => by
      rw [lines _ (.write x.regs.cr1) rfl, cr1Write, State.writeCr1, State.within_regs, State.within_setRegs]
      exact answers l
  exact latched.append written

end Takes

/-! The start and address phase -/

/-- The transfer once this master holds the bus, with SB as given (43_bus_engine.md R173 L2). -/
def Transfer.onBus (x : Transfer) (sb : Bool) : Transfer :=
  { x with
    regs := { x.regs with
      cr1 := { x.regs.cr1 with start := false }
      sr1 := { x.regs.sr1 with sb := sb }
      sr2 := ⟨true, true, x.regs.sr2.tra⟩ }
    line := { x.line with line := .ours, pending := .none, expectAddr := true } }

/-- The transfer once its address byte is in DR (L3). -/
def Transfer.addressed (x : Transfer) (addr : BitVec 7) (d : Dir) : Transfer :=
  { x with
    regs := { x.regs with
      cr1 := { x.regs.cr1 with start := false }
      drTx := addressByte addr d
      sr1 := { x.regs.sr1 with sb := false, txe := false, btf := false }
      sr2 := ⟨true, true, x.regs.sr2.tra⟩ }
    line := { x.line with line := .ours, pending := .addr (dirBit d), expectAddr := false } }

/-- Bit 0 of the address byte is the direction (43_bus_engine.md R161). -/
theorem addressByte_direction (addr : BitVec 7) (d : Dir) : (addressByte addr d).getLsbD 0 = dirBit d := by
  rw [addressByte, BitVec.getLsbD_append]
  cases dirBit d <;> rfl

theorem Transfer.onBus_hand (x : Transfer) (addr : BitVec 7) (d : Dir) :
    (x.onBus false).hand (addressByte addr d) = x.addressed addr d := by
  rw [Transfer.addressed, ← addressByte_direction addr d]
  rfl

/-- The transfer once its address is acknowledged, with ADDR as given (L4). -/
def Transfer.acknowledged (x : Transfer) (addr : BitVec 7) (d : Dir) (flag : Bool) : Transfer :=
  { x with
    regs := { x.regs with
      cr1 := { x.regs.cr1 with start := false }
      drTx := addressByte addr d
      sr1 := { x.regs.sr1 with sb := false, addr := flag, txe := !dirBit d, btf := false }
      sr2 := ⟨true, true, !dirBit d⟩ }
    line := { x.line with
      line := .ours, pending := if dirBit d then .rx else .tx, expectAddr := false, dataWritten := false } }

section Opening

variable {x y : Transfer} {addr : BitVec 7} {d : Dir} {done : State → Res} (bus : LawfulBus s k)
  (cmd : x.seq.cmd = some i)
  (starts : ∀ (t : State) (p : StartPoint), t.seq.point = .startBody p →
    exec i t = startBody k p t fun u => .next (u.goto (.addressBody .put)))
  (addresses : ∀ (t : State) (p : PutPoint), t.seq.point = .addressBody p → exec i t = addressBody k addr d p t done)

include bus cmd

include starts in
/-- The bus-free poll, the start request, step L2 and the poll of SB. -/
theorem takes_start (pe : x.regs.cr1.pe = true) (free : x.regs.sr2.busy = false) (berr : x.regs.sr1.berr = false)
    (line : x.line.line ≠ .other) :
    Takes s k [.seq, .seq, .seq, .bus k .startDone, .seq] (x.goto (.startBody .busFree))
      (((x.onBus false).inPhase .started).goto (.addressBody .put)) := by
  have freed : Takes s k [.seq] (x.goto (.startBody .busFree)) (x.goto (.startBody (.request .read))) :=
    .seq bus cmd fun l => by
      rw [starts _ .busFree rfl, startBody, State.within_regs]
      exact congrArg _ (if_neg (free.symm ▸ Bool.false_ne_true))
  have requested : Takes s k [.seq, .seq] (x.goto (.startBody (.request .read)))
      ((x.put { x.regs with cr1 := { x.regs.cr1 with start := true } }).goto (.startBody .wait)) :=
    .fieldWrite bus cmd (f := fun w => { w with start := true }) (at_ := fun r => .startBody (.request r))
      (done := fun u => .next (u.goto (.startBody .wait))) (fun t r at_ => starts t _ at_) fun l => rfl
  have started : Takes s k [.bus k .startDone]
      ((x.put { x.regs with cr1 := { x.regs.cr1 with start := true } }).goto (.startBody .wait))
      ((x.onBus true).goto (.startBody .wait)) :=
    .bus bus (by simp [busEnabled, Transfer.goto, Transfer.put, pe, line])
  have seen : Takes s k [.seq] ((x.onBus true).goto (.startBody .wait))
      (((x.onBus false).inPhase .started).goto (.addressBody .put)) :=
    .seq bus cmd fun l => by
      rw [starts _ .wait rfl, startBody_wait_success (by rw [State.within_regs]; rfl)
        (.inl (by rw [State.within_regs]; exact berr)), State.consumeSb, State.within_regs, State.within_setRegs]
      rfl
  exact freed.append (requested.append (started.append seen))

include addresses in
/-- The address byte, its acknowledge, and the poll of ADDR with what follows it. -/
theorem takes_address (pe : x.regs.cr1.pe = true) (noError : NoError x.regs.sr1)
    (answers : ∀ l,
      done (s.within k (((x.acknowledged addr d false).inPhase .addressPhase).goto (.addressBody .wait)) l) =
        .next (s.within k y l)) :
    Takes s k [.seq, .bus k .addrAck, .seq] (((x.onBus false).inPhase .started).goto (.addressBody .put)) y := by
  have put : Takes s k [.seq] (((x.onBus false).inPhase .started).goto (.addressBody .put))
      (((x.addressed addr d).inPhase .started).goto (.addressBody .wait)) :=
    .seq bus cmd fun l => by
      rw [addresses _ .put rfl, addressBody, State.within_writeDr, ← x.onBus_hand addr d]
      rfl
  have acknowledged : Takes s k [.bus k .addrAck] (((x.addressed addr d).inPhase .started).goto (.addressBody .wait))
      (((x.acknowledged addr d true).inPhase .started).goto (.addressBody .wait)) :=
    .bus bus (by simp [busEnabled, Transfer.goto, Transfer.inPhase, Transfer.addressed, Pending.isAddr, pe])
  have seen : Takes s k [.seq] (((x.acknowledged addr d true).inPhase .started).goto (.addressBody .wait)) y :=
    .poll bus cmd Sr1.addr rfl noError (fun t at_ => addresses t .wait at_) fun l => by
      rw [State.consumeAddr, State.within_regs, State.within_setRegs]
      exact answers l
  exact put.append (acknowledged.append seen)

include starts addresses in
/-- The start and address phase of a bus that is free and answers at once. -/
theorem takes_opening (pe : x.regs.cr1.pe = true) (free : x.regs.sr2.busy = false) (noError : NoError x.regs.sr1)
    (line : x.line.line ≠ .other)
    (answers : ∀ l,
      done (s.within k (((x.acknowledged addr d false).inPhase .addressPhase).goto (.addressBody .wait)) l) =
        .next (s.within k y l)) :
    Takes s k (openingTurns k) (x.goto (.startBody .busFree)) y :=
  (takes_start bus cmd starts pe free noError.2.2 line).append (takes_address bus cmd addresses pe noError answers)

end Opening

/-! A whole transaction: its first turn, the turns of the transfer, and the turn that ends it OK -/

theorem runs_transfer {turns rest : List Config.Turn} {p : Point} {y z : Transfer} {bytes : List Byte}
    (bus : LawfulBus s k) (ready : ReadyToRun s i)
    (agenda : s.agenda = Config.Turn.seq :: turns ++ [Config.Turn.seq] ++ rest)
    (enters : ∀ t : State, t.seq.point = .start → Usable t k → exec i t = .next (t.enter i p))
    (usable : Usable s k)
    (takes : Takes s k turns ⟨{ Sequencer.idle with cmd := some i, point := p }, s.regs k, s.hidden k⟩ y)
    (cmd : y.seq.cmd = some i)
    (ends : exec i (s.within k y rest) = .next ((s.within k z rest).finish .ok 0#32 bytes)) :
    runs (Config.Turn.seq :: turns ++ [Config.Turn.seq]).length s = .next ((State.setRegs { s with
      agenda := rest, results := s.results ++ [⟨.ok, 0#32, bytes⟩], cptr := s.cptr + 1 } k z.regs).setHidden k
        z.line) := by
  obtain ⟨-, between, -⟩ := id ready
  have idle : s.seq = Sequencer.idle := between
  rw [List.append_assoc, List.cons_append] at agenda
  calc runs (Config.Turn.seq :: turns ++ [Config.Turn.seq]).length s
    _ = runs (turns.length + 1) (s.inside i p (turns ++ (Config.Turn.seq :: rest))) := by
        rw [List.length_append, List.length_cons, List.length_singleton]
        exact runs_succ _ (step_enters ready agenda fun start => enters _ start usable)
    _ = runs 1 (s.within k y (.seq :: rest)) := by
        rw [State.inside_eq_within (k := k)]
        exact runs_add 1 (takes _)
    _ = .next ((s.within k z rest).finish .ok 0#32 bytes) :=
        runs_succ 0 ((step_seq_running (s := s.within k y (.seq :: rest)) bus.clear rfl cmd).trans ends)
    _ = _ := congrArg _ (State.within_finish idle _ _ _)

end Sys2Proof.Machine
end

section
/-! PROOF. An `I2C_WRITE` of any N bytes on a lawful bus that acknowledges (44_bus_transactions.md R180, R181). -/

namespace Sys2Proof.Machine

open Sys2Proof.Claims

variable {s : State} {k : InstId} {addr : BitVec 7} {n : BitVec 12} {ops : List Word} {x y : Transfer}

theorem LawfulBus.of_free (clear : s.fault = none) (free : LawfulAndFree s k) : LawfulBus s k := by
  obtain ⟨env, exists_, usable, released, -⟩ := free
  exact ⟨clear, env, exists_, usable.2, released⟩

/-- The transfer sends: its address is acknowledged, and no error is set (43_bus_engine.md R173). -/
structure Sending (x : Transfer) : Prop where
  pe : x.regs.cr1.pe = true
  noError : NoError x.regs.sr1
  consumed : x.regs.sr1.addr = false
  pending : x.line.pending = .tx
  expects : x.line.expectAddr = false

/-- The transfer once the byte `b` was handed over and has left DR, so that TXE is set (L3, L6). -/
def Transfer.send (x : Transfer) (b : Byte) : Transfer :=
  { x with
    regs := { x.regs with drTx := b, sr1 := { x.regs.sr1 with txe := true, btf := false } }
    line := { x.line with dataWritten := true } }

/-- The transfer once the shift register is empty too (L6). -/
def Transfer.drain (x : Transfer) : Transfer := x.put { x.regs with sr1 := { x.regs.sr1 with btf := true } }

theorem Sending.hand_line (sending : Sending x) (b : Byte) : (x.hand b).line = x.line :=
  if_neg (sending.expects.symm ▸ Bool.false_ne_true)

section Bytes

variable (bus : LawfulBus s k) (sending : Sending x) (cmd : x.seq.cmd = some (.i2cWrite k addr n ops))

include bus sending cmd

/-- One byte: the write of DR, step L6 and the poll of TXE, with what follows it. -/
theorem takes_writeByte
    (answers : ∀ l, afterByteWritten n.toNat
      (s.within k (((x.send (dataByte ops x.seq.i)).inPhase .dataPhase).goto (.writeBody .wait)) l) =
        .next (s.within k y l)) :
    Takes s k [.seq, .bus k .shiftOut, .seq] (x.goto (.writeBody .put)) y := by
  have put : Takes s k [.seq] (x.goto (.writeBody .put))
      ⟨{ x.seq with point := .writeBody .wait }, (x.hand (dataByte ops x.seq.i)).regs, x.line⟩ :=
    .seq bus cmd fun l => by
      rw [exec_i2cWrite_writeBody rfl, writeByteBody, State.within_writeDr, ← sending.hand_line (dataByte ops x.seq.i)]
      rfl
  have shifted : Takes s k [.bus k .shiftOut]
      ⟨{ x.seq with point := .writeBody .wait }, (x.hand (dataByte ops x.seq.i)).regs, x.line⟩
      ((x.send (dataByte ops x.seq.i)).goto (.writeBody .wait)) :=
    .bus bus (by simp [busEnabled, Transfer.hand, Sr1.afterDrWrite, sending.pe, sending.consumed, sending.pending])
  have seen : Takes s k [.seq] ((x.send (dataByte ops x.seq.i)).goto (.writeBody .wait)) y :=
    .poll bus cmd Sr1.txe rfl sending.noError (fun t at_ => exec_i2cWrite_writeBody at_) answers
  exact put.append (shifted.append seen)

/-- After the last byte: step L6 that sets BTF, the poll of BTF, and the read of CR1 for the stop request. -/
theorem takes_writeEnd (b : Byte) :
    Takes s k [.bus k .byteDone, .seq, .seq] ((x.send b).goto .btfWait)
      ((x.send b).drain.goto (.stopBody (.write x.regs.cr1))) := by
  have drained : Takes s k [.bus k .byteDone] ((x.send b).goto .btfWait) ((x.send b).drain.goto .btfWait) :=
    .bus bus (by simp [busEnabled, Transfer.goto, Transfer.send, sending.pe, sending.pending])
  have seen : Takes s k [.seq] ((x.send b).drain.goto .btfWait) ((x.send b).drain.goto (.stopBody .read)) :=
    .poll bus cmd Sr1.btf rfl sending.noError (fun t at_ => exec_i2cWrite_btfWait at_) fun l => rfl
  have latched : Takes s k [.seq] ((x.send b).drain.goto (.stopBody .read))
      ((x.send b).drain.goto (.stopBody (.write x.regs.cr1))) :=
    .seq bus cmd fun l => by
      rw [exec_i2cWrite_stopBody rfl, stopBody, cr1Write, State.within_regs]
      rfl
  exact drained.append (seen.append latched)

end Bytes

/-- Byte `SEQ.i` and the `m` after it, up to the last. -/
theorem takes_writeBytes (bus : LawfulBus s k) (m : Nat) {x : Transfer} (sending : Sending x)
    (cmd : x.seq.cmd = some (.i2cWrite k addr n ops)) (index : x.seq.i + (m + 1) = n.toNat) :
    Takes s k (List.replicate (m + 1) [Config.Turn.seq, .bus k .shiftOut, .seq]).flatten (x.goto (.writeBody .put))
      ((((x.send (dataByte ops (n.toNat - 1))).inPhase .dataPhase).setIndex (n.toNat - 1)).goto .btfWait) := by
  induction m generalizing x with
  | zero =>
    have last : x.seq.i = n.toNat - 1 := by omega
    rw [← last]
    exact takes_writeByte bus sending cmd fun l => afterByteWritten_last (Nat.le_of_eq index.symm)
  | succ m ih =>
    have more : x.seq.i + 1 < n.toNat := by omega
    have byte : Takes s k [.seq, .bus k .shiftOut, .seq] (x.goto (.writeBody .put))
        ((((x.send (dataByte ops x.seq.i)).inPhase .dataPhase).setIndex (x.seq.i + 1)).goto (.writeBody .put)) :=
      takes_writeByte bus sending cmd fun l => afterByteWritten_more more
    have sent : Sending (((x.send (dataByte ops x.seq.i)).inPhase .dataPhase).setIndex (x.seq.i + 1)) :=
      ⟨sending.pe, sending.noError, sending.consumed, sending.pending, sending.expects⟩
    exact byte.append (ih sent cmd (by rw [← index]; exact Nat.add_right_comm ..))

/-- The turns of the transfer between the first turn of the command and its last. -/
def writeTransferTurns (k : InstId) (n : Nat) : List Config.Turn :=
  openingTurns k ++ ((List.replicate n [Config.Turn.seq, .bus k .shiftOut, .seq]).flatten ++
    [Config.Turn.bus k .byteDone, .seq, .seq])

theorem writeTurns_eq (k : InstId) (n : Nat) :
    writeTurns k n = Config.Turn.seq :: writeTransferTurns k n ++ [Config.Turn.seq] := by
  simp [writeTurns, writeTransferTurns]

/-- The transfer of an `I2C_WRITE`, all bytes sent. -/
def Transfer.written (x : Transfer) (addr : BitVec 7) (n : Nat) (ops : List Word) : Transfer :=
  ((((x.acknowledged addr .write false).send (dataByte ops (n - 1))).inPhase .dataPhase).setIndex (n - 1)).drain

/-- The start and address phase, the bytes, and what follows the last. -/
theorem takes_write (bus : LawfulBus s k) (cmd : x.seq.cmd = some (.i2cWrite k addr n ops))
    (pe : x.regs.cr1.pe = true) (free : x.regs.sr2.busy = false) (noError : NoError x.regs.sr1)
    (line : x.line.line ≠ .other) (nonzero : n ≠ 0#12) :
    Takes s k (writeTransferTurns k n.toNat) (x.goto (.startBody .busFree))
      ((x.written addr n.toNat ops).goto (.stopBody (.write { x.regs.cr1 with start := false }))) := by
  obtain ⟨m, count⟩ : ∃ m, n.toNat = m + 1 := Nat.exists_eq_add_one.mpr (length_pos nonzero)
  have opening : Takes s k (openingTurns k) (x.goto (.startBody .busFree))
      ((((x.acknowledged addr .write false).inPhase .addressPhase).setIndex 0).goto (.writeBody .put)) :=
    takes_opening bus cmd (fun t p => exec_i2cWrite_startBody) (fun t p => exec_i2cWrite_addressBody) pe free noError
      line fun l => rfl
  have sending : Sending (((x.acknowledged addr .write false).inPhase .addressPhase).setIndex 0) :=
    ⟨pe, noError, rfl, rfl, rfl⟩
  have bytes := takes_writeBytes (ops := ops) bus m sending cmd ((Nat.zero_add _).trans count.symm)
  rw [← count] at bytes
  have sent : Sending (((x.acknowledged addr .write false).inPhase .dataPhase).setIndex (n.toNat - 1)) :=
    ⟨pe, noError, rfl, rfl, rfl⟩
  exact opening.append (bytes.append (takes_writeEnd bus sent cmd (dataByte ops (n.toNat - 1))))

/-- SEQ has 10 turns and two for each byte (44_bus_transactions.md R181). -/
theorem count_writeTurns (k : InstId) (n : Nat) : (writeTurns k n).count .seq = 10 + 2 * n := by
  simp [writeTurns, openingTurns, List.count_flatten]
  omega

/-- The last turn requests the stop and ends the command. -/
theorem exec_i2cWrite_ends {w : Cr1} {l : List Config.Turn} (x : Transfer) :
    exec (.i2cWrite k addr n ops) (s.within k (x.goto (.stopBody (.write w))) l) =
      .next ((s.within k (x.put { x.regs with cr1 := { w with stop := true } }) l).finish .ok 0#32 []) := by
  rw [exec_i2cWrite_stopBody rfl, stopBody, cr1Write, State.writeCr1, State.within_regs, State.within_setRegs]
  rfl

/-- Settles O34: the first turn enters the command, the turns of the transfer follow, and the last ends it. -/
theorem writeOfNBytesCompletes : Obligations.WriteOfNBytesCompletes := by
  intro s k addr n ops rest ready free nonzero agenda
  refine ⟨count_writeTurns k n.toNat, ?_⟩
  obtain ⟨clear, -⟩ := id ready
  have bus := LawfulBus.of_free clear free
  obtain ⟨-, -, usable, -, pe, idle, noError, line⟩ := free
  rw [writeTurns_eq] at agenda ⊢
  refine runs_transfer bus ready agenda (fun t start usable => ?_) usable
    (takes_write (x := ⟨{ Sequencer.idle with cmd := some _ }, s.regs k, s.hidden k⟩) bus rfl pe idle noError line
      nonzero)
    rfl (exec_i2cWrite_ends _)
  rw [exec_i2cWrite_start start usable, if_neg nonzero]

end Sys2Proof.Machine
end

section
/-! PROOF. An `I2C_READ` of any N bytes on a lawful bus (44_bus_transactions.md R183; 43_bus_engine.md R173, R174). -/

namespace Sys2Proof.Machine

open Sys2Proof.Claims

variable {s : State} {k : InstId} {addr : BitVec 7} {n : BitVec 12} {x y : Transfer} {b : Byte}

/-- The transfer receives: its address is acknowledged, and no byte and no stop was seen since (43_bus_engine.md R173). -/
structure Receiving (x : Transfer) : Prop where
  pe : x.regs.cr1.pe = true
  consumed : x.regs.sr1.addr = false
  empty : x.regs.sr1.rxne = false
  pending : x.line.pending = .rx
  unseen : x.line.stopSeenRx = false

/-- The transfer once the byte `b` has come, with the stop seen if it was requested before (L8). -/
def Transfer.receive (x : Transfer) (b : Byte) : Transfer :=
  { x with
    regs := { x.regs with drRx := b, sr1 := { x.regs.sr1 with rxne := true } }
    line := { x.line with stopSeenRx := x.regs.cr1.stop } }

/-- The transfer once SEQ has read that byte from DR, which clears RXNE and BTF, and kept it (10_state.md R38). -/
def Transfer.take (x : Transfer) (b : Byte) : Transfer :=
  { seq := { x.seq with phase := .dataPhase, buf := x.seq.buf ++ [b] }
    regs := { x.regs with drRx := b, sr1 := { x.regs.sr1 with rxne := false, btf := false } }
    line := { x.line with stopSeenRx := x.regs.cr1.stop } }

theorem State.within_afterDrRead (s : State) (k : InstId) (x : Transfer) (l : List Config.Turn) :
    (s.within k x l).afterDrRead k = s.within k (x.put { x.regs with sr1 := x.regs.sr1.afterDrRead }) l := by
  rw [State.afterDrRead, State.within_regs, State.within_setRegs]

section Byte

variable {i : Instr} (bus : LawfulBus s k) (receiving : Receiving x) (cmd : x.seq.cmd = some i)

include bus receiving cmd

/-- One byte: step L8, the poll of RXNE, and the read of DR with what follows it. -/
theorem takes_readByte {at_ : TakePoint → Point} {done : State → Res}
    (lines : ∀ (t : State) (p : TakePoint), t.seq.point = at_ p →
      exec i t = readByteBody k at_ p t fun b u => done (u.pushByte b))
    (answers : ∀ l, done (s.within k ((x.take b).goto (at_ .take)) l) = .next (s.within k y l)) :
    Takes s k (byteTurns k b) (x.goto (at_ .wait)) y := by
  have received : Takes s k [.bus k (.receive b)] (x.goto (at_ .wait)) ((x.receive b).goto (at_ .wait)) := by
    have enabled : busEnabled .lawful true (.receive b) x.regs x.line = true := by
      simp [busEnabled, receiving.pe, receiving.consumed, receiving.empty, receiving.pending, receiving.unseen]
    have step := Takes.bus (x := x.goto (at_ .wait)) bus enabled
    rwa [busLineEffect, show (x.goto (at_ .wait)).line.stopSeenRx = false from receiving.unseen, Bool.false_or] at step
  have seen : Takes s k [.seq] ((x.receive b).goto (at_ .wait)) ((x.receive b).goto (at_ .take)) :=
    .seq bus cmd fun l => by
      rw [lines _ .wait rfl, readByteBody, State.within_regs]
      rfl
  have taken : Takes s k [.seq] ((x.receive b).goto (at_ .take)) y :=
    .seq bus cmd fun l => by
      rw [lines _ .take rfl, readByteBody, State.within_afterDrRead, State.within_regs]
      exact answers l
  exact received.append (seen.append taken)

end Byte

/-- The transfer once the bytes `l` have been read, no stop seen. -/
def Transfer.takeAll (x : Transfer) (l : List Byte) : Transfer :=
  { seq := { x.seq with phase := .dataPhase, buf := x.seq.buf ++ l }
    regs := { x.regs with drRx := l.getLastD x.regs.drRx, sr1 := { x.regs.sr1 with rxne := false, btf := false } }
    line := { x.line with stopSeenRx := false } }

theorem Transfer.take_takeAll (x : Transfer) (b : Byte) (l : List Byte) :
    (x.take b).takeAll l = x.takeAll (b :: l) := by
  simp [Transfer.take, Transfer.takeAll, List.getLast?_cons]

theorem Transfer.take_eq_takeAll (stop : x.regs.cr1.stop = false) : x.take b = x.takeAll [b] := by
  rw [Transfer.take, stop]
  rfl

/-- The bytes from `SEQ.i` on, but the last. -/
theorem takes_readBytes (bus : LawfulBus s k) (b : Byte) (rest : List Byte) {x : Transfer} (receiving : Receiving x)
    (stop : x.regs.cr1.stop = false) (cmd : x.seq.cmd = some (.i2cRead k addr n))
    (index : x.seq.i + (rest.length + 2) = n.toNat) :
    Takes s k ((b :: rest).flatMap (byteTurns k)) (x.goto (.readBody .wait))
      (((x.takeAll (b :: rest)).setIndex (n.toNat - 1)).goto (.ackOff .read)) := by
  induction rest generalizing b x with
  | nil =>
    rw [← Transfer.take_eq_takeAll stop]
    exact takes_readByte (at_ := .readBody) bus receiving cmd (fun t p => exec_i2cRead_readBody) fun l =>
      afterByteRead_last (Nat.le_of_eq index.symm)
  | cons c rest ih =>
    have more : x.seq.i + 2 < n.toNat := by rw [← index, List.length_cons]; omega
    have byte : Takes s k (byteTurns k b) (x.goto (.readBody .wait))
        (((x.take b).setIndex (x.seq.i + 1)).goto (.readBody .wait)) :=
      takes_readByte (at_ := .readBody) bus receiving cmd (fun t p => exec_i2cRead_readBody) fun l =>
        afterByteRead_more more
    have next : Receiving ((x.take b).setIndex (x.seq.i + 1)) :=
      ⟨receiving.pe, receiving.consumed, rfl, receiving.pending, stop⟩
    rw [← Transfer.take_takeAll, List.flatMap_cons]
    exact byte.append (ih c next stop cmd (by rw [← index]; exact Nat.add_right_comm ..))

/-- The transfer with ACK written. -/
def Transfer.ack (x : Transfer) (v : Bool) : Transfer := x.put { x.regs with cr1 := { x.regs.cr1 with ack := v } }

/-- The transfer with the stop requested. -/
def Transfer.stop (x : Transfer) : Transfer := x.put { x.regs with cr1 := { x.regs.cr1 with stop := true } }

/-- The turns of the last byte of an `I2C_READ`, up to the read of CR1 for the ACK that is put back. -/
def lastTurns (k : InstId) (b : Byte) : List Config.Turn :=
  Config.Turn.seq :: .seq :: .seq :: .seq :: (byteTurns k b ++ [Config.Turn.seq])

/-- ACK off and STOP before the last byte, the last byte, and the read of CR1 for the ACK that is put back. -/
theorem takes_readEnd (bus : LawfulBus s k) (receiving : Receiving x) (cmd : x.seq.cmd = some (.i2cRead k addr n)) :
    Takes s k (lastTurns k b) (x.goto (.ackOff .read))
      (((x.ack false).stop.take b).goto (.restoreAck (.write (x.ack false).stop.regs.cr1))) := by
  have off : Takes s k [.seq, .seq] (x.goto (.ackOff .read)) ((x.ack false).goto (.stopBody .read)) :=
    .fieldWrite bus cmd (fun t r => exec_i2cRead_ackOff) fun l => rfl
  have stop : Takes s k [.seq, .seq] ((x.ack false).goto (.stopBody .read))
      (((x.ack false).stop.inPhase .stopped).goto (.lastBody .wait)) :=
    .fieldWrite (x := x.ack false) bus cmd (fun t r => exec_i2cRead_stopBody) fun l => rfl
  have ready : Receiving ((x.ack false).stop.inPhase .stopped) :=
    ⟨receiving.pe, receiving.consumed, receiving.empty, receiving.pending, receiving.unseen⟩
  have last : Takes s k (byteTurns k b) (((x.ack false).stop.inPhase .stopped).goto (.lastBody .wait))
      (((x.ack false).stop.take b).goto (.restoreAck .read)) :=
    takes_readByte (done := fun t => .next (t.goto (.restoreAck .read))) bus ready cmd
      (fun t p => exec_i2cRead_lastBody) fun l => rfl
  have latched : Takes s k [.seq] (((x.ack false).stop.take b).goto (.restoreAck .read))
      (((x.ack false).stop.take b).goto (.restoreAck (.write (x.ack false).stop.regs.cr1))) :=
    .seq bus cmd fun l => by
      rw [exec_i2cRead_restoreAck rfl, ackWrite, cr1Write, State.within_regs]
      rfl
  exact (off.append stop).append (last.append latched)

/-! The whole transfer -/

/-- The transfer with ACK saved and no byte received. -/
def Transfer.save (x : Transfer) : Transfer :=
  { x with seq := { x.seq with savedAck := x.regs.cr1.ack, buf := [] } }

/-- The transfer of an `I2C_READ` of `n` bytes, all of them received. -/
def Transfer.readOut (x : Transfer) (addr : BitVec 7) (n : Nat) (first : List Byte) (last : Byte) : Transfer :=
  ((((x.save.acknowledged addr .read false).takeAll first).setIndex (n - 1)).ack false).stop.take last

/-- The turns between the first turn of the command and its last. -/
def readTransferTurns (k : InstId) (first : List Byte) (last : Byte) : List Config.Turn :=
  Config.Turn.seq :: (openingTurns k ++
    ((if first = [] then [] else Config.Turn.seq :: Config.Turn.seq :: first.flatMap (byteTurns k)) ++
      lastTurns k last))

theorem readTurns_eq (k : InstId) (first : List Byte) (last : Byte) :
    readTurns k first last = Config.Turn.seq :: readTransferTurns k first last ++ [Config.Turn.seq] := by
  cases first <;> simp [readTurns, readTransferTurns, lastTurns]

/-- The saved ACK, the start and address phase, the bytes before the last, and the last. -/
theorem takes_read (bus : LawfulBus s k) {first : List Byte} {last : Byte}
    (cmd : x.seq.cmd = some (.i2cRead k addr n)) (pe : x.regs.cr1.pe = true) (free : x.regs.sr2.busy = false)
    (noError : NoError x.regs.sr1) (line : x.line.line ≠ .other) (empty : x.regs.sr1.rxne = false)
    (stop : x.regs.cr1.stop = false) (unseen : x.line.stopSeenRx = false) (count : n.toNat = first.length + 1) :
    Takes s k (readTransferTurns k first last) (x.goto .saveAck)
      ((x.readOut addr n.toNat first last).goto
        (.restoreAck (.write { x.regs.cr1 with start := false, ack := false, stop := true }))) := by
  have saved : Takes s k [.seq] (x.goto .saveAck) (x.save.goto (.startBody .busFree)) :=
    .seq bus cmd fun l => by
      rw [exec_i2cRead_saveAck rfl, State.within_regs]
      rfl
  have opening (y : Transfer) (answers) : Takes s k (openingTurns k) (x.save.goto (.startBody .busFree)) y :=
    takes_opening (x := x.save) bus cmd (fun t p => exec_i2cRead_startBody) (fun t p => exec_i2cRead_addressBody) pe
      free noError line answers
  cases first with
  | nil =>
    have one : n.toNat ≤ 1 := Nat.le_of_eq count
    have addressed := opening
      ((((x.save.acknowledged addr .read false).inPhase .addressPhase).setIndex (n.toNat - 1)).goto (.ackOff .read))
      fun l => afterReadAddress_one one
    exact saved.append (addressed.append (takes_readEnd bus ⟨pe, rfl, empty, rfl, unseen⟩ cmd))
  | cons b bytes =>
    have more : 1 < n.toNat := by rw [count]; exact Nat.succ_lt_succ (Nat.succ_pos _)
    have addressed := opening
      ((((x.save.acknowledged addr .read false).inPhase .addressPhase).setIndex 0).goto (.ackOn .read))
      fun l => afterReadAddress_more more
    have on : Takes s k [.seq, .seq]
        ((((x.save.acknowledged addr .read false).inPhase .addressPhase).setIndex 0).goto (.ackOn .read))
        (((((x.save.acknowledged addr .read false).inPhase .addressPhase).setIndex 0).ack true).goto
          (.readBody .wait)) :=
      .fieldWrite (x := ((x.save.acknowledged addr .read false).inPhase .addressPhase).setIndex 0) bus cmd
        (fun t r => exec_i2cRead_ackOn) fun l => rfl
    have received := takes_readBytes bus b bytes
      (x := (((x.save.acknowledged addr .read false).inPhase .addressPhase).setIndex 0).ack true)
      ⟨pe, rfl, empty, rfl, unseen⟩ stop cmd ((Nat.zero_add _).trans count.symm)
    exact saved.append (addressed.append ((on.append received).append
      (takes_readEnd bus ⟨pe, rfl, rfl, rfl, rfl⟩ cmd)))

/-- The last turn puts the saved ACK back and ends the command. -/
theorem exec_i2cRead_ends {w : Cr1} {l : List Config.Turn} (x : Transfer) :
    exec (.i2cRead k addr n) (s.within k (x.goto (.restoreAck (.write w))) l) =
      .next ((s.within k (x.put { x.regs with cr1 := { w with ack := x.seq.savedAck } }) l).finish .ok 0#32
        x.seq.buf) := by
  rw [exec_i2cRead_restoreAck rfl, ackWrite, cr1Write, State.writeCr1, State.within_regs, State.within_setRegs]
  rfl

/-- Settles O35: the first turn enters the command, the turns of the transfer follow, and the last ends it. -/
theorem readReturnsTheDeliveredBytes : Obligations.ReadReturnsTheDeliveredBytes := by
  intro s k addr n first last rest ready free empty stop unseen count agenda
  obtain ⟨clear, -⟩ := id ready
  have bus := LawfulBus.of_free clear free
  obtain ⟨-, -, usable, -, pe, idle, noError, line⟩ := free
  have nonzero : n ≠ 0#12 := by
    rintro rfl
    cases count
  have byte : addressByte addr .read = BitVec.ofNat 8 (addr.toNat * 2 + 1) := addressByte_eq addr .read
  rw [readTurns_eq] at agenda ⊢
  rw [← byte]
  refine runs_transfer bus ready agenda (fun t start usable => ?_) usable
    (takes_read (x := ⟨{ Sequencer.idle with cmd := some _ }, s.regs k, s.hidden k⟩) bus rfl pe idle noError line empty
      stop unseen count)
    rfl (exec_i2cRead_ends _)
  rw [exec_i2cRead_start start usable, if_neg nonzero]

end Sys2Proof.Machine
end

section
/-! PROOF. What each micro-step of a command answers: the command goes on, returns OK, raises an error that its line may
raise, or faults at a line that writes nothing; only at a line it does not have it answers no next state
(60_exceptions.md R190 to R192, R198). -/

namespace Sys2Proof.Machine

open Sys2Proof.Claims

variable {i : Instr} {s t u : State} {k : InstId}

/-! The errors of each line -/

/-- The errors that a wait for ADDR, TXE or BTF raises (43_bus_engine.md R158). -/
def waitErrors : List Status := [.acknowledgeFailure, .arbitrationLost, .busError]

/-- The errors that the line `p` of command `i` may raise (60_exceptions.md R191): the bad frequency of `I2C_INIT`, and the
errors of the waits. -/
def errorsAt (i : Instr) (p : Point) : List Status :=
  match i, p with
  | .i2cInit _ _ _ _ _ _, .start => [.initError]
  | .i2cStart _, .startBody .wait => [.busError]
  | .i2cAddr _ _ _, .addressBody .wait => waitErrors
  | .i2cWrbyte _ _, .writeBody .wait => waitErrors
  | .i2cWrite _ _ _ _, .startBody .wait => [.busError]
  | .i2cWrite _ _ _ _, .addressBody .wait => waitErrors
  | .i2cWrite _ _ _ _, .writeBody .wait => waitErrors
  | .i2cWrite _ _ _ _, .btfWait => waitErrors
  | .i2cRead _ _ _, .startBody .wait => [.busError]
  | .i2cRead _ _ _, .addressBody .wait => waitErrors
  | _, _ => []

theorem mem_waitErrors {r : Sr1} {e : Status} (h : r.errs = some e) : e ∈ waitErrors := by
  rcases Sr1.errs_some h with rfl | rfl | rfl <;> decide

theorem ok_mem_statusesOf (i : Instr) : Status.ok ∈ statusesOf i := by
  unfold statusesOf
  split <;> decide

/-- No command ends with BusyError (60_exceptions.md R191). -/
theorem busyError_not_mem_statusesOf (i : Instr) : Status.busyError ∉ statusesOf i := by
  unfold statusesOf
  split <;> decide

/-- The errors of a command's lines are statuses it may end with. -/
theorem errorsAt_subset (i : Instr) (p : Point) : errorsAt i p ⊆ statusesOf i := by
  unfold errorsAt
  split <;> simp [statusesOf, waitErrors]

/-- `I2C_READ` raises an error only from its start or address wait (60_exceptions.md R191). -/
theorem mem_errorsAt_i2cRead {addr : BitVec 7} {n : BitVec 12} {p : Point} {e : Status}
    (h : e ∈ errorsAt (.i2cRead k addr n) p) : p = .startBody .wait ∨ p = .addressBody .wait := by
  unfold errorsAt at h
  split at h <;> simp_all

/-! What a micro-step answers -/

/-- `t` has the result log and the fault register of `s`. -/
structure Steady (s t : State) : Prop where
  results : t.results = s.results
  fault : t.fault = s.fault

/-- What a micro-step of command `i` on `s` answers. -/
inductive Answer (i : Instr) (s : State) : Res → Prop where
  /-- the command goes on -/
  | goesOn {t : State} (steady : Steady s t) : Answer i s (.next t)
  /-- the command ends OK -/
  | returns {u : State} {v : Word} {l : List Byte} (steady : Steady s u) : Answer i s (.next (u.finish .ok v l))
  /-- the command ends with an error of its line, which writes nothing else (60_exceptions.md R192) -/
  | raises {e : Status} (error : e ∈ errorsAt i s.seq.point) : Answer i s (.next (s.finish e 0#32 []))
  /-- the command faults, at a line that writes nothing (60_exceptions.md R198) -/
  | faults {f : Fault} (early : s.seq.point = .start ∨ s.seq.point = .init .clock) :
      Answer i s (.next { s with fault := some f })
  /-- SEQ stands at a line that the command does not have -/
  | stray (later : s.seq.point ≠ .start) (line : hasLine i s.seq = false) : Answer i s (.refused .strayPoint)

theorem Steady.refl (s : State) : Steady s s := ⟨rfl, rfl⟩

theorem Steady.trans (h : Steady s u) (g : Steady u t) : Steady s t :=
  ⟨g.results.trans h.results, g.fault.trans h.fault⟩

/-- The command goes on from a state that its body left. -/
theorem Answer.next (steady : Steady s u) (results : t.results = u.results) (fault : t.fault = u.fault) :
    Answer i s (.next t) := .goesOn (steady.trans ⟨results, fault⟩)

/-! The checks and the shared bodies -/

section Checks

variable {rest : Res} (start : s.seq.point = .start)
include start

theorem Answer.requireOwned {p : PeriphId} (h : Answer i s rest) : Answer i s (requireOwned p s rest) := by
  unfold Machine.requireOwned
  split
  · exact h
  · exact .faults (.inl start)

theorem Answer.prelude (h : Answer i s rest) : Answer i s (prelude k s rest) := by
  unfold Machine.prelude
  split
  · split
    · exact h
    · exact .faults (.inl start)
  · exact .faults (.inl start)

theorem Answer.returnFreq (f : Except Fault Nat) : Answer i s (returnFreq f s) := by
  unfold Machine.returnFreq
  split
  · exact .returns (.refl s)
  · exact .faults (.inl start)

end Checks

theorem Answer.returnPure (r : Except Fault Word) (noLine : hasLine i s.seq = false) : Answer i s (returnPure r s) := by
  unfold Machine.returnPure
  split
  next start =>
    split
    · exact .returns (.refl s)
    · exact .faults (.inl start)
  next later => exact .stray later noLine

section Bodies

variable {done : State → Res}

theorem Answer.cr1Write {f : Cr1 → Cr1} {at_ : Rmw → Point} {r : Rmw}
    (goes : ∀ u, Steady s u → Answer i s (done u)) : Answer i s (cr1Write k f at_ r s done) := by
  cases r with
  | read => exact .goesOn ⟨rfl, rfl⟩
  | write w => exact goes _ ⟨rfl, rfl⟩

theorem Answer.stopBody {r : Rmw} (goes : ∀ u, Steady s u → Answer i s (done u)) :
    Answer i s (stopBody k r s done) := .cr1Write fun _ steady => goes _ (steady.trans ⟨rfl, rfl⟩)

/-- The status a poll raises is the error it saw (43_bus_engine.md R158). -/
theorem pollWith_error {order : Config.CheckOrder} {err : Option Status} {flag : Bool} {e : Status}
    (h : pollWith order err flag = .error e) : err = some e := by
  cases err with
  | none => cases order <;> cases flag <;> cases h
  | some e' => cases order <;> cases flag <;> cases h <;> rfl

theorem Answer.pollFlags {err : Option Status} {flag : Bool} (errors : ∀ e, err = some e → e ∈ errorsAt i s.seq.point)
    (goes : Answer i s (done s)) : Answer i s (pollFlags err flag s done) := by
  unfold Machine.pollFlags
  split
  next e raised => exact .raises (errors e (pollWith_error raised))
  next => exact goes
  next => exact .goesOn (.refl s)

/-- A wait that checks AF, ARLO and BERR, at a line with the errors of such a wait. -/
theorem Answer.wait {p : Point} {flag : Bool} (at_ : s.seq.point = p) (errors : errorsAt i p = waitErrors)
    (goes : Answer i s (done s)) : Answer i s (Machine.pollFlags (s.regs k).sr1.errs flag s done) :=
  .pollFlags (fun _ error => by rw [at_, errors]; exact mem_waitErrors error) goes

theorem Answer.startBody {p : StartPoint} (at_ : s.seq.point = .startBody p)
    (errors : errorsAt i (.startBody .wait) = [.busError]) (goes : ∀ u, Steady s u → Answer i s (done u)) :
    Answer i s (startBody k p s done) := by
  cases p with
  | busFree =>
    simp only [Machine.startBody]
    split <;> exact .goesOn ⟨rfl, rfl⟩
  | request r =>
    simp only [Machine.startBody]
    exact .cr1Write fun u steady => .next steady rfl rfl
  | wait =>
    simp only [Machine.startBody]
    refine .pollFlags (fun e error => ?_) (goes _ ⟨rfl, rfl⟩)
    obtain ⟨-, rfl⟩ := Sr1.startErrs_some error
    rw [at_, errors]
    exact List.mem_singleton_self _

theorem Answer.addressBody {addr : BitVec 7} {d : Dir} {p : PutPoint} (at_ : s.seq.point = .addressBody p)
    (errors : errorsAt i (.addressBody .wait) = waitErrors) (goes : ∀ u, Steady s u → Answer i s (done u)) :
    Answer i s (addressBody k addr d p s done) := by
  cases p with
  | put => exact .goesOn ⟨rfl, rfl⟩
  | wait =>
    simp only [Machine.addressBody]
    exact .wait at_ errors (goes _ ⟨rfl, rfl⟩)

theorem Answer.writeByteBody {b : Byte} {p : PutPoint} (at_ : s.seq.point = .writeBody p)
    (errors : errorsAt i (.writeBody .wait) = waitErrors) (goes : ∀ u, Steady s u → Answer i s (done u)) :
    Answer i s (writeByteBody k b p s done) := by
  cases p with
  | put => exact .goesOn ⟨rfl, rfl⟩
  | wait =>
    simp only [Machine.writeByteBody]
    exact .wait at_ errors (goes _ ⟨rfl, rfl⟩)

theorem Answer.readByteBody {at_ : TakePoint → Point} {p : TakePoint} {done : Byte → State → Res}
    (goes : ∀ b u, Steady s u → Answer i s (done b u)) : Answer i s (readByteBody k at_ p s done) := by
  cases p with
  | wait =>
    simp only [Machine.readByteBody]
    split <;> exact .goesOn ⟨rfl, rfl⟩
  | take => exact goes _ _ ⟨rfl, rfl⟩

end Bodies

end Sys2Proof.Machine
end

section
/-! PROOF. Every micro-step of every command is an `Answer`: one lemma for each command, its cases the lines of the
command's pseudocode (40_clocktree.md to 44_bus_transactions.md). -/

namespace Sys2Proof.Machine

variable {s : State}

/-- Every line of `CLK_CONFIG` is one of five (40_clocktree.md R102). -/
theorem hasLine_clkConfig {src : Source} {hpre : BitVec 4} {ppre1 ppre2 : BitVec 3} {q : Sequencer}
    (noLine : ∀ p, q.point ≠ .config p) : hasLine (.clkConfig src hpre ppre1 ppre2) q = false := by
  unfold hasLine
  split <;> simp_all

theorem execClkConfig_answer (src : Source) (hpre : BitVec 4) (ppre1 ppre2 : BitVec 3) :
    Answer (.clkConfig src hpre ppre1 ppre2) s (execClkConfig src hpre ppre1 ppre2 s) := by
  unfold execClkConfig
  split
  next =>
    split
    · exact .returns (.refl s)
    · exact .goesOn ⟨rfl, rfl⟩
  next => exact .goesOn ⟨rfl, rfl⟩
  next => split <;> exact .goesOn ⟨rfl, rfl⟩
  next => exact .goesOn ⟨rfl, rfl⟩
  next => exact .goesOn ⟨rfl, rfl⟩
  next =>
    split
    · exact .returns (.refl s)
    · exact .goesOn (.refl s)
  next later _ _ _ _ _ => exact .stray later (hasLine_clkConfig fun p => by cases p <;> assumption)

theorem execClkPllconfig_answer (src : PllInput) (m : BitVec 6) (n : BitVec 9) (pcode : BitVec 2) :
    Answer (.clkPllconfig src m n pcode) s (execClkPllconfig src m n pcode s) := by
  unfold execClkPllconfig
  split
  next start =>
    split
    · exact .faults (.inl start)
    · exact .goesOn ⟨rfl, rfl⟩
  next => exact .returns ⟨rfl, rfl⟩
  next later _ => exact .stray later (by simp_all [hasLine])

theorem execPerTake_answer (p : PeriphId) : Answer (.perTake p) s (execPerTake p s) := by
  unfold execPerTake
  split
  next start =>
    split
    · exact .faults (.inl start)
    · exact .goesOn ⟨rfl, rfl⟩
  next => exact .returns ⟨rfl, rfl⟩
  next later _ => exact .stray later (by simp_all [hasLine])

theorem execPerEnclk_answer (p : PeriphId) : Answer (.perEnclk p) s (execPerEnclk p s) := by
  unfold execPerEnclk
  split
  next start => exact .requireOwned start (.goesOn ⟨rfl, rfl⟩)
  next => exact .returns ⟨by simp, by simp⟩
  next later _ => exact .stray later (by simp_all [hasLine])

theorem execPerDisclk_answer (p : PeriphId) : Answer (.perDisclk p) s (execPerDisclk p s) := by
  unfold execPerDisclk
  split
  next start => exact .requireOwned start (.goesOn ⟨rfl, rfl⟩)
  next => exact .returns ⟨by simp, by simp⟩
  next later _ => exact .stray later (by simp_all [hasLine])

theorem execPerReset_answer (p : PeriphId) : Answer (.perReset p) s (execPerReset p s) := by
  unfold execPerReset
  split
  next start => exact .requireOwned start (.goesOn ⟨rfl, rfl⟩)
  next => exact .goesOn ⟨by simp, by simp⟩
  next => exact .returns ⟨by simp, by simp⟩
  next later _ _ => exact .stray later (by simp_all [hasLine])

section Bus

variable (k : InstId)

/-- Only the clock line of `I2C_INIT` faults, and it only reads (43_bus_engine.md R152, R156). -/
theorem initStep_answer (speed : Speed) (mode : BusMode) (own1 own2 : BitVec 7) (freq : Word) {p : InitPoint}
    (at_ : s.seq.point = .init p) :
    Answer (.i2cInit k speed mode own1 own2 freq) s (initStep k speed mode own1 own2 freq p s) := by
  cases p with
  | clock =>
    simp only [initStep]
    split
    · exact .faults (.inr at_)
    · split
      · exact .goesOn ⟨rfl, rfl⟩
      · exact .faults (.inr at_)
  | divider div rise => exact .goesOn ⟨rfl, rfl⟩
  | riseTime rise => exact .goesOn ⟨rfl, rfl⟩
  | own1 => exact .goesOn ⟨rfl, rfl⟩
  | own2 => exact .goesOn ⟨rfl, rfl⟩
  | enable r =>
    simp only [initStep]
    exact .cr1Write fun u steady => .next steady rfl rfl
  | ack r =>
    simp only [initStep, ackWrite]
    exact .cr1Write fun u steady => .returns steady

theorem execI2cInit_answer (speed : Speed) (mode : BusMode) (own1 own2 : BitVec 7) (freq : Word) :
    Answer (.i2cInit k speed mode own1 own2 freq) s (execI2cInit k speed mode own1 own2 freq s) := by
  unfold execI2cInit
  split
  next start =>
    refine .prelude start ?_
    split
    · split
      · exact .faults (.inl start)
      · split
        · exact .faults (.inl start)
        · exact .goesOn ⟨rfl, rfl⟩
    · exact .raises (by rw [start]; exact List.mem_singleton_self _)
  next at_ => exact initStep_answer k speed mode own1 own2 freq at_
  next later _ => exact .stray later (by simp_all [hasLine])

theorem execI2cStart_answer : Answer (.i2cStart k) s (execI2cStart k s) := by
  unfold execI2cStart
  split
  next start => exact .prelude start (.goesOn ⟨rfl, rfl⟩)
  next at_ => exact .startBody at_ rfl fun u steady => .returns steady
  next later _ => exact .stray later (by simp_all [hasLine])

theorem execI2cAddr_answer (addr : BitVec 7) (rw : Dir) : Answer (.i2cAddr k addr rw) s (execI2cAddr k addr rw s) := by
  unfold execI2cAddr
  split
  next start => exact .prelude start (.goesOn ⟨rfl, rfl⟩)
  next at_ => exact .addressBody at_ rfl fun u steady => .returns steady
  next later _ => exact .stray later (by simp_all [hasLine])

theorem execI2cWrbyte_answer (data : Byte) : Answer (.i2cWrbyte k data) s (execI2cWrbyte k data s) := by
  unfold execI2cWrbyte
  split
  next start => exact .prelude start (.goesOn ⟨rfl, rfl⟩)
  next at_ => exact .writeByteBody at_ rfl fun u steady => .returns steady
  next later _ => exact .stray later (by simp_all [hasLine])

theorem execI2cRdbyte_answer : Answer (.i2cRdbyte k) s (execI2cRdbyte k s) := by
  unfold execI2cRdbyte
  split
  next start => exact .prelude start (.goesOn ⟨rfl, rfl⟩)
  next => exact .readByteBody fun b u steady => .returns steady
  next later _ => exact .stray later (by simp_all [hasLine])

theorem execI2cStop_answer : Answer (.i2cStop k) s (execI2cStop k s) := by
  unfold execI2cStop
  split
  next start => exact .prelude start (.goesOn ⟨rfl, rfl⟩)
  next => exact .stopBody fun u steady => .returns steady
  next later _ => exact .stray later (by simp_all [hasLine])

theorem execI2cWrite_answer (addr : BitVec 7) (n : BitVec 12) (ops : List Word) :
    Answer (.i2cWrite k addr n ops) s (execI2cWrite k addr n ops s) := by
  unfold execI2cWrite
  split
  next start =>
    refine .prelude start ?_
    split
    · exact .faults (.inl start)
    · exact .goesOn ⟨rfl, rfl⟩
  next at_ => exact .startBody at_ rfl fun u steady => .next steady rfl rfl
  next at_ => exact .addressBody at_ rfl fun u steady => .next steady rfl rfl
  next at_ =>
    refine .writeByteBody at_ rfl fun u steady => ?_
    unfold afterByteWritten
    split <;> exact .next steady rfl rfl
  next at_ => exact .wait at_ rfl (.goesOn ⟨rfl, rfl⟩)
  next => exact .stopBody fun u steady => .returns steady
  next later _ _ _ _ _ => exact .stray later (by simp_all [hasLine])

theorem execI2cRead_answer (addr : BitVec 7) (n : BitVec 12) :
    Answer (.i2cRead k addr n) s (execI2cRead k addr n s) := by
  unfold execI2cRead
  split
  next start =>
    refine .prelude start ?_
    split
    · exact .faults (.inl start)
    · exact .goesOn ⟨rfl, rfl⟩
  next => exact .goesOn ⟨rfl, rfl⟩
  next at_ => exact .startBody at_ rfl fun u steady => .next steady rfl rfl
  next at_ =>
    refine .addressBody at_ rfl fun u steady => ?_
    unfold afterReadAddress
    split <;> exact .next steady rfl rfl
  next => exact .cr1Write fun u steady => .next steady rfl rfl
  next =>
    refine .readByteBody fun b u steady => ?_
    unfold afterByteRead
    split <;> exact .next steady rfl rfl
  next => exact .cr1Write fun u steady => .next steady rfl rfl
  next => exact .stopBody fun u steady => .next steady rfl rfl
  next => exact .readByteBody fun b u steady => .next steady rfl rfl
  next => exact .cr1Write fun u steady => .returns steady
  next later _ _ _ _ _ _ _ _ _ => exact .stray later (by simp_all [hasLine])

end Bus

/-- What every micro-step of every command answers. -/
theorem exec_answer (i : Instr) (s : State) : Answer i s (exec i s) := by
  cases i with
  | clkSysfreq | clkAhbfreq | clkApb1freq | clkApb2freq =>
    simp only [exec, execClkSysfreq, execClkAhbfreq, execClkApb1freq, execClkApb2freq]
    split
    next start => exact .returnFreq start _
    next later => exact .stray later rfl
  | clkConfig src hpre ppre1 ppre2 => exact execClkConfig_answer src hpre ppre1 ppre2
  | clkPllconfig src m n pcode => exact execClkPllconfig_answer src m n pcode
  | pack | maskNew | maskUnion | maskIntersect | maskComplement | maskXor | maskSet | maskReset | maskIsset =>
    simp only [exec, execPack, execMaskNew, execMaskUnion, execMaskIntersect, execMaskComplement, execMaskXor,
      execMaskSet, execMaskReset, execMaskIsset]
    exact .returnPure _ rfl
  | perTake p => exact execPerTake_answer p
  | perEnclk p => exact execPerEnclk_answer p
  | perDisclk p => exact execPerDisclk_answer p
  | perReset p => exact execPerReset_answer p
  | i2cInit k speed mode own1 own2 freq => exact execI2cInit_answer k speed mode own1 own2 freq
  | i2cStart k => exact execI2cStart_answer k
  | i2cAddr k addr rw => exact execI2cAddr_answer k addr rw
  | i2cWrbyte k data => exact execI2cWrbyte_answer k data
  | i2cRdbyte k => exact execI2cRdbyte_answer k
  | i2cStop k => exact execI2cStop_answer k
  | i2cWrite k addr n ops => exact execI2cWrite_answer k addr n ops
  | i2cRead k addr n => exact execI2cRead_answer k addr n

end Sys2Proof.Machine
end

section
/-! PROOF. How a command faults, which statuses it ends with, and that a coherent block always steps (60_exceptions.md
R190 to R192, R198; 30_encoding.md R92). -/

namespace Sys2Proof.Machine

open Sys2Proof.Claims

variable {i : Instr} {s t : State} {f : Fault} {r : Result}

/-! One micro-step -/

/-- A micro-step that enters a fault writes FAULT alone, at a line that writes nothing (60_exceptions.md R198). -/
theorem Answer.fault_eq (answer : Answer i s (.next t)) (clear : s.fault = none) (fault : t.fault = some f) :
    t = { s with fault := some f } ∧ (s.seq.point = .start ∨ s.seq.point = .init .clock) := by
  cases answer with
  | goesOn steady => simp [steady.fault, clear] at fault
  | returns steady => simp [steady.fault, clear] at fault
  | raises error => simp [clear] at fault
  | faults early =>
    cases fault
    exact ⟨rfl, early⟩

/-- A micro-step that appends a result ends its command OK, or with an error of its line and nothing else
(60_exceptions.md R192). -/
theorem Answer.result (answer : Answer i s (.next t)) (results : t.results = s.results ++ [r]) :
    r.status = .ok ∨ r.status ∈ errorsAt i s.seq.point ∧ r = ⟨r.status, 0#32, []⟩ ∧ t = s.finish r.status 0#32 [] := by
  cases answer with
  | goesOn steady => simp [steady.results] at results
  | returns steady =>
    obtain rfl : _ = r := by simpa [steady.results] using results
    exact .inl rfl
  | raises error =>
    obtain rfl : _ = r := by simpa using results
    exact .inr ⟨error, rfl, rfl⟩
  | faults early => simp at results

theorem Answer.status_mem (answer : Answer i s (.next t)) (results : t.results = s.results ++ [r]) :
    r.status ∈ statusesOf i := by
  rcases answer.result results with ok | ⟨error, -, -⟩
  · exact ok ▸ ok_mem_statusesOf i
  · exact errorsAt_subset i _ error

/-- At a line that the command has, a micro-step answers a next state. -/
theorem exec_answers_next (line : AtLine i s) : ∃ t, exec i s = .next t := by
  have answer := exec_answer i s
  generalize exec i s = res at answer ⊢
  cases answer with
  | stray later noLine => simp [(line.inside later).2] at noLine
  | _ => exact ⟨_, rfl⟩

/-! One turn of SEQ -/

theorem SeqMove.fault_eq (move : SeqMove s t) (clear : s.fault = none) (fault : t.fault = some f) :
    t = { s with fault := some f } ∧ (s.seq.point = .start ∨ s.seq.point = .init .clock) := by
  cases move with
  | resume i running runs => exact (runs ▸ exec_answer i s).fault_eq clear fault
  | begins c i idle fetched decoded runs => exact (runs ▸ exec_answer i s).fault_eq clear fault
  | undecoded c e idle fetched refused ends => simp [ends, clear] at fault
  | ended idle empty same => simp [same, clear] at fault

/-- A SEQ turn that appends an error ends the command with it and does nothing else, and the error is never BusyError
(60_exceptions.md R191, R192). -/
theorem SeqMove.error (move : SeqMove s t) (results : t.results = s.results ++ [r]) (error : r.status ≠ .ok) :
    r.status ≠ .busyError ∧ r = ⟨r.status, 0#32, []⟩ ∧ t = s.finish r.status 0#32 [] := by
  have ofAnswer (i : Instr) (runs : exec i s = .next t) :
      r.status ≠ .busyError ∧ r = ⟨r.status, 0#32, []⟩ ∧ t = s.finish r.status 0#32 [] := by
    have answer : Answer i s (.next t) := runs ▸ exec_answer i s
    obtain ⟨-, eq, ends⟩ := (answer.result results).resolve_left error
    exact ⟨fun busy => busyError_not_mem_statusesOf i (busy ▸ answer.status_mem results), eq, ends⟩
  cases move with
  | resume i running runs => exact ofAnswer i runs
  | begins c i idle fetched decoded runs => exact ofAnswer i runs
  | undecoded c e idle fetched refused ends =>
    subst ends
    obtain rfl : _ = r := by simpa using results
    exact ⟨by decide, rfl, rfl⟩
  | ended idle empty same => simp [same] at results

/-- A SEQ turn of a coherent block answers a next state: every command word decodes or ends with a decode error
(30_encoding.md R92). -/
theorem SeqCoherent.seqTurn_next (coherent : SeqCoherent s) : ∃ t, seqTurn s = .next t := by
  cases cmd : s.seq.cmd with
  | some i =>
    rw [seqTurn_running cmd]
    exact exec_answers_next (coherent.running cmd).2
  | none =>
    rw [seqTurn_between cmd]
    cases fetched : s.fetch with
    | none => exact ⟨_, startCommand_past_end fetched⟩
    | some c =>
      cases decoded : decode s.par c with
      | ok i =>
        rw [startCommand_of_decode fetched decoded]
        exact exec_answers_next (.inl (coherent.between cmd))
      | error e => exact ⟨_, startCommand_of_error fetched decoded⟩

/-! One step -/

/-- Only a SEQ turn enters a fault or appends a result. -/
theorem step_steady_or_seq (h : step s = .next t) :
    s.fault = none ∧ (Steady s t ∨ s.nextTurn = .seq ∧ SeqMove s.takeTurn t) := by
  have taken : Steady s s.takeTurn := ⟨by simp, by simp⟩
  cases step_cases h with
  | seq clear turn move => exact ⟨clear, .inr ⟨turn, move⟩⟩
  | osc clear a turn eq =>
    subst eq
    exact ⟨clear, .inl (taken.trans ⟨(oscStep_seqSide a _).results, oscStep_fault a _⟩)⟩
  | bus clear k a turn eq =>
    subst eq
    exact ⟨clear, .inl (taken.trans ⟨(busStep_seqSide k a _).results, busStep_fault k a _⟩)⟩

/-- A step that appends an error ends the command with it and does nothing else, and the error is never BusyError. -/
theorem step_error (h : step s = .next t) (results : t.results = s.results ++ [r]) (error : r.status ≠ .ok) :
    r.status ≠ .busyError ∧ r = ⟨r.status, 0#32, []⟩ ∧ t = s.takeTurn.finish r.status 0#32 [] := by
  rcases (step_steady_or_seq h).2 with steady | ⟨-, move⟩
  · simp [steady.results] at results
  · exact move.error (by simpa using results) error

/-- Settles O7: only a SEQ turn faults (`step_steady_or_seq`), and its micro-step faults at a line that writes nothing
(`Answer`). -/
theorem faultEntryWritesOnlyTheFault : Obligations.FaultEntryWritesOnlyTheFault := by
  refine ⟨fun s t f h fault => ?_, fun s f fault => step_of_fault fault⟩
  obtain ⟨clear, steady | ⟨turn, move⟩⟩ := step_steady_or_seq h
  · simp [steady.fault, clear] at fault
  · obtain ⟨eq, early⟩ := move.fault_eq (by simpa using clear) fault
    exact ⟨eq, turn, by simpa using early⟩

/-- Settles O37: an error ends the command by `State.finish` on the state before its micro-step. -/
theorem errorStatusChangesNothingElse : Obligations.ErrorStatusChangesNothingElse := by
  intro s t r h results error
  obtain ⟨-, eq, ends⟩ := step_error h results error
  refine ⟨by rw [eq], by rw [eq], ?_⟩
  rw [ends, ← s.takeTurn_results, ← s.takeTurn_cptr, eq]
  rfl

/-- A command that does not decode ends with DecodeError. -/
theorem status_of_undecoded {c : Command} {e : DecodeError} (cmd : s.seq.cmd = none) (turn : s.nextTurn = .seq)
    (fetched : s.fetch = some c) (refused : decode s.par c = .error e) (h : step s = .next t)
    (results : t.results = s.results ++ [r]) : r.status = .decodeError := by
  have clear : s.fault = none := (step_steady_or_seq h).1
  have fetched : s.takeTurn.fetch = some c := s.takeTurn_fetch.trans fetched
  have refused : decode s.takeTurn.par c = .error e := by rwa [s.takeTurn_par]
  rw [step_of_seq clear turn, seqTurn_between (by simpa using cmd), startCommand_of_error fetched refused] at h
  cases h
  obtain rfl : _ = r := by simpa using results
  rfl

/-- Settles O38: each micro-step raises an error of its line only (`Answer`, `errorsAt`). -/
theorem statusesByCommand : Obligations.StatusesByCommand := by
  refine ⟨fun i s t r h results => ?_, fun s t r h results => ?_,
    fun s t c e r cmd turn fetched refused => status_of_undecoded cmd turn fetched refused,
    fun k addr n s t r h results error => ?_, rfl⟩
  · exact (h ▸ exec_answer i s).status_mem results
  · by_cases ok : r.status = .ok
    · simp [ok]
    · exact (step_error h results ok).1
  · obtain ⟨raised, -, -⟩ := ((h ▸ exec_answer _ s).result results).resolve_left error
    exact mem_errorsAt_i2cRead raised

/-- Settles O53: a coherent SEQ turn answers a next state (`SeqCoherent.seqTurn_next`), and the other agents always do. -/
theorem coherentBlockNeverStops : Obligations.CoherentBlockNeverStops := by
  refine fun s coherent => ⟨fun clear => ?_, fun f fault => step_of_fault fault⟩
  rw [step_of_clear clear]
  cases s.nextTurn with
  | seq => exact ((SeqSide.takeTurn s).coherent coherent).seqTurn_next
  | osc a => exact ⟨_, rfl⟩
  | bus k a => exact ⟨_, rfl⟩

end Sys2Proof.Machine
end

section
/-! PROOF. The race of the restoring ACK write of `I2C_READ` with the bus agent of a FREE bus: the word that SEQ latched
before the bus agent cleared STOP is the word that it writes back (70_reset_and_hazards.md R223, 20_memory.md R62). -/

namespace Sys2Proof.Machine

open Sys2Proof.Claims

variable {s : State} {k : InstId} {i : Instr} {addr : BitVec 7} {n : BitVec 12} {x : Transfer} {l : List Config.Turn}

/-! Turns in the middle of a transfer -/

/-- The transfer of bus controller `k` that `s` is in the middle of. -/
def State.transfer (s : State) (k : InstId) : Transfer := ⟨s.seq, s.regs k, s.hidden k⟩

theorem State.within_transfer {p : Point} (k : InstId) (point : s.seq.point = p) (agenda : s.agenda = l) :
    s.within k ((s.transfer k).goto p) l = s := by
  subst point agenda
  exact (congrArg (fun u : State => { u with seq := s.seq, agenda := s.agenda })
    (setRegs_setHidden_self rfl (s.regs k))).trans (setRegs_self s k)

theorem step_within_seq (clear : s.fault = none) (cmd : x.seq.cmd = some i) :
    step (s.within k x (.seq :: l)) = exec i (s.within k x l) :=
  step_seq_running (s := s.within k x (.seq :: l)) clear rfl cmd

theorem step_within_bus (clear : s.fault = none) (a : Config.BusStep) :
    step (s.within k x (.bus k a :: l)) = .next (busStep k a (s.within k x l)) :=
  step_of_clear (s := s.within k x (.bus k a :: l)) clear

/-- A FREE step that the agent may take writes the registers and leaves the hidden state (43_bus_engine.md R171). -/
theorem busStep_any_within (free : s.par.env = .free) (exists_ : instExists s.par k = true)
    (clocked : s.clocked k = true) (released : s.heldInReset k = false) (sr1 sr2 : Word) (b : Byte)
    (clearStart clearStop : Bool) :
    busStep k (.any sr1 sr2 b clearStart clearStop) (s.within k x l) =
      s.within k (x.put (busRegsEffect (.any sr1 sr2 b clearStart clearStop) x.regs x.line)) l := by
  have allowed : busAllowed k (.any sr1 sr2 b clearStart clearStop) (s.within k x l) = true := by
    rw [busAllowed_eq (s := s.within k x l) exists_ clocked released, show (s.within k x l).par.env = .free from free]
    rfl
  rw [busStep_of_allowed allowed, State.within_regs, State.within_hidden, State.within_setRegs, State.within_setHidden]
  rfl

/-! The race -/

/-- The first micro-step of the restoring ACK write latches CR1. -/
theorem exec_i2cRead_latches (x : Transfer) :
    exec (.i2cRead k addr n) (s.within k (x.goto (.restoreAck .read)) l) =
      .next (s.within k (x.goto (.restoreAck (.write x.regs.cr1))) l) := by
  rw [exec_i2cRead_restoreAck rfl, ackWrite, cr1Write, State.within_regs]
  rfl

/-- The transfer once the bus agent has completed the stop, with the status words and the byte that it writes. -/
def Transfer.completeStop (x : Transfer) (sr1 sr2 : Word) (b : Byte) : Transfer :=
  x.put (busRegsEffect (.any sr1 sr2 b false true) x.regs x.line)

theorem Transfer.completeStop_stop (x : Transfer) (sr1 sr2 : Word) (b : Byte) :
    (x.completeStop sr1 sr2 b).regs.cr1.stop = false := Bool.and_false _

/-- Between the two micro-steps of the restoring ACK write: STOP is cleared in CR1, and SEQ still holds the word it
latched before. -/
theorem runs_stop_completes_in_restore (clear : s.fault = none) (cmd : x.seq.cmd = some (.i2cRead k addr n))
    (free : s.par.env = .free) (exists_ : instExists s.par k = true) (clocked : s.clocked k = true)
    (released : s.heldInReset k = false) (sr1 sr2 : Word) (b : Byte) :
    runs 2 (s.within k (x.goto (.restoreAck .read)) (.seq :: .bus k (.any sr1 sr2 b false true) :: l)) =
      .next (s.within k ((x.completeStop sr1 sr2 b).goto (.restoreAck (.write x.regs.cr1))) l) := by
  have latched := (step_within_seq (x := x.goto (.restoreAck .read)) (l := .bus k (.any sr1 sr2 b false true) :: l)
    clear cmd).trans (exec_i2cRead_latches x)
  have completed := step_within_bus (k := k) (x := x.goto (.restoreAck (.write x.regs.cr1))) (l := l) clear
    (.any sr1 sr2 b false true)
  rw [busStep_any_within free exists_ clocked released] at completed
  exact (runs_succ 1 latched).trans (runs_succ 0 completed)

/-- Settles O46: SEQ latches CR1, the bus agent clears STOP in the register, and SEQ writes the latched word back with
the saved ACK. -/
theorem restoreWritesStaleStopBack : Obligations.RestoreWritesStaleStopBack := by
  intro s k addr n sr1 sr2 b rest clear cmd point free exists_ clocked released stop agenda
  have here := State.within_transfer k point agenda
  have raced := runs_stop_completes_in_restore (x := s.transfer k) (l := .seq :: rest) clear cmd free exists_ clocked
    released sr1 sr2 b
  have restored := (runs_add 1 raced).trans (runs_succ 0 ((step_within_seq clear cmd).trans
    (exec_i2cRead_ends ((s.transfer k).completeStop sr1 sr2 b))))
  refine ⟨_, _, (congrArg (runs 2) here.symm).trans raced, ?_, (congrArg (runs 3) here.symm).trans restored, ?_, rfl⟩
  · rw [State.within_regs]
    exact Transfer.completeStop_stop _ sr1 sr2 b
  · rw [State.finish_regs, State.within_regs]
    exact stop

end Sys2Proof.Machine
end
